-- ==== Sys2Proof/Word.lean ====
section
/-! DEFINITION. The widths the manual gives its values. -/

namespace Sys2Proof

/-- A byte of memory or of sheet space. -/
abbrev Byte := BitVec 8

/-- A scalar register, an address, a system register (R15). -/
abbrev Word := BitVec 64

/-- A 32-bit lane (R15). -/
abbrev Lane := BitVec 32

/-- A vector register: 512 lanes, read as one 16,384-bit string (R149). -/
abbrev Vec := BitVec 16384

/-- A mask register, one bit a lane (R15). -/
abbrev Mask := BitVec 512

/-- A bundle (R26). -/
abbrev Bundle := BitVec 512

/-- The five flags of R87: INVALID, DIVZERO, OVERFLOW, UNDERFLOW, INEXACT from bit 4 down. -/
abbrev Flags := BitVec 5

end Sys2Proof
end

