-- ==== Sys2Proof/Machine/Flags.lean ====
section
/-! DEFINITION. Exact numbers, the floating-point and block formats, rounding, flags and conversions (R74 to R95). -/

namespace Sys2Proof.Machine

/-! ### Flags (R87, R88): INVALID, DIVZERO, OVERFLOW, UNDERFLOW, INEXACT -/

def fInvalid : Flags := 16
def fDivZero : Flags := 8
def fOverflow : Flags := 4
def fUnderflow : Flags := 2
def fInexact : Flags := 1
def fOverInexact : Flags := 5
def fUnderInexact : Flags := 3

/-! ### Exact values -/

/-- What a code decodes to (R76); `fin` is ±m·2^e with m not zero. -/
inductive Num where
  | nan
  | inf (neg : Bool)
  | zero (neg : Bool)
  | fin (neg : Bool) (m : Nat) (e : Int)
  deriving DecidableEq, Repr

/-- A floating-point layout (R75). `e4m3` has no infinities; `flush` says that FTZ acts on it (R86). -/
structure FloatFmt where
  eb : Nat
  fb : Nat
  bias : Int
  e4m3 : Bool
  flush : Bool
  deriving DecidableEq, Repr

def fp32 : FloatFmt := ⟨8, 23, 127, false, true⟩
def fp16 : FloatFmt := ⟨5, 10, 15, false, true⟩
def bf16 : FloatFmt := ⟨8, 7, 127, false, true⟩
def e4m3 : FloatFmt := ⟨4, 3, 7, true, false⟩
def e5m2 : FloatFmt := ⟨5, 2, 15, false, false⟩

def FloatFmt.width (f : FloatFmt) : Nat := 1 + f.eb + f.fb

/-- The FMT fields that arithmetic reads (R96). -/
structure FCtx where
  rm : Nat
  sat : Bool
  ftz : Bool
  split : Nat
  deriving DecidableEq, Repr

def fmtCtx (v : BitVec 32) : FCtx :=
  ⟨(v.extractLsb' 15 2).toNat, v.getLsbD 17, v.getLsbD 18, (v.extractLsb' 19 3).toNat⟩

def fmtA (v : BitVec 32) : Nat := (v.extractLsb' 0 5).toNat
def fmtB (v : BitVec 32) : Nat := (v.extractLsb' 5 5).toNat
def fmtOut (v : BitVec 32) : Nat := (v.extractLsb' 10 5).toNat

/-- RNE without saturation or flushing. -/
def plainCtx : FCtx := ⟨0, false, false, 0⟩

/-- R76. -/
def decodeFloat (f : FloatFmt) (x : Nat) : Num :=
  let frac := x % 2 ^ f.fb
  let ex := x / 2 ^ f.fb % 2 ^ f.eb
  let neg := x / 2 ^ (f.fb + f.eb) % 2 == 1
  if ex = 2 ^ f.eb - 1 && (!f.e4m3 || frac == 7) then
    if f.e4m3 || frac ≠ 0 then .nan else .inf neg
  else if ex = 0 then
    if frac = 0 then .zero neg else .fin neg frac (1 - f.bias - f.fb)
  else .fin neg (2 ^ f.fb + frac) ((ex : Int) - f.bias - f.fb)

/-- Exponent of a finite value: 2^log ≤ |v| < 2^(log+1). -/
def log2Of (m : Nat) (e : Int) : Int := (Nat.log2 m : Int) + e

def minNormalExp (f : FloatFmt) : Int := 1 - f.bias

/-- A subnormal operand is read as a zero under FTZ (R86). -/
def flushOperand (f : FloatFmt) (c : FCtx) (n : Num) : Num :=
  match n with
  | .fin neg m e => if c.ftz && f.flush && decide (log2Of m e < minNormalExp f) then .zero neg else n
  | x => x

def readFloat (f : FloatFmt) (c : FCtx) (x : Nat) : Num := flushOperand f c (decodeFloat f x)

def signBit (f : FloatFmt) (neg : Bool) : Nat := if neg then 2 ^ (f.fb + f.eb) else 0

def codeInf (f : FloatFmt) (neg : Bool) : Nat := signBit f neg + (2 ^ f.eb - 1) * 2 ^ f.fb

/-- The canonical NaN (R75). -/
def codeNan (f : FloatFmt) : Nat := if f.e4m3 then 0x7F else (2 ^ f.eb - 1) * 2 ^ f.fb + 2 ^ (f.fb - 1)

/-- INF of R84: the NaN code with the sign in E4M3. -/
def codeOverInf (f : FloatFmt) (neg : Bool) : Nat := if f.e4m3 then signBit f neg + 0x7F else codeInf f neg

def maxSig (f : FloatFmt) : Nat := if f.e4m3 then 14 else 2 ^ (f.fb + 1) - 1

def maxExp (f : FloatFmt) : Int := if f.e4m3 then 8 else f.bias

def codeMax (f : FloatFmt) (neg : Bool) : Nat :=
  signBit f neg + (if f.e4m3 then 0x7E else (2 ^ f.eb - 1) * 2 ^ f.fb - 1)

/-- R84. -/
def overflowResult (f : FloatFmt) (rm : Nat) (neg : Bool) : Nat :=
  match rm, neg with
  | 0, n => codeOverInf f n
  | 1, n => codeMax f n
  | 2, false => codeMax f false
  | 2, true => codeOverInf f true
  | _, false => codeOverInf f false
  | _, true => codeMax f true

/-- Whether a discarded remainder `rem` of 2^sh rounds the magnitude `q` up (R82). -/
def roundsUp (rm : Nat) (neg : Bool) (q rem sh : Nat) : Bool :=
  if rem = 0 then false
  else match rm with
    | 0 => decide (2 ^ sh < 2 * rem) || (2 * rem == 2 ^ sh && q % 2 == 1)
    | 1 => false
    | 2 => neg
    | _ => !neg

/-- m·2^e rounded to a multiple of 2^k, as that multiple; and whether it was not exact. -/
def roundTo (rm : Nat) (neg : Bool) (m : Nat) (e k : Int) : Nat × Bool :=
  if k ≤ e then (m * 2 ^ (e - k).toNat, false)
  else
    let sh := (k - e).toNat
    if Nat.log2 m + 3 < sh then (if roundsUp rm neg 0 1 2 then 1 else 0, true)
    else
      let q := m / 2 ^ sh
      let rem := m % 2 ^ sh
      (if roundsUp rm neg q rem sh then q + 1 else q, rem != 0)

/-- The code of ±r·2^k, where r has at most one bit more than a significand. -/
def encodeFinite (f : FloatFmt) (neg : Bool) (r : Nat) (k : Int) : Nat :=
  if r < 2 ^ f.fb then signBit f neg + r
  else
    let ex := (log2Of r k + f.bias).toNat
    let frac := if r < 2 ^ (f.fb + 1) then r - 2 ^ f.fb else 0
    signBit f neg + ex * 2 ^ f.fb + frac

/-- Round(v, f) (R83): the code and the flags. -/
def roundFloat (f : FloatFmt) (c : FCtx) (v : Num) : Nat × Flags :=
  match v with
  | .nan => (codeNan f, 0)
  | .inf neg =>
    if f.e4m3 then (if c.sat then codeMax f neg else codeOverInf f neg, fOverflow) else (codeInf f neg, 0)
  | .zero neg => (signBit f neg, 0)
  | .fin neg m e =>
    let tiny := decide (log2Of m e < minNormalExp f)
    if c.ftz && f.flush && tiny then (signBit f neg, fUnderInexact)
    else
      let k := max (log2Of m e - f.fb) (1 - f.bias - f.fb)
      let (r, inexact) := roundTo c.rm neg m e k
      let fl : Flags := if inexact then (if tiny then fUnderInexact else fInexact) else 0
      if r = 0 then (signBit f neg, fl)
      else if decide (maxExp f < log2Of r k) || (log2Of r k == maxExp f && k == maxExp f - f.fb && decide (maxSig f < r)) then
        (if c.sat then codeMax f neg else overflowResult f c.rm neg, fl ||| fOverInexact)
      else (encodeFinite f neg r k, fl)

/-! ### Exact arithmetic (R131, R132) -/

def Num.neg : Num → Num
  | .nan => .nan
  | .inf n => .inf !n
  | .zero n => .zero !n
  | .fin n m e => .fin (!n) m e

def Num.abs : Num → Num
  | .nan => .nan
  | .inf _ => .inf false
  | .zero _ => .zero false
  | .fin _ m e => .fin false m e

def Num.isNeg : Num → Bool
  | .nan => false
  | .inf n => n
  | .zero n => n
  | .fin n _ _ => n

/-- A finite value as a signed multiple of 2^e. -/
def mantAt (neg : Bool) (m : Nat) (e k : Int) : Int :=
  let x : Int := (m * 2 ^ (e - k).toNat : Nat)
  if neg then -x else x

def ofMant (x : Int) (k : Int) (zeroNeg : Bool) : Num :=
  if x = 0 then .zero zeroNeg else .fin (decide (x < 0)) x.natAbs k

/-- An exact zero sum: +0, but −0 under RDN or when every term is −0. DEDUCED: log entry 24. -/
def addNum (rm : Nat) (a b : Num) : Num × Flags :=
  match a, b with
  | .nan, _ => (.nan, 0)
  | _, .nan => (.nan, 0)
  | .inf x, .inf y => if x = y then (.inf x, 0) else (.nan, fInvalid)
  | .inf x, _ => (.inf x, 0)
  | _, .inf y => (.inf y, 0)
  | .zero x, .zero y => (.zero ((x && y) || rm == 2), 0)
  | .zero _, y => (y, 0)
  | x, .zero _ => (x, 0)
  | .fin x m e, .fin y n d =>
    let k := min e d
    (ofMant (mantAt x m e k + mantAt y n d k) k (rm == 2), 0)

def mulNum (a b : Num) : Num × Flags :=
  match a, b with
  | .nan, _ => (.nan, 0)
  | _, .nan => (.nan, 0)
  | .inf _, .zero _ => (.nan, fInvalid)
  | .zero _, .inf _ => (.nan, fInvalid)
  | .inf x, y => (.inf (x != y.isNeg), 0)
  | x, .inf y => (.inf (x.isNeg != y), 0)
  | .zero x, y => (.zero (x != y.isNeg), 0)
  | x, .zero y => (.zero (x.isNeg != y), 0)
  | .fin x m e, .fin y n d => (.fin (x != y) (m * n) (e + d), 0)

/-- The order of values: negative, zero or positive difference; −0 and +0 are equal. NaN is not compared. -/
def cmpNum (a b : Num) : Int :=
  let rank := fun (x : Num) => match x with
    | .inf true => (-1 : Int)
    | .inf false => 1
    | _ => 0
  let sgn := fun (x : Num) => match x with
    | .fin n _ _ => if n then (-1 : Int) else 1
    | .inf n => if n then -1 else 1
    | _ => 0
  if rank a ≠ rank b then rank a - rank b
  else if rank a ≠ 0 then 0
  else match a, b with
    | .fin x m e, .fin y n d =>
      let k := min e d
      mantAt x m e k - mantAt y n d k
    | _, _ => sgn a - sgn b

def Num.isNan : Num → Bool
  | .nan => true
  | _ => false

/-- `a` before `b` in the order with −0 below +0 (R132). -/
def lessNum (a b : Num) : Bool :=
  decide (cmpNum a b < 0) || (cmpNum a b == 0 && a.isNeg && !b.isNeg)

def numOfInt (x : Int) : Num := ofMant x 0 false

/-! ### Estimates (R134) -/

/-- The integer square root by bits: the largest r below 2^n, added to `acc`, whose square is at most x. -/
def sqrtBits (x : Nat) : Nat → Nat → Nat
  | 0, acc => acc
  | n + 1, acc =>
    let t := acc + 2 ^ n
    sqrtBits x n (if t * t ≤ x then t else acc)

/-- q plus a sticky half: rounds like the exact value where q has bits to spare. -/
def sticky (q : Nat) (exact : Bool) : Nat := if exact then 2 * q else 2 * q + 1

/-- 1/(m·2^e) as a value that rounds the same. -/
def recip (neg : Bool) (m : Nat) (e : Int) : Num :=
  let n := Nat.log2 m + 64
  .fin neg (sticky (2 ^ n / m) (2 ^ n % m == 0)) (-(n : Int) - e - 1)

/-- 1/√(m·2^e). -/
def recipSqrt (m : Nat) (e : Int) : Num :=
  let (m', e') := if e % 2 = 0 then (m, e) else (2 * m, e - 1)
  let n := 2 * (Nat.log2 m' + 32)
  let q := 2 ^ (2 * n) / m'
  let r := sqrtBits q (n + 1) 0
  .fin false (sticky r (r * r * m' == 2 ^ (2 * n))) (-(n : Int) - e' / 2 - 1)

/-- ⌊ln 2 · 2^320⌋, a mathematical constant. -/
def ln2Scaled : Nat :=
  1480553391661173448385607439722553250922680800745876974795605978609098082859138712941075737848984

/-- Σ y^j/j! at scale 2^320, every term rounded down; `j` runs up from the given value. -/
def expSeries (y : Nat) : Nat → Nat → Nat → Nat
  | 0, _, _ => 0
  | fuel + 1, j, term => term + expSeries y fuel (j + 1) (term * y / 2 ^ 320 / (j + 1))

/-- 2^(p/2^t) for 0 < p < 2^t, at scale 2^320 with an error far below 2^-200. -/
def exp2Frac (p t : Nat) : Nat := expSeries (p * ln2Scaled / 2 ^ t) 80 0 (2 ^ 320)

/-- 2^a. The exponent is held within ±10000, where every format over- or underflows alike. DEDUCED: log entry 23. -/
def exp2Num (neg : Bool) (m : Nat) (e : Int) : Num :=
  if 0 ≤ e then
    let big := if 20 < e then 10000 else min (m * 2 ^ e.toNat) 10000
    .fin false 1 (if neg then -(big : Int) else big)
  else if 400 < -e then
    -- too close to 1 to tell apart from it but for its side
    if neg then .fin false (2 ^ 400 - 1) (-400) else .fin false (2 ^ 400 + 1) (-400)
  else
    let t := (-e).toNat
    let p := m % 2 ^ t
    let whole : Int := (min (m / 2 ^ t) 10000 : Nat)
    if p = 0 then .fin false 1 (if neg then -whole else whole)
    else if neg then .fin false (sticky (exp2Frac (2 ^ t - p) t) false) (-whole - 1 - 320 - 1)
    else .fin false (sticky (exp2Frac p t) false) (whole - 320 - 1)

/-- Est(v, f): for FP32 a significand of 13 bits, ties to even, before Round. -/
def estFloat (f : FloatFmt) (c : FCtx) (v : Num) : Nat × Flags :=
  match v with
  | .fin neg m e =>
    if f = fp32 then
      let k := log2Of m e - 12
      let (r, inexact) := roundTo 0 neg m e k
      let (x, fl) := roundFloat f c (.fin neg r k)
      (x, if inexact then fl ||| fInexact else fl)
    else roundFloat f c v
  | x => roundFloat f c x

def rcpFloat (f : FloatFmt) (c : FCtx) (a : Num) : Nat × Flags :=
  match a with
  | .nan => (codeNan f, 0)
  | .zero n => (codeInf f n, fDivZero)
  | .inf n => (signBit f n, 0)
  | .fin n m e => estFloat f c (recip n m e)

def rsqFloat (f : FloatFmt) (c : FCtx) (a : Num) : Nat × Flags :=
  match a with
  | .nan => (codeNan f, 0)
  | .zero n => (codeInf f n, fDivZero)
  | .inf false => (0, 0)
  | .fin false m e => estFloat f c (recipSqrt m e)
  | _ => (codeNan f, fInvalid)

def exp2Float (f : FloatFmt) (c : FCtx) (a : Num) : Nat × Flags :=
  match a with
  | .nan => (codeNan f, 0)
  | .zero _ => roundFloat f c (.fin false 1 0)
  | .inf false => (codeInf f false, 0)
  | .inf true => (0, 0)
  | .fin n m e => estFloat f c (exp2Num n m e)

/-! ### Integers (R77, R90) -/

/-- An integer format: width and signedness. -/
structure IntFmt where
  w : Nat
  signed : Bool
  deriving DecidableEq, Repr

def IntFmt.lo (i : IntFmt) : Int := if i.signed then -(2 ^ (i.w - 1) : Nat) else 0
def IntFmt.hi (i : IntFmt) : Int := if i.signed then (2 ^ (i.w - 1) : Nat) - 1 else (2 ^ i.w : Nat) - 1

def intCode (i : IntFmt) (x : Int) : Nat := (x % (2 ^ i.w : Nat)).toNat

def intValue (i : IntFmt) (x : Nat) : Int :=
  if i.signed && decide (2 ^ (i.w - 1) ≤ x) then (x : Int) - (2 ^ i.w : Nat) else x

/-- R90, float to integer. -/
def floatToInt (i : IntFmt) (c : FCtx) (v : Num) : Nat × Flags :=
  match v with
  | .nan => (0, fInvalid)
  | .inf n => (intCode i (if n then i.lo else i.hi), fInvalid)
  | .zero _ => (0, 0)
  | .fin neg m e =>
    let (r, inexact) := roundTo c.rm neg m e 0
    let x : Int := if neg then -(r : Int) else r
    if x < i.lo then (intCode i i.lo, fInvalid)
    else if i.hi < x then (intCode i i.hi, fInvalid)
    else (intCode i x, if inexact then fInexact else 0)

/-- R90, integer to integer. -/
def intToInt (i : IntFmt) (c : FCtx) (x : Int) : Nat × Flags :=
  if x < i.lo || i.hi < x then
    (if c.sat then intCode i (if x < i.lo then i.lo else i.hi) else intCode i x, fOverflow)
  else (intCode i x, 0)

/-! ### Format codes (R74) -/

inductive Fmt where
  | flt (f : FloatFmt)
  | int (i : IntFmt)
  | blk (bx8 : Bool)
  | other
  deriving DecidableEq, Repr

def fmtOf : Nat → Fmt
  | 0 => .flt fp32
  | 1 => .flt fp16
  | 2 => .flt bf16
  | 3 => .flt e4m3
  | 4 => .flt e5m2
  | 5 => .blk true
  | 6 => .blk false
  | 7 => .int ⟨8, true⟩
  | 8 => .int ⟨8, false⟩
  | 9 => .int ⟨4, true⟩
  | _ => .other

def fmtWidth (c : Nat) : Nat :=
  match fmtOf c with
  | .flt f => f.width
  | .int i => i.w
  | .blk b => if b then 8 else 4
  | .other => 8

/-- Convert of one element between formats that have no block (R89). The value is a number, or an exact integer. -/
def convertNum (tgt : Nat) (c : FCtx) (v : Num) : Nat × Flags :=
  match fmtOf tgt with
  | .flt f => roundFloat f c v
  | .int i => floatToInt i c v
  | _ => (0, 0)

def convertInt (tgt : Nat) (c : FCtx) (x : Int) : Nat × Flags :=
  match fmtOf tgt with
  | .flt f => roundFloat f c (numOfInt x)
  | .int i => intToInt i c x
  | _ => (0, 0)

/-- XCVT of one element: Convert (R89, R90), but bits are copied between equal formats (R150). -/
def convertCode (frm tgt : Nat) (c : FCtx) (x : Nat) : Nat × Flags :=
  match fmtOf frm with
  | .flt f =>
    if frm = tgt then
      -- the bits are copied, but for a subnormal under FTZ (R150)
      match decodeFloat f x with
      | .fin neg m e =>
        if c.ftz && f.flush && decide (log2Of m e < minNormalExp f) then (signBit f neg, fUnderInexact) else (x, 0)
      | _ => (x, 0)
    else convertNum tgt c (readFloat f c x)
  | .int i => if frm = tgt then (x, 0) else convertInt tgt c (intValue i x)
  | _ => (x, 0)

/-! ### Blocks (R78 to R80) -/

def blkScale (bx8 : Bool) : Int := if bx8 then 132 else 128
def blkMax (bx8 : Bool) : Nat := if bx8 then 63 else 3

/-- A block element's value (R79). -/
def decodeBlk (bx8 : Bool) (expWord x : Nat) : Num :=
  let eh := expWord / 256 % 256
  let el := expWord % 256
  if eh = 255 || el = 255 then .nan
  else
    let mb := if bx8 then 6 else 2
    let mag := x % 2 ^ mb
    let neg := x / 2 ^ mb % 2 == 1
    let e := if x / 2 ^ (mb + 1) % 2 = 1 then eh else el
    if mag = 0 then .zero neg else .fin neg mag ((e : Int) - blkScale bx8)

/-- RNE(|x| / 2^k), and whether it is exact. -/
def rneQuot (m : Nat) (e k : Int) : Nat × Bool :=
  let (r, inexact) := roundTo 0 false m e k
  (r, !inexact)

/-- One element of BlockEncode, given the two exponents. -/
def encodeBlkElem (bx8 : Bool) (eh el : Nat) (v : Num) : Nat × Flags :=
  let c := blkScale bx8
  let mx := blkMax bx8
  let mb := if bx8 then 6 else 2
  let code := fun (sel neg : Bool) (mag : Nat) => mag + (if neg then 2 ^ mb else 0) + (if sel then 2 ^ (mb + 1) else 0)
  match v with
  | .nan => (0, 0)
  | .inf n => (code true n mx, fOverflow)
  | .zero n => (code false n 0, 0)
  | .fin n m e =>
    let (lo, loExact) := rneQuot m e ((el : Int) - c)
    if lo ≤ mx then
      (code false n lo, (if loExact then 0 else fInexact) ||| (if lo = 0 then fUnderflow else 0))
    else
      let (h0, hiExact) := rneQuot m e ((eh : Int) - c)
      let hi := min h0 mx
      (code true n hi,
        (if hiExact && decide (h0 ≤ mx) then 0 else fInexact) ||| (if hi = 0 then fUnderflow else 0))

/-- The value of the larger of two finite magnitudes. -/
def maxAbs (a : Option (Nat × Int)) (v : Num) : Option (Nat × Int) :=
  match v with
  | .fin _ m e =>
    match a with
    | some (n, d) => if 0 < cmpNum (.fin false m e) (.fin false n d) then some (m, e) else a
    | none => some (m, e)
  | _ => a

/-- BlockEncode (R80): the exponent word, the elements and the flags. -/
def encodeBlk (bx8 : Bool) (c : FCtx) (xs : List Num) : Nat × List Nat × Flags :=
  let nanBlk := (0xFFFF, xs.map fun _ => 0)
  let isInf := fun (v : Num) => match v with
    | .inf _ => true
    | _ => false
  if xs.any Num.isNan then (nanBlk.1, nanBlk.2, 0)
  else if xs.any isInf && !c.sat then (nanBlk.1, nanBlk.2, fOverflow)
  else
    let eh0 : Int :=
      match xs.foldl maxAbs none with
      | none => 0
      | some (m, e) =>
        let h := log2Of m e + 127
        if blkMax bx8 < (rneQuot m e (h - blkScale bx8)).1 then h + 1 else h
    if 254 < eh0 && !c.sat then (nanBlk.1, nanBlk.2, fOverInexact)
    else
      let fl0 : Flags := if 254 < eh0 then fOverInexact else 0
      let eh := (min eh0 254).toNat
      let el := eh - (c.split + 2)
      let es := xs.map (encodeBlkElem bx8 eh el)
      (eh * 256 + el, es.map Prod.fst, es.foldl (fun f x => f ||| x.2) fl0)

/-! ### Sums (R92, R93, R95) -/

/-- The running sum of a pass: finite part at 2^-600, signs of infinities seen, NaN, and whether all terms are −0. -/
structure Acc where
  mant : Int
  posInf : Bool
  negInf : Bool
  nan : Bool
  allNegZero : Bool
  invalid : Bool
  deriving DecidableEq, Repr

def Acc.start : Acc := ⟨0, false, false, false, true, false⟩

/-- Adds one exact term; exponents of products of every format lie above −600. -/
def Acc.add (a : Acc) (t : Num × Flags) : Acc :=
  let a := if t.2 = 0 then a else { a with invalid := true }
  match t.1 with
  | .nan => { a with nan := true, allNegZero := false }
  | .inf n => { a with posInf := a.posInf || !n, negInf := a.negInf || n, allNegZero := false }
  | .zero n => { a with allNegZero := a.allNegZero && n }
  | .fin n m e => { a with mant := a.mant + mantAt n m e (-600), allNegZero := false }

def Acc.total (a : Acc) (rm : Nat) : Num × Flags :=
  let fl : Flags := if a.invalid || (a.posInf && a.negInf) then fInvalid else 0
  if a.nan || (a.posInf && a.negInf) then (.nan, fl)
  else if a.posInf then (.inf false, fl)
  else if a.negInf then (.inf true, fl)
  else (ofMant a.mant (-600) (rm == 2 || a.allNegZero), fl)

/-- Delivers an integer sum into 32 bits (R93). -/
def deliverInt (c : FCtx) (x : Int) : Nat × Flags := intToInt ⟨32, true⟩ c x

/-- RedSum (R95): halves are paired until one element is left. -/
def redSum (f : FloatFmt) (c : FCtx) : Nat → List Nat → Nat × Flags
  | 0, l => (l.headD 0, 0)
  | n + 1, l =>
    if l.length ≤ 1 then (l.headD 0, 0)
    else
      let h := l.length / 2
      let rs := (l.take h).zipWith (fun a b =>
        let (v, f1) := addNum c.rm (readFloat f c a) (readFloat f c b)
        let (x, f2) := roundFloat f c v
        (x, f1 ||| f2)) (l.drop h)
      let (x, fl) := redSum f c n (rs.map Prod.fst)
      (x, rs.foldl (fun a r => a ||| r.2) fl)

end Sys2Proof.Machine
end

