-- ==== Sys2Proof/Syntax.lean ====
section
/-! DEFINITION. Syntax: every operation a bundle slot can hold and every event of the part, one constructor of
`Instr` for each row of the opcode table. Operand groups mirror the slot layouts of R102, R109, R119, R147, R165,
R171, R183, R262, R288 and R303; a bit that a form leaves reserved has no field here. -/

namespace Sys2Proof

/-- The nine slots of a bundle (R26), in the order of their bundle bits. -/
inductive Slot where
  | s | va | vb | p | g | m | x | c | k
  deriving DecidableEq, Repr

/-- The two vector units (R119). -/
inductive VUnit where
  | a | b
  deriving DecidableEq, Repr

/-- A scalar source (R31): a register, or a bypass latch. -/
inductive ScalarSrc where
  | reg (n : BitVec 6)
  | latch (n : BitVec 4)
  deriving DecidableEq, Repr

/-- What a vector source names (R32). -/
inductive VecBase where
  | reg (n : BitVec 9)
  | latch (n : BitVec 4)
  deriving DecidableEq, Repr

/-- A vector source: a register or latch, and the view code of R33. -/
structure VecSrc where
  base : VecBase
  view : BitVec 4
  deriving DecidableEq, Repr

/-- The integer element types of R62. -/
inductive ITy where
  | i32 | n32 | i16 | n16 | i8 | n8
  deriving DecidableEq, Repr

/-- The sized element types of R62. -/
inductive STy where
  | i32 | i16 | i8
  deriving DecidableEq, Repr

/-- The floating-point element types of R62. -/
inductive FTy where
  | f | h | bf
  deriving DecidableEq, Repr

/-- The one type of an untyped form (R62). -/
inductive UTy where
  | u
  deriving DecidableEq, Repr

/-! ### S slot (R102) -/

/-- Two scalar sources. -/
structure SRR where
  sd : BitVec 6
  nowb : Bool
  (sa sb : ScalarSrc)
  deriving DecidableEq, Repr

/-- A scalar source and a 32-bit immediate. -/
structure SRI where
  sd : BitVec 6
  nowb : Bool
  sa : ScalarSrc
  imm : BitVec 32
  deriving DecidableEq, Repr

/-- A scalar source and a shift count. -/
structure SSh where
  sd : BitVec 6
  nowb : Bool
  sa : ScalarSrc
  sh : BitVec 6
  deriving DecidableEq, Repr

/-- An immediate alone. -/
structure SLi where
  sd : BitVec 6
  nowb : Bool
  imm : BitVec 32
  deriving DecidableEq, Repr

/-- Two sources and the condition source of SEL. -/
structure SSel where
  sd : BitVec 6
  nowb : Bool
  (sa sb sc : ScalarSrc)
  deriving DecidableEq, Repr

/-- One scalar source. -/
structure SR where
  sd : BitVec 6
  nowb : Bool
  sa : ScalarSrc
  deriving DecidableEq, Repr

/-- EXTR (R106). -/
structure SExtr where
  sd : BitVec 6
  nowb : Bool
  sa : ScalarSrc
  sx : Bool
  len : BitVec 7
  pos : BitVec 6
  deriving DecidableEq, Repr

/-- INSR (R106). -/
structure SInsr where
  sd : BitVec 6
  nowb : Bool
  (sa sb : ScalarSrc)
  len : BitVec 7
  pos : BitVec 6
  deriving DecidableEq, Repr

/-- ADDR (R107). -/
structure SAddr where
  sd : BitVec 6
  nowb : Bool
  (sa sb : ScalarSrc)
  disp : BitVec 24
  sh : BitVec 3
  deriving DecidableEq, Repr

/-! ### K slot -/

/-- A label-relative transfer without operands (R109). -/
structure KBr where
  off : BitVec 28
  deriving DecidableEq, Repr

/-- A register-relative transfer (R109). -/
structure KBri where
  sa : BitVec 6
  off : BitVec 28
  deriving DecidableEq, Repr

/-- A two-register branch (R109). -/
structure KBcc where
  (sa sb : BitVec 6)
  off : BitVec 28
  deriving DecidableEq, Repr

/-- A one-register branch (R109). -/
structure KBz where
  sa : BitVec 6
  off : BitVec 28
  deriving DecidableEq, Repr

/-- LOOP (R113). -/
structure KLoop where
  sa : BitVec 6
  off : BitVec 28
  deriving DecidableEq, Repr

/-- LOOPI (R113). -/
structure KLoopi where
  count : BitVec 12
  off : BitVec 28
  deriving DecidableEq, Repr

/-- SETFMT (R97). -/
structure KSetfmt where
  reg : Bool
  sa : BitVec 6
  imm : BitVec 22
  deriving DecidableEq, Repr

/-- WAITK (R272). -/
structure KWaitk where
  kn : BitVec 4
  reg : Bool
  sa : BitVec 6
  imm : BitVec 16
  deriving DecidableEq, Repr

/-- TOKRD (R274). -/
structure KTokrd where
  kn : BitVec 4
  sd : BitVec 6
  deriving DecidableEq, Repr

/-- SYSRD and SYSWR (R341): the register field and the system-register number. -/
structure KSys where
  r : BitVec 6
  num : BitVec 12
  deriving DecidableEq, Repr

/-- TRAP and BRK (R330). -/
structure KImm where
  imm : BitVec 16
  deriving DecidableEq, Repr

/-- KARV and KWAIT (R230): `sync` is .REL or .ACQ. -/
structure KKet where
  sa : BitVec 6
  ket : BitVec 8
  sync : Bool
  deriving DecidableEq, Repr

/-- KPOLL (R230). -/
structure KPoll where
  sd : BitVec 6
  ket : BitVec 8
  mode : BitVec 2
  deriving DecidableEq, Repr

/-- KINIT (R230). -/
structure KInit where
  (sa sb : BitVec 6)
  ket : BitVec 8
  deriving DecidableEq, Repr

/-- GJOIN (R230). -/
structure KJoin where
  sd : BitVec 6
  ket : BitVec 6
  deriving DecidableEq, Repr

/-- GLEAVE (R230). -/
structure KLeave where
  ket : BitVec 6
  deriving DecidableEq, Repr

/-- FENCE (R217). -/
structure KFence where
  scope : BitVec 3
  kind : BitVec 2
  deriving DecidableEq, Repr

/-- ALIASF (R222). -/
structure KAliasf where
  (sa sb : BitVec 6)
  scope : BitVec 3
  deriving DecidableEq, Repr

/-- TLBINV (R360). -/
structure KTlbinv where
  (sa sb : BitVec 6)
  deriving DecidableEq, Repr

/-- RIBN (R374): `rem` is .REM. -/
structure KRibn where
  sd : BitVec 6
  rem : Bool
  deriving DecidableEq, Repr

/-- The task instructions (R377). -/
structure KTask where
  (sd x : BitVec 6)
  deriving DecidableEq, Repr

/-- YIELD (R380). -/
structure KYield where
  sel : Bool
  segno : BitVec 16
  deriving DecidableEq, Repr

/-! ### VA and VB (R119, R121) -/

/-- Two vector sources. -/
structure V2 (τ : Type) where
  u : VUnit
  ty : τ
  vd : BitVec 9
  nowb : Bool
  (a b : VecSrc)
  mask : BitVec 3
  deriving DecidableEq, Repr

/-- Three vector sources. -/
structure V3 (τ : Type) where
  u : VUnit
  ty : τ
  vd : BitVec 9
  nowb : Bool
  (a b c : VecSrc)
  mask : BitVec 3
  deriving DecidableEq, Repr

/-- One vector source. -/
structure V1 (τ : Type) where
  u : VUnit
  ty : τ
  vd : BitVec 9
  nowb : Bool
  a : VecSrc
  mask : BitVec 3
  deriving DecidableEq, Repr

/-- A compare: the destination is a mask, `any` is ANY of R130. -/
structure VC (τ : Type) where
  u : VUnit
  ty : τ
  any : Bool
  md : BitVec 3
  (a b : VecSrc)
  mask : BitVec 3
  deriving DecidableEq, Repr

/-- VDUP (R136). -/
structure VDup where
  u : VUnit
  ty : STy
  vd : BitVec 9
  nowb : Bool
  sa : BitVec 6
  mask : BitVec 3
  deriving DecidableEq, Repr

/-- VEXT (R138). -/
structure VExt where
  ty : ITy
  sd : BitVec 6
  a : VecSrc
  idx : BitVec 11
  deriving DecidableEq, Repr

/-- VINS (R137). -/
structure VIns where
  u : VUnit
  ty : STy
  vd : BitVec 9
  nowb : Bool
  sa : BitVec 6
  idx : BitVec 11
  deriving DecidableEq, Repr

/-- VSHL (R140). -/
structure VShl where
  u : VUnit
  ty : STy
  vd : BitVec 9
  nowb : Bool
  (a b : VecSrc)
  n : BitVec 11
  mask : BitVec 3
  deriving DecidableEq, Repr

/-- VROT (R140). -/
structure VRot where
  u : VUnit
  ty : STy
  vd : BitVec 9
  nowb : Bool
  a : VecSrc
  n : BitVec 11
  mask : BitVec 3
  deriving DecidableEq, Repr

/-- A reduction in VB (R141). -/
structure VRed where
  ty : FTy
  vd : BitVec 9
  nowb : Bool
  a : VecSrc
  mask : BitVec 3
  deriving DecidableEq, Repr

/-- A two-mask operation (R142). -/
structure VM2 where
  u : VUnit
  (md ma mb : BitVec 3)
  deriving DecidableEq, Repr

/-- MNOT (R142). -/
structure VM1 where
  u : VUnit
  (md ma : BitVec 3)
  deriving DecidableEq, Repr

/-- A mask to a scalar, in VA (R143). -/
structure VMS where
  sd : BitVec 6
  ma : BitVec 3
  deriving DecidableEq, Repr

/-! ### P slot (R165, R166) -/

/-- PLD. -/
structure PLd where
  sd : BitVec 6
  base : ScalarSrc
  land : BitVec 6
  size : BitVec 2
  ext : Bool
  off : BitVec 23
  deriving DecidableEq, Repr

/-- PST. -/
structure PSt where
  ss : BitVec 6
  base : ScalarSrc
  size : BitVec 2
  off : BitVec 23
  deriving DecidableEq, Repr

/-- PLDV. -/
structure PLdv where
  vd : BitVec 9
  base : ScalarSrc
  land : BitVec 6
  off : BitVec 23
  deriving DecidableEq, Repr

/-- PSTV. -/
structure PStv where
  vs : BitVec 9
  base : ScalarSrc
  mask : BitVec 3
  off : BitVec 23
  deriving DecidableEq, Repr

/-- PLDVS. -/
structure PLdvs where
  vd : BitVec 9
  base : ScalarSrc
  land : BitVec 6
  size : BitVec 2
  str : BitVec 6
  off : BitVec 23
  deriving DecidableEq, Repr

/-- PGTH. -/
structure PGth where
  vd : BitVec 9
  base : ScalarSrc
  land : BitVec 6
  idx : BitVec 9
  mask : BitVec 3
  off : BitVec 20
  deriving DecidableEq, Repr

/-- PSCT. -/
structure PSct where
  vs : BitVec 9
  base : ScalarSrc
  idx : BitVec 9
  mask : BitVec 3
  off : BitVec 20
  deriving DecidableEq, Repr

/-- PLDH with a scalar destination. -/
structure PLdh where
  sd : BitVec 6
  h : BitVec 6
  base : ScalarSrc
  land : BitVec 6
  size : BitVec 2
  ext : Bool
  off : BitVec 23
  deriving DecidableEq, Repr

/-- PLDH.V. -/
structure PLdhv where
  vd : BitVec 9
  h : BitVec 6
  base : ScalarSrc
  land : BitVec 6
  off : BitVec 23
  deriving DecidableEq, Repr

/-! ### G slot (R171, R243) -/

/-- GLD. -/
structure GLd where
  sd : BitVec 6
  base : ScalarSrc
  land : BitVec 6
  size : BitVec 2
  (ext acq : Bool)
  off : BitVec 14
  deriving DecidableEq, Repr

/-- GST. -/
structure GSt where
  ss : BitVec 6
  base : ScalarSrc
  size : BitVec 2
  rel : Bool
  off : BitVec 14
  deriving DecidableEq, Repr

/-- GLDV. -/
structure GLdv where
  vd : BitVec 9
  base : ScalarSrc
  land : BitVec 6
  off : BitVec 14
  deriving DecidableEq, Repr

/-- GSTV. -/
structure GStv where
  vs : BitVec 9
  base : ScalarSrc
  off : BitVec 14
  deriving DecidableEq, Repr

/-- GPF (R173). -/
structure GPf where
  base : ScalarSrc
  tgt : BitVec 2
  blk : Bool
  off : BitVec 14
  deriving DecidableEq, Repr

/-- An atomic other than ACAS (R243): land = 0 is the non-returning form, `wide` is 8 bytes. -/
structure GAtom where
  sd : BitVec 6
  base : ScalarSrc
  land : BitVec 6
  (wide ext ar : Bool)
  data : ScalarSrc
  deriving DecidableEq, Repr

/-- ACAS (R243). -/
structure GCas where
  sd : BitVec 6
  base : ScalarSrc
  land : BitVec 6
  (wide ext ar : Bool)
  (data cmp : ScalarSrc)
  deriving DecidableEq, Repr

/-! ### M slot (R262, R281, R288, R303) -/

/-- An operand of the press: a circular buffer or a feed offset (R262). -/
inductive PressSrc where
  | buf (q : BitVec 3)
  | feed (f : BitVec 4)
  deriving DecidableEq, Repr

/-- MMA. -/
structure MMma where
  zd : BitVec 4
  cell : BitVec 2
  (a b : PressSrc)
  n : BitVec 8
  kt : BitVec 4
  tk : Bool
  acc : Bool
  deriving DecidableEq, Repr

/-- MMAZ. -/
structure MMmaz where
  (zd zs : BitVec 4)
  b : PressSrc
  n : BitVec 8
  kt : BitVec 4
  tk : Bool
  acc : Bool
  deriving DecidableEq, Repr

/-- ACCZ. -/
structure MAccz where
  zd : BitVec 4
  kt : BitVec 4
  tk : Bool
  deriving DecidableEq, Repr

/-- ACCRD. -/
structure MAccrd where
  zs : BitVec 4
  vd : BitVec 9
  half : Bool
  cvt : BitVec 2
  deriving DecidableEq, Repr

/-- ACCWR. -/
structure MAccwr where
  zd : BitVec 4
  vs : BitVec 9
  half : Bool
  kt : BitVec 4
  tk : Bool
  deriving DecidableEq, Repr

/-- EPI. -/
structure MEpi where
  zs : BitVec 4
  (sa sb : BitVec 6)
  ti : Bool
  kt : BitVec 4
  tk : Bool
  deriving DecidableEq, Repr

/-- QCFG. -/
structure MQcfg where
  q : BitVec 3
  (sa sb : BitVec 6)
  deriving DecidableEq, Repr

/-- QPUT and QGET: a buffer and a vector register. -/
structure MQv where
  q : BitVec 3
  v : BitVec 9
  deriving DecidableEq, Repr

/-- QSTAT. -/
structure MQs where
  q : BitVec 3
  sd : BitVec 6
  deriving DecidableEq, Repr

/-- FEEDSET. -/
structure MFeed where
  f : BitVec 4
  (sa sb : BitVec 6)
  deriving DecidableEq, Repr

/-- SEWCFG. -/
structure MSewcfg where
  (sa sb sc sd : BitVec 6)
  deriving DecidableEq, Repr

/-- BONDSET (R281). -/
structure MBond where
  bn : BitVec 4
  reg : Bool
  sa : BitVec 6
  imm : BitVec 12
  deriving DecidableEq, Repr

/-- SEW: m and n are stored less one. -/
structure MSew where
  sa : BitVec 6
  (bl br : BitVec 4)
  (m n : BitVec 5)
  dir : Bool
  kt : BitVec 4
  tk : Bool
  deriving DecidableEq, Repr

/-- SEWRUN and SEWST: two registers and a token. -/
structure MSew2 where
  (sa sb : BitVec 6)
  kt : BitVec 4
  tk : Bool
  deriving DecidableEq, Repr

/-- SHCFG. -/
structure MShcfg where
  sh : BitVec 4
  sa : BitVec 6
  kt : BitVec 4
  tk : Bool
  deriving DecidableEq, Repr

/-- SINS. -/
structure MSins where
  sh : BitVec 4
  vs : BitVec 9
  sa : BitVec 6
  kt : BitVec 4
  tk : Bool
  deriving DecidableEq, Repr

/-- SAGE. -/
structure MSage where
  sh : BitVec 4
  kt : BitVec 4
  tk : Bool
  deriving DecidableEq, Repr

/-- SDEL. -/
structure MSdel where
  sh : BitVec 4
  sa : BitVec 6
  kt : BitVec 4
  tk : Bool
  deriving DecidableEq, Repr

/-- SSEL. -/
structure MSsel where
  sh : BitVec 4
  vs : BitVec 9
  h : BitVec 6
  kt : BitVec 4
  tk : Bool
  deriving DecidableEq, Repr

/-- SRDR. -/
structure MSrdr where
  sh : BitVec 4
  (sa sb : BitVec 6)
  kt : BitVec 4
  tk : Bool
  deriving DecidableEq, Repr

/-- SHSTAT: `new` is .NEW. -/
structure MShstat where
  sh : BitVec 4
  sd : BitVec 6
  new : Bool
  deriving DecidableEq, Repr

/-! ### X slot (R147) -/

/-- XCVT, XPACK and XUNPK (R150). -/
structure XCvt where
  vd : BitVec 9
  nowb : Bool
  vs : BitVec 9
  (src dst : BitVec 5)
  part : BitVec 3
  deriving DecidableEq, Repr

/-- XEXP (R153). -/
structure XExp where
  vd : BitVec 9
  nowb : Bool
  vs : BitVec 9
  (h sg : BitVec 6)
  fmt : BitVec 2
  part : BitVec 3
  deriving DecidableEq, Repr

/-- XTRN (R158). -/
structure XTrn where
  vd : BitVec 9
  nowb : Bool
  vs : BitVec 9
  esz : BitVec 2
  rlog : BitVec 4
  deriving DecidableEq, Repr

/-! ### C slot (R183, R202) -/

/-- COPY and COPY2. -/
structure CCopy where
  h : BitVec 6
  (sa sb sc st : BitVec 6)
  kt : BitVec 4
  tk : Bool
  (publ imp trapf : Bool)
  deriving DecidableEq, Repr

/-- COPYQ. -/
structure CCopyq where
  q : BitVec 3
  (sa sb sc st : BitVec 6)
  kt : BitVec 4
  tk : Bool
  imp : Bool
  deriving DecidableEq, Repr

/-- COPYH and COPYOUT. -/
structure CCopyh where
  h : BitVec 6
  (sa sb sc st : BitVec 6)
  kt : BitVec 4
  tk : Bool
  (imp trapf : Bool)
  deriving DecidableEq, Repr

/-- PUB and HREL. -/
structure CH where
  h : BitVec 6
  deriving DecidableEq, Repr

/-- HSTAT: `fa` is .FA. -/
structure CHstat where
  (sd h : BitVec 6)
  fa : Bool
  deriving DecidableEq, Repr

/-- HCFG. -/
structure CHcfg where
  (h sa sb sc : BitVec 6)
  deriving DecidableEq, Repr

/-- What CCANCEL names (R202). -/
inductive CancelWhat where
  | handle (h : BitVec 6)
  | buffer (q : BitVec 3)
  | all
  deriving DecidableEq, Repr

/-- CCANCEL. -/
structure CCancel where
  what : CancelWhat
  deriving DecidableEq, Repr

/-! ### Arguments of the events -/

/-- How a copy block's beat meets the part: whether cached translations serve it, and whether the guard tag
matched at the last consumer (R196, R198). -/
structure BlockOpt where
  useTlb : Bool
  guardOk : Bool
  deriving DecidableEq, Repr

/-- What reaches this package from a root port or from another package: a load, a store, an atomic (the operation as the
G slot numbers it), the arrivals and flips of kettle trees, and an endpoint's MSI or MSI-X (R215, R237, R390, R391). -/
inductive BusAccess where
  | load (addr : BitVec 64) (size : Nat)
  | store (addr : BitVec 64) (bytes : List (BitVec 8)) (rel : Bool)
  | atom (op : Nat) (ext : Bool) (rm : Nat) (addr : BitVec 64) (size : Nat) (data cmp : BitVec 64) (ar : Bool)
  | arrival (src dst : Nat) (of : List (Nat × Nat))
  | flip (src dst : Nat) (of : List (Nat × Nat))
  | msi (hart level identity : Nat)
  deriving DecidableEq, Repr

/-- The operation of a read-modify-write of an application core. -/
inductive AmoOp where
  | add | min | max | minu | maxu | and | or | xor | swap
  deriving DecidableEq, Repr

/-- An address of an application core: a device physical one, with whether the core maps the page as MS or uncached, or
a virtual one, through vsatp for a guest and satp otherwise, in S-mode or not (R352). -/
inductive CoreAddr where
  | phys (addr : Nat) (io : Bool)
  | virt (guest smode : Bool) (va : BitVec 64)
  deriving DecidableEq, Repr

/-- The translation registers of an application core (R352). -/
inductive CoreCsr where
  | satp | vsatp | hgatp
  deriving DecidableEq, Repr

/-- What an application core does (R223, R224, R246, R352, R392): accesses, the performing of a store that it holds, FENCE with
its predecessor and successor sets (I, O, R, W from bit 3 down), writes of the translation registers and of SUM, SFENCE.VMA,
taking an interrupt, and a read of the DTC (R20). `after` names the core's reads on whose results the address or the data
depend, by how many reads ago they were. -/
inductive CoreAccess where
  | load (addr : CoreAddr) (size : Nat) (after : List Nat)
  | store (addr : CoreAddr) (bytes : List (BitVec 8)) (held : Bool) (after : List Nat)
  | drain (k : Nat)
  | amo (op : AmoOp) (addr : CoreAddr) (size : Nat) (data : BitVec 64) (aq rl : Bool)
  | lr (addr : CoreAddr) (size : Nat) (aq : Bool)
  | sc (addr : CoreAddr) (size : Nat) (data : BitVec 64) (rl : Bool)
  | fetch (addr : CoreAddr) (size : Nat)
  | cboFlush (addr : CoreAddr)
  | cboInval (addr : CoreAddr)
  | fence (pred succ : BitVec 4)
  | csr (r : CoreCsr) (val : BitVec 64)
  | sum (guest on : Bool)
  | sfence (guest : Bool) (va : Option (BitVec 64)) (asid : Option (BitVec 16))
  | interrupt (identity : Nat)
  | dtc
  deriving DecidableEq, Repr

/-- A fault record that the spine looks at (R362): one that a device access waits on, or one that a trap handler of a run
has claimed. -/
inductive SvcRecord where
  | device (idx : Nat)
  | handler (run record : Nat)
  deriving DecidableEq, Repr

/-- Who writes a register page: an application core, or the management interface (R398, R418). -/
inductive RegAgent where
  | core (hart : Nat)
  | i3c
  deriving DecidableEq, Repr

/-- One constructor for each row of the opcode table: the slots' operations, and the events of the part. -/
inductive Instr where
  | nop (sl : Slot)
  | add (f : SRR)
  | sub (f : SRR)
  | addi (f : SRI)
  | mul (f : SRR)
  | mulh (f : SRR)
  | mulhn (f : SRR)
  | div (f : SRR)
  | divn (f : SRR)
  | rem (f : SRR)
  | remn (f : SRR)
  | and_ (f : SRR)
  | or_ (f : SRR)
  | xor_ (f : SRR)
  | andn (f : SRR)
  | andi (f : SRI)
  | ori (f : SRI)
  | xori (f : SRI)
  | sll (f : SRR)
  | srl (f : SRR)
  | sra (f : SRR)
  | slli (f : SSh)
  | srli (f : SSh)
  | srai (f : SSh)
  | rotr (f : SRR)
  | min (f : SRR)
  | max (f : SRR)
  | minn (f : SRR)
  | maxn (f : SRR)
  | slt (f : SRR)
  | sltn (f : SRR)
  | seq (f : SRR)
  | slti (f : SRI)
  | li (f : SLi)
  | lih (f : SRI)
  | sel (f : SSel)
  | clz (f : SR)
  | ctz (f : SR)
  | popc (f : SR)
  | bswap (f : SR)
  | extr (f : SExtr)
  | insr (f : SInsr)
  | addr (f : SAddr)
  | br (f : KBr)
  | bri (f : KBri)
  | call (f : KBr)
  | callInd (f : KBri)
  | ret
  | beq (f : KBcc)
  | bne (f : KBcc)
  | blt (f : KBcc)
  | bge (f : KBcc)
  | bltn (f : KBcc)
  | bgen (f : KBcc)
  | bz (f : KBz)
  | bnz (f : KBz)
  | loop (f : KLoop)
  | loopi (f : KLoopi)
  | setfmt (f : KSetfmt)
  | waitk (f : KWaitk)
  | tokrd (f : KTokrd)
  | sysrd (f : KSys)
  | syswr (f : KSys)
  | trap (f : KImm)
  | rte
  | brk (f : KImm)
  | karv (f : KKet)
  | kwait (f : KKet)
  | kpoll (f : KPoll)
  | kinit (f : KInit)
  | gjoin (f : KJoin)
  | gleave (f : KLeave)
  | fence (f : KFence)
  | drain
  | aliasf (f : KAliasf)
  | tlbinv (f : KTlbinv)
  | ribn (f : KRibn)
  | tget (f : KTask)
  | tspawn (f : KTask)
  | tawait (f : KTask)
  | tcancel (f : KTask)
  | exit_
  | yield (f : KYield)
  | vadd (f : V2 ITy)
  | vsub (f : V2 ITy)
  | vmul (f : V2 ITy)
  | vmulh (f : V2 ITy)
  | vmac (f : V3 ITy)
  | vadds (f : V2 ITy)
  | vsubs (f : V2 ITy)
  | vand (f : V2 UTy)
  | vor (f : V2 UTy)
  | vxor (f : V2 UTy)
  | vandn (f : V2 UTy)
  | vsll (f : V2 STy)
  | vsrl (f : V2 STy)
  | vsra (f : V2 STy)
  | vmin (f : V2 ITy)
  | vmax (f : V2 ITy)
  | vabs (f : V1 STy)
  | vcmpeq (f : VC STy)
  | vcmplt (f : VC ITy)
  | vcmple (f : VC ITy)
  | vfadd (f : V2 FTy)
  | vfsub (f : V2 FTy)
  | vfmul (f : V2 FTy)
  | vfma (f : V3 FTy)
  | vfmin (f : V2 FTy)
  | vfmax (f : V2 FTy)
  | vfabs (f : V1 FTy)
  | vfneg (f : V1 FTy)
  | vfcmpeq (f : VC FTy)
  | vfcmplt (f : VC FTy)
  | vfcmple (f : VC FTy)
  | vfrcp (f : V1 FTy)
  | vfrsq (f : V1 FTy)
  | vfexp2 (f : V1 FTy)
  | vi2f (f : V1 FTy)
  | vf2i (f : V1 FTy)
  | vmov (f : V1 UTy)
  | vdup (f : VDup)
  | vext (f : VExt)
  | vins (f : VIns)
  | vsel (f : V2 UTy)
  | vperm (f : V2 STy)
  | vshl (f : VShl)
  | vrot (f : VRot)
  | vradd (f : VRed)
  | vrmax (f : VRed)
  | vrmaxi (f : VRed)
  | mand (f : VM2)
  | mor (f : VM2)
  | mxor (f : VM2)
  | mnot (f : VM1)
  | mpopc (f : VMS)
  | mfirst (f : VMS)
  | vsign (f : V1 STy)
  | vpopc (f : V1 STy)
  | pld (f : PLd)
  | pst (f : PSt)
  | pldv (f : PLdv)
  | pstv (f : PStv)
  | pldvs (f : PLdvs)
  | pgth (f : PGth)
  | psct (f : PSct)
  | pldh (f : PLdh)
  | pldhV (f : PLdhv)
  | gld (f : GLd)
  | gst (f : GSt)
  | gldv (f : GLdv)
  | gstv (f : GStv)
  | gpf (f : GPf)
  | aadd (f : GAtom)
  | afadd (f : GAtom)
  | amin (f : GAtom)
  | amax (f : GAtom)
  | aand (f : GAtom)
  | aor (f : GAtom)
  | axor (f : GAtom)
  | aswp (f : GAtom)
  | acas (f : GCas)
  | ainc (f : GAtom)
  | mma (f : MMma)
  | mmaz (f : MMmaz)
  | accz (f : MAccz)
  | accrd (f : MAccrd)
  | accwr (f : MAccwr)
  | epi (f : MEpi)
  | qcfg (f : MQcfg)
  | qput (f : MQv)
  | qget (f : MQv)
  | qstat (f : MQs)
  | feedset (f : MFeed)
  | sewcfg (f : MSewcfg)
  | bondset (f : MBond)
  | sew (f : MSew)
  | sewrun (f : MSew2)
  | sewst (f : MSew2)
  | shcfg (f : MShcfg)
  | sins (f : MSins)
  | sage (f : MSage)
  | sdel (f : MSdel)
  | ssel (f : MSsel)
  | srdr (f : MSrdr)
  | shstat (f : MShstat)
  | xcvt (f : XCvt)
  | xpack (f : XCvt)
  | xunpk (f : XCvt)
  | xexp (f : XExp)
  | xtrn (f : XTrn)
  | copy (f : CCopy)
  | copy2 (f : CCopy)
  | copyq (f : CCopyq)
  | copyh (f : CCopyh)
  | copyout (f : CCopyh)
  | pub (f : CH)
  | hrel (f : CH)
  | hstat (f : CHstat)
  | hcfg (f : CHcfg)
  | ccancel (f : CCancel)
  | blockedBundleResume (g : Nat)
  | loadDataArrival (g id : Nat)
  | freezeLimitPark (q : Nat)
  | gsyncLineAssert (c : Nat)
  | selectorBundleLimit (q : Nat)
  | trapEntry (g : Nat)
  | sheetRefill (g sheet : Nat)
  | walkComplete (g id : Nat) (useTlb : Bool)
  | logEntryPerform (g id : Nat)
  | copyRelease (q id : Nat)
  | copyBlock (q id : Nat) (w : BlockOpt)
  | copyPerform (q id : Nat)
  | operationFire (g id : Nat)
  | pressPass (g id : Nat)
  | operationComplete (g id : Nat)
  | epiStage (g id : Nat)
  | epiSegmentStore (g id : Nat) (useTlb : Bool)
  | sewStepPass (g : Nat)
  | foldColumnRead (g : Nat) (useTlb : Bool)
  | sewstSegmentStore (g : Nat) (useTlb : Bool)
  | sewingOpComplete (g : Nat)
  | signatureOpComplete (g : Nat) (trapQ : Bool)
  | spillTransitComplete (q id : Nat)
  | kettleReleaseAck (c k g : Nat)
  | kettleUpwardArrival (id : Nat)
  | kettleFlip (c k : Nat)
  | preemptRequest (run c : Nat)
  | gangSwitch (run c : Nat)
  | gangRestore (run : Nat) (clusters : List Nat)
  | segmentLoad (g : Nat)
  | faultServiceResponse (r : SvcRecord)
  | packageReset (stage : Nat)
  | launchQueueConfigWrite (n : Nat) (val : BitVec 64)
  | launchTailWrite (n : Nat) (hart : Nat) (val : BitVec 64)
  | queueReset (n : Nat)
  | killGo (val : BitVec 64)
  | queueSwitch (n : Nat)
  | packetParse (n : Nat)
  | runReady (run : Nat)
  | runPlace (run : Nat)
  | runRetire (run : Nat)
  | invalQueueConfigWrite (val : BitVec 64)
  | invalTailWrite (hart : Nat) (val : BitVec 64)
  | invalCut
  | invalCompletion
  | keyEntryWrite (n word : Nat) (val : BitVec 64)
  | featuresGo (val : BitVec 64)
  | fwTrial (val : BitVec 64)
  | fwImageVerified (good : Bool) (version : BitVec 32)
  | fwCommit (val : BitVec 64)
  | commitWatchdogExpiry
  | spineMismatch (incomplete : List Nat)
  | recoveryEnd
  | powerGovernorEvaluate (power tj clock vcore : BitVec 16)
  | rootLinkUp (n : Nat)
  | rootLinkDown (n : Nat)
  | dmaRequest (port : Nat) (acc : BusAccess)
  | atsTranslationRequest (port : Nat) (va : BitVec 64) (write : Bool)
  | atsInvalidationCompletion (port cut : Nat)
  | headbandPortFailure (port : Nat) (lost : List Nat)
  | i3cEntdaa (addr : BitVec 7)
  | registerWrite (agent : RegAgent) (pa : Nat) (size : Nat) (val : BitVec 64)
  | dtcTick
  | refreshPeriodChange (period : BitVec 20)
  | headbandDomainFormed (domain : Nat)
  | headbandRequestArrival (pkg : Nat) (acc : BusAccess)
  | applicationCoreAccess (hart : Nat) (acc : CoreAccess)
  deriving DecidableEq, Repr

/-- What moves next: one event, or one issue cycle of a quire. `State.agenda` lists these. -/
inductive Choice where
  | event (i : Instr)
  | issue (q : Nat)
  deriving DecidableEq, Repr

end Sys2Proof
end

