-- ==== Sys2Proof/WellFormed.lean ====
section
/-! DEFINITION. Well-formedness: the operand checks of each form that do not depend on the state. Every check here
is one of R56, R106, R113, R121, R146, R159 (rows 1 to 5), R166, R171, R202, R217, R222, R230, R243, R262, R288, R303,
R341 or R380. Reserved bits have no field, so the decoder finds them by writing the form out again. -/

namespace Sys2Proof

/-- The latches a scalar source may name (R34). -/
def ScalarSrc.wf : ScalarSrc → Bool
  | .reg _ => true
  | .latch n => n == 0 || n == 1 || n == 6 || n == 7 || 12 ≤ n.toNat

/-- The latches a vector source may name (R34). -/
def VecSrc.wf (v : VecSrc) : Bool :=
  match v.base with
  | .reg _ => true
  | .latch n => n != 0 && n != 1

/-- Bits of an element of each type (R120). -/
def ITy.width : ITy → Nat
  | .i32 | .n32 => 32
  | .i16 | .n16 => 16
  | .i8 | .n8 => 8

def STy.width : STy → Nat
  | .i32 => 32
  | .i16 => 16
  | .i8 => 8

def FTy.width : FTy → Nat
  | .f => 32
  | .h | .bf => 16

/-- `nowb` demands a zero destination (R36). -/
def nowbOk {n : Nat} (nowb : Bool) (d : BitVec n) : Bool := !nowb || d == 0

/-- A token field without TK must be zero. -/
def tokOk (kt : BitVec 4) (tk : Bool) : Bool := tk || kt == 0

/-- The landing distances of G-slot loads (R41). -/
def gLandOk (l : BitVec 6) : Bool := 12 ≤ l.toNat

/-- The system registers SYSRD may name (R342). -/
def sysReadable (n : BitVec 12) : Bool :=
  n.toNat ≤ 0x01B && n != 0x00D && n != 0x017

/-- The system registers some level may write (R342). -/
def sysWritable (n : BitVec 12) : Bool :=
  sysReadable n && n != 0x007 && n != 0x00A && n != 0x00E && n != 0x00F && n != 0x015 && n != 0x016

/-- The element width of a format that has no block, if XCVT accepts the code (R149, R150). -/
def cvtWidth (c : BitVec 5) : Option Nat :=
  match c.toNat with
  | 0 => some 32
  | 1 | 2 => some 16
  | 3 | 4 | 7 | 8 => some 8
  | 9 => some 4
  | _ => none

/-- PART's limit ρ for an XCVT pair the form accepts (R150). -/
def cvtParts (src dst : BitVec 5) : Option Nat :=
  match cvtWidth src, cvtWidth dst with
  | some a, some b => some (max a b / min a b)
  | _, _ => none

/-- PART's limit for a float code and a block code (R152). -/
def packParts (flt blk : BitVec 5) : Option Nat :=
  match flt.toNat, blk.toNat with
  | 0, 5 => some 2
  | 0, 6 => some 4
  | 1, 5 | 2, 5 => some 1
  | 1, 6 | 2, 6 => some 2
  | _, _ => none

def partOk (limit : Option Nat) (part : BitVec 3) : Bool :=
  match limit with
  | some r => decide (part.toNat < r)
  | none => false

/-- The limit of XEXP's PART (R153). -/
def expParts (fmt : BitVec 2) : Nat := if fmt == 0 then 8 else 4

/-- The limit of XTRN's RLOG (R158). -/
def trnLimit (esz : BitVec 2) : Nat := 9 + esz.toNat

/-- The largest body offset a loop can name at all (R113); the exact bound depends on the bundle's index. -/
def loopOffOk (o : BitVec 28) : Bool := 1 ≤ o.toNat && o.toNat ≤ 4095

/-- Returning and non-returning atomics (R243). -/
def atomOk (sd : BitVec 6) (land : BitVec 6) : Bool :=
  (land == 0 && sd == 0) || 12 ≤ land.toNat

/-- MMA may not name one buffer twice (R263, R270). -/
def sameBuffer : PressSrc → PressSrc → Bool
  | .buf x, .buf y => x == y
  | _, _ => false

/-- The checks of a form that hold whatever the state is. -/
def Instr.wf : Instr → Bool
  | .nop _ => true
  | .add f => nowbOk f.nowb f.sd && f.sa.wf && f.sb.wf
  | .sub f => nowbOk f.nowb f.sd && f.sa.wf && f.sb.wf
  | .addi f => nowbOk f.nowb f.sd && f.sa.wf
  | .mul f => nowbOk f.nowb f.sd && f.sa.wf && f.sb.wf
  | .mulh f => nowbOk f.nowb f.sd && f.sa.wf && f.sb.wf
  | .mulhn f => nowbOk f.nowb f.sd && f.sa.wf && f.sb.wf
  | .div f => nowbOk f.nowb f.sd && f.sa.wf && f.sb.wf
  | .divn f => nowbOk f.nowb f.sd && f.sa.wf && f.sb.wf
  | .rem f => nowbOk f.nowb f.sd && f.sa.wf && f.sb.wf
  | .remn f => nowbOk f.nowb f.sd && f.sa.wf && f.sb.wf
  | .and_ f => nowbOk f.nowb f.sd && f.sa.wf && f.sb.wf
  | .or_ f => nowbOk f.nowb f.sd && f.sa.wf && f.sb.wf
  | .xor_ f => nowbOk f.nowb f.sd && f.sa.wf && f.sb.wf
  | .andn f => nowbOk f.nowb f.sd && f.sa.wf && f.sb.wf
  | .andi f => nowbOk f.nowb f.sd && f.sa.wf
  | .ori f => nowbOk f.nowb f.sd && f.sa.wf
  | .xori f => nowbOk f.nowb f.sd && f.sa.wf
  | .sll f => nowbOk f.nowb f.sd && f.sa.wf && f.sb.wf
  | .srl f => nowbOk f.nowb f.sd && f.sa.wf && f.sb.wf
  | .sra f => nowbOk f.nowb f.sd && f.sa.wf && f.sb.wf
  | .slli f => nowbOk f.nowb f.sd && f.sa.wf
  | .srli f => nowbOk f.nowb f.sd && f.sa.wf
  | .srai f => nowbOk f.nowb f.sd && f.sa.wf
  | .rotr f => nowbOk f.nowb f.sd && f.sa.wf && f.sb.wf
  | .min f => nowbOk f.nowb f.sd && f.sa.wf && f.sb.wf
  | .max f => nowbOk f.nowb f.sd && f.sa.wf && f.sb.wf
  | .minn f => nowbOk f.nowb f.sd && f.sa.wf && f.sb.wf
  | .maxn f => nowbOk f.nowb f.sd && f.sa.wf && f.sb.wf
  | .slt f => nowbOk f.nowb f.sd && f.sa.wf && f.sb.wf
  | .sltn f => nowbOk f.nowb f.sd && f.sa.wf && f.sb.wf
  | .seq f => nowbOk f.nowb f.sd && f.sa.wf && f.sb.wf
  | .slti f => nowbOk f.nowb f.sd && f.sa.wf
  | .li f => nowbOk f.nowb f.sd
  | .lih f => nowbOk f.nowb f.sd && f.sa.wf
  | .sel f => nowbOk f.nowb f.sd && f.sa.wf && f.sb.wf && f.sc.wf
  | .clz f => nowbOk f.nowb f.sd && f.sa.wf
  | .ctz f => nowbOk f.nowb f.sd && f.sa.wf
  | .popc f => nowbOk f.nowb f.sd && f.sa.wf
  | .bswap f => nowbOk f.nowb f.sd && f.sa.wf
  | .extr f => nowbOk f.nowb f.sd && f.sa.wf && decide (1 ≤ f.len.toNat) && decide (f.len.toNat ≤ 64) && decide (f.pos.toNat + f.len.toNat ≤ 64)
  | .insr f => nowbOk f.nowb f.sd && f.sa.wf && f.sb.wf && decide (1 ≤ f.len.toNat) && decide (f.len.toNat ≤ 64) && decide (f.pos.toNat + f.len.toNat ≤ 64)
  | .addr f => nowbOk f.nowb f.sd && f.sa.wf && f.sb.wf
  | .br _ => true
  | .bri _ => true
  | .call _ => true
  | .callInd _ => true
  | .ret => true
  | .beq _ => true
  | .bne _ => true
  | .blt _ => true
  | .bge _ => true
  | .bltn _ => true
  | .bgen _ => true
  | .bz _ => true
  | .bnz _ => true
  | .loop f => loopOffOk f.off
  | .loopi f => loopOffOk f.off
  | .setfmt f => if f.reg then f.imm == 0 else f.sa == 0
  | .waitk f => if f.reg then f.imm == 0 else f.sa == 0
  | .tokrd _ => true
  | .sysrd f => sysReadable f.num
  | .syswr f => sysWritable f.num
  | .trap _ => true
  | .rte => true
  | .brk _ => true
  | .karv _ => true
  | .kwait _ => true
  | .kpoll f => f.mode != 3
  | .kinit _ => true
  | .gjoin _ => true
  | .gleave _ => true
  | .fence f => decide (f.scope.toNat ≤ 5) && f.kind != 0
  | .drain => true
  | .aliasf f => decide (f.scope.toNat ≤ 5)
  | .tlbinv _ => true
  | .ribn _ => true
  | .tget _ => true
  | .tspawn _ => true
  | .tawait _ => true
  | .tcancel _ => true
  | .exit_ => true
  | .yield f => f.sel || f.segno == 0
  | .vadd f => nowbOk f.nowb f.vd && f.a.wf && f.b.wf
  | .vsub f => nowbOk f.nowb f.vd && f.a.wf && f.b.wf
  | .vmul f => nowbOk f.nowb f.vd && f.a.wf && f.b.wf
  | .vmulh f => nowbOk f.nowb f.vd && f.a.wf && f.b.wf
  | .vmac f => nowbOk f.nowb f.vd && f.a.wf && f.b.wf && f.c.wf
  | .vadds f => nowbOk f.nowb f.vd && f.a.wf && f.b.wf
  | .vsubs f => nowbOk f.nowb f.vd && f.a.wf && f.b.wf
  | .vand f => nowbOk f.nowb f.vd && f.a.wf && f.b.wf
  | .vor f => nowbOk f.nowb f.vd && f.a.wf && f.b.wf
  | .vxor f => nowbOk f.nowb f.vd && f.a.wf && f.b.wf
  | .vandn f => nowbOk f.nowb f.vd && f.a.wf && f.b.wf
  | .vsll f => nowbOk f.nowb f.vd && f.a.wf && f.b.wf
  | .vsrl f => nowbOk f.nowb f.vd && f.a.wf && f.b.wf
  | .vsra f => nowbOk f.nowb f.vd && f.a.wf && f.b.wf
  | .vmin f => nowbOk f.nowb f.vd && f.a.wf && f.b.wf
  | .vmax f => nowbOk f.nowb f.vd && f.a.wf && f.b.wf
  | .vabs f => nowbOk f.nowb f.vd && f.a.wf
  | .vcmpeq f => f.a.wf && f.b.wf && (!f.any || f.ty.width != 32)
  | .vcmplt f => f.a.wf && f.b.wf && (!f.any || f.ty.width != 32)
  | .vcmple f => f.a.wf && f.b.wf && (!f.any || f.ty.width != 32)
  | .vfadd f => nowbOk f.nowb f.vd && f.a.wf && f.b.wf
  | .vfsub f => nowbOk f.nowb f.vd && f.a.wf && f.b.wf
  | .vfmul f => nowbOk f.nowb f.vd && f.a.wf && f.b.wf
  | .vfma f => nowbOk f.nowb f.vd && f.a.wf && f.b.wf && f.c.wf
  | .vfmin f => nowbOk f.nowb f.vd && f.a.wf && f.b.wf
  | .vfmax f => nowbOk f.nowb f.vd && f.a.wf && f.b.wf
  | .vfabs f => nowbOk f.nowb f.vd && f.a.wf
  | .vfneg f => nowbOk f.nowb f.vd && f.a.wf
  | .vfcmpeq f => f.a.wf && f.b.wf && (!f.any || f.ty.width != 32)
  | .vfcmplt f => f.a.wf && f.b.wf && (!f.any || f.ty.width != 32)
  | .vfcmple f => f.a.wf && f.b.wf && (!f.any || f.ty.width != 32)
  | .vfrcp f => nowbOk f.nowb f.vd && f.a.wf
  | .vfrsq f => nowbOk f.nowb f.vd && f.a.wf
  | .vfexp2 f => nowbOk f.nowb f.vd && f.a.wf
  | .vi2f f => nowbOk f.nowb f.vd && f.a.wf
  | .vf2i f => nowbOk f.nowb f.vd && f.a.wf
  | .vmov f => nowbOk f.nowb f.vd && f.a.wf
  | .vdup f => nowbOk f.nowb f.vd
  | .vext f => f.a.wf && decide (f.idx.toNat * f.ty.width < 16384)
  | .vins f => nowbOk f.nowb f.vd && decide (f.idx.toNat * f.ty.width < 16384)
  | .vsel f => nowbOk f.nowb f.vd && f.a.wf && f.b.wf
  | .vperm f => nowbOk f.nowb f.vd && f.a.wf && f.b.wf
  | .vshl f => nowbOk f.nowb f.vd && f.a.wf && f.b.wf && decide (f.n.toNat * f.ty.width < 16384)
  | .vrot f => nowbOk f.nowb f.vd && f.a.wf && decide (f.n.toNat * f.ty.width < 16384)
  | .vradd f => nowbOk f.nowb f.vd && f.a.wf
  | .vrmax f => nowbOk f.nowb f.vd && f.a.wf
  | .vrmaxi f => nowbOk f.nowb f.vd && f.a.wf
  | .mand _ => true
  | .mor _ => true
  | .mxor _ => true
  | .mnot _ => true
  | .mpopc _ => true
  | .mfirst _ => true
  | .vsign f => nowbOk f.nowb f.vd && f.a.wf
  | .vpopc f => nowbOk f.nowb f.vd && f.a.wf
  | .pld f => f.base.wf && decide (5 ≤ f.land.toNat) && (!f.ext || f.size != 3)
  | .pst f => f.base.wf
  | .pldv f => f.base.wf && decide (5 ≤ f.land.toNat)
  | .pstv f => f.base.wf
  | .pldvs f => f.base.wf && decide (9 ≤ f.land.toNat) && f.size != 3
  | .pgth f => f.base.wf && decide (9 ≤ f.land.toNat)
  | .psct f => f.base.wf
  | .pldh f => f.base.wf && decide (5 ≤ f.land.toNat) && (!f.ext || f.size != 3)
  | .pldhV f => f.base.wf && decide (5 ≤ f.land.toNat)
  | .gld f => f.base.wf && gLandOk f.land && (!f.ext || f.size != 3)
  | .gst f => f.base.wf
  | .gldv f => f.base.wf && gLandOk f.land
  | .gstv f => f.base.wf
  | .gpf f => f.base.wf && f.tgt != 3
  | .aadd f => f.base.wf && f.data.wf && atomOk f.sd f.land && (!f.ext || f.land != 0)
  | .afadd f => f.base.wf && f.data.wf && atomOk f.sd f.land && !f.ext && !f.wide
  | .amin f => f.base.wf && f.data.wf && atomOk f.sd f.land
  | .amax f => f.base.wf && f.data.wf && atomOk f.sd f.land
  | .aand f => f.base.wf && f.data.wf && atomOk f.sd f.land && (!f.ext || f.land != 0)
  | .aor f => f.base.wf && f.data.wf && atomOk f.sd f.land && (!f.ext || f.land != 0)
  | .axor f => f.base.wf && f.data.wf && atomOk f.sd f.land && (!f.ext || f.land != 0)
  | .aswp f => f.base.wf && f.data.wf && atomOk f.sd f.land && (!f.ext || f.land != 0)
  | .acas f => f.base.wf && f.data.wf && atomOk f.sd f.land && f.cmp.wf && (!f.ext || f.land != 0)
  | .ainc f => f.base.wf && f.data.wf && atomOk f.sd f.land && (!f.ext || f.land != 0)
  | .mma f => tokOk f.kt f.tk && !sameBuffer f.a f.b
  | .mmaz f => tokOk f.kt f.tk
  | .accz f => tokOk f.kt f.tk
  | .accrd f => f.cvt != 3 && (f.cvt == 0 || !f.half)
  | .accwr f => tokOk f.kt f.tk
  | .epi f => tokOk f.kt f.tk
  | .qcfg _ => true
  | .qput _ => true
  | .qget _ => true
  | .qstat _ => true
  | .feedset _ => true
  | .sewcfg _ => true
  | .bondset f => if f.reg then f.imm == 0 else f.sa == 0
  | .sew f => tokOk f.kt f.tk
  | .sewrun f => tokOk f.kt f.tk
  | .sewst f => tokOk f.kt f.tk
  | .shcfg f => tokOk f.kt f.tk
  | .sins f => tokOk f.kt f.tk
  | .sage f => tokOk f.kt f.tk
  | .sdel f => tokOk f.kt f.tk
  | .ssel f => tokOk f.kt f.tk
  | .srdr f => tokOk f.kt f.tk
  | .shstat _ => true
  | .xcvt f => nowbOk f.nowb f.vd && partOk (cvtParts f.src f.dst) f.part
  | .xpack f => nowbOk f.nowb f.vd && partOk (packParts f.src f.dst) f.part
  | .xunpk f => nowbOk f.nowb f.vd && partOk (packParts f.dst f.src) f.part
  | .xexp f => nowbOk f.nowb f.vd && f.fmt != 3 && decide (f.part.toNat < expParts f.fmt)
  | .xtrn f => nowbOk f.nowb f.vd && f.esz != 3 && decide (f.rlog.toNat ≤ trnLimit f.esz)
  | .copy f => tokOk f.kt f.tk
  | .copy2 f => tokOk f.kt f.tk
  | .copyq f => tokOk f.kt f.tk
  | .copyh f => tokOk f.kt f.tk
  | .copyout f => tokOk f.kt f.tk
  | .pub _ => true
  | .hrel _ => true
  | .hstat _ => true
  | .hcfg _ => true
  | .ccancel _ => true
  | .blockedBundleResume _ => true
  | .loadDataArrival _ _ => true
  | .freezeLimitPark _ => true
  | .gsyncLineAssert _ => true
  | .selectorBundleLimit _ => true
  | .trapEntry _ => true
  | .sheetRefill _ _ => true
  | .walkComplete _ _ _ => true
  | .logEntryPerform _ _ => true
  | .copyRelease _ _ => true
  | .copyBlock _ _ _ => true
  | .copyPerform _ _ => true
  | .operationFire _ _ => true
  | .pressPass _ _ => true
  | .operationComplete _ _ => true
  | .epiStage _ _ => true
  | .epiSegmentStore _ _ _ => true
  | .sewStepPass _ => true
  | .foldColumnRead _ _ => true
  | .sewstSegmentStore _ _ => true
  | .sewingOpComplete _ => true
  | .signatureOpComplete _ _ => true
  | .spillTransitComplete _ _ => true
  | .kettleReleaseAck _ _ _ => true
  | .kettleUpwardArrival _ => true
  | .kettleFlip _ _ => true
  | .preemptRequest _ _ => true
  | .gangSwitch _ _ => true
  | .gangRestore _ _ => true
  | .segmentLoad _ => true
  | .packageReset _ => true
  | .launchQueueConfigWrite _ _ => true
  | .launchTailWrite _ _ _ => true
  | .queueReset _ => true
  | .killGo _ => true
  | .queueSwitch _ => true
  | .packetParse _ => true
  | .runReady _ => true
  | .runPlace _ => true
  | .runRetire _ => true
  | .invalQueueConfigWrite _ => true
  | .invalTailWrite _ _ => true
  | .invalCut => true
  | .invalCompletion => true
  | .keyEntryWrite _ _ _ => true
  | .featuresGo _ => true
  | .fwTrial _ => true
  | .fwImageVerified _ _ => true
  | .fwCommit _ => true
  | .commitWatchdogExpiry => true
  | .spineMismatch _ => true
  | .recoveryEnd => true
  | .powerGovernorEvaluate _ _ _ _ => true
  | .rootLinkUp _ => true
  | .rootLinkDown _ => true
  | .dmaRequest _ _ => true
  | .atsTranslationRequest _ _ _ => true
  | .atsInvalidationCompletion _ _ => true
  | .headbandPortFailure _ _ => true
  | .faultServiceResponse _ => true
  | .i3cEntdaa _ => true
  | .registerWrite _ _ _ _ => true
  | .dtcTick => true
  | .refreshPeriodChange _ => true
  | .headbandDomainFormed _ => true
  | .headbandRequestArrival _ _ => true
  | .applicationCoreAccess _ _ => true

end Sys2Proof
end

