-- ==== Sys2Proof/Decode.lean ====
section
/-! DEFINITION. Decoding and encoding of bundle slots (R26, R27, R31, R32, R57 to R63 and the field tables of each
chapter). The decoder reads a form's fields, then accepts the slot only if the form is well formed and writing it out
again gives the same bits: a reserved bit that is set is thus refused by name (R3, R56). -/

namespace Sys2Proof

/-- Why a slot or a header does not decode (R56, R99, R159). -/
inductive DecodeFault where
  | illegalBundle
  | illegalOp
  | illegalFmt
  | formatEmul
  deriving DecidableEq, Repr

/-- Bits `lo + n - 1 : lo` of a slot. -/
def bits (w : Word) (lo n : Nat) : BitVec n := w.extractLsb' lo n

def bit (w : Word) (lo : Nat) : Bool := w.getLsbD lo

/-! ### Operand fields -/

/-- R31. -/
def ScalarSrc.bits : ScalarSrc → BitVec 7
  | .reg n => 0#1 ++ n
  | .latch n => 1#1 ++ 0#2 ++ n

def ScalarSrc.ofBits (b : BitVec 7) : ScalarSrc :=
  if b.getLsbD 6 then .latch (b.extractLsb' 0 4) else .reg (b.extractLsb' 0 6)

def VecBase.bits : VecBase → BitVec 9
  | .reg n => n
  | .latch n => 0#5 ++ n

/-- R32. -/
def VecSrc.bits (v : VecSrc) : BitVec 14 :=
  match v.base with
  | .reg n => 0#1 ++ v.view ++ n
  | .latch n => 1#1 ++ v.view ++ 0#5 ++ n

def VecSrc.ofBits (b : BitVec 14) : VecSrc :=
  ⟨if b.getLsbD 13 then .latch (b.extractLsb' 0 4) else .reg (b.extractLsb' 0 9), b.extractLsb' 9 4⟩

/-- A select bit and four bits that name a buffer or a feed offset (R262). -/
def PressSrc.bits : PressSrc → BitVec 5
  | .buf q => 0#2 ++ q
  | .feed f => 1#1 ++ f

def PressSrc.ofBits (b : BitVec 5) : PressSrc :=
  if b.getLsbD 4 then .feed (b.extractLsb' 0 4) else .buf (b.extractLsb' 0 3)

/-- The object and flags fields of CCANCEL (R202). -/
def CancelWhat.bits : CancelWhat → BitVec 14
  | .handle h => 0#2 ++ h ++ 0#6
  | .buffer q => 0#5 ++ q ++ 1#6
  | .all => 2#14

def CancelWhat.ofBits (b : BitVec 14) : CancelWhat :=
  if b.getLsbD 1 then .all else if b.getLsbD 0 then .buffer (b.extractLsb' 6 3) else .handle (b.extractLsb' 6 6)

/-- The type codes of R62. -/
def ITy.code : ITy → BitVec 3
  | .i32 => 0
  | .n32 => 1
  | .i16 => 2
  | .n16 => 3
  | .i8 => 4
  | .n8 => 5

def STy.code : STy → BitVec 3
  | .i32 => 0
  | .i16 => 2
  | .i8 => 4

def FTy.code : FTy → BitVec 3
  | .f => 0
  | .h => 1
  | .bf => 2

def UTy.code : UTy → BitVec 3
  | .u => 0

def ITy.ofCode (c : BitVec 3) : Option ITy :=
  match c.toNat with
  | 0 => some .i32
  | 1 => some .n32
  | 2 => some .i16
  | 3 => some .n16
  | 4 => some .i8
  | 5 => some .n8
  | _ => none

def STy.ofCode (c : BitVec 3) : Option STy :=
  match c.toNat with
  | 0 => some .i32
  | 2 => some .i16
  | 4 => some .i8
  | _ => none

def FTy.ofCode (c : BitVec 3) : Option FTy :=
  match c.toNat with
  | 0 => some .f
  | 1 => some .h
  | 2 => some .bf
  | _ => none

def UTy.ofCode (c : BitVec 3) : Option UTy := if c == 0 then some .u else none

def VUnit.slot : VUnit → Slot
  | .a => .va
  | .b => .vb

/-! ### Each form's fields: written out under an opcode, and read back -/

def SRR.pack (op : BitVec 8) (f : SRR) : Word :=
  op ++ f.sd ++ BitVec.ofBool f.nowb ++ f.sa.bits ++ f.sb.bits ++ 0#3 ++ 0#32

def SRR.ofBits (w : Word) : SRR :=
  { sd := bits w 50 6, nowb := bit w 49, sa := .ofBits (bits w 42 7), sb := .ofBits (bits w 35 7) }

def SRI.pack (op : BitVec 8) (f : SRI) : Word :=
  op ++ f.sd ++ BitVec.ofBool f.nowb ++ f.sa.bits ++ 0#7 ++ 0#3 ++ f.imm

def SRI.ofBits (w : Word) : SRI :=
  { sd := bits w 50 6, nowb := bit w 49, sa := .ofBits (bits w 42 7), imm := bits w 0 32 }

def SSh.pack (op : BitVec 8) (f : SSh) : Word :=
  op ++ f.sd ++ BitVec.ofBool f.nowb ++ f.sa.bits ++ 0#7 ++ 0#3 ++ 0#26 ++ f.sh

def SSh.ofBits (w : Word) : SSh :=
  { sd := bits w 50 6, nowb := bit w 49, sa := .ofBits (bits w 42 7), sh := bits w 0 6 }

def SLi.pack (op : BitVec 8) (f : SLi) : Word :=
  op ++ f.sd ++ BitVec.ofBool f.nowb ++ 0#7 ++ 0#7 ++ 0#3 ++ f.imm

def SLi.ofBits (w : Word) : SLi :=
  { sd := bits w 50 6, nowb := bit w 49, imm := bits w 0 32 }

def SSel.pack (op : BitVec 8) (f : SSel) : Word :=
  op ++ f.sd ++ BitVec.ofBool f.nowb ++ f.sa.bits ++ f.sb.bits ++ 0#3 ++ 0#25 ++ f.sc.bits

def SSel.ofBits (w : Word) : SSel :=
  { sd := bits w 50 6, nowb := bit w 49, sa := .ofBits (bits w 42 7), sb := .ofBits (bits w 35 7), sc := .ofBits (bits w 0 7) }

def SR.pack (op : BitVec 8) (f : SR) : Word :=
  op ++ f.sd ++ BitVec.ofBool f.nowb ++ f.sa.bits ++ 0#7 ++ 0#3 ++ 0#32

def SR.ofBits (w : Word) : SR :=
  { sd := bits w 50 6, nowb := bit w 49, sa := .ofBits (bits w 42 7) }

def SExtr.pack (op : BitVec 8) (f : SExtr) : Word :=
  op ++ f.sd ++ BitVec.ofBool f.nowb ++ f.sa.bits ++ 0#7 ++ 0#3 ++ 0#15 ++ BitVec.ofBool f.sx ++ 0#1 ++ f.len ++ 0#2 ++ f.pos

def SExtr.ofBits (w : Word) : SExtr :=
  { sd := bits w 50 6, nowb := bit w 49, sa := .ofBits (bits w 42 7), sx := bit w 16, len := bits w 8 7, pos := bits w 0 6 }

def SInsr.pack (op : BitVec 8) (f : SInsr) : Word :=
  op ++ f.sd ++ BitVec.ofBool f.nowb ++ f.sa.bits ++ f.sb.bits ++ 0#3 ++ 0#17 ++ f.len ++ 0#2 ++ f.pos

def SInsr.ofBits (w : Word) : SInsr :=
  { sd := bits w 50 6, nowb := bit w 49, sa := .ofBits (bits w 42 7), sb := .ofBits (bits w 35 7), len := bits w 8 7, pos := bits w 0 6 }

def SAddr.pack (op : BitVec 8) (f : SAddr) : Word :=
  op ++ f.sd ++ BitVec.ofBool f.nowb ++ f.sa.bits ++ f.sb.bits ++ 0#3 ++ f.disp ++ 0#5 ++ f.sh

def SAddr.ofBits (w : Word) : SAddr :=
  { sd := bits w 50 6, nowb := bit w 49, sa := .ofBits (bits w 42 7), sb := .ofBits (bits w 35 7), disp := bits w 8 24, sh := bits w 0 3 }

def KBr.pack (op : BitVec 8) (f : KBr) : Word :=
  ((0#16 ++ (op ++ 0#6 ++ 0#6 ++ f.off : BitVec 48)) : BitVec 64)

def KBr.ofBits (w : Word) : KBr :=
  { off := bits w 0 28 }

def KBri.pack (op : BitVec 8) (sel : BitVec 6) (f : KBri) : Word :=
  ((0#16 ++ (op ++ f.sa ++ sel ++ f.off : BitVec 48)) : BitVec 64)

def KBri.ofBits (w : Word) : KBri :=
  { sa := bits w 34 6, off := bits w 0 28 }

def KBcc.pack (op : BitVec 8) (f : KBcc) : Word :=
  ((0#16 ++ (op ++ f.sa ++ f.sb ++ f.off : BitVec 48)) : BitVec 64)

def KBcc.ofBits (w : Word) : KBcc :=
  { sa := bits w 34 6, sb := bits w 28 6, off := bits w 0 28 }

def KBz.pack (op : BitVec 8) (f : KBz) : Word :=
  ((0#16 ++ (op ++ f.sa ++ 0#6 ++ f.off : BitVec 48)) : BitVec 64)

def KBz.ofBits (w : Word) : KBz :=
  { sa := bits w 34 6, off := bits w 0 28 }

def KLoop.pack (op : BitVec 8) (f : KLoop) : Word :=
  ((0#16 ++ (op ++ f.sa ++ 0#6 ++ f.off : BitVec 48)) : BitVec 64)

def KLoop.ofBits (w : Word) : KLoop :=
  { sa := bits w 34 6, off := bits w 0 28 }

def KLoopi.pack (op : BitVec 8) (f : KLoopi) : Word :=
  ((0#16 ++ (op ++ f.count ++ f.off : BitVec 48)) : BitVec 64)

def KLoopi.ofBits (w : Word) : KLoopi :=
  { count := bits w 28 12, off := bits w 0 28 }

def KSetfmt.pack (op : BitVec 8) (f : KSetfmt) : Word :=
  ((0#16 ++ (op ++ f.sa ++ BitVec.ofBool f.reg ++ 0#11 ++ f.imm : BitVec 48)) : BitVec 64)

def KSetfmt.ofBits (w : Word) : KSetfmt :=
  { sa := bits w 34 6, reg := bit w 33, imm := bits w 0 22 }

def KWaitk.pack (op : BitVec 8) (f : KWaitk) : Word :=
  ((0#16 ++ (op ++ f.kn ++ BitVec.ofBool f.reg ++ f.sa ++ 0#13 ++ f.imm : BitVec 48)) : BitVec 64)

def KWaitk.ofBits (w : Word) : KWaitk :=
  { kn := bits w 36 4, reg := bit w 35, sa := bits w 29 6, imm := bits w 0 16 }

def KTokrd.pack (op : BitVec 8) (f : KTokrd) : Word :=
  ((0#16 ++ (op ++ f.kn ++ f.sd ++ 0#30 : BitVec 48)) : BitVec 64)

def KTokrd.ofBits (w : Word) : KTokrd :=
  { kn := bits w 36 4, sd := bits w 30 6 }

def KSys.pack (op : BitVec 8) (f : KSys) : Word :=
  ((0#16 ++ (op ++ f.r ++ 0#22 ++ f.num : BitVec 48)) : BitVec 64)

def KSys.ofBits (w : Word) : KSys :=
  { r := bits w 34 6, num := bits w 0 12 }

def KImm.pack (op : BitVec 8) (f : KImm) : Word :=
  ((0#16 ++ (op ++ 0#24 ++ f.imm : BitVec 48)) : BitVec 64)

def KImm.ofBits (w : Word) : KImm :=
  { imm := bits w 0 16 }

def KKet.pack (op : BitVec 8) (f : KKet) : Word :=
  ((0#16 ++ (op ++ f.sa ++ 0#6 ++ f.ket ++ 0#1 ++ BitVec.ofBool f.sync ++ 0#18 : BitVec 48)) : BitVec 64)

def KKet.ofBits (w : Word) : KKet :=
  { sa := bits w 34 6, ket := bits w 20 8, sync := bit w 18 }

def KPoll.pack (op : BitVec 8) (f : KPoll) : Word :=
  ((0#16 ++ (op ++ f.sd ++ 0#6 ++ f.ket ++ f.mode ++ 0#18 : BitVec 48)) : BitVec 64)

def KPoll.ofBits (w : Word) : KPoll :=
  { sd := bits w 34 6, ket := bits w 20 8, mode := bits w 18 2 }

def KInit.pack (op : BitVec 8) (f : KInit) : Word :=
  ((0#16 ++ (op ++ f.sa ++ f.sb ++ f.ket ++ 0#2 ++ 0#18 : BitVec 48)) : BitVec 64)

def KInit.ofBits (w : Word) : KInit :=
  { sa := bits w 34 6, sb := bits w 28 6, ket := bits w 20 8 }

def KJoin.pack (op : BitVec 8) (f : KJoin) : Word :=
  ((0#16 ++ (op ++ f.sd ++ 0#6 ++ 0#2 ++ f.ket ++ 0#2 ++ 0#18 : BitVec 48)) : BitVec 64)

def KJoin.ofBits (w : Word) : KJoin :=
  { sd := bits w 34 6, ket := bits w 20 6 }

def KLeave.pack (op : BitVec 8) (f : KLeave) : Word :=
  ((0#16 ++ (op ++ 0#6 ++ 0#6 ++ 0#2 ++ f.ket ++ 0#2 ++ 0#18 : BitVec 48)) : BitVec 64)

def KLeave.ofBits (w : Word) : KLeave :=
  { ket := bits w 20 6 }

def KFence.pack (op : BitVec 8) (f : KFence) : Word :=
  ((0#16 ++ (op ++ f.scope ++ f.kind ++ 0#35 : BitVec 48)) : BitVec 64)

def KFence.ofBits (w : Word) : KFence :=
  { scope := bits w 37 3, kind := bits w 35 2 }

def KAliasf.pack (op : BitVec 8) (f : KAliasf) : Word :=
  ((0#16 ++ (op ++ f.sa ++ f.sb ++ f.scope ++ 0#25 : BitVec 48)) : BitVec 64)

def KAliasf.ofBits (w : Word) : KAliasf :=
  { sa := bits w 34 6, sb := bits w 28 6, scope := bits w 25 3 }

def KTlbinv.pack (op : BitVec 8) (f : KTlbinv) : Word :=
  ((0#16 ++ (op ++ f.sa ++ f.sb ++ 0#28 : BitVec 48)) : BitVec 64)

def KTlbinv.ofBits (w : Word) : KTlbinv :=
  { sa := bits w 34 6, sb := bits w 28 6 }

def KRibn.pack (op : BitVec 8) (f : KRibn) : Word :=
  ((0#16 ++ (op ++ f.sd ++ 0#1 ++ BitVec.ofBool f.rem ++ 0#32 : BitVec 48)) : BitVec 64)

def KRibn.ofBits (w : Word) : KRibn :=
  { sd := bits w 34 6, rem := bit w 32 }

def KTask.pack (op : BitVec 8) (f : KTask) : Word :=
  ((0#16 ++ (op ++ f.sd ++ f.x ++ 0#28 : BitVec 48)) : BitVec 64)

def KTask.ofBits (w : Word) : KTask :=
  { sd := bits w 34 6, x := bits w 28 6 }

def KYield.pack (op : BitVec 8) (f : KYield) : Word :=
  ((0#16 ++ (op ++ BitVec.ofBool f.sel ++ 0#23 ++ f.segno : BitVec 48)) : BitVec 64)

def KYield.ofBits (w : Word) : KYield :=
  { sel := bit w 39, segno := bits w 0 16 }

def V2.pack {τ : Type} (op : BitVec 9) (f : V2 τ) : Word :=
  op ++ f.vd ++ BitVec.ofBool f.nowb ++ f.a.bits ++ f.b.bits ++ 0#14 ++ f.mask

def V2.ofBits {τ : Type} (u : VUnit) (ty : τ) (w : Word) : V2 τ :=
  { u := u, ty := ty, vd := bits w 46 9, nowb := bit w 45, a := .ofBits (bits w 31 14), b := .ofBits (bits w 17 14), mask := bits w 0 3 }

def V3.pack {τ : Type} (op : BitVec 9) (f : V3 τ) : Word :=
  op ++ f.vd ++ BitVec.ofBool f.nowb ++ f.a.bits ++ f.b.bits ++ f.c.bits ++ f.mask

def V3.ofBits {τ : Type} (u : VUnit) (ty : τ) (w : Word) : V3 τ :=
  { u := u, ty := ty, vd := bits w 46 9, nowb := bit w 45, a := .ofBits (bits w 31 14), b := .ofBits (bits w 17 14), c := .ofBits (bits w 3 14), mask := bits w 0 3 }

def V1.pack {τ : Type} (op : BitVec 9) (f : V1 τ) : Word :=
  op ++ f.vd ++ BitVec.ofBool f.nowb ++ f.a.bits ++ 0#14 ++ 0#14 ++ f.mask

def V1.ofBits {τ : Type} (u : VUnit) (ty : τ) (w : Word) : V1 τ :=
  { u := u, ty := ty, vd := bits w 46 9, nowb := bit w 45, a := .ofBits (bits w 31 14), mask := bits w 0 3 }

def VC.pack {τ : Type} (op : BitVec 9) (f : VC τ) : Word :=
  op ++ 0#5 ++ BitVec.ofBool f.any ++ f.md ++ 0#1 ++ f.a.bits ++ f.b.bits ++ 0#14 ++ f.mask

def VC.ofBits {τ : Type} (u : VUnit) (ty : τ) (w : Word) : VC τ :=
  { u := u, ty := ty, any := bit w 49, md := bits w 46 3, a := .ofBits (bits w 31 14), b := .ofBits (bits w 17 14), mask := bits w 0 3 }

def VDup.pack (op : BitVec 9) (f : VDup) : Word :=
  op ++ f.vd ++ BitVec.ofBool f.nowb ++ 0#8 ++ f.sa ++ 0#14 ++ 0#14 ++ f.mask

def VDup.ofBits (u : VUnit) (ty : STy) (w : Word) : VDup :=
  { u := u, ty := ty, vd := bits w 46 9, nowb := bit w 45, sa := bits w 31 6, mask := bits w 0 3 }

def VExt.pack (op : BitVec 9) (f : VExt) : Word :=
  op ++ 0#3 ++ f.sd ++ 0#1 ++ f.a.bits ++ 0#3 ++ f.idx ++ 0#14 ++ 0#3

def VExt.ofBits (ty : ITy) (w : Word) : VExt :=
  { ty := ty, sd := bits w 46 6, a := .ofBits (bits w 31 14), idx := bits w 17 11 }

def VIns.pack (op : BitVec 9) (f : VIns) : Word :=
  op ++ f.vd ++ BitVec.ofBool f.nowb ++ 0#8 ++ f.sa ++ 0#3 ++ f.idx ++ 0#14 ++ 0#3

def VIns.ofBits (u : VUnit) (ty : STy) (w : Word) : VIns :=
  { u := u, ty := ty, vd := bits w 46 9, nowb := bit w 45, sa := bits w 31 6, idx := bits w 17 11 }

def VShl.pack (op : BitVec 9) (f : VShl) : Word :=
  op ++ f.vd ++ BitVec.ofBool f.nowb ++ f.a.bits ++ f.b.bits ++ 0#3 ++ f.n ++ f.mask

def VShl.ofBits (u : VUnit) (ty : STy) (w : Word) : VShl :=
  { u := u, ty := ty, vd := bits w 46 9, nowb := bit w 45, a := .ofBits (bits w 31 14), b := .ofBits (bits w 17 14), n := bits w 3 11, mask := bits w 0 3 }

def VRot.pack (op : BitVec 9) (f : VRot) : Word :=
  op ++ f.vd ++ BitVec.ofBool f.nowb ++ f.a.bits ++ 0#14 ++ 0#3 ++ f.n ++ f.mask

def VRot.ofBits (u : VUnit) (ty : STy) (w : Word) : VRot :=
  { u := u, ty := ty, vd := bits w 46 9, nowb := bit w 45, a := .ofBits (bits w 31 14), n := bits w 3 11, mask := bits w 0 3 }

def VRed.pack (op : BitVec 9) (f : VRed) : Word :=
  op ++ f.vd ++ BitVec.ofBool f.nowb ++ f.a.bits ++ 0#14 ++ 0#14 ++ f.mask

def VRed.ofBits (ty : FTy) (w : Word) : VRed :=
  { ty := ty, vd := bits w 46 9, nowb := bit w 45, a := .ofBits (bits w 31 14), mask := bits w 0 3 }

def VM2.pack (op : BitVec 9) (f : VM2) : Word :=
  op ++ 0#6 ++ f.md ++ 0#1 ++ 0#11 ++ f.ma ++ 0#11 ++ f.mb ++ 0#14 ++ 0#3

def VM2.ofBits (u : VUnit) (w : Word) : VM2 :=
  { u := u, md := bits w 46 3, ma := bits w 31 3, mb := bits w 17 3 }

def VM1.pack (op : BitVec 9) (f : VM1) : Word :=
  op ++ 0#6 ++ f.md ++ 0#1 ++ 0#11 ++ f.ma ++ 0#14 ++ 0#14 ++ 0#3

def VM1.ofBits (u : VUnit) (w : Word) : VM1 :=
  { u := u, md := bits w 46 3, ma := bits w 31 3 }

def VMS.pack (op : BitVec 9) (f : VMS) : Word :=
  op ++ 0#3 ++ f.sd ++ 0#1 ++ 0#11 ++ f.ma ++ 0#14 ++ 0#14 ++ 0#3

def VMS.ofBits (w : Word) : VMS :=
  { sd := bits w 46 6, ma := bits w 31 3 }

def PLd.pack (op : BitVec 7) (f : PLd) : Word :=
  op ++ 0#3 ++ f.sd ++ f.base.bits ++ f.land ++ f.size ++ BitVec.ofBool f.ext ++ 0#9 ++ f.off

def PLd.ofBits (w : Word) : PLd :=
  { sd := bits w 48 6, base := .ofBits (bits w 41 7), land := bits w 35 6, size := bits w 33 2, ext := bit w 32, off := bits w 0 23 }

def PSt.pack (op : BitVec 7) (f : PSt) : Word :=
  op ++ 0#3 ++ f.ss ++ f.base.bits ++ 0#6 ++ f.size ++ 0#1 ++ 0#9 ++ f.off

def PSt.ofBits (w : Word) : PSt :=
  { ss := bits w 48 6, base := .ofBits (bits w 41 7), size := bits w 33 2, off := bits w 0 23 }

def PLdv.pack (op : BitVec 7) (f : PLdv) : Word :=
  op ++ f.vd ++ f.base.bits ++ f.land ++ 0#2 ++ 0#1 ++ 0#9 ++ f.off

def PLdv.ofBits (w : Word) : PLdv :=
  { vd := bits w 48 9, base := .ofBits (bits w 41 7), land := bits w 35 6, off := bits w 0 23 }

def PStv.pack (op : BitVec 7) (f : PStv) : Word :=
  op ++ f.vs ++ f.base.bits ++ 0#6 ++ 0#2 ++ 0#1 ++ 0#6 ++ f.mask ++ f.off

def PStv.ofBits (w : Word) : PStv :=
  { vs := bits w 48 9, base := .ofBits (bits w 41 7), mask := bits w 23 3, off := bits w 0 23 }

def PLdvs.pack (op : BitVec 7) (f : PLdvs) : Word :=
  op ++ f.vd ++ f.base.bits ++ f.land ++ f.size ++ 0#1 ++ 0#3 ++ f.str ++ f.off

def PLdvs.ofBits (w : Word) : PLdvs :=
  { vd := bits w 48 9, base := .ofBits (bits w 41 7), land := bits w 35 6, size := bits w 33 2, str := bits w 23 6, off := bits w 0 23 }

def PGth.pack (op : BitVec 7) (f : PGth) : Word :=
  op ++ f.vd ++ f.base.bits ++ f.land ++ 2#2 ++ 0#1 ++ f.idx ++ f.mask ++ f.off

def PGth.ofBits (w : Word) : PGth :=
  { vd := bits w 48 9, base := .ofBits (bits w 41 7), land := bits w 35 6, idx := bits w 23 9, mask := bits w 20 3, off := bits w 0 20 }

def PSct.pack (op : BitVec 7) (f : PSct) : Word :=
  op ++ f.vs ++ f.base.bits ++ 0#6 ++ 2#2 ++ 0#1 ++ f.idx ++ f.mask ++ f.off

def PSct.ofBits (w : Word) : PSct :=
  { vs := bits w 48 9, base := .ofBits (bits w 41 7), idx := bits w 23 9, mask := bits w 20 3, off := bits w 0 20 }

def PLdh.pack (op : BitVec 7) (f : PLdh) : Word :=
  op ++ 0#3 ++ f.sd ++ f.base.bits ++ f.land ++ f.size ++ BitVec.ofBool f.ext ++ f.h ++ 0#1 ++ 0#2 ++ f.off

def PLdh.ofBits (w : Word) : PLdh :=
  { sd := bits w 48 6, base := .ofBits (bits w 41 7), land := bits w 35 6, size := bits w 33 2, ext := bit w 32, h := bits w 26 6, off := bits w 0 23 }

def PLdhv.pack (op : BitVec 7) (f : PLdhv) : Word :=
  op ++ f.vd ++ f.base.bits ++ f.land ++ 0#2 ++ 0#1 ++ f.h ++ 1#1 ++ 0#2 ++ f.off

def PLdhv.ofBits (w : Word) : PLdhv :=
  { vd := bits w 48 9, base := .ofBits (bits w 41 7), land := bits w 35 6, h := bits w 26 6, off := bits w 0 23 }

def GLd.pack (op : BitVec 7) (f : GLd) : Word :=
  ((0#16 ++ (op ++ 0#3 ++ f.sd ++ f.base.bits ++ f.land ++ f.size ++ BitVec.ofBool f.ext ++ 0#1 ++ BitVec.ofBool f.acq ++ f.off : BitVec 48)) : BitVec 64)

def GLd.ofBits (w : Word) : GLd :=
  { sd := bits w 32 6, base := .ofBits (bits w 25 7), land := bits w 19 6, size := bits w 17 2, ext := bit w 16, acq := bit w 14, off := bits w 0 14 }

def GSt.pack (op : BitVec 7) (f : GSt) : Word :=
  ((0#16 ++ (op ++ 0#3 ++ f.ss ++ f.base.bits ++ 0#6 ++ f.size ++ 0#1 ++ 0#1 ++ BitVec.ofBool f.rel ++ f.off : BitVec 48)) : BitVec 64)

def GSt.ofBits (w : Word) : GSt :=
  { ss := bits w 32 6, base := .ofBits (bits w 25 7), size := bits w 17 2, rel := bit w 14, off := bits w 0 14 }

def GLdv.pack (op : BitVec 7) (f : GLdv) : Word :=
  ((0#16 ++ (op ++ f.vd ++ f.base.bits ++ f.land ++ 0#2 ++ 0#1 ++ 0#2 ++ f.off : BitVec 48)) : BitVec 64)

def GLdv.ofBits (w : Word) : GLdv :=
  { vd := bits w 32 9, base := .ofBits (bits w 25 7), land := bits w 19 6, off := bits w 0 14 }

def GStv.pack (op : BitVec 7) (f : GStv) : Word :=
  ((0#16 ++ (op ++ f.vs ++ f.base.bits ++ 0#6 ++ 0#2 ++ 0#1 ++ 0#2 ++ f.off : BitVec 48)) : BitVec 64)

def GStv.ofBits (w : Word) : GStv :=
  { vs := bits w 32 9, base := .ofBits (bits w 25 7), off := bits w 0 14 }

def GPf.pack (op : BitVec 7) (f : GPf) : Word :=
  ((0#16 ++ (op ++ 0#6 ++ BitVec.ofBool f.blk ++ f.tgt ++ f.base.bits ++ 0#6 ++ 0#2 ++ 0#1 ++ 0#2 ++ f.off : BitVec 48)) : BitVec 64)

def GPf.ofBits (w : Word) : GPf :=
  { blk := bit w 34, tgt := bits w 32 2, base := .ofBits (bits w 25 7), off := bits w 0 14 }

def GAtom.pack (op : BitVec 7) (f : GAtom) : Word :=
  ((0#16 ++ (op ++ 0#3 ++ f.sd ++ f.base.bits ++ f.land ++ 1#1 ++ BitVec.ofBool f.wide ++ BitVec.ofBool f.ext ++ 0#1 ++ BitVec.ofBool f.ar ++ f.data.bits ++ 0#7 : BitVec 48)) : BitVec 64)

def GAtom.ofBits (w : Word) : GAtom :=
  { sd := bits w 32 6, base := .ofBits (bits w 25 7), land := bits w 19 6, wide := bit w 17, ext := bit w 16, ar := bit w 14, data := .ofBits (bits w 7 7) }

def GCas.pack (op : BitVec 7) (f : GCas) : Word :=
  ((0#16 ++ (op ++ 0#3 ++ f.sd ++ f.base.bits ++ f.land ++ 1#1 ++ BitVec.ofBool f.wide ++ BitVec.ofBool f.ext ++ 0#1 ++ BitVec.ofBool f.ar ++ f.data.bits ++ f.cmp.bits : BitVec 48)) : BitVec 64)

def GCas.ofBits (w : Word) : GCas :=
  { sd := bits w 32 6, base := .ofBits (bits w 25 7), land := bits w 19 6, wide := bit w 17, ext := bit w 16, ar := bit w 14, data := .ofBits (bits w 7 7), cmp := .ofBits (bits w 0 7) }

def MMma.pack (op : BitVec 7) (f : MMma) : Word :=
  ((0#16 ++ (op ++ f.zd ++ 0#1 ++ f.cell ++ f.a.bits ++ f.b.bits ++ f.n ++ f.kt ++ BitVec.ofBool f.tk ++ BitVec.ofBool f.acc ++ 0#10 : BitVec 48)) : BitVec 64)

def MMma.ofBits (w : Word) : MMma :=
  { zd := bits w 37 4, cell := bits w 34 2, a := .ofBits (bits w 29 5), b := .ofBits (bits w 24 5), n := bits w 16 8, kt := bits w 12 4, tk := bit w 11, acc := bit w 10 }

def MMmaz.pack (op : BitVec 7) (f : MMmaz) : Word :=
  ((0#16 ++ (op ++ f.zd ++ 0#3 ++ 0#1 ++ f.zs ++ f.b.bits ++ f.n ++ f.kt ++ BitVec.ofBool f.tk ++ BitVec.ofBool f.acc ++ 0#10 : BitVec 48)) : BitVec 64)

def MMmaz.ofBits (w : Word) : MMmaz :=
  { zd := bits w 37 4, zs := bits w 29 4, b := .ofBits (bits w 24 5), n := bits w 16 8, kt := bits w 12 4, tk := bit w 11, acc := bit w 10 }

def MAccz.pack (op : BitVec 7) (f : MAccz) : Word :=
  ((0#16 ++ (op ++ f.zd ++ 0#21 ++ f.kt ++ BitVec.ofBool f.tk ++ 0#11 : BitVec 48)) : BitVec 64)

def MAccz.ofBits (w : Word) : MAccz :=
  { zd := bits w 37 4, kt := bits w 12 4, tk := bit w 11 }

def MAccrd.pack (op : BitVec 7) (f : MAccrd) : Word :=
  ((0#16 ++ (op ++ f.zs ++ f.vd ++ BitVec.ofBool f.half ++ f.cvt ++ 0#25 : BitVec 48)) : BitVec 64)

def MAccrd.ofBits (w : Word) : MAccrd :=
  { zs := bits w 37 4, vd := bits w 28 9, half := bit w 27, cvt := bits w 25 2 }

def MAccwr.pack (op : BitVec 7) (f : MAccwr) : Word :=
  ((0#16 ++ (op ++ f.zd ++ f.vs ++ BitVec.ofBool f.half ++ 0#11 ++ f.kt ++ BitVec.ofBool f.tk ++ 0#11 : BitVec 48)) : BitVec 64)

def MAccwr.ofBits (w : Word) : MAccwr :=
  { zd := bits w 37 4, vs := bits w 28 9, half := bit w 27, kt := bits w 12 4, tk := bit w 11 }

def MEpi.pack (op : BitVec 7) (f : MEpi) : Word :=
  ((0#16 ++ (op ++ f.zs ++ f.sa ++ f.sb ++ BitVec.ofBool f.ti ++ 0#8 ++ f.kt ++ BitVec.ofBool f.tk ++ 0#11 : BitVec 48)) : BitVec 64)

def MEpi.ofBits (w : Word) : MEpi :=
  { zs := bits w 37 4, sa := bits w 31 6, sb := bits w 25 6, ti := bit w 24, kt := bits w 12 4, tk := bit w 11 }

def MQcfg.pack (op : BitVec 7) (f : MQcfg) : Word :=
  ((0#16 ++ (op ++ f.q ++ f.sa ++ f.sb ++ 0#26 : BitVec 48)) : BitVec 64)

def MQcfg.ofBits (w : Word) : MQcfg :=
  { q := bits w 38 3, sa := bits w 32 6, sb := bits w 26 6 }

def MQv.pack (op : BitVec 7) (f : MQv) : Word :=
  ((0#16 ++ (op ++ f.q ++ f.v ++ 0#29 : BitVec 48)) : BitVec 64)

def MQv.ofBits (w : Word) : MQv :=
  { q := bits w 38 3, v := bits w 29 9 }

def MQs.pack (op : BitVec 7) (f : MQs) : Word :=
  ((0#16 ++ (op ++ f.q ++ f.sd ++ 0#32 : BitVec 48)) : BitVec 64)

def MQs.ofBits (w : Word) : MQs :=
  { q := bits w 38 3, sd := bits w 32 6 }

def MFeed.pack (op : BitVec 7) (f : MFeed) : Word :=
  ((0#16 ++ (op ++ f.f ++ f.sa ++ f.sb ++ 0#25 : BitVec 48)) : BitVec 64)

def MFeed.ofBits (w : Word) : MFeed :=
  { f := bits w 37 4, sa := bits w 31 6, sb := bits w 25 6 }

def MSewcfg.pack (op : BitVec 7) (f : MSewcfg) : Word :=
  ((0#16 ++ (op ++ f.sa ++ f.sb ++ f.sc ++ f.sd ++ 0#17 : BitVec 48)) : BitVec 64)

def MSewcfg.ofBits (w : Word) : MSewcfg :=
  { sa := bits w 35 6, sb := bits w 29 6, sc := bits w 23 6, sd := bits w 17 6 }

def MBond.pack (op : BitVec 7) (f : MBond) : Word :=
  ((0#16 ++ (op ++ f.bn ++ BitVec.ofBool f.reg ++ f.sa ++ 0#18 ++ f.imm : BitVec 48)) : BitVec 64)

def MBond.ofBits (w : Word) : MBond :=
  { bn := bits w 37 4, reg := bit w 36, sa := bits w 30 6, imm := bits w 0 12 }

def MSew.pack (op : BitVec 7) (f : MSew) : Word :=
  ((0#16 ++ (op ++ f.sa ++ f.bl ++ f.br ++ f.m ++ f.n ++ BitVec.ofBool f.dir ++ f.kt ++ BitVec.ofBool f.tk ++ 0#11 : BitVec 48)) : BitVec 64)

def MSew.ofBits (w : Word) : MSew :=
  { sa := bits w 35 6, bl := bits w 31 4, br := bits w 27 4, m := bits w 22 5, n := bits w 17 5, dir := bit w 16, kt := bits w 12 4, tk := bit w 11 }

def MSew2.pack (op : BitVec 7) (f : MSew2) : Word :=
  ((0#16 ++ (op ++ f.sa ++ f.sb ++ 0#13 ++ f.kt ++ BitVec.ofBool f.tk ++ 0#11 : BitVec 48)) : BitVec 64)

def MSew2.ofBits (w : Word) : MSew2 :=
  { sa := bits w 35 6, sb := bits w 29 6, kt := bits w 12 4, tk := bit w 11 }

def MShcfg.pack (op : BitVec 7) (f : MShcfg) : Word :=
  ((0#16 ++ (op ++ f.sh ++ f.sa ++ 0#15 ++ f.kt ++ BitVec.ofBool f.tk ++ 0#11 : BitVec 48)) : BitVec 64)

def MShcfg.ofBits (w : Word) : MShcfg :=
  { sh := bits w 37 4, sa := bits w 31 6, kt := bits w 12 4, tk := bit w 11 }

def MSins.pack (op : BitVec 7) (f : MSins) : Word :=
  ((0#16 ++ (op ++ f.sh ++ f.vs ++ f.sa ++ 0#6 ++ f.kt ++ BitVec.ofBool f.tk ++ 0#11 : BitVec 48)) : BitVec 64)

def MSins.ofBits (w : Word) : MSins :=
  { sh := bits w 37 4, vs := bits w 28 9, sa := bits w 22 6, kt := bits w 12 4, tk := bit w 11 }

def MSage.pack (op : BitVec 7) (f : MSage) : Word :=
  ((0#16 ++ (op ++ f.sh ++ 0#21 ++ f.kt ++ BitVec.ofBool f.tk ++ 0#11 : BitVec 48)) : BitVec 64)

def MSage.ofBits (w : Word) : MSage :=
  { sh := bits w 37 4, kt := bits w 12 4, tk := bit w 11 }

def MSdel.pack (op : BitVec 7) (f : MSdel) : Word :=
  ((0#16 ++ (op ++ f.sh ++ 0#9 ++ f.sa ++ 0#6 ++ f.kt ++ BitVec.ofBool f.tk ++ 0#11 : BitVec 48)) : BitVec 64)

def MSdel.ofBits (w : Word) : MSdel :=
  { sh := bits w 37 4, sa := bits w 22 6, kt := bits w 12 4, tk := bit w 11 }

def MSsel.pack (op : BitVec 7) (f : MSsel) : Word :=
  ((0#16 ++ (op ++ f.sh ++ f.vs ++ f.h ++ 0#6 ++ f.kt ++ BitVec.ofBool f.tk ++ 0#11 : BitVec 48)) : BitVec 64)

def MSsel.ofBits (w : Word) : MSsel :=
  { sh := bits w 37 4, vs := bits w 28 9, h := bits w 22 6, kt := bits w 12 4, tk := bit w 11 }

def MSrdr.pack (op : BitVec 7) (f : MSrdr) : Word :=
  ((0#16 ++ (op ++ f.sh ++ f.sa ++ f.sb ++ 0#9 ++ f.kt ++ BitVec.ofBool f.tk ++ 0#11 : BitVec 48)) : BitVec 64)

def MSrdr.ofBits (w : Word) : MSrdr :=
  { sh := bits w 37 4, sa := bits w 31 6, sb := bits w 25 6, kt := bits w 12 4, tk := bit w 11 }

def MShstat.pack (op : BitVec 7) (f : MShstat) : Word :=
  ((0#16 ++ (op ++ f.sh ++ f.sd ++ BitVec.ofBool f.new ++ 0#30 : BitVec 48)) : BitVec 64)

def MShstat.ofBits (w : Word) : MShstat :=
  { sh := bits w 37 4, sd := bits w 31 6, new := bit w 30 }

def XCvt.pack (op : BitVec 6) (f : XCvt) : Word :=
  ((0#16 ++ (op ++ f.vd ++ BitVec.ofBool f.nowb ++ f.vs ++ f.src ++ f.dst ++ f.part ++ 0#10 : BitVec 48)) : BitVec 64)

def XCvt.ofBits (w : Word) : XCvt :=
  { vd := bits w 33 9, nowb := bit w 32, vs := bits w 23 9, src := bits w 18 5, dst := bits w 13 5, part := bits w 10 3 }

def XExp.pack (op : BitVec 6) (f : XExp) : Word :=
  ((0#16 ++ (op ++ f.vd ++ BitVec.ofBool f.nowb ++ f.vs ++ f.h ++ f.sg ++ f.fmt ++ f.part ++ 0#6 : BitVec 48)) : BitVec 64)

def XExp.ofBits (w : Word) : XExp :=
  { vd := bits w 33 9, nowb := bit w 32, vs := bits w 23 9, h := bits w 17 6, sg := bits w 11 6, fmt := bits w 9 2, part := bits w 6 3 }

def XTrn.pack (op : BitVec 6) (f : XTrn) : Word :=
  ((0#16 ++ (op ++ f.vd ++ BitVec.ofBool f.nowb ++ f.vs ++ f.esz ++ f.rlog ++ 0#17 : BitVec 48)) : BitVec 64)

def XTrn.ofBits (w : Word) : XTrn :=
  { vd := bits w 33 9, nowb := bit w 32, vs := bits w 23 9, esz := bits w 21 2, rlog := bits w 17 4 }

def CCopy.pack (op : BitVec 6) (f : CCopy) : Word :=
  ((0#16 ++ (op ++ f.sa ++ f.sb ++ f.sc ++ f.st ++ f.kt ++ 0#2 ++ f.h ++ 0#2 ++ BitVec.ofBool f.trapf ++ BitVec.ofBool f.imp ++ BitVec.ofBool f.publ ++ BitVec.ofBool f.tk : BitVec 48)) : BitVec 64)

def CCopy.ofBits (w : Word) : CCopy :=
  { sa := bits w 36 6, sb := bits w 30 6, sc := bits w 24 6, st := bits w 18 6, kt := bits w 14 4, h := bits w 6 6, trapf := bit w 3, imp := bit w 2, publ := bit w 1, tk := bit w 0 }

def CCopyq.pack (op : BitVec 6) (f : CCopyq) : Word :=
  ((0#16 ++ (op ++ f.sa ++ f.sb ++ f.sc ++ f.st ++ f.kt ++ 0#5 ++ f.q ++ 0#2 ++ 0#1 ++ BitVec.ofBool f.imp ++ 0#1 ++ BitVec.ofBool f.tk : BitVec 48)) : BitVec 64)

def CCopyq.ofBits (w : Word) : CCopyq :=
  { sa := bits w 36 6, sb := bits w 30 6, sc := bits w 24 6, st := bits w 18 6, kt := bits w 14 4, q := bits w 6 3, imp := bit w 2, tk := bit w 0 }

def CCopyh.pack (op : BitVec 6) (f : CCopyh) : Word :=
  ((0#16 ++ (op ++ f.sa ++ f.sb ++ f.sc ++ f.st ++ f.kt ++ 0#2 ++ f.h ++ 0#2 ++ BitVec.ofBool f.trapf ++ BitVec.ofBool f.imp ++ 0#1 ++ BitVec.ofBool f.tk : BitVec 48)) : BitVec 64)

def CCopyh.ofBits (w : Word) : CCopyh :=
  { sa := bits w 36 6, sb := bits w 30 6, sc := bits w 24 6, st := bits w 18 6, kt := bits w 14 4, h := bits w 6 6, trapf := bit w 3, imp := bit w 2, tk := bit w 0 }

def CH.pack (op : BitVec 6) (f : CH) : Word :=
  ((0#16 ++ (op ++ 0#24 ++ 0#4 ++ 0#2 ++ f.h ++ 0#6 : BitVec 48)) : BitVec 64)

def CH.ofBits (w : Word) : CH :=
  { h := bits w 6 6 }

def CHstat.pack (op : BitVec 6) (f : CHstat) : Word :=
  ((0#16 ++ (op ++ f.sd ++ 0#18 ++ 0#4 ++ 0#2 ++ f.h ++ 0#5 ++ BitVec.ofBool f.fa : BitVec 48)) : BitVec 64)

def CHstat.ofBits (w : Word) : CHstat :=
  { sd := bits w 36 6, h := bits w 6 6, fa := bit w 0 }

def CHcfg.pack (op : BitVec 6) (f : CHcfg) : Word :=
  ((0#16 ++ (op ++ f.sa ++ f.sb ++ f.sc ++ 0#6 ++ 0#4 ++ 0#2 ++ f.h ++ 0#6 : BitVec 48)) : BitVec 64)

def CHcfg.ofBits (w : Word) : CHcfg :=
  { sa := bits w 36 6, sb := bits w 30 6, sc := bits w 24 6, h := bits w 6 6 }

def CCancel.pack (op : BitVec 6) (f : CCancel) : Word :=
  ((0#16 ++ (op ++ 0#24 ++ 0#4 ++ f.what.bits : BitVec 48)) : BitVec 64)

def CCancel.ofBits (w : Word) : CCancel :=
  { what := .ofBits (bits w 0 14) }

/-! ### The opcode maps (R60 to R63) -/

/-- The slot and the bits of an operation; an event has none. -/
def encodeSlot : Instr → Option (Slot × Word)
  | .nop sl => some (sl, 0)
  | .add f => some (.s, f.pack 1#8)
  | .sub f => some (.s, f.pack 2#8)
  | .addi f => some (.s, f.pack 3#8)
  | .mul f => some (.s, f.pack 4#8)
  | .mulh f => some (.s, f.pack 5#8)
  | .mulhn f => some (.s, f.pack 6#8)
  | .div f => some (.s, f.pack 7#8)
  | .divn f => some (.s, f.pack 8#8)
  | .rem f => some (.s, f.pack 9#8)
  | .remn f => some (.s, f.pack 10#8)
  | .and_ f => some (.s, f.pack 11#8)
  | .or_ f => some (.s, f.pack 12#8)
  | .xor_ f => some (.s, f.pack 13#8)
  | .andn f => some (.s, f.pack 14#8)
  | .andi f => some (.s, f.pack 15#8)
  | .ori f => some (.s, f.pack 16#8)
  | .xori f => some (.s, f.pack 17#8)
  | .sll f => some (.s, f.pack 18#8)
  | .srl f => some (.s, f.pack 19#8)
  | .sra f => some (.s, f.pack 20#8)
  | .slli f => some (.s, f.pack 21#8)
  | .srli f => some (.s, f.pack 22#8)
  | .srai f => some (.s, f.pack 23#8)
  | .rotr f => some (.s, f.pack 24#8)
  | .min f => some (.s, f.pack 25#8)
  | .max f => some (.s, f.pack 26#8)
  | .minn f => some (.s, f.pack 27#8)
  | .maxn f => some (.s, f.pack 28#8)
  | .slt f => some (.s, f.pack 29#8)
  | .sltn f => some (.s, f.pack 30#8)
  | .seq f => some (.s, f.pack 31#8)
  | .slti f => some (.s, f.pack 32#8)
  | .li f => some (.s, f.pack 33#8)
  | .lih f => some (.s, f.pack 34#8)
  | .sel f => some (.s, f.pack 35#8)
  | .clz f => some (.s, f.pack 36#8)
  | .ctz f => some (.s, f.pack 37#8)
  | .popc f => some (.s, f.pack 38#8)
  | .bswap f => some (.s, f.pack 39#8)
  | .extr f => some (.s, f.pack 40#8)
  | .insr f => some (.s, f.pack 41#8)
  | .addr f => some (.s, f.pack 42#8)
  | .br f => some (.k, f.pack 1#8)
  | .bri f => some (.k, f.pack 2#8 0#6)
  | .call f => some (.k, f.pack 3#8)
  | .callInd f => some (.k, f.pack 3#8 1#6)
  | .ret => some (.k, 0#16 ++ 4#8 ++ 0#40)
  | .beq f => some (.k, f.pack 5#8)
  | .bne f => some (.k, f.pack 6#8)
  | .blt f => some (.k, f.pack 7#8)
  | .bge f => some (.k, f.pack 8#8)
  | .bltn f => some (.k, f.pack 9#8)
  | .bgen f => some (.k, f.pack 10#8)
  | .bz f => some (.k, f.pack 11#8)
  | .bnz f => some (.k, f.pack 12#8)
  | .loop f => some (.k, f.pack 13#8)
  | .loopi f => some (.k, f.pack 14#8)
  | .setfmt f => some (.k, f.pack 15#8)
  | .waitk f => some (.k, f.pack 16#8)
  | .tokrd f => some (.k, f.pack 17#8)
  | .sysrd f => some (.k, f.pack 18#8)
  | .syswr f => some (.k, f.pack 19#8)
  | .trap f => some (.k, f.pack 20#8)
  | .rte => some (.k, 0#16 ++ 21#8 ++ 0#40)
  | .brk f => some (.k, f.pack 22#8)
  | .karv f => some (.k, f.pack 23#8)
  | .kwait f => some (.k, f.pack 24#8)
  | .kpoll f => some (.k, f.pack 25#8)
  | .kinit f => some (.k, f.pack 26#8)
  | .gjoin f => some (.k, f.pack 27#8)
  | .gleave f => some (.k, f.pack 28#8)
  | .fence f => some (.k, f.pack 29#8)
  | .drain => some (.k, 0#16 ++ 30#8 ++ 0#40)
  | .aliasf f => some (.k, f.pack 31#8)
  | .tlbinv f => some (.k, f.pack 32#8)
  | .ribn f => some (.k, f.pack 33#8)
  | .tget f => some (.k, f.pack 34#8)
  | .tspawn f => some (.k, f.pack 35#8)
  | .tawait f => some (.k, f.pack 36#8)
  | .tcancel f => some (.k, f.pack 37#8)
  | .exit_ => some (.k, 0#16 ++ 38#8 ++ 0#40)
  | .yield f => some (.k, f.pack 39#8)
  | .pld f => some (.p, f.pack 1#7)
  | .pst f => some (.p, f.pack 2#7)
  | .pldv f => some (.p, f.pack 3#7)
  | .pstv f => some (.p, f.pack 4#7)
  | .pldvs f => some (.p, f.pack 5#7)
  | .pgth f => some (.p, f.pack 6#7)
  | .psct f => some (.p, f.pack 7#7)
  | .pldh f => some (.p, f.pack 8#7)
  | .pldhV f => some (.p, f.pack 8#7)
  | .gld f => some (.g, f.pack 1#7)
  | .gst f => some (.g, f.pack 2#7)
  | .gldv f => some (.g, f.pack 3#7)
  | .gstv f => some (.g, f.pack 4#7)
  | .gpf f => some (.g, f.pack 5#7)
  | .aadd f => some (.g, f.pack 6#7)
  | .afadd f => some (.g, f.pack 7#7)
  | .amin f => some (.g, f.pack 8#7)
  | .amax f => some (.g, f.pack 9#7)
  | .aand f => some (.g, f.pack 10#7)
  | .aor f => some (.g, f.pack 11#7)
  | .axor f => some (.g, f.pack 12#7)
  | .aswp f => some (.g, f.pack 13#7)
  | .acas f => some (.g, f.pack 14#7)
  | .ainc f => some (.g, f.pack 15#7)
  | .mma f => some (.m, f.pack 1#7)
  | .mmaz f => some (.m, f.pack 2#7)
  | .accz f => some (.m, f.pack 3#7)
  | .accrd f => some (.m, f.pack 4#7)
  | .accwr f => some (.m, f.pack 5#7)
  | .epi f => some (.m, f.pack 6#7)
  | .qcfg f => some (.m, f.pack 7#7)
  | .qput f => some (.m, f.pack 8#7)
  | .qget f => some (.m, f.pack 9#7)
  | .qstat f => some (.m, f.pack 10#7)
  | .feedset f => some (.m, f.pack 11#7)
  | .sewcfg f => some (.m, f.pack 12#7)
  | .bondset f => some (.m, f.pack 13#7)
  | .sew f => some (.m, f.pack 14#7)
  | .sewrun f => some (.m, f.pack 15#7)
  | .sewst f => some (.m, f.pack 16#7)
  | .shcfg f => some (.m, f.pack 17#7)
  | .sins f => some (.m, f.pack 18#7)
  | .sage f => some (.m, f.pack 19#7)
  | .sdel f => some (.m, f.pack 20#7)
  | .ssel f => some (.m, f.pack 21#7)
  | .srdr f => some (.m, f.pack 22#7)
  | .shstat f => some (.m, f.pack 23#7)
  | .xcvt f => some (.x, f.pack 1#6)
  | .xpack f => some (.x, f.pack 2#6)
  | .xunpk f => some (.x, f.pack 3#6)
  | .xexp f => some (.x, f.pack 4#6)
  | .xtrn f => some (.x, f.pack 5#6)
  | .copy f => some (.c, f.pack 1#6)
  | .copy2 f => some (.c, f.pack 2#6)
  | .copyq f => some (.c, f.pack 3#6)
  | .copyh f => some (.c, f.pack 4#6)
  | .copyout f => some (.c, f.pack 5#6)
  | .pub f => some (.c, f.pack 6#6)
  | .hrel f => some (.c, f.pack 7#6)
  | .hstat f => some (.c, f.pack 8#6)
  | .hcfg f => some (.c, f.pack 9#6)
  | .ccancel f => some (.c, f.pack 10#6)
  | .vadd f => some (f.u.slot, f.pack (1#6 ++ f.ty.code))
  | .vsub f => some (f.u.slot, f.pack (2#6 ++ f.ty.code))
  | .vmul f => some (f.u.slot, f.pack (3#6 ++ f.ty.code))
  | .vmulh f => some (f.u.slot, f.pack (4#6 ++ f.ty.code))
  | .vmac f => some (f.u.slot, f.pack (5#6 ++ f.ty.code))
  | .vadds f => some (f.u.slot, f.pack (6#6 ++ f.ty.code))
  | .vsubs f => some (f.u.slot, f.pack (7#6 ++ f.ty.code))
  | .vand f => some (f.u.slot, f.pack (8#6 ++ f.ty.code))
  | .vor f => some (f.u.slot, f.pack (9#6 ++ f.ty.code))
  | .vxor f => some (f.u.slot, f.pack (10#6 ++ f.ty.code))
  | .vandn f => some (f.u.slot, f.pack (11#6 ++ f.ty.code))
  | .vsll f => some (f.u.slot, f.pack (12#6 ++ f.ty.code))
  | .vsrl f => some (f.u.slot, f.pack (13#6 ++ f.ty.code))
  | .vsra f => some (f.u.slot, f.pack (14#6 ++ f.ty.code))
  | .vmin f => some (f.u.slot, f.pack (15#6 ++ f.ty.code))
  | .vmax f => some (f.u.slot, f.pack (16#6 ++ f.ty.code))
  | .vabs f => some (f.u.slot, f.pack (17#6 ++ f.ty.code))
  | .vcmpeq f => some (f.u.slot, f.pack (18#6 ++ f.ty.code))
  | .vcmplt f => some (f.u.slot, f.pack (19#6 ++ f.ty.code))
  | .vcmple f => some (f.u.slot, f.pack (20#6 ++ f.ty.code))
  | .vfadd f => some (f.u.slot, f.pack (21#6 ++ f.ty.code))
  | .vfsub f => some (f.u.slot, f.pack (22#6 ++ f.ty.code))
  | .vfmul f => some (f.u.slot, f.pack (23#6 ++ f.ty.code))
  | .vfma f => some (f.u.slot, f.pack (24#6 ++ f.ty.code))
  | .vfmin f => some (f.u.slot, f.pack (25#6 ++ f.ty.code))
  | .vfmax f => some (f.u.slot, f.pack (26#6 ++ f.ty.code))
  | .vfabs f => some (f.u.slot, f.pack (27#6 ++ f.ty.code))
  | .vfneg f => some (f.u.slot, f.pack (28#6 ++ f.ty.code))
  | .vfcmpeq f => some (f.u.slot, f.pack (29#6 ++ f.ty.code))
  | .vfcmplt f => some (f.u.slot, f.pack (30#6 ++ f.ty.code))
  | .vfcmple f => some (f.u.slot, f.pack (31#6 ++ f.ty.code))
  | .vfrcp f => some (f.u.slot, f.pack (32#6 ++ f.ty.code))
  | .vfrsq f => some (f.u.slot, f.pack (33#6 ++ f.ty.code))
  | .vfexp2 f => some (f.u.slot, f.pack (34#6 ++ f.ty.code))
  | .vi2f f => some (f.u.slot, f.pack (35#6 ++ f.ty.code))
  | .vf2i f => some (f.u.slot, f.pack (36#6 ++ f.ty.code))
  | .vmov f => some (f.u.slot, f.pack (37#6 ++ f.ty.code))
  | .vdup f => some (f.u.slot, f.pack (38#6 ++ f.ty.code))
  | .vext f => some (.va, f.pack (39#6 ++ f.ty.code))
  | .vins f => some (f.u.slot, f.pack (40#6 ++ f.ty.code))
  | .vsel f => some (f.u.slot, f.pack (41#6 ++ f.ty.code))
  | .vperm f => some (f.u.slot, f.pack (42#6 ++ f.ty.code))
  | .vshl f => some (f.u.slot, f.pack (43#6 ++ f.ty.code))
  | .vrot f => some (f.u.slot, f.pack (44#6 ++ f.ty.code))
  | .vradd f => some (.vb, f.pack (45#6 ++ f.ty.code))
  | .vrmax f => some (.vb, f.pack (46#6 ++ f.ty.code))
  | .vrmaxi f => some (.vb, f.pack (47#6 ++ f.ty.code))
  | .mand f => some (f.u.slot, f.pack (48#6 ++ 0#3))
  | .mor f => some (f.u.slot, f.pack (49#6 ++ 0#3))
  | .mxor f => some (f.u.slot, f.pack (50#6 ++ 0#3))
  | .mnot f => some (f.u.slot, f.pack (51#6 ++ 0#3))
  | .mpopc f => some (.va, f.pack (52#6 ++ 0#3))
  | .mfirst f => some (.va, f.pack (53#6 ++ 0#3))
  | .vsign f => some (f.u.slot, f.pack (54#6 ++ f.ty.code))
  | .vpopc f => some (f.u.slot, f.pack (55#6 ++ f.ty.code))
  | .blockedBundleResume _ => none
  | .loadDataArrival _ _ => none
  | .freezeLimitPark _ => none
  | .gsyncLineAssert _ => none
  | .selectorBundleLimit _ => none
  | .trapEntry _ => none
  | .sheetRefill _ _ => none
  | .walkComplete _ _ _ => none
  | .logEntryPerform _ _ => none
  | .copyRelease _ _ => none
  | .copyBlock _ _ _ => none
  | .copyPerform _ _ => none
  | .operationFire _ _ => none
  | .pressPass _ _ => none
  | .operationComplete _ _ => none
  | .epiStage _ _ => none
  | .epiSegmentStore _ _ _ => none
  | .sewStepPass _ => none
  | .foldColumnRead _ _ => none
  | .sewstSegmentStore _ _ => none
  | .sewingOpComplete _ => none
  | .signatureOpComplete _ _ => none
  | .spillTransitComplete _ _ => none
  | .kettleReleaseAck _ _ _ => none
  | .kettleUpwardArrival _ => none
  | .kettleFlip _ _ => none
  | .preemptRequest _ _ => none
  | .gangSwitch _ _ => none
  | .gangRestore _ _ => none
  | .segmentLoad _ => none
  | .packageReset _ => none
  | .launchQueueConfigWrite _ _ => none
  | .launchTailWrite _ _ _ => none
  | .queueReset _ => none
  | .killGo _ => none
  | .queueSwitch _ => none
  | .packetParse _ => none
  | .runReady _ => none
  | .runPlace _ => none
  | .runRetire _ => none
  | .invalQueueConfigWrite _ => none
  | .invalTailWrite _ _ => none
  | .invalCut => none
  | .invalCompletion => none
  | .keyEntryWrite _ _ _ => none
  | .featuresGo _ => none
  | .fwTrial _ => none
  | .fwImageVerified _ _ => none
  | .fwCommit _ => none
  | .commitWatchdogExpiry => none
  | .spineMismatch _ => none
  | .recoveryEnd => none
  | .powerGovernorEvaluate _ _ _ _ => none
  | .rootLinkUp _ => none
  | .rootLinkDown _ => none
  | .dmaRequest _ _ => none
  | .atsTranslationRequest _ _ _ => none
  | .atsInvalidationCompletion _ _ => none
  | .headbandPortFailure _ _ => none
  | .faultServiceResponse _ => none
  | .i3cEntdaa _ => none
  | .registerWrite _ _ _ _ => none
  | .dtcTick => none
  | .refreshPeriodChange _ => none
  | .headbandDomainFormed _ => none
  | .headbandRequestArrival _ _ => none
  | .applicationCoreAccess _ _ => none

/-- The S-slot opcodes (R60). -/
def readS (w : Word) : Option Instr :=
  match (bits w 56 8).toNat with
  | 1 => some (.add (.ofBits w))
  | 2 => some (.sub (.ofBits w))
  | 3 => some (.addi (.ofBits w))
  | 4 => some (.mul (.ofBits w))
  | 5 => some (.mulh (.ofBits w))
  | 6 => some (.mulhn (.ofBits w))
  | 7 => some (.div (.ofBits w))
  | 8 => some (.divn (.ofBits w))
  | 9 => some (.rem (.ofBits w))
  | 10 => some (.remn (.ofBits w))
  | 11 => some (.and_ (.ofBits w))
  | 12 => some (.or_ (.ofBits w))
  | 13 => some (.xor_ (.ofBits w))
  | 14 => some (.andn (.ofBits w))
  | 15 => some (.andi (.ofBits w))
  | 16 => some (.ori (.ofBits w))
  | 17 => some (.xori (.ofBits w))
  | 18 => some (.sll (.ofBits w))
  | 19 => some (.srl (.ofBits w))
  | 20 => some (.sra (.ofBits w))
  | 21 => some (.slli (.ofBits w))
  | 22 => some (.srli (.ofBits w))
  | 23 => some (.srai (.ofBits w))
  | 24 => some (.rotr (.ofBits w))
  | 25 => some (.min (.ofBits w))
  | 26 => some (.max (.ofBits w))
  | 27 => some (.minn (.ofBits w))
  | 28 => some (.maxn (.ofBits w))
  | 29 => some (.slt (.ofBits w))
  | 30 => some (.sltn (.ofBits w))
  | 31 => some (.seq (.ofBits w))
  | 32 => some (.slti (.ofBits w))
  | 33 => some (.li (.ofBits w))
  | 34 => some (.lih (.ofBits w))
  | 35 => some (.sel (.ofBits w))
  | 36 => some (.clz (.ofBits w))
  | 37 => some (.ctz (.ofBits w))
  | 38 => some (.popc (.ofBits w))
  | 39 => some (.bswap (.ofBits w))
  | 40 => some (.extr (.ofBits w))
  | 41 => some (.insr (.ofBits w))
  | 42 => some (.addr (.ofBits w))
  | _ => none

/-- The K-slot opcodes (R61). -/
def readK (w : Word) : Option Instr :=
  match (bits w 40 8).toNat with
  | 1 => some (.br (.ofBits w))
  | 2 => some (.bri (.ofBits w))
  | 3 => some (if bits w 28 6 == 0 then .call (.ofBits w) else .callInd (.ofBits w))
  | 4 => some (.ret)
  | 5 => some (.beq (.ofBits w))
  | 6 => some (.bne (.ofBits w))
  | 7 => some (.blt (.ofBits w))
  | 8 => some (.bge (.ofBits w))
  | 9 => some (.bltn (.ofBits w))
  | 10 => some (.bgen (.ofBits w))
  | 11 => some (.bz (.ofBits w))
  | 12 => some (.bnz (.ofBits w))
  | 13 => some (.loop (.ofBits w))
  | 14 => some (.loopi (.ofBits w))
  | 15 => some (.setfmt (.ofBits w))
  | 16 => some (.waitk (.ofBits w))
  | 17 => some (.tokrd (.ofBits w))
  | 18 => some (.sysrd (.ofBits w))
  | 19 => some (.syswr (.ofBits w))
  | 20 => some (.trap (.ofBits w))
  | 21 => some (.rte)
  | 22 => some (.brk (.ofBits w))
  | 23 => some (.karv (.ofBits w))
  | 24 => some (.kwait (.ofBits w))
  | 25 => some (.kpoll (.ofBits w))
  | 26 => some (.kinit (.ofBits w))
  | 27 => some (.gjoin (.ofBits w))
  | 28 => some (.gleave (.ofBits w))
  | 29 => some (.fence (.ofBits w))
  | 30 => some (.drain)
  | 31 => some (.aliasf (.ofBits w))
  | 32 => some (.tlbinv (.ofBits w))
  | 33 => some (.ribn (.ofBits w))
  | 34 => some (.tget (.ofBits w))
  | 35 => some (.tspawn (.ofBits w))
  | 36 => some (.tawait (.ofBits w))
  | 37 => some (.tcancel (.ofBits w))
  | 38 => some (.exit_)
  | 39 => some (.yield (.ofBits w))
  | _ => none

/-- The P-slot opcodes (R63). -/
def readP (w : Word) : Option Instr :=
  match (bits w 57 7).toNat with
  | 1 => some (.pld (.ofBits w))
  | 2 => some (.pst (.ofBits w))
  | 3 => some (.pldv (.ofBits w))
  | 4 => some (.pstv (.ofBits w))
  | 5 => some (.pldvs (.ofBits w))
  | 6 => some (.pgth (.ofBits w))
  | 7 => some (.psct (.ofBits w))
  | 8 => some (if bit w 25 then .pldhV (.ofBits w) else .pldh (.ofBits w))
  | _ => none

/-- The G-slot opcodes (R63). -/
def readG (w : Word) : Option Instr :=
  match (bits w 41 7).toNat with
  | 1 => some (.gld (.ofBits w))
  | 2 => some (.gst (.ofBits w))
  | 3 => some (.gldv (.ofBits w))
  | 4 => some (.gstv (.ofBits w))
  | 5 => some (.gpf (.ofBits w))
  | 6 => some (.aadd (.ofBits w))
  | 7 => some (.afadd (.ofBits w))
  | 8 => some (.amin (.ofBits w))
  | 9 => some (.amax (.ofBits w))
  | 10 => some (.aand (.ofBits w))
  | 11 => some (.aor (.ofBits w))
  | 12 => some (.axor (.ofBits w))
  | 13 => some (.aswp (.ofBits w))
  | 14 => some (.acas (.ofBits w))
  | 15 => some (.ainc (.ofBits w))
  | _ => none

/-- The M-slot opcodes (R63). -/
def readM (w : Word) : Option Instr :=
  match (bits w 41 7).toNat with
  | 1 => some (.mma (.ofBits w))
  | 2 => some (.mmaz (.ofBits w))
  | 3 => some (.accz (.ofBits w))
  | 4 => some (.accrd (.ofBits w))
  | 5 => some (.accwr (.ofBits w))
  | 6 => some (.epi (.ofBits w))
  | 7 => some (.qcfg (.ofBits w))
  | 8 => some (.qput (.ofBits w))
  | 9 => some (.qget (.ofBits w))
  | 10 => some (.qstat (.ofBits w))
  | 11 => some (.feedset (.ofBits w))
  | 12 => some (.sewcfg (.ofBits w))
  | 13 => some (.bondset (.ofBits w))
  | 14 => some (.sew (.ofBits w))
  | 15 => some (.sewrun (.ofBits w))
  | 16 => some (.sewst (.ofBits w))
  | 17 => some (.shcfg (.ofBits w))
  | 18 => some (.sins (.ofBits w))
  | 19 => some (.sage (.ofBits w))
  | 20 => some (.sdel (.ofBits w))
  | 21 => some (.ssel (.ofBits w))
  | 22 => some (.srdr (.ofBits w))
  | 23 => some (.shstat (.ofBits w))
  | _ => none

/-- The X-slot opcodes (R63). -/
def readX (w : Word) : Option Instr :=
  match (bits w 42 6).toNat with
  | 1 => some (.xcvt (.ofBits w))
  | 2 => some (.xpack (.ofBits w))
  | 3 => some (.xunpk (.ofBits w))
  | 4 => some (.xexp (.ofBits w))
  | 5 => some (.xtrn (.ofBits w))
  | _ => none

/-- The C-slot opcodes (R63). -/
def readC (w : Word) : Option Instr :=
  match (bits w 42 6).toNat with
  | 1 => some (.copy (.ofBits w))
  | 2 => some (.copy2 (.ofBits w))
  | 3 => some (.copyq (.ofBits w))
  | 4 => some (.copyh (.ofBits w))
  | 5 => some (.copyout (.ofBits w))
  | 6 => some (.pub (.ofBits w))
  | 7 => some (.hrel (.ofBits w))
  | 8 => some (.hstat (.ofBits w))
  | 9 => some (.hcfg (.ofBits w))
  | 10 => some (.ccancel (.ofBits w))
  | _ => none

/-- The bases of VA and VB (R62). -/
def readV (u : VUnit) (w : Word) : Option Instr :=
  let t := bits w 55 3
  match (bits w 58 6).toNat with
  | 1 => (ITy.ofCode t).map fun ty => .vadd (.ofBits u ty w)
  | 2 => (ITy.ofCode t).map fun ty => .vsub (.ofBits u ty w)
  | 3 => (ITy.ofCode t).map fun ty => .vmul (.ofBits u ty w)
  | 4 => (ITy.ofCode t).map fun ty => .vmulh (.ofBits u ty w)
  | 5 => (ITy.ofCode t).map fun ty => .vmac (.ofBits u ty w)
  | 6 => (ITy.ofCode t).map fun ty => .vadds (.ofBits u ty w)
  | 7 => (ITy.ofCode t).map fun ty => .vsubs (.ofBits u ty w)
  | 8 => (UTy.ofCode t).map fun ty => .vand (.ofBits u ty w)
  | 9 => (UTy.ofCode t).map fun ty => .vor (.ofBits u ty w)
  | 10 => (UTy.ofCode t).map fun ty => .vxor (.ofBits u ty w)
  | 11 => (UTy.ofCode t).map fun ty => .vandn (.ofBits u ty w)
  | 12 => (STy.ofCode t).map fun ty => .vsll (.ofBits u ty w)
  | 13 => (STy.ofCode t).map fun ty => .vsrl (.ofBits u ty w)
  | 14 => (STy.ofCode t).map fun ty => .vsra (.ofBits u ty w)
  | 15 => (ITy.ofCode t).map fun ty => .vmin (.ofBits u ty w)
  | 16 => (ITy.ofCode t).map fun ty => .vmax (.ofBits u ty w)
  | 17 => (STy.ofCode t).map fun ty => .vabs (.ofBits u ty w)
  | 18 => (STy.ofCode t).map fun ty => .vcmpeq (.ofBits u ty w)
  | 19 => (ITy.ofCode t).map fun ty => .vcmplt (.ofBits u ty w)
  | 20 => (ITy.ofCode t).map fun ty => .vcmple (.ofBits u ty w)
  | 21 => (FTy.ofCode t).map fun ty => .vfadd (.ofBits u ty w)
  | 22 => (FTy.ofCode t).map fun ty => .vfsub (.ofBits u ty w)
  | 23 => (FTy.ofCode t).map fun ty => .vfmul (.ofBits u ty w)
  | 24 => (FTy.ofCode t).map fun ty => .vfma (.ofBits u ty w)
  | 25 => (FTy.ofCode t).map fun ty => .vfmin (.ofBits u ty w)
  | 26 => (FTy.ofCode t).map fun ty => .vfmax (.ofBits u ty w)
  | 27 => (FTy.ofCode t).map fun ty => .vfabs (.ofBits u ty w)
  | 28 => (FTy.ofCode t).map fun ty => .vfneg (.ofBits u ty w)
  | 29 => (FTy.ofCode t).map fun ty => .vfcmpeq (.ofBits u ty w)
  | 30 => (FTy.ofCode t).map fun ty => .vfcmplt (.ofBits u ty w)
  | 31 => (FTy.ofCode t).map fun ty => .vfcmple (.ofBits u ty w)
  | 32 => (FTy.ofCode t).map fun ty => .vfrcp (.ofBits u ty w)
  | 33 => (FTy.ofCode t).map fun ty => .vfrsq (.ofBits u ty w)
  | 34 => (FTy.ofCode t).map fun ty => .vfexp2 (.ofBits u ty w)
  | 35 => (FTy.ofCode t).map fun ty => .vi2f (.ofBits u ty w)
  | 36 => (FTy.ofCode t).map fun ty => .vf2i (.ofBits u ty w)
  | 37 => (UTy.ofCode t).map fun ty => .vmov (.ofBits u ty w)
  | 38 => (STy.ofCode t).map fun ty => .vdup (.ofBits u ty w)
  | 39 => (ITy.ofCode t).map fun ty => .vext (.ofBits ty w)
  | 40 => (STy.ofCode t).map fun ty => .vins (.ofBits u ty w)
  | 41 => (UTy.ofCode t).map fun ty => .vsel (.ofBits u ty w)
  | 42 => (STy.ofCode t).map fun ty => .vperm (.ofBits u ty w)
  | 43 => (STy.ofCode t).map fun ty => .vshl (.ofBits u ty w)
  | 44 => (STy.ofCode t).map fun ty => .vrot (.ofBits u ty w)
  | 45 => (FTy.ofCode t).map fun ty => .vradd (.ofBits ty w)
  | 46 => (FTy.ofCode t).map fun ty => .vrmax (.ofBits ty w)
  | 47 => (FTy.ofCode t).map fun ty => .vrmaxi (.ofBits ty w)
  | 48 => some (.mand (.ofBits u w))
  | 49 => some (.mor (.ofBits u w))
  | 50 => some (.mxor (.ofBits u w))
  | 51 => some (.mnot (.ofBits u w))
  | 52 => some (.mpopc (.ofBits w))
  | 53 => some (.mfirst (.ofBits w))
  | 54 => (STy.ofCode t).map fun ty => .vsign (.ofBits u ty w)
  | 55 => (STy.ofCode t).map fun ty => .vpopc (.ofBits u ty w)
  | _ => none

def readSlot (sl : Slot) (w : Word) : Option Instr :=
  match sl with
  | .s => readS w
  | .va => readV .a w
  | .vb => readV .b w
  | .p => readP w
  | .g => readG w
  | .m => readM w
  | .x => readX w
  | .c => readC w
  | .k => readK w

/-- Rows 2 and 3 of R159, which the convert and pack units test before the rows a form fails as a whole. -/
def formatFault (src dst : BitVec 5) : Option DecodeFault :=
  if 12 ≤ src.toNat || 12 ≤ dst.toNat then some .illegalFmt
  else if src == 10 || src == 11 || dst == 10 || dst == 11 then some .formatEmul
  else none

/-- The cause a slot gets from format codes in fields of its own (R99, R159): reserved bits and nowb come first. -/
def ownFormatFault (w : Word) : Instr → Option DecodeFault
  | .xcvt f => if nowbOk f.nowb f.vd && f.pack 1#6 == w then formatFault f.src f.dst else none
  | .xpack f => if nowbOk f.nowb f.vd && f.pack 2#6 == w then formatFault f.src f.dst else none
  | .xunpk f => if nowbOk f.nowb f.vd && f.pack 3#6 == w then formatFault f.src f.dst else none
  | _ => none

/-- One slot decoded: an all-zero slot is its NOP (R29, R58); anything else must be a form written with every
reserved bit zero. -/
def decodeSlot (sl : Slot) (w : Word) : Except DecodeFault Instr :=
  if w == 0 then .ok (.nop sl)
  else
    match readSlot sl w with
    | none => .error .illegalOp
    | some i =>
      match ownFormatFault w i with
      | some e => .error e
      | none => if i.wf && encodeSlot i == some (sl, w) then .ok i else .error .illegalOp

/-! ### Bundles (R26, R27, R30) -/

/-- The bundle bit at which a slot starts, and its width. -/
def Slot.start : Slot → Nat
  | .s => 16
  | .va => 80
  | .vb => 144
  | .p => 208
  | .g => 272
  | .m => 320
  | .x => 368
  | .c => 416
  | .k => 464

def Slot.width : Slot → Nat
  | .s | .va | .vb | .p => 64
  | _ => 48

/-- The slots in the order in which R30 looks for a cause. -/
def Slot.all : List Slot := [.s, .va, .vb, .p, .g, .m, .x, .c, .k]

def slotBits (b : Bundle) (sl : Slot) : Word := (b.extractLsb' sl.start sl.width).setWidth 64

/-- FORM must be 0b10 and bits 11:0 zero (R27). -/
def headerOk (b : Bundle) : Bool := b.extractLsb' 14 2 == 2#2 && b.extractLsb' 0 12 == 0#12

def headerSeg (b : Bundle) : Bool := b.getLsbD 13

def headerGsync (b : Bundle) : Bool := b.getLsbD 12

/-- Every slot's decoding, in the order of R30. -/
def decodeSlots (b : Bundle) : List (Slot × Except DecodeFault Instr) :=
  Slot.all.map fun sl => (sl, decodeSlot sl (slotBits b sl))

/-- The operations of a bundle whose slots all decode; the first fault in R30's order otherwise. -/
def collectSlots : List (Slot × Except DecodeFault Instr) → Except (DecodeFault × Slot) (List Instr)
  | [] => .ok []
  | (sl, .error e) :: _ => .error (e, sl)
  | (_, .ok i) :: rest =>
    match collectSlots rest with
    | .ok is => .ok (i :: is)
    | .error e => .error e

/-- A whole bundle without the checks that need the leaf's state. The header's fault names no slot. -/
def decodeBundle (b : Bundle) : Except (DecodeFault × Option Slot) (List Instr) :=
  if !headerOk b then .error (.illegalBundle, none)
  else
    match collectSlots (decodeSlots b) with
    | .ok is => .ok is
    | .error (e, sl) => .error (e, some sl)

/-- A bundle that holds one operation and NOPs: the words of a well-formed instruction. -/
def encode (i : Instr) : Option Bundle :=
  match encodeSlot i with
  | some (sl, w) => some (((w.setWidth 512) <<< sl.start) ||| 0x8000#512)
  | none => none

def Instr.isNop : Instr → Bool
  | .nop _ => true
  | _ => false

/-- The instruction a bundle of bits `w` holds when at most one of its slots is no NOP. -/
def decodeTableWord (nbits w : Nat) : Option Instr :=
  match decodeBundle (BitVec.ofNat 512 (w % 2 ^ nbits)) with
  | .ok is =>
    match is.filter (fun i => !i.isNop) with
    | [] => some (.nop .s)
    | [i] => some i
    | _ => none
  | .error _ => none

/-! ### Checks of a decoded operation that need the leaf's level, FEATURES and place (R12, R17, R53, R113) -/

def trapTile (z : BitVec 4) : Bool := 14 ≤ z.toNat
def trapHandle (h : BitVec 6) : Bool := 60 ≤ h.toNat
def trapBuf : PressSrc → Bool
  | .buf q => q == 7
  | .feed _ => false

/-- Names a trap-level resource (R17). -/
def Instr.namesTrapResource : Instr → Bool
  | .mma f => trapTile f.zd || trapBuf f.a || trapBuf f.b || f.kt == 15
  | .mmaz f => trapTile f.zd || trapTile f.zs || trapBuf f.b || f.kt == 15
  | .accz f => trapTile f.zd || f.kt == 15
  | .accrd f => trapTile f.zs
  | .accwr f => trapTile f.zd || f.kt == 15
  | .epi f => trapTile f.zs || f.kt == 15
  | .qcfg f => f.q == 7
  | .qput f => f.q == 7
  | .qget f => f.q == 7
  | .qstat f => f.q == 7
  | .sew f => f.kt == 15
  | .sewrun f => f.kt == 15
  | .sewst f => f.kt == 15
  | .shcfg f => f.sh == 15 || f.kt == 15
  | .sins f => f.sh == 15 || f.kt == 15
  | .sage f => f.sh == 15 || f.kt == 15
  | .sdel f => f.sh == 15 || f.kt == 15
  | .ssel f => f.sh == 15 || f.kt == 15 || trapHandle f.h
  | .srdr f => f.sh == 15 || f.kt == 15
  | .shstat f => f.sh == 15
  | .copy f => trapHandle f.h || f.kt == 15
  | .copy2 f => trapHandle f.h || f.kt == 15
  | .copyq f => f.q == 7 || f.kt == 15
  | .copyh f => trapHandle f.h || f.kt == 15
  | .copyout f => trapHandle f.h || f.kt == 15
  | .pub f => trapHandle f.h
  | .hrel f => trapHandle f.h
  | .hstat f => trapHandle f.h
  | .hcfg f => trapHandle f.h
  | .ccancel f =>
    match f.what with
    | .handle h => trapHandle h
    | .buffer q => q == 7
    | .all => false
  | .xexp f => trapHandle f.h
  | .pldh f => trapHandle f.h
  | .pldhV f => trapHandle f.h
  | .waitk f => f.kn == 15
  | .tokrd f => f.kn == 15
  | _ => false

/-- The sewing forms that are illegal at trap level (R288). -/
def Instr.ordinaryOnly : Instr → Bool
  | .sewcfg _ | .sew _ | .sewrun _ | .sewst _ => true
  | _ => false

/-- The FEATURES bit without which an operation is absent (R12, R389). -/
def Instr.feature : Instr → Option Nat
  | .mma _ | .mmaz _ | .accz _ | .accrd _ | .accwr _ | .epi _ | .qcfg _ | .qput _ | .qget _ | .qstat _ | .feedset _ => some 1
  | .sewcfg _ | .bondset _ | .sew _ | .sewrun _ | .sewst _ => some 2
  | .shcfg _ | .sins _ | .sage _ | .sdel _ | .ssel _ | .srdr _ | .shstat _ => some 3
  | .karv _ | .kwait _ | .kpoll _ | .kinit _ | .gjoin _ | .gleave _ => some 5
  | .tget _ | .tspawn _ | .tawait _ | .tcancel _ => some 6
  | .copy f | .copy2 f => if f.imp then some 7 else none
  | .copyq f => if f.imp then some 7 else none
  | .copyh f | .copyout f => if f.imp then some 7 else none
  | .xexp _ => some 9
  | _ => none

/-- The control transfers (R53). -/
def Instr.isTransfer : Instr → Bool
  | .br _ | .bri _ | .call _ | .callInd _ | .ret | .beq _ | .bne _ | .blt _ | .bge _ | .bltn _ | .bgen _ | .bz _ | .bnz _ | .rte => true
  | _ => false

/-- LOOP and LOOPI, with the offset to the body's end (R113). -/
def Instr.loopOff : Instr → Option Nat
  | .loop f => some f.off.toNat
  | .loopi f => some f.off.toNat
  | _ => none

/-- Where a bundle stands when it is decoded. -/
structure DecodeCtx where
  trapLevel : Bool
  features : BitVec 256
  inDelay : Bool
  index : Nat
  deriving DecidableEq, Repr

/-- ILLEGAL_OP found at decode from the leaf's state (R12, R17, R53, R113, R115, R288). A trap-level copy
that names an ordinary handle, buffer or counter is none (R207). DESIGN CHOICE: log entry 105. -/
def Instr.ctxIllegal (c : DecodeCtx) (i : Instr) : Bool :=
  (!c.trapLevel && i.namesTrapResource)
    || (c.trapLevel && i.ordinaryOnly)
    || (match i.feature with
        | some b => !c.features.getLsbD b
        | none => false)
    || (c.inDelay && (i.isTransfer || i.loopOff.isSome))
    || (match i.loopOff with
        | some o => decide (4095 < c.index + o)
        | none => false)

end Sys2Proof
end

