-- ==== Sys2Proof/Config.lean ====
section
/-! DEFINITION. What the manual leaves open and the machine goes on with: free values. They have no body, so no
proof can see what they are; each use applies them to a number that `State.free` counts. -/

namespace Sys2Proof

/-- The n-th value the manual leaves open (R1, R2). Narrower values take its low bits. DESIGN CHOICE: log entry 1. -/
opaque Config.freeValue : Nat → Vec

/-- The n-th choice among several outcomes the manual allows, as an index (R213, R221). DESIGN CHOICE: log entry 2. -/
opaque Config.freeChoice : Nat → Nat

end Sys2Proof
end

