-- ==== Sys2Proof/Machine/State.lean ====
section
/-! DEFINITION. State: everything the spec gives the package, as plain data. Register banks and tables are sparse maps
(rising keys); a missing key reads as the default the reader names. The model's own fields (`cur`, `phase`, `agenda`,
`free`, `reply` and the identifiers) say which agent moves and are no state of the spec. -/

namespace Sys2Proof.Machine

/-- A sparse table: keys rise strictly. -/
abbrev Map (α : Type) := List (Nat × α)

/-- Memory: listed bytes by key, rising, none of them zero (what an unlisted byte reads as). -/
abbrev Memory := List Host.Cell

/-- Which events of each observer are known to happen before: observer number to program-order number (R213). -/
abbrev Clock := Map Nat

/-- What an observer has read: for each byte and window, at `2 * key` and one more for the bank-linear window, the writes it
has met there, each with the place in program order of the read (R211). -/
abbrev Seen := Map (List (Nat × Nat))

/-- Levels of a leaf (R319). -/
inductive Level where
  | ordinary | trap
  deriving DecidableEq, Repr

/-- Trap causes (R321). -/
inductive Cause where
  | illegalBundle | illegalOp | illegalFmt | privilege | break_ | software | pageFaultR | pageFaultW | pageFaultX
  | access | align | sheetBounds | guard | key | formatEmul | boundaryOverflow | shelf | handleState | queueConfig
  | tokenOverflow | kettle | epiStore | copyFault | timeRange | watch | double | gathering
  deriving DecidableEq, Repr

/-- One cause with the fields TRAP_CAUSE and TRAP_FVA record of it (R326, R328). -/
structure Trap where
  cause : Cause
  detail : Nat := 0
  slot : Nat := 0
  unit : Nat := 0
  obj : Nat := 0
  async : Bool := false
  late : Bool := false
  fva : Word := 0
  /-- TRAP_FVA is a value the spec does not state. -/
  fvaOpen : Bool := false
  /-- The engine operation the cause comes from, for the choice of R335; 0 for none. -/
  op : Nat := 0
  /-- What a BOUNDARY_OVERFLOW leaves in SEW_FAULT (R284). -/
  sewFault : Word := 0
  deriving DecidableEq, Repr

/-- Where a result lands (R37). -/
inductive Dest where
  | none
  | s (n : Nat)
  | v (n : Nat)
  | m (n : Nat)
  deriving DecidableEq, Repr

/-- A result in flight (R37, R42, R324): `dist` positions before it lands, `mask` the bits it writes, `latch` the unit
latch it enters, `waiting` the log entry whose data it awaits. -/
structure Result where
  dist : Nat
  dest : Dest
  value : Vec
  mask : Vec
  latch : Option Nat
  seq : Nat
  rank : Nat
  flags : Flags
  waiting : Option Nat
  deriving DecidableEq, Repr

/-- A SETFMT still in its shadow (R54). -/
structure FmtPend where
  value : BitVec 32
  dist : Nat
  deriving DecidableEq, Repr

/-- A result that has still to land in the course that did not take place (R50); `waiting` names the log entry whose data it
awaits. -/
structure Later where
  dist : Nat
  value : Vec
  mask : Vec
  waiting : Option Nat
  deriving DecidableEq, Repr

/-- A register after a conditionally blocking bundle at position `seq` (R50): what it would hold had the bundle waited where it
has not, or not waited where it has. `alt` are those contents now, but for the bits in `hole`, which wait for the data of a
log entry; `pend` has yet to land on them; the read is open for `dist` positions more. DEDUCED: log entry 17. -/
structure Doubt where
  dest : Dest
  seq : Nat
  dist : Nat
  alt : Vec
  hole : Option (Nat × Vec)
  pend : List Later
  deriving DecidableEq, Repr

/-- The same of a latch, until its unit produces a result issued after position `seq`; `hole` names the log entry whose data
its contents are, while they are awaited. -/
structure LatchDoubt where
  seq : Nat
  alt : Vec
  hole : Option Nat
  pend : List Later
  deriving DecidableEq, Repr

/-- The open reads of a leaf: registers, and latches by number. -/
structure Doubts where
  regs : List Doubt
  latches : List (Nat × LatchDoubt)
  deriving DecidableEq, Repr

def Doubts.none : Doubts := ⟨[], []⟩

/-- How control goes on: `notTaken`, `taken` and `rte` put the next bundle into a delay slot (R53, R110, R332); `skip`
passes a loop body whose count is zero (R115). -/
inductive Xfer where
  | none
  | notTaken
  | taken (target : Word)
  | skip (target : Word)
  | rte
  deriving DecidableEq, Repr

/-- What a leaf waits on after issue, or why it is parked (R47, R45, R381). -/
inductive Wait where
  | none
  | tokens (kn m : Nat)
  | phase (ket : Nat) (p : BitVec 32) (acq : Bool)
  | task (sd sh : Nat)
  | taskDone (sd : Nat) (handle : Word)
  | atIssue
  | segment (n : Nat)
  | segService (n idx : Nat) (cause : Cause) (fva : Word)
  | segFault (cause : Cause) (fva : Word)
  /-- Parked in a freeze: `all` says that it awaits every landing, and not only those due (R45, R48). -/
  | late (all : Bool)
  | preempted
  deriving DecidableEq, Repr

/-- The interrupted frame (R324). -/
structure Frame where
  inflight : List Result
  latches : Map Vec
  fmt : BitVec 32
  fmtPend : List FmtPend
  loopOuter : Word
  loopInner : Word
  wait : Wait
  blocked : Bool
  waited : Bool
  delay : Xfer
  pc : Word
  doubts : Doubts
  held : Doubts
  swPend : Option Trap
  deriving DecidableEq, Repr

/-- A feed offset (R255). -/
structure Feed where
  offset : BitVec 22
  stride : BitVec 24
  deriving DecidableEq, Repr

/-- States of a buffer entry (R250). -/
inductive Ent where
  | free | reserved | written | filled | claimed | void
  deriving DecidableEq, Repr

/-- Bytes that stand, or stood, at places of sheet space: the first place and the bytes. They are the values that a rule
leaves an engine to choose from, beside those that stand there now (R2). -/
abbrev Formers := List (Nat × List Byte)

/-- A circular buffer (R250, R251): `ents` lists the entries that are not free; `lap` the bytes it shares with another buffer or
a handle's region; `taint` what P-slot stores have left engines to find in it (R163), and `lapped` what writes of the shared
bytes have (R251). -/
structure Buf where
  base : Nat
  e : Nat
  cap : Nat
  leafMode : Bool
  faulted : Bool
  fill : Nat
  drain : Nat
  ents : Map Ent
  taint : Formers
  lapped : Formers
  lap : List (Nat × Nat)
  deriving DecidableEq, Repr

/-- A buffer handle (R188). `clock` is what its publishes released, `posted` what its copies' completions did; `rectos` lists
the recto of the published generations before this one, newest first (R155). -/
structure Handle where
  cfg : Bool
  recto : Nat
  verso : Nat
  len : Nat
  gen : BitVec 32
  rectos : List (List Byte)
  fill : Nat
  drain : Nat
  ecause : Nat
  detail : Nat
  fva : Word
  deferred : Bool
  taint : Formers
  lap : List (Nat × Nat)
  clock : Clock
  posted : Clock
  deriving DecidableEq, Repr

/-- Page attributes and target of a translation (R349, R351), and the page it covers (R353). -/
structure Trans where
  pa : Nat
  pkg : Nat
  keyed : Bool
  priv : Bool
  cache : Nat
  ms : Bool
  page : Nat
  size : Nat
  global : Bool
  deriving DecidableEq, Repr

/-- Where a log entry stands (R176, R178, R324). -/
inductive LogStage where
  | walk
  | ready (ts : List Trans)
  | faulted (c : Cause) (fva : Word)
  | service (idx : Nat) (c : Cause) (fva : Word)
  | suspended
  | cutting (users : List Nat)
  deriving DecidableEq, Repr

/-- What a log entry does (R171, R243, R216, R217, R222, R360). `task` is the device's write of a task record (R376). -/
inductive LogOp where
  | load (vec ext acq : Bool)
  | store (vec rel : Bool)
  | atom (op : Nat) (returning ext ar : Bool) (rm : Nat)
  | fence (scope kind : Nat)
  | drain
  | aliasf (scope : Nat)
  | tlbinv
  | task
  deriving DecidableEq, Repr

/-- A release a write carries: the scope, the releaser, what happens before it (R212), and a releasing leaf's run, with
which it moves (R225). -/
structure Release where
  scope : Nat
  obs : Nat
  clock : Clock
  run : Option Nat
  deriving DecidableEq, Repr

/-- An ALIASF that covers a write (R221): its place `obs`, `po`, its scope, and the leaf it stands for now, of which run. -/
structure AliasMark where
  obs : Nat
  po : Nat
  scope : Nat
  leaf : Nat
  run : Option Nat
  deriving DecidableEq, Repr

/-- An operand-log or trap-log entry (R176, R334). `slot` is its number in the log; `po` its place in program order. -/
structure LogEntry where
  id : Nat
  slot : Nat
  po : Nat
  op : LogOp
  va : Word
  size : Nat
  data : Vec
  cmp : Word
  stage : LogStage
  watchOff : Bool
  deriving DecidableEq, Repr

/-- A write in coherence order (R211 to R213, R221): its place `id`, writer and program-order number, first key, bytes
and what they replaced, the window it came through, the releases it carries, those of them that a later atomic of the line
carries on, and the ALIASFs that cover it. -/
structure WriteRec where
  id : Nat
  obs : Nat
  po : Nat
  key : Nat
  bytes : List Byte
  old : List Byte
  linear : Bool
  rels : List Release
  own : List Release
  aliased : List AliasMark
  unflushed : Bool
  priv : Bool
  deriving DecidableEq, Repr

/-- An operation of the press (R256). -/
inductive PressForm where
  | mma (zd cell : Nat) (a b : PressSrc) (acc : Bool)
  | mmaz (zd zs : Nat) (b : PressSrc) (acc : Bool)
  | accz (zd : Nat)
  | accwr (zd : Nat) (half : Bool) (data : Vec)
  | epi (zs : Nat) (ti : Bool) (addr stride : Word)
  deriving DecidableEq, Repr

/-- States of a queued operation (R261). -/
inductive PressStage where
  | queued | fired | storing | held
  | service (idx : Nat) (c : Cause) (fva : Word)
  deriving DecidableEq, Repr

/-- A claimed entry of a buffer: its number, none once the buffer has been configured anew (R254), and its first byte. -/
structure Claim where
  ent : Option Nat
  addr : Nat
  deriving DecidableEq, Repr

/-- A queued press operation with what it captured at issue (R256), its passes done, claimed entries and staging slot. -/
structure PressOp where
  id : Nat
  form : PressForm
  n : Nat
  fmt : BitVec 32
  tok : Option Nat
  feedA : Nat × Int
  feedB : Nat × Int
  stage : PressStage
  pass : Nat
  claimA : List Claim
  claimB : List Claim
  slot : Nat
  seg : Nat
  po : Nat
  taint : Formers
  deriving DecidableEq, Repr

/-- One step of a sewing operation with its captured bonds (R282, R286). -/
structure SewStep where
  fold : Word
  m : Nat
  n : Nat
  dc : Nat
  dn : Nat
  back : Bool
  deriving DecidableEq, Repr

/-- A sewing operation (R286): steps, or a store (R291). -/
inductive SewForm where
  | steps (l : List SewStep)
  | store (addr stride : Word)
  deriving DecidableEq, Repr

/-- A queued sewing operation: captured regions, shape word and FMT; `step` and `col` say where it stands, `fold` the
fold columns read for the next pass, and `seg` the next segment of a store. `shape` is the one before `step`. -/
structure SewOp where
  id : Nat
  form : SewForm
  fmt : BitVec 32
  tok : Option Nat
  r0 : Nat
  r1 : Nat
  cap : Nat
  shape : Word
  step : Nat
  col : Nat
  fold : Option (List Byte)
  seg : Nat
  held : Bool
  /-- The fault service it waits on: the record's number, the cause and the address. -/
  service : Option (Nat × Cause × Word)
  po : Nat
  taint : Formers
  /-- Bytes of its regions that a later SEWCFG's regions overlap (R289). -/
  lap : List (Nat × Nat)
  deriving DecidableEq, Repr

/-- The sewing configuration of a leaf (R289). -/
structure SewCfg where
  r0 : Nat
  r1 : Nat
  cap : Nat
  deriving DecidableEq, Repr

/-- A shelf descriptor (R299). -/
structure ShelfCfg where
  mask : BitVec 256
  spillVa : Word
  spillRows : Nat
  rowBase : Nat
  rowCount : Nat
  k : Nat
  s : Nat
  w : Nat
  deriving DecidableEq, Repr

/-- Where a row is held (R298): an array row, a transit slot bound for a record, or a spill record. -/
inductive Loc where
  | array (n : Nat)
  | transit (r : Nat)
  | spill (r : Nat)
  deriving DecidableEq, Repr

/-- A valid row of a shelf (R298). -/
structure Row where
  tag : BitVec 32
  sig : BitVec 256
  heat : Nat
  loc : Loc
  deriving DecidableEq, Repr

/-- A shelf (R297 to R301): the configuration in effect, its rows, and the spill region's frames; `taint` lists what other agents
have written into the region. -/
structure Shelf where
  cfg : Option ShelfCfg
  newest : Option (BitVec 32)
  rows : List Row
  frames : List Trans
  broken : Bool
  taint : Formers
  deriving DecidableEq, Repr

/-- A signature operation (R302). -/
inductive SigForm where
  | shcfg (c : ShelfCfg)
  | sins (sig : BitVec 256) (tag : BitVec 32)
  | sage
  | sdel (tag : BitVec 32)
  | ssel (q : BitVec 256) (h : Nat)
  | srdr (off : Nat) (tag : BitVec 32)
  deriving DecidableEq, Repr

/-- A queued signature operation; `taint` lists where P-slot stores have reached what SRDR will write (R309). -/
structure SigOp where
  id : Nat
  sh : Nat
  form : SigForm
  tok : Option Nat
  held : Bool
  po : Nat
  taint : List (Nat × Nat)
  deriving DecidableEq, Repr

/-- Bytes of sheet space that an engine operation has written and whose completion the leaf may not have observed (R218,
R309): the operation's observer, the first byte and what stood there before; `sew`
where a sewing step wrote them (R279, R287). -/
structure Wet where
  obs : Nat
  off : Nat
  old : List Byte
  sew : Bool
  deriving DecidableEq, Repr

/-- The register bank, engines and control state of one leaf (R15, R16 and the chapters that name each field). -/
structure Leaf where
  /-- The run the leaf belongs to (index into `State.runs` by run identifier); `none` when it is free. -/
  run : Option Nat
  exited : Bool
  level : Level
  pc : Word
  sregs : Map Word
  vregs : Map Vec
  mregs : Map Mask
  feeds : Map Feed
  bonds : Map (BitVec 12)
  toks : Map (BitVec 16)
  latches : Map Vec
  inflight : List Result
  seq : Nat
  fmt : BitVec 32
  fmtPend : List FmtPend
  fstat : Word
  freezeLimit : Word
  loopOuter : Word
  loopInner : Word
  /-- What the bundle in issue decided; what the bundle at `pc` is the delay bundle of; RTE's delay bundle has issued. -/
  xfer : Xfer
  delay : Xfer
  rteDue : Bool
  /-- The bundle just issued was an always-blocking one, or one that waited (R48, R49). -/
  blocked : Bool
  /-- The bundle at `pc` has waited at issue (R49). -/
  waited : Bool
  /-- Reads that R50 leaves open, and those that the bundle waiting at `pc` will leave open once it has issued. -/
  doubts : Doubts
  held : Doubts
  wait : Wait
  skipSlot : Nat
  sheet : Memory
  wet : List Wet
  pin0 : Word
  pin1 : Word
  impose : Word
  watchAddr : Word
  watchCtl : Word
  trapCause : Word
  trapPc : Word
  trapNpc : Word
  trapFva : Word
  trapCtl : Word
  trapVec : Word
  emulVec : Word
  scratch : Map Word
  frame : Option Frame
  /-- The asynchronous cause being handled, for ENG_RETRY (R335); the trap was a decode or issue cause of a slot (R329). -/
  handling : Option Trap
  slotCause : Bool
  /-- SOFTWARE or BREAK raised and not yet taken (R323). -/
  swPend : Option Trap
  asyncPend : List Trap
  olog : List LogEntry
  tlog : List LogEntry
  bufs : Map Buf
  handles : Map Handle
  tiles : Map (Map Lane)
  /-- What each busy tile has held since the earliest queued operation that writes it issued, each with the operations that
  issued while it stood there (R249). -/
  tileHist : Map (List (List Nat × Map Lane))
  pq : List PressOp
  tq : List PressOp
  sewShape : Word
  /-- What the last sewing step that completed left, for an abandonment (R293). -/
  sewLast : Option Word
  sewFault : Word
  sewCfg : SewCfg
  sewq : List SewOp
  shelves : Map Shelf
  sigq : List SigOp
  sigtq : List SigOp
  tokClocks : Map Clock
  task : Word
  selSeg : Option Nat
  curSeg : Option Nat
  /-- Program-order number of the next G access, and what the leaf has acquired by then (R212). -/
  po : Nat
  acqs : List (Nat × Clock)
  readSync : List (Nat × Clock)
  acqFences : List Nat
  relFences : List (Nat × Nat)
  drains : List Nat
  /-- Remote writes made before the leaf moved: from which place in program order a DRAIN covers them (R215, R225); and the
  leaf's places before this one, each with its end of program order there. -/
  past : List (Nat × Clock)
  places : Clock
  deriving DecidableEq, Repr

/-- A frame of the physical sheet store (R16, R161): the leaf and sheet it holds, and whether it was written. -/
structure SheetFrame where
  leaf : Nat
  sheet : Nat
  dirty : Bool
  deriving DecidableEq, Repr

/-- The copy forms (R191). -/
inductive CopyForm where
  | copy (h : Nat) (src : Word) (off len : Nat)
  | copy2 (h : Nat) (src : Word) (row rows : Nat) (stride : Word)
  | copyq (q : Nat) (src : Word) (ents : List Nat) (e : Nat) (base : Nat) (stride : Word)
  | copyh (h : Nat) (dst src : Word) (len : Nat)
  | copyout (h : Nat) (dst : Word) (off len : Nat)
  deriving DecidableEq, Repr

/-- An entry of the time-sorted buffer (R185): `region` is the verso fixed at issue (R192), `done` the bytes moved so
far, and `fault` how it ended if a block faulted. -/
structure Copy where
  id : Nat
  leaf : Nat
  form : CopyForm
  region : Nat
  stamp : Word
  tok : Option Nat
  publ : Bool
  imp : Bool
  trapf : Bool
  impose : Word
  po : Nat
  atTrap : Bool
  released : Bool
  started : Bool
  record : Option (Nat × Nat × Nat × Nat × Nat)
  done : Nat
  fault : Option (Cause × Word)
  service : Option Nat
  /-- After its cancellation a pending publish no longer counts; a void copy is removed at once. -/
  order : Nat
  /-- The copies in flight when it issued, and the sheet bytes of its own that the leaf has stored to since, with what they
  held before (R187). -/
  mates : List Nat
  wild : List (Nat × List Byte)
  deriving DecidableEq, Repr

/-- A staging slot (R267). -/
structure Staging where
  leaf : Nat
  op : Nat
  bytes : List Byte
  deriving DecidableEq, Repr

/-- The GSYNC input of a quire (R241). -/
inductive Gsync where
  | idle | stalled | go
  deriving DecidableEq, Repr

/-- What a quire's leaves share (R18, R374, R381, R382). `sel` is the current leaf, `last` the one that issued last and
`selCount` the bundles it has issued in a row; `frames` runs from the least recently accessed frame. `step` counts the
bundles since the line was asserted, while the quires are in step (R241). -/
structure Quire where
  imem : Map Bundle
  segs : List Nat
  sel : Nat
  last : Nat
  selCount : Nat
  freeze : Nat
  gsync : Gsync
  step : Option Nat
  frames : List SheetFrame
  copies : List Copy
  staging : Map Staging
  ribbon : List Word
  cursor : Nat
  deriving DecidableEq, Repr

/-- States of a kettle (R226). -/
inductive KState where
  | idle | open_ | closed
  deriving DecidableEq, Repr

/-- A kettle (R226). `carr` lists the senders counted; `acks` the releases of the phase not yet acknowledged, `sent`
whether the upward arrival left, `rel` what the phase's releases released, and `flips` what each flip released. -/
structure Kettle where
  phase : BitVec 32
  state : KState
  count : BitVec 14
  arr : BitVec 14
  member : BitVec 32
  arrived : BitVec 32
  next : BitVec 32
  child : BitVec 6
  carr : List Nat
  extent : BitVec 3
  parent : BitVec 32
  acks : List (Nat × Nat × Bool)
  sent : Bool
  rel : List Release
  flips : Map (List Release)
  deriving DecidableEq, Repr

/-- An upward arrival on its way (R237): sender and receiver as package, cluster and kettle in one number. -/
structure Arrival where
  id : Nat
  run : Nat
  src : Nat
  dst : Nat
  rel : List Release
  deriving DecidableEq, Repr

/-- A flip on its way to a child (R228, R237). -/
structure Flip where
  run : Nat
  dst : Nat
  src : Nat
  rel : List Release
  deriving DecidableEq, Repr

/-- States of a launch queue (R364). -/
inductive QState where
  | disabled | idle | resident | switchedOut | resetting
  deriving DecidableEq, Repr

/-- The registers of a launch queue (R364), what the spine read from its descriptor (R365, R366), its own HEAD and
PROGRESS, and its parse count since it took the queue (R367). `kill` says that a reset in progress is a kill (R385). -/
structure Queue where
  desc : Word
  en : Bool
  badDesc : Bool
  state : QState
  ring : Word
  log2n : Nat
  hart : Nat
  ctx : Nat
  head : BitVec 32
  progress : BitVec 32
  parses : Nat
  kill : Bool
  /-- What TAIL writes have released for packets not yet parsed, each with the TAIL it wrote (R367). -/
  tails : List (BitVec 32 × Release)
  /-- The TAIL writes that packets not yet parsed fall under, each with its place in coherence order (R365). -/
  tailAt : List (BitVec 32 × Nat)
  deriving DecidableEq, Repr

/-- A run packet (R368). -/
structure Packet where
  prio : Nat
  depfail : Bool
  service : Bool
  barrier : Bool
  clusters : Nat
  leafMask : BitVec 4
  spawn : Nat
  image : Word
  args : Word
  data : Word
  sheet : Word
  sheetLen : Nat
  trapv : BitVec 16
  emulv : BitVec 16
  colophon : Word
  signal : Word
  deps : List Word
  runId : Word
  save : Word
  ribbon : Word
  tasks : Word
  taskCount : Nat
  deriving DecidableEq, Repr

/-- A segment entry (R369). -/
structure Segment where
  first : Nat
  count : Nat
  va : Word
  deriving DecidableEq, Repr

/-- How a run ends (R383): status, faulting leaf, TRAP_CAUSE, TRAP_PC, TRAP_FVA, and the kettle of a tree error. -/
structure Ending where
  status : Nat
  gleaf : Nat
  cause : BitVec 32
  pc : Word
  fva : Word
  ktree : Option (Nat × Nat)
  deriving DecidableEq, Repr

/-- A FENCE.AR (R217): where its leaf stands or last stood, with its run, its place in program order and in the log, its scope,
the stores of the leaf that it covers wherever it made them, when they had all performed, and whether the leaf is there (R225). -/
structure ArFence where
  leaf : Nat
  run : Option Nat
  po : Nat
  trapLog : Bool
  scope : Nat
  covers : Clock
  done : Option Nat
  here : Bool
  deriving DecidableEq, Repr

/-- A cluster of a pre-empted run (R345): its rank, quires, leaves, kettle file and the flips held for it (R239). -/
structure Saved where
  rank : Nat
  from_ : Nat
  quires : List Quire
  leaves : List Leaf
  kettles : Map Kettle
  flips : List Flip
  /-- What the leaves' reads have returned so far (R211, R225). -/
  seen : List Seen
  /-- The write of its save area comes before this place in coherence order (R347). -/
  stamp : Nat
  deriving DecidableEq, Repr

/-- The release a write of a task record's STATE carries (R376): the writer's place after it, and the log it stands in. -/
structure TaskRel where
  leaf : Nat
  po : Nat
  trapLog : Bool
  deriving DecidableEq, Repr

/-- A task in a head-task queue (R375). -/
structure TaskRef where
  rec_ : Nat
  rel : Option TaskRel
  deriving DecidableEq, Repr

/-- Where a run stands (R371 to R373, R383). -/
inductive RunStage where
  | parsed | ready | placed | ended
  deriving DecidableEq, Repr

/-- A run the spine holds (R363 to R383). -/
structure Run where
  id : Nat
  queue : Nat
  index : BitVec 32
  hart : Nat
  ctx : Nat
  asid : BitVec 16
  root : Nat
  fring : Word
  fringRecords : Nat
  fringTail : Word
  pkt : Packet
  segs : List Segment
  stage : RunStage
  places : List (Option Nat)
  saved : List Saved
  placedAt : Nat
  startDtc : Word
  /-- The two head-task queues, the STATE of each record the device has written (5: an initial record that became FREE
  by completing), and the release that its newest write of it is (R375 to R377). -/
  taskQ : List (List TaskRef)
  taskState : Map Nat
  taskRels : Map TaskRel
  ending : Option Ending
  /-- Clusters asked to stop for a run of higher priority (R345). -/
  preempt : List Nat
  /-- Writes of the run made before a gang switch, which its colophon releases (R383). -/
  clock : Clock
  /-- Software has rewritten the slot of its packet, and the run takes the course of an unpredictable one (R1, R365, R366); the
  slot's virtual address, and from which place in coherence order software must not rewrite it (R365). -/
  wild : Bool
  slot : Nat
  slotAt : Nat
  /-- What its arrivals and flips have carried to other packages: the sender, its phase, and the releases (R212, R237). -/
  abroad : List (Nat × Nat × List Release)
  deriving DecidableEq, Repr

/-- A cached leaf translation (R353). -/
structure TlbEntry where
  asid : BitVec 16
  global : Bool
  base : Nat
  size : Nat
  entry : Word
  deriving DecidableEq, Repr

/-- A cached pointer entry (R353): the table found for a span of addresses. -/
structure PtrEntry where
  asid : BitVec 16
  level : Nat
  base : Nat
  size : Nat
  table : Nat
  deriving DecidableEq, Repr

/-- A descriptor the invalidation queue has taken (R356), whose completion is due: what it covers, what it writes, whether
it was malformed, and the log entries translated before its cut. -/
structure InvalCut where
  id : Nat
  va : Nat
  pages : Nat
  asid : Option (BitVec 16)
  global : Bool
  msi : Bool
  hart : Nat
  cpa : Nat
  cval : Word
  bad : Bool
  users : List Nat
  deriving DecidableEq, Repr

/-- The invalidation queue's registers (R355), what TAIL writes have released, each with the TAIL it moved on from (R357), and
the descriptors from HEAD on that have been taken. -/
structure Inval where
  addr : Nat
  log2n : Nat
  tail : BitVec 16
  head : BitVec 16
  overrun : Bool
  bad : Bool
  cuts : List InvalCut
  rels : List (BitVec 16 × Release)
  deriving DecidableEq, Repr

/-- The kill registers, and the ASID and completion word of the kill in progress (R385). -/
structure Kill where
  asid : BitVec 16
  cpa : Word
  active : Option (BitVec 16 × Word)
  deriving DecidableEq, Repr

/-- A key-table entry (R201). -/
structure KeyEntry where
  key : BitVec 512
  valid : Bool
  asid : BitVec 16
  version : BitVec 32
  deriving DecidableEq, Repr

/-- Firmware state (R386, R395, R396). `reverting` says that the watchdog has expired and the restart into the previous
slot is not over; `watchdogLeft` counts the ticks the trial still has. -/
structure Firmware where
  version : BitVec 32
  slot : Bool
  standbyValid : Bool
  standbyVersion : BitVec 32
  badImg : Bool
  reverted : Bool
  recovering : Bool
  stopped : Bool
  trialActive : Bool
  verifying : Bool
  reverting : Bool
  watchdog : BitVec 32
  watchdogLeft : Nat
  src : Word
  deriving DecidableEq, Repr

/-- The node page (R386). -/
structure Node where
  root : BitVec 4
  hbm : BitVec 12
  fabric : Bool
  keytab : Bool
  invalq : Bool
  launch : Bool
  spine : Bool
  half : BitVec 2
  app : Bool
  domain : BitVec 8
  package : BitVec 7
  offer : BitVec 256
  accept : BitVec 256
  done : Bool
  qbase : BitVec 11
  invalId : BitVec 11
  svcId : BitVec 11
  fwId : BitVec 11
  svcHart : BitVec 5
  fwHart : BitVec 5
  level : BitVec 2
  limit : BitVec 16
  power : BitVec 16
  tj : BitVec 16
  clock : BitVec 16
  vcore : BitVec 16
  ctx : Map Word
  ctxEn : BitVec 4
  deriving DecidableEq, Repr

/-- A record of a fault ring the device waits on (R362): its run, its address, whether the spine has announced it, and the
write of VALID, byte by byte (R392). -/
structure Service where
  idx : Nat
  run : Nat
  ring : Word
  announced : Bool
  valid : List (Nat × Nat)
  deriving DecidableEq, Repr

/-- An identity pending in an IMSIC (R392): the core, the level of the file, and the writes that it announces, byte by byte. -/
structure Msi where
  hart : Nat
  level : Nat
  identity : Nat
  after : List (Nat × Nat)
  deriving DecidableEq, Repr

/-- A store that a core has made and not performed, which its own loads find already (R223): its address and bytes, and the
newest write of the cores that comes before a load which finds it. -/
structure CoreStore where
  pa : Nat
  bytes : List Byte
  mark : Nat
  deriving DecidableEq, Repr

/-- An application core as far as the device's rules reach it (R223, R352): its translation registers and SUM bits, its cached
translations (those of a guest marked), what its last FENCE RW,W and FENCE W,O released, what its loads have read and no fence
has acquired, and, among the cores' writes, its newest, the newest it has read, the one its loads may not go behind, the one
that each of its reads comes after, the last read first, and that for a read which finds one of its own writes; and the
stores that it holds, oldest first. -/
structure CoreRegs where
  satp : Word
  vsatp : Word
  hgatp : Word
  sum : Bool
  vsum : Bool
  tlb : List (Bool × TlbEntry)
  rel : Option Release
  out : Option Release
  got : List Release
  wrote : Nat
  read : Nat
  floor : Nat
  reads : List Nat
  marks : Map Nat
  pending : List CoreStore
  deriving DecidableEq, Repr

/-- What the last access of an agent outside the quires got. -/
structure Reply where
  ok : Bool
  value : Word
  deriving DecidableEq, Repr

/-- Memory from `key` on whose contents are unpredictable (R2): any value where `was` is none (R347, R366), and otherwise each
bit as it stands, as the signature unit has it there, or as `was` has it (R301, R318). -/
structure OpenMem where
  key : Nat
  size : Nat
  was : Option (List Byte)
  deriving DecidableEq, Repr

/-- A 64-byte line reached through a LAUNCH_PRIVATE page (R224): the runs that have reached it, and the invalidations since they
ended, by core and place in its program order. -/
structure PrivLine where
  runs : List Nat
  clean : List (Nat × Nat)
  deriving DecidableEq, Repr

/-- How an operation is run: on its own with its checks, or within a bundle whose checks have passed. -/
inductive Phase where
  | alone | effect
  deriving DecidableEq, Repr

/-- The package. -/
structure State where
  dtc : Word
  leaves : Map Leaf
  quires : Map Quire
  /-- Kettle files by cluster (R226). -/
  kfiles : Map (Map Kettle)
  arrivals : List Arrival
  flips : List Flip
  mem : Memory
  hist : List WriteRec
  /-- What each observer has read (R211). -/
  seen : Map Seen
  arFences : List ArFence
  /-- Acquired clocks and program-order numbers of the agents that are no leaf. -/
  agentClock : Map Clock
  agentPo : Map Nat
  freeMem : List OpenMem
  /-- Lines reached through LAUNCH_PRIVATE pages (R224). -/
  privLines : Map PrivLine
  cores : Map CoreRegs
  /-- Reservations of the application cores' LR (R246), by hart: key and size. -/
  resv : Map (Nat × Nat)
  tlb : List TlbEntry
  ptrs : List PtrEntry
  inval : Inval
  /-- ATS Invalidation Requests not yet completed: root port and the cut that sent it (R391). -/
  atsReqs : List (Nat × Nat)
  queues : Map Queue
  runs : List Run
  kill : Kill
  keys : Map KeyEntry
  hbmPolicy : Map Word
  wsPeriod : BitVec 20
  wsLength : BitVec 12
  wsNext : Option (BitVec 20)
  services : List Service
  /-- The queue the spine took last (R367). -/
  lastQueue : Nat
  node : Node
  fw : Firmware
  /-- The runs that have a record in the journal that may not be marked complete yet (R395). -/
  journal : List Nat
  i3cAddr : Option (BitVec 7)
  lostPorts : List Nat
  lostPkgs : List Nat
  remotePkgs : Nat
  /-- Interrupts written to the IMSICs (R392). -/
  msis : List Msi
  /-- Fields of the model: the acting leaf, how `exec` runs, what moves next, the index of the next free value, fresh
  identifiers, and the reply to the last outside access. -/
  cur : Nat
  phase : Phase
  agenda : List Choice
  free : Nat
  nextId : Nat
  reply : Reply
  /-- The sewing program or the shelf descriptor as the issue of the present bundle has read it (R290, R302). -/
  prog : Option (List Byte)
  deriving DecidableEq, Repr

/-- Why the machine stops: the spec gives every instruction and event an effect or an exception, so there is no reason. -/
inductive Fault where
  deriving DecidableEq, Repr

/-- Why the model gives no next state. -/
inductive Refusal where
  /-- Raised by `exec` for an instruction without a meaning yet. Safe. -/
  | notModelled (mnemonic : String)
  /-- Raised by an application core's access to the ECAM region or a root port's window (R390): the endpoints behind
  them are no part of the spec. Safe. -/
  | pcieDevice
  deriving DecidableEq, Repr

/-! ### Reset -/

/-- A feed offset at the start of a run (R255). -/
def Feed.reset : Feed := ⟨0, 0⟩

/-- A buffer not configured (R373). -/
def Buf.reset : Buf := ⟨0, 0, 0, false, false, 0, 0, [], [], [], []⟩

/-- A FREE handle (R188). -/
def Handle.reset : Handle := ⟨false, 0, 0, 0, 0, [], 0, 0, 0, 0, 0, false, [], [], [], []⟩

/-- A shelf not configured (R373). -/
def Shelf.reset : Shelf := ⟨none, none, [], [], false, []⟩

/-- A leaf that no run uses; the registers without a stated package-reset value are zero (a design choice). DESIGN CHOICE: log entry 9. -/
def Leaf.reset : Leaf where
  run := none
  exited := false
  level := .ordinary
  pc := 0
  sregs := []
  vregs := []
  mregs := []
  feeds := []
  bonds := []
  toks := []
  latches := []
  inflight := []
  seq := 0
  fmt := 0
  fmtPend := []
  fstat := 0
  freezeLimit := 0x0800
  loopOuter := 0
  loopInner := 0
  xfer := .none
  delay := .none
  rteDue := false
  blocked := false
  waited := false
  doubts := .none
  held := .none
  wait := .none
  skipSlot := 0
  sheet := []
  wet := []
  pin0 := 0
  pin1 := 0
  impose := 0
  watchAddr := 0
  watchCtl := 0
  trapCause := 0
  trapPc := 0
  trapNpc := 0
  trapFva := 0
  trapCtl := 0
  trapVec := 0
  emulVec := 0
  scratch := []
  frame := none
  handling := none
  slotCause := false
  swPend := none
  asyncPend := []
  olog := []
  tlog := []
  bufs := []
  handles := []
  tiles := []
  tileHist := []
  pq := []
  tq := []
  sewShape := 0
  sewLast := none
  sewFault := 0
  sewCfg := ⟨0, 0, 0⟩
  sewq := []
  shelves := []
  sigq := []
  sigtq := []
  tokClocks := []
  task := 0
  selSeg := none
  curSeg := none
  po := 1
  acqs := []
  readSync := []
  acqFences := []
  relFences := []
  drains := []
  past := []
  places := []

def Quire.reset : Quire := ⟨[], [], 0, 0, 0, 0, .idle, none, [], [], [], [], 0⟩

/-- A kettle as the spine sets it (R227). -/
def Kettle.reset (k : Nat) : Kettle :=
  ⟨0, if k < 64 then .open_ else .idle, 0, 0, 0, 0, 0, 0, [], 2, 0, [], false, [], []⟩

def Queue.reset : Queue := ⟨0, false, false, .disabled, 0, 0, 0, 0, 0, 0, 0, false, [], []⟩

/-- R201 gives KEY no reset value. DESIGN CHOICE: log entry 94. -/
def KeyEntry.reset : KeyEntry := ⟨0, false, 0, 0⟩

def CoreRegs.reset : CoreRegs := ⟨0, 0, 0, false, false, [], none, none, [], 0, 0, 0, [], [], []⟩

/-- The node page after package reset (R386); OFFER, PACKAGE, VERSION, SLOT and STANDBY_VALID are design choices. DESIGN CHOICE: log entry 10. DEDUCED: log entry 42. -/
def Node.reset : Node :=
  { root := 0, hbm := 0, fabric := false, keytab := false, invalq := false, launch := false, spine := false, half := 0,
    app := false, domain := 1, package := 0, offer := 0x3FF, accept := 1, done := false, qbase := 0, invalId := 0,
    svcId := 0, fwId := 0, svcHart := 0, fwHart := 0, level := 1, limit := 0x0C80, power := 0, tj := 0, clock := 0,
    vcore := 0, ctx := [], ctxEn := 0 }

def Firmware.reset : Firmware :=
  ⟨0, false, false, 0, false, false, false, false, false, false, false, 0x2710, 0, 0⟩

/-- The package right after reset. -/
def State.reset : State where
  dtc := 0
  leaves := []
  quires := []
  kfiles := []
  arrivals := []
  flips := []
  mem := []
  hist := []
  seen := []
  arFences := []
  agentClock := []
  agentPo := []
  freeMem := []
  privLines := []
  cores := []
  resv := []
  tlb := []
  ptrs := []
  inval := ⟨0, 0, 0, 0, false, false, [], []⟩
  atsReqs := []
  queues := []
  runs := []
  kill := ⟨0, 0, none⟩
  keys := []
  hbmPolicy := []
  wsPeriod := 0x07A12
  wsLength := 0x140
  wsNext := none
  services := []
  lastQueue := 255
  node := .reset
  fw := .reset
  journal := []
  i3cAddr := none
  lostPorts := []
  lostPkgs := []
  remotePkgs := 0
  msis := []
  cur := 0
  phase := .alone
  agenda := []
  free := 0
  nextId := 1
  reply := ⟨true, 0⟩
  prog := none

end Sys2Proof.Machine
end

