-- ==== Sys2Proof/Machine/Maps.lean ====
section
/-! DEFINITION. Sparse maps with rising keys, the named reads and writes of leaves and quires through them, and the
model's supply of free values and fresh identifiers. -/

namespace Sys2Proof.Machine

abbrev Out := Host.Outcome State Fault Refusal

def mapFind {α : Type} : Map α → Nat → Option α
  | [], _ => none
  | (j, a) :: r, k => if j = k then some a else mapFind r k

def mapGet {α : Type} (m : Map α) (k : Nat) (d : α) : α := (mapFind m k).getD d

/-- Writes a key, keeping the keys in rising order. -/
def mapPut {α : Type} : Map α → Nat → α → Map α
  | [], k, v => [(k, v)]
  | (j, a) :: r, k, v =>
    if k < j then (k, v) :: (j, a) :: r
    else if j = k then (k, v) :: r
    else (j, a) :: mapPut r k v

def mapDel {α : Type} (m : Map α) (k : Nat) : Map α := m.filter fun p => p.1 != k

/-- Writes a key of a map whose missing keys read as `d`: the default is not stored. -/
def mapSet {α : Type} [DecidableEq α] (m : Map α) (k : Nat) (d v : α) : Map α :=
  if v = d then mapDel m k else mapPut m k v

/-- The pointwise larger of two clocks. -/
def clockJoin (a b : Clock) : Clock := b.foldl (fun m p => if mapGet m p.1 0 < p.2 then mapPut m p.1 p.2 else m) a

def getLeaf (s : State) (g : Nat) : Leaf := mapGet s.leaves g .reset

def setLeaf (s : State) (g : Nat) (l : Leaf) : State := { s with leaves := mapPut s.leaves g l }

def updLeaf (s : State) (g : Nat) (f : Leaf → Leaf) : State := setLeaf s g (f (getLeaf s g))

def getQuire (s : State) (q : Nat) : Quire := mapGet s.quires q .reset

def setQuire (s : State) (q : Nat) (x : Quire) : State := { s with quires := mapPut s.quires q x }

def updQuire (s : State) (q : Nat) (f : Quire → Quire) : State := setQuire s q (f (getQuire s q))

/-- The acting leaf (R14: leaf `g` is leaf `g mod 4` of quire `g / 4` of cluster `g / 32`). -/
def State.leaf (s : State) : Leaf := getLeaf s s.cur

def State.upd (s : State) (f : Leaf → Leaf) : State := updLeaf s s.cur f

def quireOf (g : Nat) : Nat := g / 4
def clusterOf (g : Nat) : Nat := g / 32
def halfOf (g : Nat) : Nat := g / 384
def localLeaf (g : Nat) : Nat := g % 32

/-- The next free value (R1, R2). -/
def takeFree (s : State) : Vec × State := (Config.freeValue s.free, { s with free := s.free + 1 })

/-- The next free choice among `n` outcomes. -/
def takeChoice (s : State) (n : Nat) : Nat × State := (Config.freeChoice s.free % n, { s with free := s.free + 1 })

def fresh (s : State) : Nat × State := (s.nextId, { s with nextId := s.nextId + 1 })

/-- The low bits of a vector-wide value. -/
def low (n : Nat) (v : Vec) : BitVec n := v.setWidth n

/-- All ones in the low `n` bits. -/
def onesBelow (n : Nat) : Vec := BitVec.ofNat 16384 (2 ^ n - 1)

/-! ### Register banks (R15, R101) -/

/-- s0 reads zero. -/
def readS (l : Leaf) (n : BitVec 6) : Word := if n = 0 then 0 else mapGet l.sregs n.toNat 0

def readV (l : Leaf) (n : BitVec 9) : Vec := mapGet l.vregs n.toNat 0

def readM (l : Leaf) (n : BitVec 3) : Mask := mapGet l.mregs n.toNat 0

/-- A mask operand: m0 means all lanes. -/
def maskOf (l : Leaf) (n : BitVec 3) : Mask := if n = 0 then BitVec.allOnes 512 else readM l n

/-- A write to s0 is discarded. -/
def writeS (l : Leaf) (n : Nat) (v : Word) : Leaf :=
  if n = 0 then l else { l with sregs := mapSet l.sregs n 0 v }

def writeV (l : Leaf) (n : Nat) (v : Vec) : Leaf := { l with vregs := mapSet l.vregs n 0 v }

def writeM (l : Leaf) (n : Nat) (v : Mask) : Leaf := { l with mregs := mapSet l.mregs n 0 v }

/-- Latches l12 to l15 are never written, so they read zero (R34). -/
def readLatch (l : Leaf) (n : BitVec 4) : Vec := mapGet l.latches n.toNat 0

def readTok (l : Leaf) (k : Nat) : BitVec 16 := mapGet l.toks k 0

def readBond (l : Leaf) (b : Nat) : BitVec 12 := mapGet l.bonds b 1

def getFeed (l : Leaf) (f : Nat) : Feed := mapGet l.feeds f .reset

def getHandle (l : Leaf) (h : Nat) : Handle := mapGet l.handles h .reset

def setHandle (l : Leaf) (h : Nat) (x : Handle) : Leaf := { l with handles := mapSet l.handles h .reset x }

def getBuf (l : Leaf) (q : Nat) : Buf := mapGet l.bufs q .reset

def setBuf (l : Leaf) (q : Nat) (b : Buf) : Leaf := { l with bufs := mapSet l.bufs q .reset b }

def getShelf (l : Leaf) (n : Nat) : Shelf := mapGet l.shelves n .reset

def setShelf (l : Leaf) (n : Nat) (x : Shelf) : Leaf := { l with shelves := mapSet l.shelves n .reset x }

/-- The run of a leaf. -/
def findRun (s : State) (r : Nat) : Option Run := s.runs.find? fun x => x.id == r

def updRun (s : State) (r : Nat) (f : Run → Run) : State :=
  { s with runs := s.runs.map fun x => if x.id == r then f x else x }

def leafRun (s : State) (g : Nat) : Option Run := (getLeaf s g).run.bind (findRun s)

/-- The spine has asked the leaf's cluster to stop (R345). -/
def stopping (s : State) (g : Nat) : Bool :=
  match leafRun s g with
  | some r => r.preempt.contains (clusterOf g)
  | none => false

def getKettle (s : State) (c k : Nat) : Kettle := mapGet (mapGet s.kfiles c []) k (.reset k)

def setKettle (s : State) (c k : Nat) (x : Kettle) : State :=
  { s with kfiles := mapPut s.kfiles c (mapPut (mapGet s.kfiles c []) k x) }

def getQueue (s : State) (n : Nat) : Queue := mapGet s.queues n .reset

def setQueue (s : State) (n : Nat) (q : Queue) : State := { s with queues := mapPut s.queues n q }

/-- The leaves of a run that are on the device: every leaf whose `run` names it. -/
def runLeaves (s : State) (r : Nat) : List Nat := (s.leaves.filter fun p => p.2.run == some r).map Prod.fst

end Sys2Proof.Machine
end

