-- ==== Sys2Proof/Machine/Log.lean ====
section
/-! DEFINITION. The operand log and the trap log: what kinds of entry there are, which older entries hold one back
(R174, R177, R212, R215 to R217, R222, R225, R360), and what a leaf has acquired at a place in program order. -/

namespace Sys2Proof.Machine

/-- FENCE and DRAIN order others (R216, R217). -/
def LogOp.isMark : LogOp → Bool
  | .fence _ _ | .drain => true
  | _ => false

/-- What takes none of the 32 entries (R176): marks, and the device's own writes of task records (R376). -/
def LogOp.noEntry : LogOp → Bool
  | .fence _ _ | .drain | .task => true
  | _ => false

def LogOp.isAliasf : LogOp → Bool
  | .aliasf _ => true
  | _ => false

def LogOp.isLoad : LogOp → Bool
  | .load _ _ _ => true
  | _ => false

def LogOp.isAtom : LogOp → Bool
  | .atom _ _ _ _ _ => true
  | _ => false

def LogOp.isStore : LogOp → Bool
  | .store _ _ | .task => true
  | _ => false

def LogOp.isAccess (o : LogOp) : Bool := o.isLoad || o.isStore || o.isAtom

/-- Loads and returning atomics fault at their landing; the others at the next boundary (R178, R222, R246). -/
def LogOp.faultsAtLanding : LogOp → Bool
  | .load _ _ _ => true
  | .atom _ r _ _ _ => r
  | _ => false

def LogOp.isVecStore : LogOp → Bool
  | .store v _ => v
  | _ => false

def LogOp.acquires : LogOp → Bool
  | .load _ _ a => a
  | .atom _ _ _ ar _ => ar
  | _ => false

def LogOp.releases : LogOp → Bool
  | .store _ r => r
  | .task => true
  | .atom _ _ _ ar _ => ar
  | _ => false

/-- Byte ranges of two accesses overlap. -/
def overlap (a n b m : Nat) : Bool := decide (a < b + m) && decide (b < a + n)

def LogEntry.overlaps (e o : LogEntry) : Bool := overlap e.va.toNat e.size o.va.toNat o.size

/-- Has a translation, so that it may have left the leaf (R324); a mark stands where it stands. -/
def LogEntry.hasLeft (e : LogEntry) : Bool :=
  e.op.isMark || match e.stage with
    | .ready _ => true
    | _ => false

/-- The entry's translations, once it has them. -/
def LogEntry.trans (e : LogEntry) : List Trans :=
  match e.stage with
  | .ready ts => ts
  | _ => []

/-- Known to go to another package; an entry not yet translated is not known to (R215). -/
def LogEntry.remote (home : Nat) (e : LogEntry) : Bool := e.trans.any fun t => t.pkg != home

/-- May still turn out, or is, an access to this package's own memory. -/
def LogEntry.maybeLocal (home : Nat) (e : LogEntry) : Bool := e.op.isAccess && !e.remote home

def LogEntry.maybeRemote (home : Nat) (e : LogEntry) : Bool :=
  e.op.isAccess && (e.remote home || e.trans.isEmpty)

def LogEntry.maybeUncached (e : LogEntry) : Bool :=
  e.op.isAccess && (e.trans.isEmpty || e.trans.any fun t => t.cache == 2 || t.ms)

def LogEntry.uncached (e : LogEntry) : Bool := e.op.isAccess && e.trans.any fun t => t.cache == 2 || t.ms

/-- Entry `o`, older than `e`, keeps `e` from performing; `before` are the entries older than `o`. FENCEs leave remote
accesses alone (R215); a release waits for every older access (R225); an access waits for an older ALIASF of its leaf, so that
it comes after the writes that the ALIASF makes one with its own window's (R221, R222). DEDUCED: log entry 26. -/
def heldBy (home : Nat) (before : List LogEntry) (o e : LogEntry) : Bool :=
  match o.op with
  | .fence _ kind =>
    let rel := kind == 1 || kind == 3
    let acq := kind == 2 || kind == 3
    !e.remote home
      && ((rel && (e.op.isStore || e.op.isAtom) && before.any fun b => b.maybeLocal home || b.op.isAliasf)
        || (acq && e.op.isAccess && before.any fun b => (b.op.isLoad || b.op.isAtom) && b.maybeLocal home)
        || (kind == 3 && e.op.isLoad && before.any fun b => b.op.isStore && b.maybeLocal home))
  | .drain => (e.op.isAccess || e.op == .tlbinv || e.op.isAliasf) && before.any fun b => b.maybeRemote home
  | .tlbinv => !e.op.isMark
  | .aliasf _ => e.op.isAccess || e.op == .tlbinv
  | _ =>
    e.overlaps o && e.op.isAccess
      || (o.op.acquires && e.op.isAccess)
      || e.op.releases
      || (e.uncached && o.maybeUncached)
      || e.op == .tlbinv
      || e.op.isAliasf

/-- Some older entry of the log holds `e` back; `before` runs from the youngest. -/
def heldIn (home : Nat) : List LogEntry → LogEntry → Bool
  | [], _ => false
  | o :: older, e => heldBy home older o e || heldIn home older e

/-- The entries of a log older than the one with this identifier, youngest first. -/
def olderThan (log : List LogEntry) (id : Nat) : List LogEntry := (log.takeWhile fun e => e.id != id).reverse

def entryHeld (home : Nat) (log : List LogEntry) (e : LogEntry) : Bool := heldIn home (olderThan log e.id) e

/-- Marks with nothing left before them have no effect and go. -/
def dropMarks : List LogEntry → List LogEntry
  | [] => []
  | e :: r => if e.op.isMark then dropMarks r else e :: r

def removeEntry (log : List LogEntry) (id : Nat) : List LogEntry := dropMarks (log.filter fun e => e.id != id)

/-- The entry numbers not in use (R176). -/
def freeSlots (log : List LogEntry) (n : Nat) : List Nat :=
  (List.range n).filter fun k => !log.any fun e => !e.op.noEntry && e.slot == k

/-- Which of them an access takes is open (R417). -/
def freeSlot (log : List LogEntry) (n c : Nat) : Nat := (freeSlots log n).getD (c % (freeSlots log n).length) 0

/-- What the leaf has acquired at program-order number `p`: acquires up to there, an atomic's own among them, and loads that
read a release and precede a FENCE.ACQ (R212). Its own stream and the drained part of its remote stream count as well. -/
def leafClock (l : Leaf) (g p : Nat) : Clock :=
  let acq := (l.acqs.filter fun a => decide (a.1 ≤ p)).foldl (fun m a => clockJoin m a.2) []
  let fenced := (l.readSync.filter fun a => l.acqFences.any fun f => decide (a.1 < f) && decide (f < p)).foldl
    (fun m a => clockJoin m a.2) acq
  let dr := (l.drains.filter fun d => decide (d < p)).foldl Nat.max 0
  let moved := (l.past.filter fun a => decide (a.1 < dr)).foldl (fun m a => clockJoin m a.2) fenced
  let own := clockJoin moved [(g, p)]
  if dr = 0 then own else clockJoin own [(2000 + g, dr)]

/-- The clock for the leaf's own reads: its remote writes come before them as well (R211). -/
def leafReadClock (l : Leaf) (g p : Nat) : Clock :=
  l.past.foldl (fun m a => clockJoin m a.2) (clockJoin (leafClock l g p) [(2000 + g, p)])

/-- The release that an entry is itself, at DOMAIN scope (R212). -/
def entryOwn (l : Leaf) (g : Nat) (e : LogEntry) : List Release :=
  if e.op.releases then [⟨5, g, leafClock l g e.po, l.run⟩] else []

/-- The releases of earlier FENCEs that an entry's write carries (R212, R217). -/
def entryFenced (l : Leaf) (g : Nat) (e : LogEntry) : List Release :=
  (l.relFences.filter fun f => decide (f.1 < e.po)).map fun f => ⟨f.2, g, leafClock l g f.1, l.run⟩

end Sys2Proof.Machine
end

