-- ==== Sys2Proof/Machine/Ops.lean ====
section
/-! DEFINITION. What the whole bundle shares: results and their landing (R35 to R40), the drain and the latches of a
blocking bundle (R48), token posts (R271), taking a trap and returning from one (R319 to R339), the end of a run
(R339), and handle publishes (R190). -/

namespace Sys2Proof.Machine

/-! ### Results and landing -/

/-- Puts a result into the acting leaf's pipelines: readable `dist` positions after the one in issue (R37). -/
def addResult (s : State) (dist : Nat) (dest : Dest) (value mask : Vec) (latch : Option Nat) (rank : Nat)
    (flags : Flags) : State :=
  s.upd fun l => { l with inflight := l.inflight ++ [⟨dist, dest, value &&& mask, mask, latch, l.seq, rank, flags, none⟩] }

/-- The ranks of R40: the lower one is written. -/
def slotRank : Slot → Nat
  | .k => 0
  | .c => 1
  | .x => 2
  | .m => 3
  | .g => 4
  | .p => 5
  | .vb => 6
  | .va => 7
  | .s => 8

/-- A 64-bit result. -/
def addScalar (s : State) (dist : Nat) (sd : BitVec 6) (value : Word) (latch : Option Nat) (sl : Slot) : State :=
  addResult s dist (.s sd.toNat) (value.setWidth 16384) (onesBelow 64) latch (slotRank sl) 0

/-- Two results that land together on one register: `a` is written over `b` (R40). -/
def Result.beats (a b : Result) : Bool := decide (b.seq < a.seq) || (a.seq == b.seq && decide (a.rank < b.rank))

/-- Writes the bits a result's mask names; the others keep their value. -/
def writeDest (l : Leaf) (d : Dest) (value mask : Vec) : Leaf :=
  match d with
  | .none => l
  | .s n => writeS l n (low 64 value)
  | .v n => writeV l n ((mapGet l.vregs n 0 &&& ~~~mask) ||| value)
  | .m n => writeM l n ((mapGet l.mregs n 0 &&& ~~~(low 512 mask)) ||| low 512 value)

/-- One result of those that land at a position: register, latch and flags (R35, R40, R88). -/
def landOne (due : List Result) (l : Leaf) (r : Result) : Leaf :=
  let l1 := if due.any fun o => o.dest == r.dest && o.beats r then l else writeDest l r.dest r.value r.mask
  let l2 :=
    match r.latch with
    | some n => if due.any fun o => o.latch == r.latch && o.beats r then l1
                else { l1 with latches := mapSet l1.latches n 0 r.value }
    | none => l1
  { l2 with fstat := l2.fstat ||| r.flags.setWidth 64 }

/-- The results `d` positions away land. -/
def landAt (l : Leaf) (d : Nat) : Leaf :=
  let due := l.inflight.filter fun r => r.dist == d
  due.foldl (landOne due) { l with inflight := l.inflight.filter fun r => r.dist != d }

/-- The results whose landing position is the one about to issue. -/
def landDue (l : Leaf) : Leaf := landAt l 0

/-- Every result lands, in the order of landing positions (R48 step 1). -/
def landAll (l : Leaf) : Leaf := (List.range 64).foldl landAt l

/-- A result that must land now has its data (R43). -/
def dueArrived (l : Leaf) : Bool := l.inflight.all fun r => r.dist != 0 || r.waiting.isNone

def allArrived (l : Leaf) : Bool := l.inflight.all fun r => r.waiting.isNone

/-- Bits that land on a vector-wide value. -/
def mixBits (old value mask : Vec) : Vec := (old &&& ~~~mask) ||| (value &&& mask)

/-- Something lands in the course not taken: its value, and the entry whose data it awaits with the bits that wait. -/
def landLater (x : Vec × Option (Nat × Vec)) (p : Later) : Vec × Option (Nat × Vec) :=
  (mixBits x.1 p.value p.mask, match p.waiting with
    | some id => some (id, p.mask)
    | none => x.2.map fun h => (h.1, h.2 &&& ~~~p.mask))

/-- The open reads of latches once a drain has landed every result: a unit that has produced a result issued later is settled,
and the other courses have landed as well (R48, R50). -/
def drainLatches (rs : List Result) (ds : List (Nat × LatchDoubt)) : List (Nat × LatchDoubt) :=
  (ds.filter fun p => !rs.any fun r => r.latch == some p.1 && decide (p.2.seq < r.seq)).map fun p =>
    let (v, h) := p.2.pend.foldl landLater (p.2.alt, p.2.hole.map fun id => (id, onesBelow 16384))
    (p.1, { p.2 with alt := v, hole := h.map Prod.fst, pend := [] })

/-- The drain before an always-blocking bundle: no read of a register is open after it (R48, R50). -/
def drained (l : Leaf) : Leaf := { landAll l with doubts := ⟨[], drainLatches l.inflight l.doubts.latches⟩ }

/-- A blocking bundle's results land at one boundary, so that one of them is written to a register (R40, R48 step 4); one that
awaits its data keeps its place, or writes nothing where another wins. -/
def landTogether (l : Leaf) : Leaf :=
  let loses := fun (r : Result) => l.inflight.any fun o => o.dest == r.dest && o.beats r
  (l.inflight.filter fun r => r.waiting.isNone).foldl (landOne l.inflight)
    { l with inflight := (l.inflight.filter fun r => r.waiting.isSome).map fun r => if loses r then { r with dest := .none } else r }

/-- After a blocking bundle: every latch reads zero, and the bundle's results land before anything else, in the latches of
their units too (R48 steps 4 and 5). DEDUCED: log entry 102. -/
def settleBlocked (l : Leaf) : Leaf := { landTogether { l with latches := [] } with blocked := false }

/-- The data that open reads wait for have come. -/
def fillHole (id : Nat) (v : Vec) (d : Doubts) : Doubts :=
  let later := fun (p : Later) => if p.waiting = some id then { p with value := v &&& p.mask, waiting := none } else p
  { regs := d.regs.map fun x =>
      let y := { x with pend := x.pend.map later }
      match x.hole with
      | some (i, m) => if i = id then { y with alt := mixBits x.alt v m, hole := none } else y
      | none => y
    latches := d.latches.map fun x =>
      let y := { x.2 with pend := x.2.pend.map later }
      (x.1, if x.2.hole = some id then { y with alt := v, hole := none } else y) }

/-- The value of a load or atomic is fixed: the results that wait for it, in the pipelines or in the frame, hold it, and so do
open reads. -/
def fixValue (l : Leaf) (id : Nat) (v : Vec) : Leaf :=
  let f := fun (r : Result) => if r.waiting = some id then { r with value := v &&& r.mask } else r
  { l with
    inflight := l.inflight.map f, doubts := fillHole id v l.doubts, held := fillHole id v l.held
    frame := l.frame.map fun fr => { fr with inflight := fr.inflight.map f, doubts := fillHole id v fr.doubts,
                                             held := fillHole id v fr.held } }

/-- The data of a load are in the landing buffer. -/
def markArrived (l : Leaf) (id : Nat) : Leaf :=
  let f := fun (r : Result) => if r.waiting = some id then { r with waiting := none } else r
  { l with inflight := l.inflight.map f, frame := l.frame.map fun fr => { fr with inflight := fr.inflight.map f } }

def awaits (l : Leaf) (id : Nat) : Bool :=
  (l.inflight.any fun r => r.waiting == some id)
    || (match l.frame with
        | some fr => fr.inflight.any fun r => r.waiting == some id
        | none => false)

/-! ### Trap registers -/

/-- The codes of R321. -/
def Cause.code : Cause → Nat
  | .illegalBundle => 0x01
  | .illegalOp => 0x02
  | .illegalFmt => 0x03
  | .privilege => 0x04
  | .break_ => 0x05
  | .software => 0x06
  | .pageFaultR => 0x08
  | .pageFaultW => 0x09
  | .pageFaultX => 0x0A
  | .access => 0x0B
  | .align => 0x0C
  | .sheetBounds => 0x0D
  | .guard => 0x0E
  | .key => 0x0F
  | .formatEmul => 0x10
  | .boundaryOverflow => 0x11
  | .shelf => 0x12
  | .handleState => 0x13
  | .queueConfig => 0x14
  | .tokenOverflow => 0x15
  | .kettle => 0x16
  | .epiStore => 0x17
  | .copyFault => 0x18
  | .timeRange => 0x19
  | .watch => 0x1A
  | .double => 0x1B
  | .gathering => 0x1C

/-- The slot numbers of TRAP_CAUSE (R326). -/
def slotCode : Slot → Nat
  | .s => 1
  | .va => 2
  | .vb => 3
  | .p => 4
  | .g => 5
  | .m => 6
  | .x => 7
  | .c => 8
  | .k => 9

/-- TRAP_CAUSE (R326). -/
def Trap.word (t : Trap) : Word :=
  BitVec.ofNat 64 (t.cause.code + t.detail % 32 * 2 ^ 8 + t.slot % 16 * 2 ^ 13 + t.unit % 8 * 2 ^ 17
    + t.obj % 256 * 2 ^ 20 + (if t.async then 2 ^ 28 else 0) + (if t.late then 2 ^ 29 else 0))

/-- The word of a DOUBLE: CAUSE 0x1B, DETAIL the cause raised at trap level (R337). -/
def Trap.doubleWord (t : Trap) : Word := { t with cause := .double, detail := t.cause.code }.word

/-- ALIGN of something that is no virtual address: R328 names no value for TRAP_FVA. DEDUCED: log entry 44. -/
def alignTrap (slot : Nat) : Trap := { cause := .align, slot := slot, fvaOpen := true }

/-- A cause found at decode or issue in a slot. -/
def slotTrap (c : Cause) (sl : Slot) (detail : Nat := 0) (fva : Word := 0) : Trap :=
  { cause := c, slot := slotCode sl, detail := detail, fva := fva }

/-! ### Suspended entries -/

/-- An entry of the operand log at trap entry: it holds no translation any more; the one whose WATCH is the trap taken is
reissued once without the check (R324, R333). -/
def suspend (t : Trap) (e : LogEntry) : LogEntry :=
  { e with stage := .suspended, watchOff := t.cause == .watch && t.op == e.id }

/-- Suspends the log, but for entries that have left the leaf: translated, held by nothing older, and sent, which is a
free choice of each (R324). DEDUCED: log entry 43. -/
def suspendLog (home : Nat) (t : Trap) (log : List LogEntry) (n : Nat) : List LogEntry :=
  log.mapIdx fun i e =>
    match e.stage with
    | .ready _ => if !entryHeld home log e && Config.freeChoice (n + i) % 2 == 1 then e else suspend t e
    | _ => if e.op.isMark then e else suspend t e

/-! ### The end of a run (R208, R318, R339, R378) -/

/-- Package, cluster and kettle of a kettle in one number. -/
def kettleNo (pkg c k : Nat) : Nat := pkg * 65536 + c * 256 + k

/-- A leaf of an ended run: it issues nothing more, its results and queued engine work are gone, and its shelves are
deconfigured. Its log entries in `keep` still perform. -/
def stopLeaf (l : Leaf) (keep : List LogEntry) : Leaf :=
  { l with exited := true, inflight := [], wait := .none, frame := none, swPend := none, asyncPend := [], pq := [],
           tq := [], sewq := [], sigq := [], sigtq := [], shelves := [], olog := keep, tlog := [] }

/-- A run's entry with how it ended; the first ending stands (R339). -/
def setEnding (s : State) (r : Nat) (e : Ending) : State :=
  updRun s r fun x =>
    match x.ending with
    | some _ => x
    | none => { x with ending := some e, stage := .ended, saved := [] }

/-- The memory of package `pkg` at a device physical address, as a key. -/
def memKey (pkg addr : Nat) : Nat := pkg * 2 ^ 48 + addr

def quirePurge (s : State) (r : Nat) (q : Quire) : Quire :=
  { q with copies := q.copies.filter fun c => (getLeaf s c.leaf).run != some r
             || (c.service.isNone && (c.released || decide (c.stamp.toNat ≤ s.dtc.toNat)))
           staging := q.staging.filter fun p => (getLeaf s p.2.leaf).run != some r }

/-- Ends a run that is not over: every leaf stops, unreleased copies and engine work are purged (R208, R339). Log entries
that have left the leaf may still perform; the others are dropped. DEDUCED: log entry 47. -/
def endRun (s : State) (r : Nat) (e : Ending) : State :=
  match findRun s r with
  | none => s
  | some run =>
    if run.ending.isSome then s
    else
      let s1 := { s with quires := s.quires.map fun (p : Nat × Quire) => (p.1, quirePurge s r p.2) }
      let s2 := { s1 with
        leaves := s1.leaves.map (fun (p : Nat × Leaf) =>
          (p.1, if p.2.run = some r then
                  stopLeaf p.2 ((suspendLog s.node.package.toNat { cause := .access } p.2.olog (s.free + 40 * p.1)).filter
                    fun e => e.stage != .suspended && !e.op.isMark)
                else p.2)),
        free := s1.free + 40 * 768,
        arrivals := s1.arrivals.filter (fun a => a.run != r),
        flips := s1.flips.filter (fun f => f.run != r),
        services := s1.services.filter (fun v => v.run != r) }
      setEnding s2 r e

/-- The run ends with status FAULT, naming a leaf (R339). -/
def faultEnd (s : State) (g : Nat) (cause pc fva : Word) : State :=
  match (getLeaf s g).run with
  | none => s
  | some r => endRun s r ⟨1, g, cause.setWidth 32, pc, fva, none⟩

/-! ### Taking a trap (R319 to R328) -/

/-- TRAP_CAUSE, TRAP_PC, TRAP_NPC, TRAP_FVA and TRAP_CTL as a trap leaves them (R326 to R329). -/
def setTrapRegs (l : Leaf) (t : Trap) : Leaf :=
  { l with trapCause := t.word, trapPc := l.pc, trapFva := t.fva,
           trapNpc := match l.delay with | .taken n => n | _ => l.pc + 1,
           trapCtl := match l.delay with | .taken _ => 4 | _ => 0 }

/-- The frame a stop at a bundle boundary fills (R324). -/
def captureFrame (l : Leaf) : Frame :=
  ⟨l.inflight, l.latches, l.fmt, l.fmtPend, l.loopOuter, l.loopInner, l.wait, l.blocked, l.waited, l.delay, l.pc,
    l.doubts, l.held, l.swPend⟩

/-- The handler's entry for a cause (R320). -/
def trapVector (l : Leaf) (t : Trap) : Option Word :=
  let v := if t.cause = .formatEmul && l.emulVec.getLsbD 12 then l.emulVec else l.trapVec
  if v.getLsbD 12 then some (v &&& 0xFFF) else none

/-- A decode or issue cause of one slot, which SKIPSLOT can pass over (R329). -/
def Trap.ofSlot (t : Trap) : Bool := !t.async && !t.late && decide (1 ≤ t.slot) && decide (t.slot ≤ 9)

/-- The leaf at the handler's first bundle. -/
def enterHandler (l : Leaf) (t : Trap) (entry : Word) (home n : Nat) : Leaf :=
  { setTrapRegs l t with
    frame := some (captureFrame l), level := .trap, pc := entry, inflight := [], latches := [], fmt := 0, fmtPend := [],
    loopOuter := 0, loopInner := 0, wait := .none, blocked := false, waited := false, delay := .none, xfer := .none,
    rteDue := false, skipSlot := 0, olog := suspendLog home t l.olog n, handling := if t.async then some t else none,
    slotCause := t.ofSlot, doubts := .none, held := .none, swPend := none }

/-- Takes a trap whose record is settled. -/
def enterTrap (s : State) (t : Trap) : State :=
  let l := s.leaf
  match l.level with
  | .trap => faultEnd (s.upd fun l => { l with trapCause := t.doubleWord }) s.cur t.doubleWord l.trapPc l.trapFva
  | .ordinary =>
    match trapVector l t with
    | some entry =>
      { s.upd fun l => enterHandler l t entry s.node.package.toNat s.free with free := s.free + l.olog.length }
    | none =>
      let s1 := s.upd fun l => setTrapRegs l t
      faultEnd s1 s.cur s1.leaf.trapCause s1.leaf.trapPc s1.leaf.trapFva

/-- A BOUNDARY_OVERFLOW rewrites SEW_FAULT (R284). -/
def noteSewFault (l : Leaf) (t : Trap) : Leaf := if t.cause = .boundaryOverflow then { l with sewFault := t.sewFault } else l

/-- Takes a trap at the acting leaf's boundary: into the handler, or the run ends because no vector is enabled or
because the leaf is at trap level already (R320, R324, R337, R339). TRAP_FVA is free where R328 names no address. -/
def takeTrap (s : State) (t : Trap) : State :=
  let s0 := s.upd fun l => noteSewFault l t
  if t.fvaOpen then
    let (v, s1) := takeFree s0
    enterTrap s1 { t with fva := low 64 v, fvaOpen := false }
  else enterTrap s0 t

/-! ### Causes that fall due at a boundary (R323, ranks 1 to 4) -/

def lateTrap (e : LogEntry) (c : Cause) (fva : Word) : Trap :=
  { cause := c, slot := (match e.op with | .aliasf _ => 9 | _ => 5), obj := e.slot, late := true, fva := fva, op := e.id }

/-- The oldest entry whose fault is due: a store's at any boundary. -/
def lateStore : List LogEntry → Option Trap
  | [] => none
  | e :: r =>
    match e.stage with
    | .faulted c fva => if e.op.faultsAtLanding then lateStore r else some (lateTrap e c fva)
    | _ => lateStore r

/-- A faulted load whose landing is due, or that a drain awaits. -/
def lateLoad (inflight : List Result) (drain : Bool) : List LogEntry → Option Trap
  | [] => none
  | e :: r =>
    match e.stage with
    | .faulted c fva =>
      if e.op.faultsAtLanding && inflight.any fun x => x.waiting == some e.id && (drain || x.dist == 0)
      then some (lateTrap e c fva) else lateLoad inflight drain r
    | _ => lateLoad inflight drain r

/-- The cause to take now, and the leaf without it among its pending causes. -/
def dueCause (l : Leaf) (drain : Bool) : Option (Trap × Leaf) :=
  match l.level with
  | .trap =>
    match lateStore l.tlog, lateLoad l.inflight drain l.tlog, l.swPend with
    | some t, _, _ => some (t, l)
    | none, some t, _ => some (t, l)
    | none, none, some t => some (t, l)
    | none, none, none => none
  | .ordinary =>
    match lateStore l.olog, lateLoad l.inflight drain l.olog, l.swPend, l.asyncPend with
    | some t, _, _, _ => some (t, l)
    | none, some t, _, _ => some (t, l)
    | none, none, some t, _ => some (t, { l with swPend := none })
    | none, none, none, t :: r => some (t, { l with asyncPend := r })
    | none, none, none, [] => none

/-- Takes the due cause of ranks 1 to 4, if there is one. -/
def takeDue (s : State) (drain : Bool) : Option State :=
  match dueCause s.leaf drain with
  | some (t, l) => some (takeTrap (setLeaf s s.cur l) t)
  | none => none

/-! ### Asynchronous causes and tokens -/

/-- R379: what a leaf that has exited does with a cause of its engine work. -/
def endsAfterExit (t : Trap) : Bool :=
  match t.cause with
  | .tokenOverflow => false
  | .copyFault => 0x40 ≤ t.obj
  | _ => true

/-- Reports an asynchronous cause at its leaf: DOUBLE from trap-level work, held until a boundary, or R379 after EXIT. -/
def raiseAsync (s : State) (g : Nat) (atTrap : Bool) (t : Trap) : State :=
  let l := getLeaf s g
  if atTrap then
    faultEnd (updLeaf s g fun l => { l with trapCause := t.doubleWord }) g t.doubleWord l.trapPc l.trapFva
  else if l.exited then
    if endsAfterExit t then faultEnd s g t.word l.pc t.fva else s
  else setLeaf s g { l with asyncPend := l.asyncPend ++ [t] }

/-- One post (R271). `clk` is what the completion makes visible to the leaf that sees the count (R212, R287); a post that is
lost makes nothing visible. -/
def postToken (s : State) (g k : Nat) (clk : Clock) : State :=
  let l := getLeaf s g
  if readTok l k = 0xFFFF then raiseAsync s g (k == 15) { cause := .tokenOverflow, unit := 5, obj := k, async := true }
  else setLeaf s g { l with
    tokClocks := mapPut l.tokClocks k (clockJoin (mapGet l.tokClocks k []) clk), toks := mapSet l.toks k 0 (readTok l k + 1) }

def postOpt (s : State) (g : Nat) (tok : Option Nat) (clk : Clock) : State :=
  match tok with
  | some k => postToken s g k clk
  | none => s

/-- The token field of a form. -/
def tokOf (kt : BitVec 4) (tk : Bool) : Option Nat := if tk then some kt.toNat else none

/-- The acting leaf acquires: from its present place on, its accesses come after what `c` names (R212). -/
def acquire (l : Leaf) (c : Clock) : Leaf :=
  if c.isEmpty then l else { l with acqs := l.acqs ++ [(l.po, c)], po := l.po + 1 }

/-! ### Handles (R188, R190) -/

/-- The code of a handle's state (R188, R205). -/
def Handle.state (h : Handle) : Nat :=
  if !h.cfg then 0 else if h.ecause ≠ 0 then 4 else if 0 < h.drain then 3 else if 0 < h.fill then 1 else 2

/-- FILL and DRAIN are both 0: what a waiting bundle waits for (R189). -/
def Handle.quiet (h : Handle) : Bool := h.fill == 0 && h.drain == 0

/-! ### Running an operation -/

/-! ### Reads after a conditionally blocking bundle (R50) -/

def destVec (l : Leaf) : Dest → Vec
  | .none => 0
  | .s n => (mapGet l.sregs n 0).setWidth 16384
  | .v n => mapGet l.vregs n 0
  | .m n => (mapGet l.mregs n 0).setWidth 16384

/-- The latches of the units (R34). -/
def unitLatches : List Nat := List.range 12

/-- The registers that results of a list land on. -/
def destsOf (rs : List Result) : List Dest := ((rs.map fun r => r.dest).filter fun d => d != .none).eraseDups

/-- Of results that land together on one register or latch, the one that is written (R40, R126). -/
def strongest (rs : List Result) : List Result := rs.filter fun r => !rs.any fun o => o.beats r

/-- The results of one register or latch that are written, in the order of their landing positions. -/
def landingOrder (rs : List Result) : List Result :=
  (List.range 64).flatMap fun k => strongest (rs.filter fun r => r.dist == k)

/-- The farthest landing of some results. -/
def lastDist (rs : List Result) : Nat := rs.foldl (fun n r => max n r.dist) 0

/-- A result as the course not taken lands it. -/
def Result.later (r : Result) : Later := ⟨r.dist, r.value, r.mask, r.waiting⟩

/-- A register after a bundle that did not wait: had it waited, every earlier result would have landed at its position, and
then its own together (R48, R49). -/
def unwaitedDoubt (l : Leaf) (seq : Nat) (rs : List Result) (d : Dest) : Doubt :=
  let all := rs.filter fun r => r.dest == d
  let mine := landingOrder (all.filter fun r => r.seq != seq) ++ strongest (all.filter fun r => r.seq == seq)
  let (v, hole) := (mine.map Result.later).foldl landLater (destVec l d, none)
  ⟨d, seq, lastDist all, v, hole, []⟩

/-- A register after a bundle that waited: had it not, the results in flight would land one by one. -/
def waitedDoubt (l : Leaf) (seq : Nat) (rs : List Result) (d : Dest) : Doubt :=
  let mine := landingOrder (rs.filter fun r => r.dest == d)
  ⟨d, seq, lastDist mine, destVec l d, none, mine.map Result.later⟩

/-- A latch after a bundle that waited: had it not, it would keep its contents, also those of an older course not taken, and
take in the results in flight. -/
def waitedLatch (l : Leaf) (seq : Nat) (rs : List Result) (u : Nat) : List (Nat × LatchDoubt) :=
  let mine := (landingOrder (rs.filter fun r => r.latch == some u)).map Result.later
  let own := if mapGet l.latches u 0 = 0 && mine.isEmpty then [] else [(u, ⟨seq, mapGet l.latches u 0, none, mine⟩)]
  own ++ ((drainLatches rs l.doubts.latches).filter fun p => p.1 == u).map fun p => (u, { p.2 with seq := seq })

/-- A latch after a bundle that did not wait: had it waited, it would read zero, or hold the bundle's own result. -/
def unwaitedLatch (l : Leaf) (seq : Nat) (u : Nat) : Option (Nat × LatchDoubt) :=
  let mine := l.inflight.filter fun r => r.latch == some u
  let (v, hole) := ((strongest (mine.filter fun r => r.seq == seq)).map Result.later).foldl landLater (0, none)
  if mapGet l.latches u 0 = 0 && mine.isEmpty then none else some (u, ⟨seq, v, hole.map Prod.fst, []⟩)

/-- What the waiting of the bundle at the leaf's position will leave open. -/
def waitedDoubts (l : Leaf) (seq : Nat) (rs : List Result) : Doubts :=
  ⟨(destsOf rs).map (waitedDoubt l seq rs), unitLatches.flatMap (waitedLatch l seq rs)⟩

/-- Something lands in the course not taken: what lands in both, over which an older result of the same position writes
nothing (R126), or what was due there. -/
def landAlt (x : Vec × Option (Nat × Vec)) (pend : List Later) (now : List Result) : (Vec × Option (Nat × Vec)) × List Later :=
  let due := if now.isEmpty then pend.filter fun p => p.dist ≤ 1 else []
  ((now.map Result.later).foldl landLater (due.foldl landLater x),
   (pend.filter fun p => 1 < p.dist).map fun p => { p with dist := p.dist - 1 })

/-- Later landings join earlier-issued ones: at one position the later-issued is written (R40). -/
def addLater (pend own : List Later) : List Later := (pend.filter fun p => !own.any fun q => q.dist == p.dist) ++ own

/-- One position on; `now` lands as the next bundle issues. -/
def passDoubt (now : List Result) (d : Doubt) : Option Doubt :=
  let mine := (landingOrder (now.filter fun r => r.dest == d.dest)).filter fun r => decide (d.seq < r.seq)
  let (x, pend) := landAlt (d.alt, d.hole) d.pend mine
  if d.dist ≤ 1 then none else some { d with dist := d.dist - 1, alt := x.1, hole := x.2, pend := pend }

def passLatch (now : List Result) (p : Nat × LatchDoubt) : Option (Nat × LatchDoubt) :=
  if now.any fun r => r.latch == some p.1 && decide (p.2.seq < r.seq) then none
  else
    let (x, pend) := landAlt (p.2.alt, p.2.hole.map fun id => (id, onesBelow 16384)) p.2.pend []
    some (p.1, { p.2 with alt := x.1, hole := x.2.map Prod.fst, pend := pend })

/-- The doubts as the next bundle will find them. -/
def passAll (now : List Result) (d : Doubts) : Doubts := ⟨d.regs.filterMap (passDoubt now), d.latches.filterMap (passLatch now)⟩

/-- Older doubts and newer ones; a newer one of a latch with the same contents, which is open for longer, stands for both. -/
def joinDoubts (a b : Doubts) : Doubts :=
  let same := fun (p q : Nat × LatchDoubt) => p.1 == q.1 && p.2.alt == q.2.alt && p.2.hole == q.2.hole && p.2.pend == q.2.pend
  ⟨a.regs ++ b.regs, (a.latches.filter fun p => !b.latches.any (same p)) ++ b.latches⟩

/-- The bundle's own results, too, would land one by one had it not waited. -/
def addOwn (l : Leaf) (seq : Nat) (rs : List Result) (h : Doubts) : Doubts :=
  let later := fun (ms : List Result) => (landingOrder ms).map Result.later
  let ofDest := fun (d : Dest) => rs.filter fun r => r.dest == d
  let ofUnit := fun (u : Nat) => rs.filter fun r => r.latch == some u
  let fresh := (destsOf rs).filter fun d => !h.regs.any fun x => x.dest == d
  let freshUnits := unitLatches.filter fun u => !(ofUnit u).isEmpty && !h.latches.any fun p => p.1 == u
  ⟨(h.regs.map fun x => { x with dist := max x.dist (lastDist (ofDest x.dest)), pend := addLater x.pend (later (ofDest x.dest)) })
      ++ fresh.map (waitedDoubt l seq rs),
   (h.latches.map fun p => (p.1, { p.2 with pend := addLater p.2.pend (later (ofUnit p.1)) }))
      ++ freshUnits.map fun u => (u, ⟨seq, 0, none, later (ofUnit u)⟩)⟩

/-- The open reads after a bundle: `cond` says that it was conditionally blocking, `blocks` always blocking; `o` is the leaf
as it issued and `l` the leaf at the boundary after it, its results one position nearer. What an older course would give a
latch is among what the wait has put aside. -/
def passDoubts (blocks cond : Bool) (o l : Leaf) : Leaf :=
  if blocks then { l with doubts := .none, held := .none }
  else
    let now := l.inflight.filter fun r => r.dist == 0
    if !cond then { l with doubts := passAll now l.doubts, held := .none }
    else
      let older := passAll now l.doubts
      if o.waited then
        let own := l.inflight.map fun r => { r with dist := r.dist + 1 }
        { l with doubts := joinDoubts ⟨older.regs, []⟩ (passAll [] (addOwn l o.seq own l.held)), held := .none }
      else
        let flying := l.inflight.filter fun r => decide (0 < r.dist)
        { l with
          doubts := joinDoubts older
            ⟨(destsOf flying).map (unwaitedDoubt l o.seq l.inflight), unitLatches.filterMap (unwaitedLatch l o.seq)⟩
          held := .none }

/-- The registers and latches as they stand, once the bundle has read them. -/
def ownReads (o l : Leaf) : Leaf :=
  if o.doubts.regs.isEmpty && o.doubts.latches.isEmpty then l
  else { l with sregs := o.sregs, vregs := o.vregs, mregs := o.mregs, latches := o.latches }

/-- One frozen cycle of the acting leaf's quire (R43). DEDUCED: log entry 14. -/
def freezeOnce (s : State) : State := updQuire s (quireOf s.cur) fun q => { q with freeze := q.freeze + 1 }

/-- A leaf waiting at issue: its earlier results have landed and it is parked (R49). Its own reads see them (R48). -/
def parkAtIssue (l : Leaf) : Leaf :=
  { drained l with
    wait := .atIssue, waited := true
    held := if l.waited then l.held else waitedDoubts l l.seq l.inflight }

/-- The selector goes on after the leaf: it is parked (R381). -/
def passSelector (s : State) (g : Nat) : State :=
  updQuire s (quireOf g) fun q =>
    if q.sel = g % 4 then { q with sel := (g % 4 + 1) % 4, freeze := 0, gsync := .idle } else q

/-- The drain before a wait at issue completes late landings first (R48 step 1, R49). -/
def waitAtIssue (s : State) : State := if allArrived s.leaf then passSelector (s.upd parkAtIssue) s.cur else freezeOnce s

end Sys2Proof.Machine
end

