-- ==== Sys2Proof/Machine/Operands.lean ====
section
/-! DEFINITION. Operand forms: scalar sources (R31), vector sources with their views (R32, R33, R122, R123), elements of
a vector (R120), lane masks (R124), and how an operation with issue checks runs (R30, R49, R168). -/

namespace Sys2Proof.Machine

/-! ### Running -/

/-- Where the acting leaf decodes a bundle (R12, R17, R53, R113). DEDUCED: log entry 20. -/
def decodeCtx (s : State) : DecodeCtx :=
  { trapLevel := s.leaf.level == .trap, features := s.node.accept, inDelay := s.leaf.delay != .none, index := s.leaf.pc.toNat }

/-- The slot of an operation. -/
def instrSlot (i : Instr) : Slot :=
  match encodeSlot i with
  | some (sl, _) => sl
  | none => .k

/-- The cause an operation on its own raises before it issues: those of decode, then those of issue (R323). -/
def ownCause (i : Instr) (cause : Option Trap) (s : State) : Option Trap :=
  if i.ctxIllegal (decodeCtx s) then some (slotTrap .illegalOp (instrSlot i)) else cause

/-- Runs an operation with issue checks: in a bundle whose checks have passed it has its effect; on its own it takes the
trap its checks give, waits at issue, or has its effect. DESIGN CHOICE: log entry 5. -/
def runOp (i : Instr) (cause : State → Option Trap) (waits : State → Bool) (eff : State → State) (s : State) : Out :=
  match s.phase with
  | .effect => .next (eff s)
  | .alone =>
    match ownCause i (cause s) s with
    | some t => .next (takeTrap s t)
    | none => if waits s then .next (waitAtIssue s) else .next (eff s)

/-- An always-blocking operation on its own: every earlier result lands first, and the bundle's own land at the boundary
after it (R48). -/
def runBlocking (i : Instr) (cause : State → Option Trap) (waits : State → Bool) (eff : State → State) (s : State) : Out :=
  match s.phase with
  | .effect => .next (eff s)
  | .alone =>
    if !allArrived s.leaf then .next (freezeOnce s)
    else
      let s0 := s.upd landAll
      match ownCause i (cause s0) s0 with
      | some t => .next (takeTrap s0 t)
      | none => if waits s0 then .next (waitAtIssue s0) else .next ((eff s0).upd fun l => { l with blocked := true })

def noCause (_ : State) : Option Trap := none
def noWait (_ : State) : Bool := false

/-- Runs an operation whose only checks are those of decode. -/
def runPlain (i : Instr) (eff : State → State) (s : State) : Out := runOp i noCause noWait eff s

/-! ### Scalar sources -/

/-- A register, or bits 63:0 of a latch (R31, R34). -/
def readSrc (l : Leaf) : ScalarSrc → Word
  | .reg n => readS l n
  | .latch n => low 64 (readLatch l n)

def sx32 (i : BitVec 32) : Word := i.signExtend 64

/-! ### Elements (R120, R149) -/

/-- Splits a number into `n` elements of `w` bits, element 0 first. -/
def splitNat (w : Nat) : Nat → Nat → List Nat
  | 0, _ => []
  | n + 1, x => x % 2 ^ w :: splitNat w n (x / 2 ^ w)

/-- Packs elements of `w` bits, element 0 lowest. -/
def packNat (w : Nat) : List Nat → Nat
  | [] => 0
  | x :: r => x % 2 ^ w + 2 ^ w * packNat w r

def elements (w : Nat) (v : Vec) : List Nat := splitNat w (16384 / w) v.toNat

def ofElements (w : Nat) (l : List Nat) : Vec := BitVec.ofNat 16384 (packNat w l)

def lanes (v : Vec) : List Nat := elements 32 v

/-- Two's-complement or unsigned reading of an element. -/
def readElem (signed : Bool) (e x : Nat) : Int :=
  if signed && decide (2 ^ (e - 1) ≤ x) then (x : Int) - 2 ^ e else x

/-- The low `e` bits of an integer. -/
def narrow (e : Nat) (x : Int) : Nat := (x % (2 ^ e : Nat)).toNat

def isSigned : ITy → Bool
  | .i32 | .i16 | .i8 => true
  | _ => false

/-! ### Views -/

/-- How a half is widened (R123). -/
inductive Widen where
  | sign | float | zero
  deriving DecidableEq, Repr

def widen (w : Widen) (h : Nat) : Nat :=
  match w with
  | .sign => if 2 ^ 15 ≤ h then h + 0xFFFF0000 else h
  | .float => h * 65536
  | .zero => h

/-- One lane through a view; `w` is how a half widens for 32-bit elements, none for narrower ones (R122). -/
def viewLane (view : Nat) (w : Option Widen) (lane : Nat) : Nat :=
  let lo := lane % 65536
  let hi := lane / 65536 % 65536
  let half := fun h => match w with
    | some x => widen x h
    | none => h * 65536 + h
  if view = 0 then lane
  else if view = 1 then half lo
  else if view = 2 then half hi
  else if view = 3 then lo * 65536 + hi
  else if view < 8 then lane / 2 ^ (8 * (view - 4)) % 256 * 0x01010101
  else lane / 2 ^ (4 * (view - 8)) % 16 * 0x11111111

def readBase (l : Leaf) : VecBase → Vec
  | .reg n => readV l n
  | .latch n => readLatch l n

/-- A vector source after its view, for elements of `e` bits. -/
def readVec (l : Leaf) (v : VecSrc) (e : Nat) (w : Widen) : Vec :=
  let x := readBase l v.base
  if v.view = 0 then x
  else ofElements 32 ((lanes x).map (viewLane v.view.toNat (if e = 32 then some w else none)))

/-- A source's elements. -/
def readElems (l : Leaf) (v : VecSrc) (e : Nat) (w : Widen) : List Nat := elements e (readVec l v e w)

/-! ### Masks -/

def maskBits (m : Mask) : List Bool := (List.range 512).map fun i => m.getLsbD i

/-- The register bits of the enabled lanes. -/
def laneMask (m : Mask) : Vec :=
  if m = BitVec.allOnes 512 then BitVec.allOnes 16384
  else ofElements 32 ((maskBits m).map fun b => if b then 0xFFFFFFFF else 0)

/-- Whether each element of `e` bits lies in an enabled lane. -/
def elemEnabled (m : Mask) (e : Nat) : List Bool := (maskBits m).flatMap fun b => List.replicate (32 / e) b

/-! ### Delivering vector results (R34, R124, R125) -/

def vecRank (u : VUnit) : Nat := slotRank u.slot

def intLatch : VUnit → Nat
  | .a => 2
  | .b => 4

def floatLatch : VUnit → Nat
  | .a => 3
  | .b => 5

def vecDest (nowb : Bool) (vd : BitVec 9) : Dest := if nowb then .none else .v vd.toNat

def addVec (s : State) (lat : Nat) (nowb : Bool) (vd : BitVec 9) (value mask : Vec) (latch rank : Nat) (flags : Flags) :
    State :=
  addResult s lat (vecDest nowb vd) value mask (some latch) rank flags

/-- A mask result: every bit is written, no latch (R124). -/
def addMask (s : State) (lat : Nat) (md : BitVec 3) (bits : List Bool) (rank : Nat) : State :=
  addResult s lat (.m md.toNat) (BitVec.ofNat 16384 (packNat 1 (bits.map Bool.toNat))) (onesBelow 512) none rank 0

end Sys2Proof.Machine
end

