-- ==== Sys2Proof/Machine/Buffers.lean ====
section
/-! DEFINITION. Circular buffers as rings of entries (R250 to R254), and the chunks that press operations read (R247,
R255). -/

namespace Sys2Proof.Machine

/-! ### Rings (R250) -/

def Buf.ent (b : Buf) (i : Nat) : Ent := mapGet b.ents i .free

def Buf.setEnt (b : Buf) (i : Nat) (e : Ent) : Buf := { b with ents := mapSet b.ents i .free e }

def Buf.count (b : Buf) (e : Ent) : Nat := (b.ents.filter fun p => p.2 == e).length

/-- The entry `k` places after one, cyclically. -/
def Buf.after (b : Buf) (i k : Nat) : Nat := (i + k) % b.cap

/-- The next `n` entries at the fill point are Free (R250: an entry is reserved at the fill point). DEDUCED: log entry 54. -/
def Buf.roomFor (b : Buf) (n : Nat) : Bool :=
  decide (n ≤ b.cap) && (List.range n).all fun k => b.ent (b.after b.fill k) == .free

/-- Written entries become Filled in fill order, from the drain point to the first Reserved one; a FAULTED buffer fills
no further entry (R250, R254). -/
def promoteFrom (b : Buf) : Nat → Nat → Buf
  | 0, _ => b
  | n + 1, i =>
    match b.ent i with
    | .written => promoteFrom (b.setEnt i .filled) n (b.after i 1)
    | .filled | .void => promoteFrom b n (b.after i 1)
    | _ => b

def Buf.promote (b : Buf) : Buf := if b.faulted then b else promoteFrom b b.cap b.drain

/-- Reserves `n` entries at the fill point: their indices and the buffer after it. -/
def Buf.reserve (b : Buf) (n : Nat) (e : Ent) : List Nat × Buf :=
  let is := (List.range n).map fun k => b.after b.fill k
  (is, { is.foldl (fun b i => b.setEnt i e) b with fill := if b.cap = 0 then 0 else b.after b.fill n })

/-- The first `n` Filled entries of the run at the drain point, with the drain point past the last of them and Void
entries passed over freed; none if the run holds fewer (R257). -/
def claimFrom (b : Buf) (e : Ent) : Nat → Nat → Nat → List Nat → Option (List Nat × Buf)
  | _, 0, _, acc => some (acc, b)
  | 0, _ + 1, _, _ => none
  | fuel + 1, n + 1, i, acc =>
    match b.ent i with
    | .void => claimFrom { b.setEnt i .free with drain := b.after i 1 } e fuel (n + 1) (b.after i 1) acc
    | .filled => claimFrom { b.setEnt i e with drain := b.after i 1 } e fuel n (b.after i 1) (acc ++ [i])
    | _ => none

def Buf.claim (b : Buf) (n : Nat) : Option (List Nat × Buf) := claimFrom b .claimed b.cap n b.drain []

/-- QGET's take: the entry at the drain point after the Void ones becomes Free. -/
def Buf.take1 (b : Buf) : Option (Nat × Buf) :=
  match claimFrom b .free b.cap 1 b.drain [] with
  | some (i :: _, b1) => some (i, b1)
  | _ => none

def Buf.freeEnts (b : Buf) (is : List Nat) : Buf := is.foldl (fun b i => b.setEnt i .free) b

def Buf.entAddr (b : Buf) (i : Nat) : Nat := b.base + i * b.e

/-- QSTAT's word (R252). -/
def Buf.status (b : Buf) : Word :=
  BitVec.ofNat 64 (b.cap * 2 ^ 52 + b.count .filled * 2 ^ 40
    + (b.count .reserved + b.count .written + b.count .void) * 2 ^ 28 + b.count .claimed * 2 ^ 16 + b.drain * 2 ^ 4
    + (if b.leafMode then 4 else 0) + (if b.faulted then 2 else 0) + (if b.cap = 0 then 0 else 1))

/-! ### Chunks (R94, R247) -/

def isBlkCode (c : Nat) : Bool := c == 5 || c == 6

/-- Elements of K in one pass. -/
def kPerPass (c : Nat) : Nat := 512 / fmtWidth c

/-- The bytes of one chunk of a format. -/
def chunkBytes (c : Nat) : Nat := 2048 + (if c = 5 then 128 else if c = 6 then 256 else 0)

/-- The chunk size of an operand of an operation; `xpop` reads raw bits. -/
def operandChunk (xpop : Bool) (c : Nat) : Nat := if xpop then 2048 else chunkBytes c

/-- The pair comes from one row of R94. -/
def pairOk (a b : Nat) : Bool :=
  (a == 6 && b == 6) || (a == 9 && b == 9)
    || ([3, 4, 5].contains a && [3, 4, 5].contains b) || ([7, 8].contains a && [7, 8].contains b)
    || ([1, 2].contains a && [1, 2].contains b)

def isIntCode (c : Nat) : Bool := c == 7 || c == 8 || c == 9

/-- Chunk addresses of a feed: base, stride and pass (R255). -/
def feedChunk (f : Nat × Int) (j : Nat) : Int := (f.1 : Int) + j * f.2

/-- The byte ranges of sheet space an operation's A and B operands still depend on: its feed chunks and claimed
entries. -/
def opRanges (o : PressOp) : List (Nat × Nat) :=
  let src := fun (x : PressSrc) (feed : Nat × Int) (claims : List Claim) (size : Nat) =>
    match x with
    | .feed _ => (List.range o.n).map fun j => ((feedChunk feed j).toNat, size)
    | .buf _ => claims.map fun c => (c.addr, size)
  match o.form with
  | .mma _ cell a b _ =>
    src a o.feedA o.claimA (operandChunk (cell == 3) (fmtA o.fmt))
      ++ src b o.feedB o.claimB (operandChunk (cell == 3) (fmtB o.fmt))
  | .mmaz _ _ b _ => src b o.feedB o.claimB (operandChunk false (fmtB o.fmt))
  | _ => []

/-- The buffers an operation names. -/
def opBuffers (o : PressOp) : List Nat :=
  let q := fun (x : PressSrc) => match x with
    | .buf n => [n.toNat]
    | .feed _ => []
  match o.form with
  | .mma _ _ a b _ => q a ++ q b
  | .mmaz _ _ b _ => q b
  | _ => []

/-- The bytes that two ranges share. -/
def shared (a b : Nat × Nat) : List (Nat × Nat) :=
  let lo := max a.1 b.1
  let hi := min (a.1 + a.2) (b.1 + b.2)
  if lo < hi then [(lo, hi - lo)] else []

def meets (rs os : List (Nat × Nat)) : Bool := rs.any fun r => os.any fun o => overlap r.1 r.2 o.1 o.2

def Buf.region (b : Buf) : Nat × Nat := (b.base, b.e * b.cap)

/-- The regions of a handle that is not FREE. -/
def Handle.regions (h : Handle) : List (Nat × Nat) := if h.cfg then [(h.recto, h.len), (h.verso, h.len)] else []

/-- A new buffer leaves the bytes it shares with the leaf's other buffers and handles unpredictable within both (R251);
`self` is its number. -/
def shareBuffer (l : Leaf) (self : Nat) (b : Buf) : Leaf :=
  let r := b.region
  let others := l.bufs.filter fun p => p.1 != self
  let lap := others.flatMap (fun p => shared r p.2.region) ++ l.handles.flatMap fun p => p.2.regions.flatMap (shared r)
  let l1 := { l with
    bufs := l.bufs.map fun p => if p.1 = self then p else (p.1, { p.2 with lap := p.2.lap ++ shared r p.2.region })
    handles := l.handles.map fun p => (p.1, { p.2 with lap := p.2.lap ++ p.2.regions.flatMap (shared r) }) }
  setBuf l1 self { b with lap := lap }

/-- A new handle does the same with the leaf's buffers. -/
def shareHandle (l : Leaf) (self : Nat) (h : Handle) : Leaf :=
  let both := fun (b : Buf) => h.regions.flatMap (shared b.region)
  setHandle { l with bufs := l.bufs.map fun p => (p.1, { p.2 with lap := p.2.lap ++ both p.2 }) } self
    { h with lap := l.bufs.flatMap fun p => both p.2 }

/-- What an operation may find for the bytes of its chunks and entries: what P-slot stores since its issue have left there, and
what its buffers share with others; stores that precede it in program order it reads (R251, R260). -/
def PressOp.formers (l : Leaf) (o : PressOp) : Formers := o.taint ++ (opBuffers o).flatMap fun q => (getBuf l q).lapped

end Sys2Proof.Machine
end

