-- ==== Sys2Proof/Machine/Memory.lean ====
section
/-! DEFINITION. Memory: the device physical map (R22, R170), bytes and their order, coherence order and the values a
read may return (R209 to R214, R220, R221), and the sheet space of a leaf (R160). -/

namespace Sys2Proof.Machine

/-! ### The canonical form -/

/-- Keys rise strictly and no listed byte is zero, the value an unlisted byte reads as. -/
def Memory.wf : Memory → Bool
  | [] => true
  | [c] => c.2 != 0
  | c :: d :: r => c.2 != 0 && decide (c.1 < d.1) && Memory.wf (d :: r)

/-- DESIGN CHOICE: log entry 8. -/
def memGet (m : Memory) (k : Nat) : Byte := mapGet m k 0

def memSet (m : Memory) (k : Nat) (v : Byte) : Memory := mapSet m k 0 v

def memRead (m : Memory) (k n : Nat) : List Byte := (List.range n).map fun i => memGet m (k + i)

def memWrite (m : Memory) (k : Nat) : List Byte → Memory
  | [] => m
  | b :: r => memWrite (memSet m k b) (k + 1) r

/-! ### Little-endian values (R4) -/

def bytesNat : List Byte → Nat
  | [] => 0
  | b :: r => b.toNat + 256 * bytesNat r

def natBytes (n : Nat) : Nat → List Byte
  | 0 => []
  | k + 1 => BitVec.ofNat 8 n :: natBytes (n / 256) k

def bytesVec (l : List Byte) : Vec := BitVec.ofNat 16384 (bytesNat l)

def vecBytes (v : Vec) (n : Nat) : List Byte := natBytes v.toNat n

/-! ### Sheet space (R160) -/

def sheetSize : Nat := 0x40_0000

def sheetRead (l : Leaf) (off n : Nat) : List Byte := memRead l.sheet off n

def sheetWrite (l : Leaf) (off : Nat) (b : List Byte) : Leaf := { l with sheet := memWrite l.sheet off b }

/-! ### The device physical map (R22) -/

inductive Region where
  | hbm (linear : Bool)
  | weight
  | regs
  | none
  deriving DecidableEq, Repr

def region (a : Nat) : Region :=
  if a < 0x00C0_0000_0000 then .hbm false
  else if 0x1000_0000_0000 ≤ a && a < 0x10C0_0000_0000 then .hbm true
  else if 0x2000_0000_0000 ≤ a && a < 0x2000_4000_0000 then .weight
  else if 0x3000_0000_0000 ≤ a && a < 0x3001_0000_0000 then .regs
  else .none

def isHbm (a : Nat) : Bool :=
  match region a with
  | .hbm _ => true
  | _ => false

/-- The bank-linear address of an interleaved one (R170). -/
def bankLinear (a : Nat) : Nat :=
  0x1000_0000_0000 + a / 256 % 12 * 0x0010_0000_0000 + a / 256 / 12 * 256 + a % 256

/-- The interleaved address of a bank-linear one (R170). -/
def interleavedOf (a : Nat) : Nat :=
  let r := a - 0x1000_0000_0000
  (r % 0x0010_0000_0000 / 256 * 12 + r / 0x0010_0000_0000) * 256 + r % 256

/-- The stack of an HBM4E address in either window (R170). -/
def stackOf (a : Nat) : Nat :=
  match region a with
  | .hbm false => a / 256 % 12
  | .hbm true => (a - 0x1000_0000_0000) / 0x0010_0000_0000
  | _ => 0

/-- One key for the two addresses of a byte of HBM4E. -/
def canonAddr (a : Nat) : Nat :=
  match region a with
  | .hbm false => bankLinear a
  | _ => a

def throughLinear (a : Nat) : Bool :=
  match region a with
  | .hbm l => l
  | _ => true

/-- Splits `n` bytes from `a` at 64-byte lines. -/
def linePieces : Nat → Nat → Nat → List (Nat × Nat)
  | 0, _, _ => []
  | fuel + 1, a, n =>
    if n = 0 then []
    else
      let k := min n (64 - a % 64)
      (a, k) :: linePieces fuel (a + k) (n - k)

def pieces (a n : Nat) : List (Nat × Nat) := linePieces (n / 64 + 2) a n

/-! ### Observers and scopes (R209) -/

def coreObs (hart : Nat) : Nat := 800 + hart
def spineObs : Nat := 850
def invalObs : Nat := 851
/-- The observer is an application core. -/
def isCoreObs (o : Nat) : Bool := decide (800 ≤ o) && decide (o < 824)
def portObs (n : Nat) : Nat := 880 + n
def pkgObs (p : Nat) : Nat := 900 + p
/-- A leaf's stream of remote writes, which only DRAIN adds to its releases (R215). DEDUCED: log entry 27. -/
def remoteObs (g : Nat) : Nat := 2000 + g
def engineObs (id g : Nat) : Nat := 10000 + id * 1000 + g

/-- The leaf an observer acts for. -/
def obsLeaf (o : Nat) : Option Nat :=
  if o < 768 then some o
  else if 10000 ≤ o then some (o % 1000)
  else if 2000 ≤ o then some (o - 2000)
  else none

/-- The smallest scope that contains two observers. -/
def scopeOf (a b : Nat) : Nat :=
  match obsLeaf a, obsLeaf b with
  | some x, some y =>
    if x = y then 0 else if quireOf x = quireOf y then 1 else if clusterOf x = clusterOf y then 2
    else if halfOf x = halfOf y then 3 else 4
  | _, _ => if (900 ≤ a && a < 2000) || (900 ≤ b && b < 2000) then 5 else 4

/-- What an acquire by `o` takes in from the releases it read (R209, R212). -/
def acquired (o : Nat) (rels : List Release) : Clock :=
  rels.foldl (fun m r => if scopeOf r.obs o ≤ r.scope then clockJoin m r.clock else m) []

/-! ### Reads -/

/-- Who reads, what happens before the read, and how much is read at one moment: single bytes (R213), or whole lines
(R187). `latest` is an atomic's read, which takes the last write (R220); `core` marks an application core's, which may not
pass over a core's write numbered up to `floor` (R223). `po` is the read's place in its observer's program order; an engine's
read stands `behind` the reads of its leaf up to a place (R218). -/
structure Reader where
  obs : Nat
  clock : Clock
  gran : Nat
  po : Nat
  behind : Option (Nat × Nat) := none
  latest : Bool := false
  core : Option Nat := none
  floor : Nat := 0
  priv : Bool := false
  deriving DecidableEq, Repr

def WriteRec.covers (w : WriteRec) (k : Nat) : Bool := decide (w.key ≤ k) && decide (k < w.key + w.bytes.length)

def WriteRec.byteAt (w : WriteRec) (k : Nat) : Byte := w.bytes.getD (k - w.key) 0

/-- An ALIASF that covers the write, contains the reader, and happens before the read (R221). -/
def WriteRec.aliasSeen (w : WriteRec) (r : Reader) : Bool :=
  w.aliased.any fun x => decide (scopeOf x.leaf r.obs ≤ x.scope) && decide (x.po ≤ mapGet r.clock x.obs 0)

/-- The write belongs to the window the read goes through. -/
def WriteRec.sameWindow (w : WriteRec) (r : Reader) (linear : Bool) : Bool := w.linear == linear || w.aliasSeen r

/-- The key of a byte in a window. -/
def windowKey (linear : Bool) (k : Nat) : Nat := 2 * k + (if linear then 1 else 0)

/-- The newest write of a byte that an observer has met through a window, by the reads before a place where there is one. -/
def Seen.newest (m : Seen) (linear : Bool) (k : Nat) (before : Option Nat) : Nat :=
  (mapGet m (windowKey linear k) []).foldl (fun n x => if before.all fun p => decide (x.1 < p) then max n x.2 else n) 0

def Seen.note (linear : Bool) (po : Nat) (m : Seen) (x : Nat × Nat) : Seen :=
  mapPut m (windowKey linear x.1) (mapGet m (windowKey linear x.1) [] ++ [(po, x.2)])

/-- The newest write of a byte that the reader's own reads, or its leaf's earlier ones, have met through the window (R211, R218). -/
def met (s : State) (r : Reader) (linear : Bool) (k : Nat) : Nat :=
  max (Seen.newest (mapGet s.seen r.obs []) linear k none) (match r.behind with
    | some (g, p) => Seen.newest (mapGet s.seen g []) linear k (some p)
    | none => 0)

/-- The write is known to the reader: it happens before the read, the reader has met it or a later one, or a fence of the
reading core puts the read after it. -/
def WriteRec.known (w : WriteRec) (r : Reader) (seen k : Nat) : Bool :=
  r.latest || decide (w.po ≤ mapGet r.clock w.obs 0) && w.po != 0 || (w.covers k && decide (w.id ≤ seen))
    || (isCoreObs w.obs && decide (w.id ≤ r.floor))

/-- The newest write to a byte that a read may not pass over, or that the chosen moments show: `cut` is the number of the
window's newest writes not yet seen, and `xs` lists the other window's writes that the sector reflects (R221). DEDUCED: log entry 25. -/
def visible (r : Reader) (seen : Nat → Nat) (ys xs : List WriteRec) (cut k : Nat) : Option WriteRec :=
  let y := ((ys.zipIdx).find? fun p => p.1.covers k && (decide (cut ≤ p.2) || p.1.known r (seen k) k)).map Prod.fst
  match y, xs.find? fun w => w.covers k with
  | some a, some b => if a.id < b.id then some b else some a
  | some a, none => some a
  | none, x => x

/-- What a byte held before every recorded write. -/
def initialByte (mem : Memory) (recs : List WriteRec) (k : Nat) : Byte :=
  match recs.reverse.find? fun w => w.covers k with
  | some w => w.old.getD (k - w.key) 0
  | none => memGet mem k

/-- The writes through the other window that a 32-byte sector reflects: some of the oldest, newest first (R221). -/
def sectorPrefix (s : State) (r : Reader) (linear : Bool) (recs : List WriteRec) (k : Nat) : List WriteRec × State :=
  let xs := recs.filter fun w => !w.sameWindow r linear && overlap w.key w.bytes.length (k / 32 * 32) 32
  if xs.isEmpty then ([], s)
  else
    let (pre, s1) := takeChoice s (xs.length + 1)
    (xs.drop (xs.length - pre), s1)

/-- Reads one aligned chunk of at most 64 bytes at one moment. `recs` are the writes that touch it, newest first; `lo` and `hi`
are the other window's that its line's two sectors reflect. -/
def readChunk (s : State) (r : Reader) (linear : Bool) (recs lo hi : List WriteRec) (k n : Nat) :
    List Byte × List WriteRec × State :=
  let seen := met s r linear
  let mine := recs.filter fun w => overlap w.key w.bytes.length k n
  let ys := mine.filter fun w => w.sameWindow r linear
  let ks := (List.range n).map fun i => k + i
  let settled := ys.all fun w => ks.all fun j => !w.covers j || w.known r (seen j) j
  let (cut, s1) := if settled then (0, s) else takeChoice s (ys.length + 1)
  let got := ks.map fun j => (j, visible r seen ys (if j / 32 % 2 = 0 then lo else hi) cut j)
  let bytes := got.map fun p =>
    match p.2 with
    | some w => w.byteAt p.1
    | none => initialByte s.mem mine p.1
  let news := got.filterMap fun p => p.2.bind fun w =>
    if !w.sameWindow r linear || w.known { r with latest := false } (seen p.1) p.1 then none else some (p.1, w.id)
  let s2 := if news.isEmpty then s1 else
    { s1 with seen := mapPut s1.seen r.obs (news.foldl (Seen.note linear r.po) (mapGet s1.seen r.obs [])) }
  (bytes, got.filterMap Prod.snd, s2)

/-- Chunks of a line: `g` bytes each. -/
def chunksOf : Nat → Nat → Nat → Nat → List (Nat × Nat)
  | 0, _, _, _ => []
  | fuel + 1, g, k, n =>
    if n = 0 then []
    else
      let m := min n (g - k % g)
      (k, m) :: chunksOf fuel g (k + m) (n - m)

/-! ### Unpredictable memory (R2, R301, R318, R347, R366) -/

/-- Bit by bit, one of two values: what R2 lets an unpredictable byte hold. -/
def eitherBits (v : Vec) (a b : List Byte) : List Byte :=
  (a.zip b).mapIdx fun i x => (x.1 &&& v.extractLsb' (8 * i) 8) ||| (x.2 &&& ~~~(v.extractLsb' (8 * i) 8))

/-- Mixes the bytes of a long list, at most 2,048 at a time. -/
def mixBytes : Nat → List Byte → List Byte → State → List Byte × State
  | 0, _, _, s => ([], s)
  | fuel + 1, a, b, s =>
    if a.isEmpty then ([], s)
    else
      let (v, s1) := takeFree s
      let (r, s2) := mixBytes fuel (a.drop 2048) (b.drop 2048) s1
      (eitherBits v (a.take 2048) (b.take 2048) ++ r, s2)

/-- The bytes of `new` at places from `off` that `sel` names are mixed with those of `old`. -/
def mixWhere (sel : Nat → Bool) (off : Nat) (new old : List Byte) (s : State) : List Byte × State :=
  if (List.range new.length).any fun i => sel (off + i) then
    let (m, s1) := mixBytes (new.length / 2048 + 1) new old s
    ((new.zip m).mapIdx fun i x => if sel (off + i) then x.2 else x.1, s1)
  else (new, s)

def coveredBy (ws : Formers) (a : Nat) : Bool := ws.any fun w => decide (w.1 ≤ a) && decide (a < w.1 + w.2.length)

/-- Bytes from `off`, each bit that of the bytes as they stand or as one of `ws` has them (R2). -/
def mixFormers (ws : Formers) (off : Nat) (b : List Byte) (s : State) : List Byte × State :=
  (ws.filter fun w => overlap w.1 w.2.length off b.length).foldl (fun (x : List Byte × State) w =>
    mixWhere (coveredBy [w]) off x.1 (x.1.mapIdx fun i y => w.2.getD (off + i - w.1) y) x.2) (b, s)

/-- What record `r` of a spill region holds for its shelf (R301). -/
def spillRecord (x : Shelf) (r : Nat) : List Byte :=
  match x.rows.find? fun y => y.loc == .spill r with
  | some y => natBytes y.sig.toNat 32 ++ natBytes y.tag.toNat 4 ++ natBytes (y.heat + 128) 1 ++ natBytes 0 27
  | none => natBytes 0 64

/-- The frames of a shelf's spill region: none once an invalidation has broken it (R315). -/
def Shelf.region (x : Shelf) : List Trans := if x.broken then [] else x.frames

def frameKey (t : Trans) : Nat := memKey t.pkg (canonAddr t.pa)

/-- The place of record `r` in memory. -/
def recordKey (x : Shelf) (r : Nat) : Nat :=
  match x.frames[r / 64]? with
  | some t => frameKey t + 64 * (r % 64)
  | none => 0

/-- A shelf holds spill frames that a range of memory overlaps. -/
def Shelf.spillHit (x : Shelf) (k n : Nat) : Bool := x.region.any fun t => overlap (frameKey t) 4096 k n

def Leaf.spillHit (l : Leaf) (k n : Nat) : Bool := l.shelves.any fun x => x.2.spillHit k n

/-- The leaves on the device and the saved ones. -/
def allLeaves (s : State) : List Leaf := s.leaves.map Prod.snd ++ s.runs.flatMap fun r => r.saved.flatMap fun x => x.leaves

/-- The shelves of all of them own their spill regions (R301). -/
def spillHit (s : State) (k n : Nat) : Bool := (allLeaves s).any fun l => l.spillHit k n

/-- The spill records of a shelf as they may stand in memory. -/
def Shelf.records (x : Shelf) : List OpenMem :=
  if x.broken then [] else x.rows.filterMap fun y => match y.loc with
    | .spill r => some ⟨recordKey x r, 64, some (spillRecord x r)⟩
    | _ => none

/-- A shelf changes: the records that it no longer has may still stand in its region (R2, R301). -/
def noteRecords (s : State) (old new : Shelf) : State :=
  { s with freeMem := s.freeMem ++ old.records.filter fun m => !new.records.contains m }

/-- What the signature unit and other agents may have put into the line of memory that holds `k`, where it is of a spill
region. -/
def Shelf.lineFormers (x : Shelf) (k : Nat) : Formers :=
  x.region.zipIdx.flatMap fun t =>
    if overlap (frameKey t.1) 4096 k 1 then
      (k / 64 * 64, spillRecord x (64 * t.2 + (k - frameKey t.1) / 64)) :: x.taint.filter fun w => w.1 / 64 == k / 64
    else []

/-- The values that bytes of one line may have besides what stands there. -/
def openFormers (s : State) (k n : Nat) : Formers :=
  let hit := s.freeMem.filter fun f => f.was.isSome && overlap f.key f.size k n
  if hit.isEmpty then []
  else hit.map (fun f => (f.key, f.was.getD [])) ++ (allLeaves s).flatMap fun l => l.shelves.flatMap fun x => x.2.lineFormers k

/-- The range holds memory that may have any value. -/
def whollyOpen (s : State) (k n : Nat) : Bool := s.freeMem.any fun f => f.was.isNone && overlap f.key f.size k n

/-- Bytes of one line as a read finds them where their contents are unpredictable. -/
def overlayFree (s : State) (k : Nat) (bytes : List Byte) : List Byte × State :=
  let (b, s1) := mixFormers (openFormers s k bytes.length) k bytes s
  if whollyOpen s k bytes.length then
    let (v, s2) := takeFree s1
    (b.mapIdx fun i x => if whollyOpen s (k + i) 1 then v.extractLsb' (8 * i) 8 else x, s2)
  else (b, s1)

/-- The device reaches a line through a LAUNCH_PRIVATE page. -/
def notePriv (s : State) (obs k : Nat) : State :=
  let run := ((obsLeaf obs).bind fun g => (getLeaf s g).run).toList
  let was := ((mapFind s.privLines (k / 64)).map fun p => p.runs).getD []
  { s with privLines := mapPut s.privLines (k / 64) ⟨run ++ was.filter fun r => !run.contains r, []⟩ }

/-- The frame `[pa, pa + size)` of this package holds the byte of a key, in either window. -/
def frameHas (home pa size k : Nat) : Bool :=
  let a := k - memKey home 0
  let within := fun (x : Nat) => decide (pa ≤ x) && decide (x < pa + size)
  decide (memKey home 0 ≤ k) && decide (k < memKey (home + 1) 0) && (within a || (throughLinear a && isHbm a && within (interleavedOf a)))

/-- The leaf entry `e` of a level maps the byte LAUNCH_PRIVATE (R349). -/
def privEntry (home k level : Nat) (e : Word) : Bool :=
  e.getLsbD 0 && e.extractLsb' 1 3 != 0 && e.getLsbD 12 && !e.getLsbD 59
    && frameHas home ((e.extractLsb' 16 36).toNat * 4096) (4 ^ (e.extractLsb' 7 2).toNat * 2 ^ (12 + 9 * level)) k

/-- The entries of a table that are not zero. -/
def tableWords (s : State) (t : Nat) : List Word :=
  let home := s.node.package.toNat
  let granules := (List.range 16).map fun i => (256 * i, memKey home (canonAddr (t + 256 * i)))
  let used := granules.flatMap fun x => (s.mem.filter fun c => decide (x.2 ≤ c.1) && decide (c.1 < x.2 + 256)).map fun c => (x.1 + (c.1 - x.2)) / 8
  used.eraseDups.map fun i => BitVec.ofNat 64 (bytesNat (memRead s.mem (memKey home (canonAddr (t + 8 * i))) 8))

/-- A table, or one that it leads to, maps the byte LAUNCH_PRIVATE. -/
def privTable (s : State) (k : Nat) : Nat → Nat → Bool
  | 0, t => (tableWords s t).any (privEntry s.node.package.toNat k 0)
  | n + 1, t => (tableWords s t).any fun e =>
      privEntry s.node.package.toNat k (n + 1) e
        || (e.getLsbD 0 && e.extractLsb' 1 3 == 0 && privTable s k n ((e.extractLsb' 16 36).toNat * 4096))

/-- A placed run maps the line's page LAUNCH_PRIVATE: its tables, or a cached translation, say so. -/
def privMapped (s : State) (k : Nat) : Bool :=
  s.runs.any fun r => r.stage == .placed && (privTable s k 5 r.root || s.tlb.any fun t =>
    (t.global || r.asid == t.asid) && t.entry.getLsbD 12 && !t.entry.getLsbD 59
      && frameHas s.node.package.toNat ((t.entry.extractLsb' 16 36).toNat * 4096) t.size k)

/-- A line that the reader may not rely on: one of a LAUNCH_PRIVATE page that a placed run uses, or that no invalidation before
this read has covered since the runs that used it ended; or core writes not flushed before a LAUNCH_PRIVATE read (R224).
DEDUCED: log entry 34. -/
def staleLine (s : State) (r : Reader) (k : Nat) (recs : List WriteRec) : Bool :=
  match r.core with
  | some _ =>
    ((mapFind s.privLines (k / 64)).any fun p => !p.clean.any fun c => decide (c.2 ≤ mapGet r.clock (coreObs c.1) 0)) || privMapped s k
  | none => r.priv && recs.any fun w => w.unflushed

/-- Reads a piece that lies in one line. -/
def readPiece (s0 : State) (r : Reader) (linear : Bool) (k n : Nat) : List Byte × List WriteRec × State :=
  let s := if r.priv then notePriv s0 r.obs k else s0
  let recs := s.hist.filter fun w => overlap w.key w.bytes.length k n
  if recs.isEmpty && !staleLine s r k recs then
    let (b, s1) := overlayFree s k (memRead s.mem k n)
    (b, [], s1)
  else if staleLine s r k recs then
    let (m, s1) := mixFormers (recs.flatMap fun w => [(w.key, w.bytes), (w.key, w.old)]) k (memRead s.mem k n) s
    let (b, s2) := overlayFree s1 k m
    (b, recs, s2)
  else
    let (lo, s1) := sectorPrefix s r linear recs (k / 64 * 64)
    let (hi, s2) := sectorPrefix s1 r linear recs (k / 64 * 64 + 32)
    let (b, ws, s3) := (chunksOf n r.gran k n).foldl (fun (acc : List Byte × List WriteRec × State) c =>
      let (b, w, s1) := readChunk acc.2.2 r linear recs lo hi c.1 c.2
      (acc.1 ++ b, acc.2.1 ++ w, s1)) ([], [], s2)
    let (b1, s4) := overlayFree s3 k b
    (b1, ws, s4)

/-- Reads `n` bytes at a device physical address of a package: the bytes, and the writes read. -/
def readWrites (s : State) (r : Reader) (pkg pa n : Nat) : List Byte × List WriteRec × State :=
  (pieces pa n).foldl (fun (acc : List Byte × List WriteRec × State) p =>
    let (b, ws, s1) := readPiece acc.2.2 r (throughLinear p.1) (memKey pkg (canonAddr p.1)) p.2
    (acc.1 ++ b, acc.2.1 ++ ws, s1)) ([], [], s)

/-- The same read with the releases that the writes read carry. -/
def readPhys (s : State) (r : Reader) (pkg pa n : Nat) : List Byte × List Release × State :=
  let (b, ws, s1) := readWrites s r pkg pa n
  (b, ws.flatMap fun w => w.rels, s1)

/-! ### Writes -/

/-- Who writes, and what the write carries: releases of its own, and those of FENCEs before it. -/
structure Writer where
  obs : Nat
  po : Nat
  rels : List Release := []
  own : List Release := []
  /-- An atomic carries on the releases that writes to its line are themselves (R212). -/
  chain : Bool := false
  unflushed : Bool := false
  priv : Bool := false
  deriving DecidableEq, Repr

/-- Takes a range out of the unpredictable memory. -/
def subtractRange (lo n : Nat) (f : OpenMem) : List OpenMem :=
  if overlap f.key f.size lo n then
    (if f.key < lo then [⟨f.key, lo - f.key, f.was.map (List.take (lo - f.key))⟩] else [])
      ++ (if lo + n < f.key + f.size then
        [⟨lo + n, f.key + f.size - (lo + n), f.was.map (List.drop (lo + n - f.key))⟩] else [])
  else [f]

/-- A reservation on an overlapping range of an application core is lost (R246). -/
def breakResv (s : State) (k n : Nat) : State :=
  { s with resv := s.resv.filter fun p => !overlap p.2.1 p.2.2 k n }

def lineRels (s : State) (k : Nat) : List Release :=
  (s.hist.filter fun w => w.key / 64 == k / 64).flatMap fun w => w.own

/-- Changes every leaf, the saved ones too. -/
def mapLeaves (s : State) (f : Leaf → Leaf) : State :=
  { s with
    leaves := s.leaves.map fun p => (p.1, f p.2)
    runs := s.runs.map fun r => { r with saved := r.saved.map fun x => { x with leaves := x.leaves.map f } } }

/-- A write by another agent into the spill region of a configured shelf: the shelf may find it there, and the region stays
unpredictable to read (R301). -/
def taintShelves (s : State) (k : Nat) (b : List Byte) : State :=
  mapLeaves s fun l =>
    { l with shelves := l.shelves.map fun x =>
        (x.1, if x.2.spillHit k b.length then { x.2 with taint := (k, b) :: x.2.taint } else x.2) }

/-- What a write does to unpredictable memory: it settles its bytes, unless a configured shelf owns them. -/
def settleFree (s : State) (k : Nat) (b : List Byte) : State :=
  if s.freeMem.isEmpty then s
  else if spillHit s k b.length then taintShelves s k b
  else { s with freeMem := s.freeMem.flatMap (subtractRange k b.length) }

/-- One write in coherence order. -/
def writePiece (s : State) (w : Writer) (linear : Bool) (k : Nat) (b : List Byte) : State :=
  let (id, s0) := fresh s
  let rels := w.rels ++ w.own ++ (if w.chain then lineRels s k else [])
  let rec_ : WriteRec := ⟨id, w.obs, w.po, k, b, memRead s.mem k b.length, linear, rels, w.own, [], w.unflushed, w.priv⟩
  let s1 := settleFree (breakResv (if w.priv then notePriv s0 w.obs k else s0) k b.length) k b
  { s1 with mem := memWrite s1.mem k b, hist := rec_ :: s1.hist }

def writeLines (s : State) (w : Writer) (pkg : Nat) : List (Nat × Nat) → List Byte → State
  | [], _ => s
  | p :: ps, b =>
    writeLines (writePiece s w (throughLinear p.1) (memKey pkg (canonAddr p.1)) (b.take p.2)) w pkg ps (b.drop p.2)

/-- Writes bytes at a device physical address of a package. -/
def writePhys (s : State) (w : Writer) (pkg pa : Nat) (b : List Byte) : State :=
  writeLines s w pkg (pieces pa b.length) b

/-! ### Agents that are no leaf -/

def agentReader (s : State) (o : Nat) (gran : Nat) : Reader :=
  { obs := o, clock := clockJoin (mapGet s.agentClock o []) [(o, mapGet s.agentPo o 0 + 1)], gran := gran
    po := mapGet s.agentPo o 0 + 1 }

/-- An agent's next place in its program order. -/
def agentNext (s : State) (o : Nat) : Nat × State :=
  let p := mapGet s.agentPo o 0 + 1
  (p, { s with agentPo := mapPut s.agentPo o p })

def agentAcquire (s : State) (o : Nat) (rels : List Release) : State :=
  let c := acquired o rels
  if c.isEmpty then s else { s with agentClock := mapPut s.agentClock o (clockJoin (mapGet s.agentClock o []) c) }

/-- A release by an agent of everything it has done and acquired. -/
def agentRelease (s : State) (o scope : Nat) : Release :=
  ⟨scope, o, clockJoin (mapGet s.agentClock o []) [(o, mapGet s.agentPo o 0)], none⟩

def agentRead (s : State) (o pa n : Nat) (acq : Bool) : List Byte × State :=
  let (p, s0) := agentNext s o
  let (b, rels, s1) := readPhys s0 { agentReader s0 o 1 with clock := clockJoin (mapGet s.agentClock o []) [(o, p)] }
    s.node.package.toNat pa n
  (b, if acq then agentAcquire s1 o rels else s1)

def agentWrite (s : State) (o pa : Nat) (b : List Byte) (rel : Option Nat) : State :=
  let (p, s0) := agentNext s o
  let rels := match rel with
    | some sc => [agentRelease s0 o sc]
    | none => []
  writePhys s0 { obs := o, po := p, own := rels } s.node.package.toNat pa b

end Sys2Proof.Machine
end

