-- ==== Sys2Proof/Machine/SheetMem.lean ====
section
/-! DEFINITION. The P slot (R160 to R169): sheet space, residency and pins, sheet loads and stores. -/

namespace Sys2Proof.Machine

/-- The byte ranges an access touches. -/
abbrev Ranges := List (Nat × Nat)

/-! ### Residency (R161, R162, R164) -/

def sheetNo (a : Nat) : Nat := a / 32768

/-- The sheets that `n` bytes from `a` touch, ascending. -/
def sheetsOf (a n : Nat) : List Nat :=
  if n = 0 then [] else (List.range (sheetNo (a + n - 1) - sheetNo a + 1)).map fun i => sheetNo a + i

/-- The two pin registers as one number. -/
def explicitPins (l : Leaf) (i : Nat) : Bool := if i < 64 then l.pin0.getLsbD i else l.pin1.getLsbD (i - 64)

/-- Byte ranges that configurations pin: buffers, handles that are not FREE, and sewing regions in use (R162, R279). -/
def pinRanges (l : Leaf) : List (Nat × Nat) :=
  (l.bufs.map fun p => (p.2.base, p.2.e * p.2.cap))
    ++ (l.handles.flatMap fun p => if p.2.cfg then [(p.2.recto, p.2.len), (p.2.verso, p.2.len)] else [])
    ++ [(l.sewCfg.r0, l.sewCfg.cap), (l.sewCfg.r1, l.sewCfg.cap)]
    ++ l.sewq.flatMap fun o => [(o.r0, o.cap), (o.r1, o.cap)]

/-- The pinned sheets of a leaf, ascending. -/
def pinnedSheets (l : Leaf) : List Nat :=
  (List.range 128).filter fun i => explicitPins l i || (pinRanges l).any fun r => overlap r.1 r.2 (32768 * i) 32768

def resident (q : Quire) (g i : Nat) : Bool := q.frames.any fun f => f.leaf == g && f.sheet == i

def framePinned (s : State) (f : SheetFrame) : Bool := (pinnedSheets (getLeaf s f.leaf)).contains f.sheet

/-- Takes the least recently accessed frame that is neither pinned nor in `keep` (R161). An access that touches more sheets
than there are such frames, of which R161 does not speak, takes the frames of its own sheets in turn, and so the 64
frames stay 64. DESIGN CHOICE: log entry 83. -/
def dropVictim (s : State) (keep : SheetFrame → Bool) (fs : List SheetFrame) : List SheetFrame :=
  match fs.find? (fun f => !keep f && !framePinned s f), fs.find? (fun f => !framePinned s f) with
  | some v, _ => fs.erase v
  | none, some v => fs.erase v
  | none, none => fs.drop 1

/-- Makes a sheet of leaf `g` resident, or the most recently accessed one. What a victim held stays in its backing
region, which `Leaf.sheet` is. -/
def touchSheet (s : State) (g : Nat) (keep : List Nat) (dirty : Bool) (i : Nat) : State :=
  updQuire s (quireOf g) fun q =>
    let was := q.frames.any fun f => f.leaf == g && f.sheet == i && f.dirty
    let rest := q.frames.filter fun f => !(f.leaf == g && f.sheet == i)
    let room := if resident q g i || rest.length < 64 then rest
                else dropVictim s (fun f => f.leaf == g && keep.contains f.sheet) rest
    { q with frames := room ++ [⟨g, i, dirty || was⟩] }

def touchSheets (s : State) (g : Nat) (is : List Nat) (dirty : Bool) : State :=
  is.foldl (fun s i => touchSheet s g is dirty i) s

/-- Every sheet of the list occupies a frame. -/
def allResident (s : State) (g : Nat) (is : List Nat) : Bool := is.all fun i => resident (getQuire s (quireOf g)) g i

/-! ### Publishes (R190) -/

/-- What a publish leaves of the recto it replaces: the generation that a configuration starts with was not published (R155). -/
def Handle.formerRectos (l : Leaf) (h : Handle) : List (List Byte) :=
  if h.gen = 0 && h.rectos.isEmpty then [] else sheetRead l h.recto h.len :: h.rectos

/-- Exchanges the regions and counts a generation; a handle in ERROR never publishes. -/
def publish (l : Leaf) (h : Handle) (clk : Clock) : Handle :=
  if h.ecause ≠ 0 then { h with deferred := false }
  else { h with recto := h.verso, verso := h.recto, gen := h.gen + 1, rectos := h.formerRectos l, deferred := false
                clock := clockJoin h.clock (clockJoin h.posted clk) }

/-- After an act that lowered a count: a publish that falls due takes place. -/
def settlePublish (l : Leaf) (h : Handle) (clk : Clock) : Handle :=
  if h.ecause ≠ 0 then { h with deferred := false }
  else if h.deferred && h.quiet then publish l h clk else h

/-! ### Addresses -/

def offAddr (b : Word) {n : Nat} (off : BitVec n) : Word := b + off.signExtend 64

def rangeSheets (rs : Ranges) : List Nat :=
  (List.range 128).filter fun i => rs.any fun r => overlap r.1 r.2 (32768 * i) 32768

/-- The checks of R168, rows 3 and 4: bounds of every byte, then the alignment of every address to `al`. -/
def sheetCause (rs : Ranges) (al : Nat) : Option Trap :=
  if rs.any fun r => decide (sheetSize < r.1 + r.2) then some (slotTrap .sheetBounds .p)
  else
    match rs.find? fun r => r.1 % al != 0 with
    | some _ => some (alignTrap 4)
    | none => none

/-! ### What engines write (R187, R218, R309) -/

/-- The completion that made these bytes has not been observed by the leaf (R212). -/
def Wet.unseen (l : Leaf) (g : Nat) (w : Wet) : Bool := mapGet (leafClock l g l.po) w.obs 0 == 0

def Wet.covers (w : Wet) (a : Nat) : Bool := decide (w.off ≤ a) && decide (a < w.off + w.old.length)

/-- Buffers and handles that share bytes about to be written with another configuration keep what stands there (R251, R2). -/
def noteShared (l : Leaf) (off n : Nat) : Leaf :=
  let old := fun (lap : List (Nat × Nat)) (t : Formers) => if meets [(off, n)] lap then (off, sheetRead l off n) :: t else t
  { l with
    bufs := l.bufs.map fun p => (p.1, { p.2 with lapped := old p.2.lap p.2.lapped })
    handles := l.handles.map fun p => (p.1, { p.2 with taint := old p.2.lap p.2.taint }) }

/-- Bytes an engine operation writes to a leaf's sheet space; the leaf may not have seen them until it observes the
operation's completion. -/
def engineSheet (s : State) (g obs off : Nat) (b : List Byte) : State :=
  updLeaf (touchSheets s g (sheetsOf off b.length) true) g fun l =>
    { sheetWrite (noteShared l off b.length) off b with wet := ⟨obs, off, sheetRead l off b.length, false⟩ :: l.wet.filter (Wet.unseen l g) }

/-- Byte by byte, one of two values. -/
def eitherByte (v : Vec) (a b : List Byte) : List Byte := (a.zip b).mapIdx fun i x => if v.getLsbD i then x.1 else x.2

/-- A leaf as an engine reads ranges of its sheet space whose bytes `ws` makes unpredictable. -/
def mixedLeaf (ws : Formers) (rs : Ranges) (l : Leaf) (s : State) : Leaf × State :=
  if ws.isEmpty then (l, s)
  else rs.foldl (fun (x : Leaf × State) r =>
    let (b, s1) := mixFormers ws r.1 (sheetRead x.1 r.1 r.2) x.2
    (sheetWrite x.1 r.1 b, s1)) (l, s)

/-- The sheet bytes that a copy reads or writes. -/
def Copy.sheetSide (c : Copy) : Ranges :=
  match c.form with
  | .copy _ _ off len | .copyout _ _ off len => [(c.region + off, len)]
  | .copy2 _ _ row rows _ => [(c.region, row * rows)]
  | .copyq _ _ is e base _ => is.map fun i => (base + i * e, e)
  | .copyh _ _ _ _ => []

/-- The leaf stores to bytes of its copies in flight: each keeps what they held (R187). -/
def noteWild (s : State) (rs : Ranges) : State :=
  updQuire s (quireOf s.cur) fun q =>
    { q with copies := q.copies.map fun c =>
        if c.leaf = s.cur ∧ meets rs c.sheetSide then
          { c with wild := (rs.filter fun r => meets [r] c.sheetSide).map (fun r => (r.1, sheetRead s.leaf r.1 r.2)) ++ c.wild }
        else c }

/-- What stores leave an engine to find in the ranges that it uses: what stood there, and what was stored. -/
def storeFormers (l : Leaf) (bs : List (Nat × List Byte)) (rs : Ranges) : Formers :=
  bs.flatMap fun b => if meets [(b.1, b.2.length)] rs then [b, (b.1, sheetRead l b.1 b.2.length)] else []

/-- P-slot stores into a buffer or handle in use leave what engines read there unpredictable, and so do those under a
queued press or sewing operation, or into a buffer that a queued press operation names (R163, R260, R279). DEDUCED: log entry 48. -/
def taintStores (l : Leaf) (bs : List (Nat × List Byte)) : Leaf :=
  let marks := storeFormers l bs
  let sew := fun (o : SewOp) => [(o.r0, o.cap), (o.r1, o.cap)]
  let op := fun (o : PressOp) =>
    { o with taint := marks (opRanges o ++ (opBuffers o).map fun q => (getBuf l q).region) ++ o.taint }
  { l with
    bufs := l.bufs.map fun p => (p.1, { p.2 with taint := marks [p.2.region] ++ p.2.taint, lapped := marks p.2.lap ++ p.2.lapped })
    handles := l.handles.map fun p => (p.1, { p.2 with taint := marks p.2.regions ++ p.2.taint })
    pq := l.pq.map op
    tq := l.tq.map op
    sewq := l.sewq.map fun o => { o with taint := marks (sew o) ++ o.taint }
    sigq := l.sigq.map srdr
    sigtq := l.sigtq.map srdr }
where
  srdr (o : SigOp) : SigOp :=
    match o.form with
    | .srdr off _ =>
      { o with taint := (bs.filter fun b => overlap b.1 b.2.length off 64).map (fun b => (b.1, b.2.length)) ++ o.taint }
    | _ => o

/-- Where queued SRDRs will write. -/
def srdrTargets (l : Leaf) : List Nat :=
  (l.sigq ++ l.sigtq).filterMap fun o => match o.form with
    | .srdr off _ => some off
    | _ => none

/-- A byte as a P-slot load may find it: as it stands, or as an engine operation found it whose completion the leaf has not
observed (R218, R309). DEDUCED: log entry 63. -/
def wetByte (ws : List Wet) (a : Nat) (b : Byte) (n : Nat) : Byte :=
  ((ws.filter fun w => w.covers a).zipIdx).foldl (fun v x =>
    if (Config.freeChoice (n + x.2)) % 2 = 1 then x.1.old.getD (a - x.1.off) v else v) b

/-- A range as a load finds it. -/
def blurRange (ws : List Wet) (s : State) (r : Nat × Nat) : State :=
  let mine := ws.filter fun w => overlap w.off w.old.length r.1 r.2
  if mine.isEmpty then s
  else
    { s.upd fun l => sheetWrite l r.1 ((sheetRead l r.1 r.2).mapIdx fun i b =>
        wetByte mine (r.1 + i) b (s.free + i * mine.length))
      with free := s.free + r.2 * mine.length }

/-- The ranges of a read at the leaf's position as it finds them. -/
def blurred (rs : Ranges) (s : State) : State :=
  rs.foldl (blurRange (s.leaf.wet.filter (Wet.unseen s.leaf s.cur))) s

/-- A P-slot load reads its ranges so, and leaves sheet space as it was. -/
def blurReads (rs : Leaf → Ranges) (eff : State → State) (s : State) : State :=
  (eff (blurred (rs s.leaf) s)).upd fun l => { l with sheet := s.leaf.sheet }

/-- What a later store leaves of the bytes that an engine operation found. -/
def Wet.stored (off : Nat) (d : List Byte) (w : Wet) : Wet :=
  if overlap w.off w.old.length off d.length then
    { w with old := w.old.take (off - w.off) ++ (d.drop (w.off - off)).take (w.old.length - (off - w.off))
        ++ w.old.drop (off + d.length - w.off) }
  else w

/-- One store; bytes that an engine operation has written whose completion the leaf has not observed are left as a mixture
(R187, R2), but for the sewing unit's, which R279 gives back to the leaf. -/
def storeOne (s : State) (b : Nat × List Byte) : State :=
  let ws := s.leaf.wet.filter fun w => overlap w.off w.old.length b.1 b.2.length && !w.sew && w.unseen s.leaf s.cur
  let (d, s1) := mixWhere (fun a => ws.any fun w => w.covers a) b.1 b.2 (sheetRead s.leaf b.1 b.2.length) s
  s1.upd fun l => { sheetWrite l b.1 d with wet := l.wet.map (Wet.stored b.1 d) }

/-- One store of bytes at sheet offsets. -/
def storeSheet (s : State) (rs : Ranges) (bs : List (Nat × List Byte)) : State :=
  let s1 := noteWild (touchSheets s s.cur (rangeSheets rs) true) rs
  bs.foldl storeOne (s1.upd fun l => taintStores l bs)

/-- A load's result at its landing distance, with the data taken now (R167); all enter l6. -/
def loadResult (s : State) (rs : Ranges) (land : BitVec 6) (d : Dest) (v mask : Vec) : State :=
  addResult (touchSheets s s.cur (rangeSheets rs) false) land.toNat d v mask (some 6) (slotRank .p) 0

/-- Sign or zero extension of a loaded value of `n` bytes. -/
def extendLoad (ext : Bool) (n v : Nat) : Word := BitVec.ofInt 64 (readElem ext (8 * n) v)

def sizeBytes (size : BitVec 2) : Nat := 2 ^ size.toNat

/-! ### PLD, PST, PLDV, PSTV -/

def pldRanges (f : PLd) (l : Leaf) : Ranges := [((offAddr (readSrc l f.base) f.off).toNat, sizeBytes f.size)]
def pstRanges (f : PSt) (l : Leaf) : Ranges := [((offAddr (readSrc l f.base) f.off).toNat, sizeBytes f.size)]
def pldvRanges (f : PLdv) (l : Leaf) : Ranges := [((offAddr (readSrc l f.base) f.off).toNat, 2048)]

def pldEffect (f : PLd) (s : State) : State :=
  let l := s.leaf
  let n := sizeBytes f.size
  let v := extendLoad f.ext n (bytesNat (sheetRead l (offAddr (readSrc l f.base) f.off).toNat n))
  loadResult s (pldRanges f l) f.land (.s f.sd.toNat) (v.setWidth 16384) (onesBelow 64)

def pstEffect (f : PSt) (s : State) : State :=
  let l := s.leaf
  storeSheet s (pstRanges f l)
    [((offAddr (readSrc l f.base) f.off).toNat, natBytes (readS l f.ss).toNat (sizeBytes f.size))]

def pldvEffect (f : PLdv) (s : State) : State :=
  let l := s.leaf
  let v := bytesVec (sheetRead l (offAddr (readSrc l f.base) f.off).toNat 2048)
  loadResult s (pldvRanges f l) f.land (.v f.vd.toNat) v (onesBelow 16384)

/-- The enabled lanes' addresses from `a`, with a lane's data. -/
def enabledStores (m : Mask) (addrs : List Nat) (v : Vec) : List (Nat × List Byte) :=
  ((maskBits m).zip (addrs.zip (lanes v))).filterMap fun x => if x.1 then some (x.2.1, natBytes x.2.2 4) else none

/-- A is computed on 64 bits (R167), and what is added to it exactly (R10). -/
def laneAddrs (a : Word) : List Nat := (List.range 512).map fun i => a.toNat + 4 * i

/-- The bytes PSTV may touch: those of the enabled lanes; the alignment is that of its address. -/
def pstvStores (f : PStv) (l : Leaf) : List (Nat × List Byte) :=
  enabledStores (maskOf l f.mask) (laneAddrs (offAddr (readSrc l f.base) f.off)) (readV l f.vs)

def storeRanges (bs : List (Nat × List Byte)) : Ranges := bs.map fun b => (b.1, b.2.length)

def pstvCause (f : PStv) (s : State) : Option Trap :=
  let a := offAddr (readSrc s.leaf f.base) f.off
  match sheetCause (storeRanges (pstvStores f s.leaf)) 1 with
  | some t => some t
  | none => if a.toNat % 64 != 0 then some (alignTrap 4) else none

def pstvEffect (f : PStv) (s : State) : State :=
  let bs := pstvStores f s.leaf
  storeSheet s (storeRanges bs) bs

def execPld (f : PLd) (s : State) : Out :=
  runOp (.pld f) (fun s => sheetCause (pldRanges f s.leaf) (sizeBytes f.size)) noWait (blurReads (pldRanges f) (pldEffect f)) s
def execPst (f : PSt) (s : State) : Out :=
  runOp (.pst f) (fun s => sheetCause (pstRanges f s.leaf) (sizeBytes f.size)) noWait (pstEffect f) s
def execPldv (f : PLdv) (s : State) : Out :=
  runOp (.pldv f) (fun s => sheetCause (pldvRanges f s.leaf) 64) noWait (blurReads (pldvRanges f) (pldvEffect f)) s
def execPstv (f : PStv) (s : State) : Out := runOp (.pstv f) (pstvCause f) noWait (pstvEffect f) s

/-! ### PLDVS, PGTH, PSCT -/

/-- A sheet offset of the exact sum; one below zero lies out of bounds as well. -/
def exactOffset (i : Int) : Nat := if i < 0 then 2 ^ 64 + (-i).toNat else i.toNat

def pldvsRanges (f : PLdvs) (l : Leaf) : Ranges :=
  let e := sizeBytes f.size
  let a := offAddr (readSrc l f.base) f.off
  let d := readS l f.str
  (List.range (2048 / e)).map fun (j : Nat) => (exactOffset ((a.toNat : Int) + j * d.toInt), e)

def pldvsEffect (f : PLdvs) (s : State) : State :=
  let l := s.leaf
  let rs := pldvsRanges f l
  let es := rs.map fun r => bytesNat (sheetRead l r.1 r.2)
  loadResult s rs f.land (.v f.vd.toNat) (ofElements (8 * sizeBytes f.size) es) (onesBelow 16384)

/-- Where each lane of a gather or scatter points (R10, R167). -/
def indexedAddrs (b : Word) (off : BitVec 20) (idx : Vec) : List Nat :=
  (lanes idx).map fun x => (offAddr b off).toNat + 4 * x

def enabledAddrs (m : Mask) (addrs : List Nat) : Ranges :=
  ((maskBits m).zip addrs).filterMap fun x => if x.1 then some (x.2, 4) else none

/-- The addresses whose alignment R168 checks are those of the enabled lanes: with none, nothing is checked. DESIGN CHOICE: log entry 55. -/
def pgthRanges (f : PGth) (l : Leaf) : Ranges :=
  enabledAddrs (maskOf l f.mask) (indexedAddrs (readSrc l f.base) f.off (readV l f.idx))

def pgthEffect (f : PGth) (s : State) : State :=
  let l := s.leaf
  let m := maskOf l f.mask
  let es := ((maskBits m).zip (indexedAddrs (readSrc l f.base) f.off (readV l f.idx))).map fun x =>
    if x.1 then bytesNat (sheetRead l x.2 4) else 0
  loadResult s (pgthRanges f l) f.land (.v f.vd.toNat) (ofElements 32 es) (laneMask m)

def psctStores (f : PSct) (l : Leaf) : List (Nat × List Byte) :=
  enabledStores (maskOf l f.mask) (indexedAddrs (readSrc l f.base) f.off (readV l f.idx)) (readV l f.vs)

def psctEffect (f : PSct) (s : State) : State :=
  let bs := psctStores f s.leaf
  storeSheet s (storeRanges bs) bs

def execPldvs (f : PLdvs) (s : State) : Out :=
  runOp (.pldvs f) (fun s => sheetCause (pldvsRanges f s.leaf) (sizeBytes f.size)) noWait (blurReads (pldvsRanges f) (pldvsEffect f)) s
def execPgth (f : PGth) (s : State) : Out :=
  runOp (.pgth f) (fun s => sheetCause (pgthRanges f s.leaf) 4) noWait (blurReads (pgthRanges f) (pgthEffect f)) s
def execPsct (f : PSct) (s : State) : Out :=
  runOp (.psct f) (fun s => sheetCause (storeRanges (psctStores f s.leaf)) 4) noWait (psctEffect f) s

/-! ### PLDH -/

/-- The sheet range PLDH reads: `n` bytes at a byte offset of the recto. -/
def rectoRange (h : Handle) (b : Word) (off : BitVec 23) (n : Nat) : Nat × Nat :=
  (h.recto + (b + off.setWidth 64).toNat, n)

/-- Rows 2 to 4 of R168 for PLDH. -/
def pldhCause (hn : BitVec 6) (base : ScalarSrc) (off : BitVec 23) (n al : Nat) (s : State) : Option Trap :=
  let h := getHandle s.leaf hn.toNat
  let b := readSrc s.leaf base
  if !h.cfg || h.ecause != 0 || decide (h.len < (b + off.setWidth 64).toNat + n) then some (slotTrap .handleState .p)
  else sheetCause [rectoRange h b off n] al

def pldhRange (f : PLdh) (l : Leaf) : Nat × Nat :=
  rectoRange (getHandle l f.h.toNat) (readSrc l f.base) f.off (sizeBytes f.size)

def pldhvRange (f : PLdhv) (l : Leaf) : Nat × Nat :=
  rectoRange (getHandle l f.h.toNat) (readSrc l f.base) f.off 2048

/-- A read of the recto acquires what the handle's publishes released, and so it finds every byte of the generation that was
published (R190, R212, R219). -/
def readRecto (h : BitVec 6) (s : State) : State := s.upd fun l => acquire l (getHandle l h.toNat).clock

def pldhEffect (f : PLdh) (s : State) : State :=
  let r := pldhRange f s.leaf
  let v := extendLoad f.ext r.2 (bytesNat (sheetRead s.leaf r.1 r.2))
  loadResult s [r] f.land (.s f.sd.toNat) (v.setWidth 16384) (onesBelow 64)

def pldhvEffect (f : PLdhv) (s : State) : State :=
  let r := pldhvRange f s.leaf
  loadResult s [r] f.land (.v f.vd.toNat) (bytesVec (sheetRead s.leaf r.1 r.2)) (onesBelow 16384)

def execPldh (f : PLdh) (s : State) : Out :=
  runOp (.pldh f) (pldhCause f.h f.base f.off (sizeBytes f.size) (sizeBytes f.size)) noWait
    (fun s => blurReads (fun l => [pldhRange f l]) (pldhEffect f) (readRecto f.h s)) s
def execPldhV (f : PLdhv) (s : State) : Out :=
  runOp (.pldhV f) (pldhCause f.h f.base f.off 2048 64) noWait
    (fun s => blurReads (fun l => [pldhvRange f l]) (pldhvEffect f) (readRecto f.h s)) s

end Sys2Proof.Machine
end

