-- ==== Sys2Proof/Machine/Translate.lean ====
section
/-! DEFINITION. Translation (R348 to R354): the walk, the frame checks, cached translations, and the fault service of
R361 and R362. -/

namespace Sys2Proof.Machine

/-- Kinds of access (R351). -/
inductive Kind where
  | r | w | x
  deriving DecidableEq, Repr

def kindFault : Kind → Cause
  | .r => .pageFaultR
  | .w => .pageFaultW
  | .x => .pageFaultX

/-! ### Entry fields (R349) -/

def pteV (e : Word) : Bool := e.getLsbD 0
def pteR (e : Word) : Bool := e.getLsbD 1
def pteW (e : Word) : Bool := e.getLsbD 2
def pteX (e : Word) : Bool := e.getLsbD 3
def pteG (e : Word) : Bool := e.getLsbD 4
def pteA (e : Word) : Bool := e.getLsbD 5
def pteD (e : Word) : Bool := e.getLsbD 6
def pteRun (e : Word) : Nat := (e.extractLsb' 7 2).toNat
def pteMs (e : Word) : Bool := e.getLsbD 9
def pteCache (e : Word) : Nat := (e.extractLsb' 10 2).toNat
def ptePriv (e : Word) : Bool := e.getLsbD 12
def pteKeyed (e : Word) : Bool := e.getLsbD 13
def ptePpn (e : Word) : Nat := (e.extractLsb' 16 36).toNat
def ptePkg (e : Word) : Nat := (e.extractLsb' 52 7).toNat
def pteRemote (e : Word) : Bool := e.getLsbD 59

/-- The permission a kind of access needs (R351). -/
def ptePermits (e : Word) (k : Kind) : Bool :=
  pteA e && (match k with
    | .r => pteR e
    | .w => pteW e && pteD e
    | .x => pteX e)

def ptePointer (e : Word) : Bool := !pteR e && !pteW e && !pteX e

/-- A pointer's reserved uses: bits 13:5 and 59:52 (R351). -/
def ptePointerOk (e : Word) : Bool := e.extractLsb' 5 9 == 0 && e.extractLsb' 52 8 == 0

/-- Entries of a run agree in every bit but 63:60 and 15:14 (R350). -/
def pteSame (a b : Word) : Bool := (a &&& 0x0FFFFFFFFFFF3FFF) == (b &&& 0x0FFFFFFFFFFF3FFF)

def pageSize (e : Word) (level : Nat) : Nat := 4 ^ pteRun e * 2 ^ (12 + 9 * level)

/-- The leaf entry's own checks, up to the permission (R351). -/
def pteLeafOk (e : Word) (level : Nat) : Bool :=
  decide (level ≤ 3) && !(pteW e && !pteR e)
    && !(level == 2 && pteRun e == 3) && !(level == 3 && pteRun e != 0)
    && ptePpn e * 4096 % pageSize e level == 0

def vaIndex (va level : Nat) : Nat := va / 2 ^ (12 + 9 * level) % 512

/-- Outcome of a walk: the leaf entry, its level, and the pointers passed (level, table). -/
abbrev WalkResult := Except Cause (Word × Nat × List (Nat × Nat))

def readWord (s : State) (r : Reader) (pa : Nat) : Word × State :=
  let (b, _, s1) := readPhys s r s.node.package.toNat pa 8
  (BitVec.ofNat 64 (bytesNat b), s1)

/-- Reads the `n` entries of a run's group. -/
def readGroup (s : State) (r : Reader) (t base : Nat) : Nat → List Word × State
  | 0 => ([], s)
  | n + 1 =>
    let (es, s1) := readGroup s r t base n
    let (e, s2) := readWord s1 r (t + 8 * (base + n))
    (es ++ [e], s2)

/-- The entry a leaf translates through: its own, or, where the run's entries differ, some entry of the group (R350). DEDUCED: log entry 38. -/
def runEntry (s : State) (r : Reader) (t idx : Nat) (e : Word) : Word × State :=
  let n := 4 ^ pteRun e
  if n = 1 then (e, s)
  else
    let (es, s1) := readGroup s r t (idx - idx % n) n
    if es.all fun x => pteSame x e then (e, s1)
    else
      let (j, s2) := takeChoice s1 n
      (es.getD j e, s2)

/-- Walk from the table at `t` of level `level` down (R351). Tables lie in this package's interleaved window. DEDUCED: log entry 36. -/
def walkFrom (s : State) (r : Reader) (va : Nat) (k : Kind) (t : Nat) : Nat → WalkResult × State
  | 0 => walkEntry s 0 (fun _ s => (.error (kindFault k), s))
  | level + 1 => walkEntry s (level + 1) fun e s =>
      let t' := ptePpn e * 4096
      match walkFrom s r va k t' level with
      | (.ok (x, l, ps), s1) => (.ok (x, l, (level, t') :: ps), s1)
      | (.error c, s1) => (.error c, s1)
where
  walkEntry (s : State) (level : Nat) (down : Word → State → WalkResult × State) : WalkResult × State :=
    if 0x00C0_0000_0000 ≤ t then (.error .access, s)
    else
      let idx := vaIndex va level
      let (e0, s1) := readWord s r (t + 8 * idx)
      if !pteV e0 then (.error (kindFault k), s1)
      else if ptePointer e0 then
        if !ptePointerOk e0 then (.error (kindFault k), s1) else down e0 s1
      else
        let (e, s2) := runEntry s1 r t idx e0
        if pteV e && !ptePointer e && pteLeafOk e level && ptePermits e k then (.ok (e, level, []), s2)
        else (.error (kindFault k), s2)

/-- The checks on a frame after a walk (R351, R174, R389, R394). -/
def frameCheck (s : State) (e : Word) (pa : Nat) : Except Cause Trans :=
  let remote := pteRemote e && ptePkg e != s.node.package.toNat
  let ok := (match region pa with
    | .hbm _ => pteCache e != 3
    | .weight => pteCache e == 3 && !pteMs e
    | _ => false)
  let pkgOk := !remote || (s.node.accept.getLsbD 8 && s.node.fabric && decide (ptePkg e < s.node.domain.toNat)
    && !s.lostPkgs.contains (ptePkg e))
  let featOk := !pteRemote e || s.node.accept.getLsbD 8
  if ok && pkgOk && featOk then
    .ok ⟨pa, if remote then ptePkg e else s.node.package.toNat, pteKeyed e, ptePriv e, pteCache e, pteMs e,
      0, 0, pteG e⟩
  else .error .access

/-! ### Cached translations (R353) -/

def tlbHits (s : State) (asid : BitVec 16) (va : Nat) : List TlbEntry :=
  s.tlb.filter fun t => (t.global || t.asid == asid) && decide (t.base ≤ va) && decide (va < t.base + t.size)

/-- A cached translation that serves the address: any of those there are (R353). -/
def tlbHit (s : State) (asid : BitVec 16) (va : Nat) : Option TlbEntry × State :=
  match tlbHits s asid va with
  | [] => (none, s)
  | [t] => (some t, s)
  | ts =>
    let (n, s1) := takeChoice s ts.length
    (ts[n]?, s1)

/-- The cached pointer of an ASID that saves a walk most levels; G of a pointer counts for nothing. DESIGN CHOICE: log entry 98. -/
def ptrHit (s : State) (asid : BitVec 16) (va : Nat) : Option PtrEntry :=
  (s.ptrs.filter fun p => p.asid == asid && decide (p.base ≤ va) && decide (va < p.base + p.size)).foldl
    (fun best p => match best with
      | some b => if p.level < b.level then some p else best
      | none => some p) none

/-- Keeps a translation that succeeded, and the pointers it passed. -/
def cacheWalk (s : State) (asid : BitVec 16) (va : Nat) (e : Word) (level : Nat) (ps : List (Nat × Nat)) : State :=
  let size := pageSize e level
  let te : TlbEntry := ⟨asid, pteG e, va - va % size, size, e⟩
  let pes := ps.map fun p =>
    let span := 2 ^ (12 + 9 * (p.1 + 1))
    (⟨asid, p.1, va - va % span, span, p.2⟩ : PtrEntry)
  { s with tlb := if s.tlb.contains te then s.tlb else te :: s.tlb
           ptrs := pes.foldl (fun l p => if l.contains p then l else p :: l) s.ptrs }

def useEntry (s : State) (va : Nat) (e : Word) (size : Nat) : Except Cause Trans :=
  (frameCheck s e (ptePpn e * 4096 + va % size)).map fun t => { t with page := va - va % size, size := size }

/-- A walk that has found an entry: the translation is kept where the access does not fault (R353). -/
def walked (s : State) (asid : BitVec 16) (va : Nat) (w : Word × Nat × List (Nat × Nat)) : Except Cause Trans × State :=
  match useEntry s va w.1 (pageSize w.1 w.2.1) with
  | .ok x => (.ok x, cacheWalk s asid va w.1 w.2.1 w.2.2)
  | .error c => (.error c, s)

/-- A walk comes after every cut made before it, and so after what the cut acquired (R357, R358). -/
def walkReader (s : State) (r : Reader) : Reader :=
  { r with clock := clockJoin r.clock (mapGet s.agentClock invalObs []) }

/-- Translates one address for an access of kind `k`: through a cached translation where the choice says so and it
serves, by a walk otherwise. A fault found through a cache is confirmed by a fresh walk (R353). DEDUCED: log entry 37. -/
def translate (s : State) (r0 : Reader) (asid : BitVec 16) (root : Nat) (useTlb : Bool) (va : Nat) (k : Kind) :
    Except Cause Trans × State :=
  let r := walkReader s r0
  let fresh := fun (s : State) =>
    match walkFrom s r va k root 5 with
    | (.ok w, s1) => walked s1 asid va w
    | (.error c, s1) => (.error c, s1)
  if useTlb then
    match tlbHit s asid va with
    | (some t, s0) =>
      match (if ptePermits t.entry k then useEntry s0 va t.entry t.size else .error .access) with
      | .ok x => (.ok x, s0)
      | .error _ => fresh s0
    | (none, s0) =>
      match ptrHit s0 asid va with
      | some p =>
        match walkFrom s0 r va k p.table p.level with
        | (.ok w, s1) =>
          match walked s1 asid va w with
          | (.ok x, s2) => (.ok x, s2)
          | (.error _, _) => fresh s1
        | (.error _, s1) => fresh s1
      | none => fresh s0
  else fresh s

/-- A translation for an access that refuses some pages: a refusal found through a cached translation is confirmed by a
fresh walk as well (R353). -/
def translateSure (s : State) (r : Reader) (asid : BitVec 16) (root : Nat) (useTlb : Bool) (va : Nat) (k : Kind)
    (bad : Trans → Bool) : Except Cause Trans × State :=
  match translate s r asid root useTlb va k with
  | (.ok t, s1) => if useTlb && bad t then translate s1 r asid root false va k else (.ok t, s1)
  | x => x

/-- The address pieces of an access within 4 KiB pages: address and length. -/
def pagePieces : Nat → Nat → Nat → List (Nat × Nat)
  | 0, _, _ => []
  | fuel + 1, a, n =>
    if n = 0 then []
    else
      let k := min n (4096 - a % 4096)
      (a, k) :: pagePieces fuel (a + k) (n - k)

def pageSplit (a n : Nat) : List (Nat × Nat) := pagePieces (n / 4096 + 2) a n

/-- Translates every piece of an access; the first fault gives the cause and its address. -/
def translateAll (s : State) (r : Reader) (asid : BitVec 16) (root : Nat) (useTlb : Bool) (k : Kind) :
    List (Nat × Nat) → Except (Cause × Nat) (List Trans) × State
  | [] => (.ok [], s)
  | p :: ps =>
    match translate s r asid root useTlb (p.1 % 2 ^ 64) k with
    | (.ok t, s1) =>
      match translateAll s1 r asid root useTlb k ps with
      | (.ok ts, s2) => (.ok (t :: ts), s2)
      | (.error e, s2) => (.error e, s2)
    | (.error c, s1) => (.error (c, p.1 % 2 ^ 64), s1)

/-- Virtual memory read by an agent of a run, page by page: bytes and releases, or the first fault. -/
def readVirt (s : State) (r : Reader) (asid : BitVec 16) (root : Nat) (useTlb : Bool) (k : Kind) (va n : Nat) :
    Except (Cause × Nat) (List Byte × List Release) × State :=
  let ps := pageSplit va n
  match translateAll s r asid root useTlb k ps with
  | (.error e, s1) => (.error e, s1)
  | (.ok ts, s1) =>
    let (b, rels, s2) := (ps.zip ts).foldl (fun (acc : List Byte × List Release × State) x =>
      let (b, rl, s2) := readPhys acc.2.2 { r with priv := x.2.priv } x.2.pkg x.2.pa x.1.2
      (acc.1 ++ b, acc.2.1 ++ rl, s2)) ([], [], s1)
    (.ok (b, rels), s2)

def writePages (s : State) (w : Writer) : List ((Nat × Nat) × Trans) → List Byte → State
  | [], _ => s
  | x :: xs, b =>
    writePages (writePhys s { w with priv := x.2.priv } x.2.pkg x.2.pa (b.take x.1.2)) w xs (b.drop x.1.2)

/-- Virtual memory written by an agent of a run: nothing where a page faults. -/
def writeVirt (s : State) (r : Reader) (w : Writer) (asid : BitVec 16) (root : Nat) (useTlb : Bool) (va : Nat)
    (b : List Byte) : Except (Cause × Nat) Unit × State :=
  let ps := pageSplit va b.length
  match translateAll s r asid root useTlb .w ps with
  | (.error e, s1) => (.error e, s1)
  | (.ok ts, s1) => (.ok (), writePages s1 w (ps.zip ts) b)

/-! ### Interrupts and the fault service -/

/-- The writes made since `nextId` stood at `id`, byte by byte. -/
def writesSince (s : State) (id : Nat) : List (Nat × Nat) :=
  (s.hist.filter fun w => decide (id ≤ w.id)).flatMap fun w => w.bytes.mapIdx fun i _ => (w.key + i, w.id)

/-- An identity reaches a core's interrupt file; the IMSIC merges it with the same identity pending there (R392). -/
def pendMsi (s : State) (m : Msi) : State :=
  let same := fun (x : Msi) => x.hart == m.hart && x.level == m.level && x.identity == m.identity
  { s with msis := s.msis.filter (fun x => !same x) ++ [{ m with after := (s.msis.filter same).flatMap Msi.after ++ m.after }] }

/-- An MSI of R392, which comes after the writes it announces; identity 0 sends none, and there are 24 cores. -/
def sendMsi (s : State) (hart identity : Nat) (after : List (Nat × Nat)) : State :=
  if identity = 0 || decide (24 ≤ hart) then s else pendMsi s ⟨hart, s.node.level.toNat, identity, after⟩

def isPageFault : Cause → Bool
  | .pageFaultR | .pageFaultW | .pageFaultX => true
  | _ => false

def faultKind : Cause → Nat
  | .pageFaultW => 1
  | .pageFaultX => 2
  | _ => 0

/-- A record's first 15 bytes and RUNID (R362); bytes from 24 are RESP and reserved. -/
def serviceRecord (va : Nat) (asid : BitVec 16) (c : Cause) (gleaf unit : Nat) (runId : Word) : List Byte :=
  natBytes va 8 ++ natBytes asid.toNat 2 ++ natBytes (faultKind c) 1 ++ natBytes c.code 1 ++ natBytes gleaf 2
    ++ natBytes unit 1 ++ [0] ++ natBytes runId.toNat 8 ++ natBytes 0 8

/-- Writes a record for a page fault of a run whose policy is SERVICE, and gives the number its waiting access keeps;
none where the policy is FATAL, the ring itself cannot be reached, or the run has ended (R208). DEDUCED: log entry 79. -/
def serviceFault (s : State) (run : Run) (gleaf unit va : Nat) (c : Cause) : Option (Nat × State) :=
  if !(run.pkt.service && run.fringRecords != 0 && isPageFault c) || run.ending.isSome then none
  else
    let rd := agentReader s spineObs 1
    let tail := run.fringTail.toNat
    match translate s rd run.asid run.root false tail .w with
    | (.error _, _) => none
    | (.ok t, s1) =>
      let (b, _, s2) := readPhys s1 { rd with latest := true } t.pkg t.pa 8
      let i := bytesNat b
      let nxt := if run.fringRecords - 1 ≤ i then 0 else i + 1
      let (p, s3) := agentNext s2 spineObs
      let s4 := writePhys s3 { obs := spineObs, po := p, chain := true } t.pkg t.pa (natBytes nxt 8)
      let ring := run.fring.toNat + 64 * i
      let rec_ := serviceRecord va run.asid c gleaf unit run.pkt.runId
      match writeVirt s4 rd { obs := spineObs, po := p } run.asid run.root false ring rec_ with
      | (.error _, _) => none
      | (.ok _, s5) =>
        let (p2, s6) := agentNext s5 spineObs
        let w : Writer := { obs := spineObs, po := p2, rels := [agentRelease s6 spineObs 5] }
        match writeVirt s6 rd w run.asid run.root false (ring + 15) [1] with
        | (.error _, _) => none
        | (.ok _, s7) =>
          let (id, s8) := fresh s7
          let up := s8.node.spine
          let valid := writesSince s7 s6.nextId
          let s9 := { s8 with services := s8.services ++ [⟨id, run.id, BitVec.ofNat 64 ring, up, valid⟩] }
          some (id, if up then sendMsi s9 s9.node.svcHart.toNat s9.node.svcId.toNat valid else s9)

end Sys2Proof.Machine
end

