-- ==== Sys2Proof/Machine/Scalar.lean ====
section
/-! DEFINITION. The S slot (R101 to R107): one meaning for each of its instructions. None of them traps after decode. -/

namespace Sys2Proof.Machine

/-- A result of the S slot: latch l0 for the ALU, l1 for multiply and divide (R34, R103). -/
def scalarResult (s : State) (lat latch : Nat) (sd : BitVec 6) (nowb : Bool) (v : Word) : State :=
  addResult s lat (if nowb then .none else .s sd.toNat) (v.setWidth 16384) (onesBelow 64) (some latch) (slotRank .s) 0

def aluRR (s : State) (f : SRR) (op : Word → Word → Word) : State :=
  scalarResult s 1 0 f.sd f.nowb (op (readSrc s.leaf f.sa) (readSrc s.leaf f.sb))

def aluRI (s : State) (f : SRI) (op : Word → BitVec 32 → Word) : State :=
  scalarResult s 1 0 f.sd f.nowb (op (readSrc s.leaf f.sa) f.imm)

def aluSh (s : State) (f : SSh) (op : Word → Nat → Word) : State :=
  scalarResult s 1 0 f.sd f.nowb (op (readSrc s.leaf f.sa) f.sh.toNat)

def aluR (s : State) (f : SR) (op : Word → Word) : State :=
  scalarResult s 1 0 f.sd f.nowb (op (readSrc s.leaf f.sa))

def mulRR (s : State) (f : SRR) (op : Word → Word → Word) : State :=
  scalarResult s 3 1 f.sd f.nowb (op (readSrc s.leaf f.sa) (readSrc s.leaf f.sb))

def divRR (s : State) (f : SRR) (op : Word → Word → Word) : State :=
  scalarResult s 18 1 f.sd f.nowb (op (readSrc s.leaf f.sa) (readSrc s.leaf f.sb))

def shiftAmount (b : Word) : Nat := b.toNat % 64

def boolWord (b : Bool) : Word := if b then 1 else 0

/-- R105. -/
def divSigned (a b : Word) : Word :=
  if b = 0 then BitVec.allOnes 64
  else if a = 0x8000000000000000 && b = BitVec.allOnes 64 then a
  else BitVec.ofInt 64 (Int.tdiv a.toInt b.toInt)

def divUnsigned (a b : Word) : Word := if b = 0 then BitVec.allOnes 64 else BitVec.ofNat 64 (a.toNat / b.toNat)

def remSigned (a b : Word) : Word :=
  if b = 0 then a
  else if a = 0x8000000000000000 && b = BitVec.allOnes 64 then 0
  else BitVec.ofInt 64 (Int.tmod a.toInt b.toInt)

def remUnsigned (a b : Word) : Word := if b = 0 then a else BitVec.ofNat 64 (a.toNat % b.toNat)

/-- Leading zero bits among the low `n` bits. -/
def countLeading (a : Word) : Nat → Nat
  | 0 => 0
  | n + 1 => if a.getLsbD n then 0 else countLeading a n + 1

/-- Trailing zero bits, from bit `64 - n` up. -/
def countTrailing (a : Word) : Nat → Nat
  | 0 => 0
  | n + 1 => if a.getLsbD (63 - n) then 0 else countTrailing a n + 1

def popcountNat : Nat → Nat → Nat
  | 0, _ => 0
  | n + 1, x => x % 2 + popcountNat n (x / 2)

def byteSwap (a : Word) : Word := BitVec.ofNat 64 (packNat 8 (splitNat 8 8 a.toNat).reverse)

/-- R106. -/
def extractField (a : Word) (sx : Bool) (len pos : Nat) : Word :=
  BitVec.ofInt 64 (readElem sx len (a.toNat / 2 ^ pos % 2 ^ len))

def insertField (a b : Word) (len pos : Nat) : Word :=
  let m : Word := BitVec.ofNat 64 ((2 ^ len - 1) * 2 ^ pos)
  (b &&& ~~~m) ||| ((a <<< pos) &&& m)

/-- R107. -/
def scaledAddress (a b : Word) (sh : Nat) (disp : BitVec 24) : Word := a + (b <<< sh) + disp.signExtend 64

def execAdd (f : SRR) (s : State) : Out := .next (aluRR s f fun a b => a + b)
def execSub (f : SRR) (s : State) : Out := .next (aluRR s f fun a b => a - b)
def execAddi (f : SRI) (s : State) : Out := .next (aluRI s f fun a i => a + sx32 i)
def execMul (f : SRR) (s : State) : Out := .next (mulRR s f fun a b => a * b)
def execMulh (f : SRR) (s : State) : Out :=
  .next (mulRR s f fun a b => BitVec.ofInt 64 (a.toInt * b.toInt / 2 ^ 64))
def execMulhn (f : SRR) (s : State) : Out :=
  .next (mulRR s f fun a b => BitVec.ofNat 64 (a.toNat * b.toNat / 2 ^ 64))
def execDiv (f : SRR) (s : State) : Out := .next (divRR s f divSigned)
def execDivn (f : SRR) (s : State) : Out := .next (divRR s f divUnsigned)
def execRem (f : SRR) (s : State) : Out := .next (divRR s f remSigned)
def execRemn (f : SRR) (s : State) : Out := .next (divRR s f remUnsigned)
def execAnd (f : SRR) (s : State) : Out := .next (aluRR s f fun a b => a &&& b)
def execOr (f : SRR) (s : State) : Out := .next (aluRR s f fun a b => a ||| b)
def execXor (f : SRR) (s : State) : Out := .next (aluRR s f fun a b => a ^^^ b)
def execAndn (f : SRR) (s : State) : Out := .next (aluRR s f fun a b => a &&& ~~~b)
def execAndi (f : SRI) (s : State) : Out := .next (aluRI s f fun a i => a &&& sx32 i)
def execOri (f : SRI) (s : State) : Out := .next (aluRI s f fun a i => a ||| sx32 i)
def execXori (f : SRI) (s : State) : Out := .next (aluRI s f fun a i => a ^^^ sx32 i)
def execSll (f : SRR) (s : State) : Out := .next (aluRR s f fun a b => a <<< shiftAmount b)
def execSrl (f : SRR) (s : State) : Out := .next (aluRR s f fun a b => a >>> shiftAmount b)
def execSra (f : SRR) (s : State) : Out := .next (aluRR s f fun a b => a.sshiftRight (shiftAmount b))
def execSlli (f : SSh) (s : State) : Out := .next (aluSh s f fun a n => a <<< n)
def execSrli (f : SSh) (s : State) : Out := .next (aluSh s f fun a n => a >>> n)
def execSrai (f : SSh) (s : State) : Out := .next (aluSh s f fun a n => a.sshiftRight n)
def execRotr (f : SRR) (s : State) : Out := .next (aluRR s f fun a b => a.rotateRight (shiftAmount b))
def execMin (f : SRR) (s : State) : Out := .next (aluRR s f fun a b => if a.toInt ≤ b.toInt then a else b)
def execMax (f : SRR) (s : State) : Out := .next (aluRR s f fun a b => if a.toInt ≤ b.toInt then b else a)
def execMinn (f : SRR) (s : State) : Out := .next (aluRR s f fun a b => if a.toNat ≤ b.toNat then a else b)
def execMaxn (f : SRR) (s : State) : Out := .next (aluRR s f fun a b => if a.toNat ≤ b.toNat then b else a)
def execSlt (f : SRR) (s : State) : Out := .next (aluRR s f fun a b => boolWord (decide (a.toInt < b.toInt)))
def execSltn (f : SRR) (s : State) : Out := .next (aluRR s f fun a b => boolWord (decide (a.toNat < b.toNat)))
def execSeq (f : SRR) (s : State) : Out := .next (aluRR s f fun a b => boolWord (a == b))
def execSlti (f : SRI) (s : State) : Out := .next (aluRI s f fun a i => boolWord (decide (a.toInt < (sx32 i).toInt)))
def execLi (f : SLi) (s : State) : Out := .next (scalarResult s 1 0 f.sd f.nowb (sx32 f.imm))
def execLih (f : SRI) (s : State) : Out := .next (aluRI s f fun a i => i ++ a.extractLsb' 0 32)
def execSel (f : SSel) (s : State) : Out :=
  .next (scalarResult s 1 0 f.sd f.nowb
    (if readSrc s.leaf f.sc = 0 then readSrc s.leaf f.sb else readSrc s.leaf f.sa))
def execClz (f : SR) (s : State) : Out := .next (aluR s f fun a => BitVec.ofNat 64 (countLeading a 64))
def execCtz (f : SR) (s : State) : Out := .next (aluR s f fun a => BitVec.ofNat 64 (countTrailing a 64))
def execPopc (f : SR) (s : State) : Out := .next (aluR s f fun a => BitVec.ofNat 64 (popcountNat 64 a.toNat))
def execBswap (f : SR) (s : State) : Out := .next (aluR s f byteSwap)
def execExtr (f : SExtr) (s : State) : Out :=
  .next (scalarResult s 1 0 f.sd f.nowb (extractField (readSrc s.leaf f.sa) f.sx f.len.toNat f.pos.toNat))
def execInsr (f : SInsr) (s : State) : Out :=
  .next (scalarResult s 1 0 f.sd f.nowb
    (insertField (readSrc s.leaf f.sa) (readSrc s.leaf f.sb) f.len.toNat f.pos.toNat))
def execAddr (f : SAddr) (s : State) : Out :=
  .next (scalarResult s 1 0 f.sd f.nowb
    (scaledAddress (readSrc s.leaf f.sa) (readSrc s.leaf f.sb) f.sh.toNat f.disp))

end Sys2Proof.Machine
end

