-- ==== Sys2Proof/Machine/Vector.lean ====
section
/-! DEFINITION. The integer, permute and mask instructions of VA and VB (R119 to R130, R136 to R145). None of them traps
after decode. -/

namespace Sys2Proof.Machine

/-- The lanes an operation's mask field enables (R124). -/
def enabledLanes (l : Leaf) (m : BitVec 3) : Mask := maskOf l m

/-- Delivers the elements of an integer-unit result to the enabled lanes. -/
def intVecResult (s : State) (u : VUnit) (lat : Nat) (nowb : Bool) (vd : BitVec 9) (e : Nat) (es : List Nat)
    (en : Mask) : State :=
  addVec s lat nowb vd (ofElements e es) (laneMask en) (intLatch u) (vecRank u) 0

def itemWiden (t : ITy) : Widen := if isSigned t then .sign else .zero

/-- An integer form of two operands: `op` on the elements read by the type, low bits kept (R128). -/
def intBin (s : State) (f : V2 ITy) (lat : Nat) (op : Nat → Bool → Int → Int → Int) : State :=
  let l := s.leaf
  let e := f.ty.width
  let sg := isSigned f.ty
  let a := readElems l f.a e (itemWiden f.ty)
  let b := readElems l f.b e (itemWiden f.ty)
  let r := a.zipWith (fun x y => narrow e (op e sg (readElem sg e x) (readElem sg e y))) b
  intVecResult s f.u lat f.nowb f.vd e r (enabledLanes l f.mask)

/-- Clamp (R128). -/
def clampElem (e : Nat) (sg : Bool) (x : Int) : Int :=
  let lo : Int := if sg then -(2 ^ (e - 1) : Nat) else 0
  let hi : Int := if sg then (2 ^ (e - 1) : Nat) - 1 else (2 ^ e : Nat) - 1
  max lo (min hi x)

def execVadd (f : V2 ITy) (s : State) : Out := .next (intBin s f 2 fun _ _ a b => a + b)
def execVsub (f : V2 ITy) (s : State) : Out := .next (intBin s f 2 fun _ _ a b => a - b)
def execVmul (f : V2 ITy) (s : State) : Out := .next (intBin s f 4 fun _ _ a b => a * b)
def execVmulh (f : V2 ITy) (s : State) : Out := .next (intBin s f 4 fun e _ a b => a * b / (2 ^ e : Nat))
def execVadds (f : V2 ITy) (s : State) : Out := .next (intBin s f 2 fun e sg a b => clampElem e sg (a + b))
def execVsubs (f : V2 ITy) (s : State) : Out := .next (intBin s f 2 fun e sg a b => clampElem e sg (a - b))
def execVmin (f : V2 ITy) (s : State) : Out := .next (intBin s f 2 fun _ _ a b => min a b)
def execVmax (f : V2 ITy) (s : State) : Out := .next (intBin s f 2 fun _ _ a b => max a b)

def execVmac (f : V3 ITy) (s : State) : Out :=
  let l := s.leaf
  let e := f.ty.width
  let rd := fun v => (readElems l v e (itemWiden f.ty)).map (readElem (isSigned f.ty) e)
  let r := (((rd f.a).zipWith (· * ·) (rd f.b)).zipWith (· + ·) (rd f.c)).map (narrow e)
  .next (intVecResult s f.u 4 f.nowb f.vd e r (enabledLanes l f.mask))

/-- A form of one operand, on raw elements. -/
def rawUn (s : State) (f : V1 STy) (lat : Nat) (w : Widen) (op : Nat → Nat → Nat) : State :=
  let l := s.leaf
  let e := f.ty.width
  intVecResult s f.u lat f.nowb f.vd e ((readElems l f.a e w).map (op e)) (enabledLanes l f.mask)

def execVabs (f : V1 STy) (s : State) : Out :=
  .next (rawUn s f 2 .sign fun e x => narrow e (readElem true e x).natAbs)

/-- R145. -/
def execVpopc (f : V1 STy) (s : State) : Out := .next (rawUn s f 2 .zero fun e x => popcountNat e x)

/-- Untyped logic on whole lanes (R129). -/
def vecLogic (s : State) (f : V2 UTy) (op : Vec → Vec → Vec) : State :=
  let l := s.leaf
  addVec s 2 f.nowb f.vd (op (readVec l f.a 32 .zero) (readVec l f.b 32 .zero)) (laneMask (enabledLanes l f.mask))
    (intLatch f.u) (vecRank f.u) 0

def execVand (f : V2 UTy) (s : State) : Out := .next (vecLogic s f fun a b => a &&& b)
def execVor (f : V2 UTy) (s : State) : Out := .next (vecLogic s f fun a b => a ||| b)
def execVxor (f : V2 UTy) (s : State) : Out := .next (vecLogic s f fun a b => a ^^^ b)
def execVandn (f : V2 UTy) (s : State) : Out := .next (vecLogic s f fun a b => a &&& ~~~b)

/-- A shift by the low log2(e) bits of the matching element (R129). -/
def vecShift (s : State) (f : V2 STy) (w : Widen) (op : Nat → Nat → Nat → Nat) : State :=
  let l := s.leaf
  let e := f.ty.width
  let r := (readElems l f.a e w).zipWith (fun x n => op e x (n % e)) (readElems l f.b e .zero)
  intVecResult s f.u 2 f.nowb f.vd e r (enabledLanes l f.mask)

def execVsll (f : V2 STy) (s : State) : Out := .next (vecShift s f .zero fun e x n => x * 2 ^ n % 2 ^ e)
def execVsrl (f : V2 STy) (s : State) : Out := .next (vecShift s f .zero fun _ x n => x / 2 ^ n)
def execVsra (f : V2 STy) (s : State) : Out :=
  .next (vecShift s f .sign fun e x n => narrow e (readElem true e x / (2 ^ n : Nat)))

/-! ### Compares (R130) -/

/-- Combines the predicates of each lane's elements: AND, or OR for ANY. -/
def laneBits (any : Bool) (per : Nat) : Nat → List Bool → List Bool
  | 0, _ => []
  | n + 1, l => (if any then (l.take per).any id else (l.take per).all id) :: laneBits any per n (l.drop per)

/-- Delivers a compare: a disabled lane's bit is 0. -/
def cmpResult (s : State) (u : VUnit) (lat : Nat) (md : BitVec 3) (any : Bool) (e : Nat) (ps : List Bool) (en : Mask) :
    State :=
  addMask s lat md ((laneBits any (32 / e) 512 ps).zipWith (· && ·) (maskBits en)) (vecRank u)

def intCmp (s : State) (f : VC ITy) (p : Int → Int → Bool) : State :=
  let l := s.leaf
  let e := f.ty.width
  let rd := fun v => (readElems l v e (itemWiden f.ty)).map (readElem (isSigned f.ty) e)
  cmpResult s f.u 2 f.md f.any e ((rd f.a).zipWith p (rd f.b)) (enabledLanes l f.mask)

def execVcmpeq (f : VC STy) (s : State) : Out :=
  let l := s.leaf
  let e := f.ty.width
  .next (cmpResult s f.u 2 f.md f.any e ((readElems l f.a e .sign).zipWith (· == ·) (readElems l f.b e .sign))
    (enabledLanes l f.mask))
def execVcmplt (f : VC ITy) (s : State) : Out := .next (intCmp s f fun a b => decide (a < b))
def execVcmple (f : VC ITy) (s : State) : Out := .next (intCmp s f fun a b => decide (a ≤ b))

/-! ### Moves, insertion, extraction, selection (R136 to R139) -/

def execVmov (f : V1 UTy) (s : State) : Out :=
  let l := s.leaf
  .next (addVec s 2 f.nowb f.vd (readVec l f.a 32 .zero) (laneMask (enabledLanes l f.mask)) (intLatch f.u) (vecRank f.u) 0)

def execVdup (f : VDup) (s : State) : Out :=
  let l := s.leaf
  let e := f.ty.width
  .next (intVecResult s f.u 2 f.nowb f.vd e (List.replicate (16384 / e) (readS l f.sa).toNat) (enabledLanes l f.mask))

def execVins (f : VIns) (s : State) : Out :=
  let e := f.ty.width
  let at_ := f.idx.toNat * e
  let x := (readS s.leaf f.sa).toNat % 2 ^ e
  .next (addVec s 2 f.nowb f.vd (BitVec.ofNat 16384 (x * 2 ^ at_)) (BitVec.ofNat 16384 ((2 ^ e - 1) * 2 ^ at_))
    (intLatch f.u) (vecRank f.u) 0)

def execVext (f : VExt) (s : State) : Out :=
  let e := f.ty.width
  let x := (readElems s.leaf f.a e (itemWiden f.ty)).getD f.idx.toNat 0
  .next (addScalar s 3 f.sd (BitVec.ofInt 64 (readElem (isSigned f.ty) e x)) none .va)

def execVsel (f : V2 UTy) (s : State) : Out :=
  let l := s.leaf
  let m := laneMask (maskOf l f.mask)
  .next (addVec s 2 f.nowb f.vd ((readVec l f.a 32 .zero &&& m) ||| (readVec l f.b 32 .zero &&& ~~~m))
    (BitVec.allOnes 16384) (intLatch f.u) (vecRank f.u) 0)

/-! ### Permutes (R140) -/

/-- VPERM's index into the table, for element j. -/
def permIndex (e j x : Nat) : Nat := if e = 8 then 256 * (j / 256) + x else x % (16384 / e)

def execVperm (f : V2 STy) (s : State) : Out :=
  let l := s.leaf
  let e := f.ty.width
  let tab := readVec l f.a e .zero
  let r := (readElems l f.b e .zero).mapIdx fun j x => (tab.toNat / 2 ^ (e * permIndex e j x)) % 2 ^ e
  .next (intVecResult s f.u 3 f.nowb f.vd e r (enabledLanes l f.mask))

/-- Elements move up by n; the top of `b` enters below. -/
def shiftIn (e n : Nat) (a b : Vec) : Vec := (a <<< (e * n)) ||| (if n = 0 then 0 else b >>> (16384 - e * n))

def execVshl (f : VShl) (s : State) : Out :=
  let l := s.leaf
  let e := f.ty.width
  .next (addVec s 3 f.nowb f.vd (shiftIn e f.n.toNat (readVec l f.a e .zero) (readVec l f.b e .zero))
    (laneMask (enabledLanes l f.mask)) (intLatch f.u) (vecRank f.u) 0)

def execVrot (f : VRot) (s : State) : Out :=
  let l := s.leaf
  let e := f.ty.width
  let a := readVec l f.a e .zero
  .next (addVec s 3 f.nowb f.vd (shiftIn e f.n.toNat a a) (laneMask (enabledLanes l f.mask)) (intLatch f.u) (vecRank f.u) 0)

/-! ### Masks (R142, R143) -/

def maskResult (s : State) (u : VUnit) (md : BitVec 3) (m : Mask) : State :=
  addResult s 1 (.m md.toNat) (m.setWidth 16384) (onesBelow 512) none (vecRank u) 0

def execMand (f : VM2) (s : State) : Out := .next (maskResult s f.u f.md (readM s.leaf f.ma &&& readM s.leaf f.mb))
def execMor (f : VM2) (s : State) : Out := .next (maskResult s f.u f.md (readM s.leaf f.ma ||| readM s.leaf f.mb))
def execMxor (f : VM2) (s : State) : Out := .next (maskResult s f.u f.md (readM s.leaf f.ma ^^^ readM s.leaf f.mb))
def execMnot (f : VM1) (s : State) : Out := .next (maskResult s f.u f.md (~~~(readM s.leaf f.ma)))

def execMpopc (f : VMS) (s : State) : Out :=
  .next (addScalar s 2 f.sd (BitVec.ofNat 64 (popcountNat 512 (readM s.leaf f.ma).toNat)) none .va)

def firstSet (m : Mask) : Nat := ((List.range 512).find? fun i => m.getLsbD i).getD 512

def execMfirst (f : VMS) (s : State) : Out :=
  .next (addScalar s 2 f.sd (BitVec.ofNat 64 (firstSet (readM s.leaf f.ma))) none .va)

/-! ### Signatures (R144) -/

def execVsign (f : V1 STy) (s : State) : Out :=
  let l := s.leaf
  let e := f.ty.width
  let bits := ((readElems l f.a e .sign).map fun x => x / 2 ^ (e - 1)).zipWith (fun b en => if en then b else 0)
    (elemEnabled (enabledLanes l f.mask) e)
  .next (addVec s 3 f.nowb f.vd (BitVec.ofNat 16384 (packNat 1 bits)) (BitVec.allOnes 16384) (intLatch f.u) (vecRank f.u) 0)

end Sys2Proof.Machine
end

