-- ==== Sys2Proof/Machine/VectorFloat.lean ====
section
/-! DEFINITION. The floating-point instructions of VA and VB, the conversions and the reductions (R131 to R135, R141).
They read FMT.RM, SAT and FTZ at issue, and flags come from enabled elements only (R127). -/

namespace Sys2Proof.Machine

def ftyFmt : FTy → FloatFmt
  | .f => fp32
  | .h => fp16
  | .bf => bf16

def leafCtx (l : Leaf) : FCtx := fmtCtx l.fmt

/-- A source's elements as values, after the view and FTZ. -/
def readNums (l : Leaf) (v : VecSrc) (t : FTy) : List Num :=
  (readElems l v t.width .float).map (readFloat (ftyFmt t) (leafCtx l))

/-- Delivers codes with flags: disabled elements contribute neither (R124, R127). -/
def floatResult (s : State) (u : VUnit) (lat : Nat) (nowb : Bool) (vd : BitVec 9) (e : Nat) (rs : List (Nat × Flags))
    (en : Mask) : State :=
  let fl := (rs.zip (elemEnabled en e)).foldl (fun (a : Flags) x => if x.2 then a ||| x.1.2 else a) 0
  addVec s lat nowb vd (ofElements e (rs.map Prod.fst)) (laneMask en) (floatLatch u) (vecRank u) fl

/-- Rounds an exact value, joining the flags that made it. -/
def deliver (f : FloatFmt) (c : FCtx) (x : Num × Flags) : Nat × Flags :=
  let (v, fl) := roundFloat f c x.1
  (v, fl ||| x.2)

def floatBin (s : State) (f : V2 FTy) (lat : Nat) (op : FloatFmt → FCtx → Num → Num → Nat × Flags) : State :=
  let l := s.leaf
  let r := (readNums l f.a f.ty).zipWith (op (ftyFmt f.ty) (leafCtx l)) (readNums l f.b f.ty)
  floatResult s f.u lat f.nowb f.vd f.ty.width r (enabledLanes l f.mask)

def floatUn (s : State) (f : V1 FTy) (lat : Nat) (op : FloatFmt → FCtx → Num → Nat × Flags) : State :=
  let l := s.leaf
  let r := (readNums l f.a f.ty).map (op (ftyFmt f.ty) (leafCtx l))
  floatResult s f.u lat f.nowb f.vd f.ty.width r (enabledLanes l f.mask)

/-- The code of a value that already is one of the format: no flag (R131, R132). -/
def exactCode (f : FloatFmt) (v : Num) : Nat := (roundFloat f plainCtx v).1

def minFloat (f : FloatFmt) (_ : FCtx) (a b : Num) : Nat × Flags :=
  if a.isNan || b.isNan then (codeNan f, 0) else (exactCode f (if lessNum b a then b else a), 0)

def maxFloat (f : FloatFmt) (_ : FCtx) (a b : Num) : Nat × Flags :=
  if a.isNan || b.isNan then (codeNan f, 0) else (exactCode f (if lessNum a b then b else a), 0)

def execVfadd (f : V2 FTy) (s : State) : Out :=
  .next (floatBin s f 4 fun t c a b => deliver t c (addNum c.rm a b))
def execVfsub (f : V2 FTy) (s : State) : Out :=
  .next (floatBin s f 4 fun t c a b => deliver t c (addNum c.rm a b.neg))
def execVfmul (f : V2 FTy) (s : State) : Out :=
  .next (floatBin s f 5 fun t c a b => deliver t c (mulNum a b))
def execVfmin (f : V2 FTy) (s : State) : Out := .next (floatBin s f 4 minFloat)
def execVfmax (f : V2 FTy) (s : State) : Out := .next (floatBin s f 4 maxFloat)

/-- a × b + c with one rounding; 0 × ∞ is invalid whatever c holds. -/
def fmaNum (rm : Nat) (a b c : Num) : Num × Flags :=
  let (p, f1) := mulNum a b
  let (v, f2) := addNum rm p c
  (v, f1 ||| f2)

/-- A NaN operand raises no flag unless another pair of operands is 0 × ∞ (R131). -/
def execVfma (f : V3 FTy) (s : State) : Out :=
  let l := s.leaf
  let c := leafCtx l
  let r := (((readNums l f.a f.ty).zip (readNums l f.b f.ty)).zip (readNums l f.c f.ty)).map fun x =>
    deliver (ftyFmt f.ty) c (fmaNum c.rm x.1.1 x.1.2 x.2)
  .next (floatResult s f.u 5 f.nowb f.vd f.ty.width r (enabledLanes l f.mask))

def execVfabs (f : V1 FTy) (s : State) : Out := .next (floatUn s f 4 fun t _ a => (exactCode t a.abs, 0))
def execVfneg (f : V1 FTy) (s : State) : Out := .next (floatUn s f 4 fun t _ a => (exactCode t a.neg, 0))

def floatCmp (s : State) (f : VC FTy) (p : Int → Bool) : State :=
  let l := s.leaf
  let ps := (readNums l f.a f.ty).zipWith (fun a b => !a.isNan && !b.isNan && p (cmpNum a b)) (readNums l f.b f.ty)
  cmpResult s f.u 4 f.md f.any f.ty.width ps (enabledLanes l f.mask)

def execVfcmpeq (f : VC FTy) (s : State) : Out := .next (floatCmp s f fun d => d == 0)
def execVfcmplt (f : VC FTy) (s : State) : Out := .next (floatCmp s f fun d => decide (d < 0))
def execVfcmple (f : VC FTy) (s : State) : Out := .next (floatCmp s f fun d => decide (d ≤ 0))

def execVfrcp (f : V1 FTy) (s : State) : Out := .next (floatUn s f 7 rcpFloat)
def execVfrsq (f : V1 FTy) (s : State) : Out := .next (floatUn s f 7 rsqFloat)
def execVfexp2 (f : V1 FTy) (s : State) : Out := .next (floatUn s f 7 exp2Float)

/-- R135: a signed integer as wide as the element. -/
def execVi2f (f : V1 FTy) (s : State) : Out :=
  let l := s.leaf
  let e := f.ty.width
  let r := (readElems l f.a e .sign).map fun x => roundFloat (ftyFmt f.ty) (leafCtx l) (numOfInt (readElem true e x))
  .next (floatResult s f.u 4 f.nowb f.vd e r (enabledLanes l f.mask))

def execVf2i (f : V1 FTy) (s : State) : Out :=
  .next (floatUn s f 4 fun t c a => floatToInt ⟨t.width, true⟩ c a)

/-! ### Reductions (R141) -/

/-- VRADD: a disabled lane's elements are −0. -/
def execVradd (f : VRed) (s : State) : Out :=
  let l := s.leaf
  let t := ftyFmt f.ty
  let e := f.ty.width
  let xs := (readElems l f.a e .float).zipWith (fun x en => if en then x else signBit t true)
    (elemEnabled (enabledLanes l f.mask) e)
  let (r, fl) := redSum t (leafCtx l) 11 xs
  .next (addVec s 9 f.nowb f.vd (BitVec.ofNat 16384 r) (BitVec.allOnes 16384) (intLatch .b) (vecRank .b) fl)

/-- The maximum of the included elements and the smallest index that holds it; NaN stands above everything. -/
def maxIncluded : List (Nat × Num) → Option (Nat × Num)
  | [] => none
  | (j, x) :: r =>
    match maxIncluded r with
    | none => some (j, x)
    | some (k, y) => if y.isNan && !x.isNan then some (k, y)
                     else if x.isNan then some (j, x)
                     else if lessNum x y then some (k, y) else some (j, x)

def redMax (l : Leaf) (f : VRed) : Nat × Nat :=
  let t := ftyFmt f.ty
  let xs := (((readNums l f.a f.ty).zip (elemEnabled (enabledLanes l f.mask) f.ty.width)).mapIdx fun j x => (j, x)).filter
    fun p => p.2.2
  match maxIncluded (xs.map fun p => (p.1, p.2.1)) with
  | some (j, v) => (exactCode t v, j)
  | none => (codeInf t true, 0xFFFFFFFF)

def execVrmax (f : VRed) (s : State) : Out :=
  .next (addVec s 9 f.nowb f.vd (BitVec.ofNat 16384 (redMax s.leaf f).1) (BitVec.allOnes 16384) (intLatch .b) (vecRank .b) 0)

def execVrmaxi (f : VRed) (s : State) : Out :=
  let (v, j) := redMax s.leaf f
  .next (addVec s 9 f.nowb f.vd (BitVec.ofNat 16384 (v + j * 2 ^ 32)) (BitVec.allOnes 16384) (intLatch .b) (vecRank .b) 0)

end Sys2Proof.Machine
end

