-- ==== Sys2Proof/Machine/Global.lean ====
section
/-! DEFINITION. The G slot (R171 to R180, R243 to R246): loads, stores, atomics and prefetches, the operand log and the
trap log, and the events that translate an entry, perform it and deliver its data. -/

namespace Sys2Proof.Machine

/-! ### The two logs -/

/-- The log that the leaf's level uses (R176, R334). DEDUCED: log entry 46. -/
def logOf (l : Leaf) : List LogEntry :=
  match l.level with
  | .ordinary => l.olog
  | .trap => l.tlog

def setLog (l : Leaf) (log : List LogEntry) : Leaf :=
  match l.level with
  | .ordinary => { l with olog := log }
  | .trap => { l with tlog := log }

def logCap (l : Leaf) : Nat :=
  match l.level with
  | .ordinary => 32
  | .trap => 8

def logCount (log : List LogEntry) : Nat := (log.filter fun e => !e.op.noEntry).length

/-- No entry is free (R176, R334). -/
def logFull (s : State) : Bool := decide (logCap s.leaf ≤ logCount (logOf s.leaf))

/-- No entry, or no data slot for a vector store. -/
def vecLogFull (s : State) : Bool :=
  logFull s || decide (8 ≤ ((s.leaf.olog ++ s.leaf.tlog).filter fun e => e.op.isVecStore).length)

/-- Runs an operation that freezes the quire while a log or queue has no room. -/
def runFrozen (i : Instr) (cause : State → Option Trap) (full : State → Bool) (eff : State → State) (s : State) : Out :=
  match s.phase with
  | .effect => .next (eff s)
  | .alone =>
    match ownCause i (cause s) s with
    | some t => .next (takeTrap s t)
    | none => .next (if full s then freezeOnce s else eff s)

/-- Enters an access into the log, at the leaf's next place in program order. -/
def enterLog (s : State) (op : LogOp) (va : Word) (size : Nat) (data : Vec) (cmp : Word) : Nat × State :=
  let (id, s1) := fresh s
  (id, { s1.upd fun l =>
    let log := logOf l
    { setLog l (log ++ [⟨id, freeSlot log (logCap l) (Config.freeChoice s.free), l.po, op, va, size, data, cmp, .walk, false⟩])
      with po := l.po + 1 } with free := s.free + 1 })

/-- A result whose value comes from a log entry; all of them enter l7 (R34). -/
def addPending (s : State) (id : Nat) (land : BitVec 6) (d : Dest) (mask : Vec) : State :=
  s.upd fun l =>
    { l with inflight := l.inflight ++ [⟨land.toNat, d, 0, mask, some 7, l.seq, slotRank .g, 0, some id⟩] }

/-! ### Loads and stores -/

def gAddr (b : Word) (off : BitVec 14) (scale : Nat) : Word := b + off.signExtend 64 * BitVec.ofNat 64 scale

/-- ALIGN at issue (R172, R246). -/
def gAlign (a : Word) (n : Nat) : Option Trap :=
  if a.toNat % n != 0 then some (slotTrap .align .g 0 a) else none

def gldAddr (f : GLd) (l : Leaf) : Word := gAddr (readSrc l f.base) f.off (sizeBytes f.size)
def gstAddr (f : GSt) (l : Leaf) : Word := gAddr (readSrc l f.base) f.off (sizeBytes f.size)
def gldvAddr (f : GLdv) (l : Leaf) : Word := gAddr (readSrc l f.base) f.off 64
def gstvAddr (f : GStv) (l : Leaf) : Word := gAddr (readSrc l f.base) f.off 64

def gldEffect (f : GLd) (s : State) : State :=
  let (id, s1) := enterLog s (.load false f.ext f.acq) (gldAddr f s.leaf) (sizeBytes f.size) 0 0
  addPending s1 id f.land (.s f.sd.toNat) (onesBelow 64)

def gldvEffect (f : GLdv) (s : State) : State :=
  let (id, s1) := enterLog s (.load true false false) (gldvAddr f s.leaf) 2048 0 0
  addPending s1 id f.land (.v f.vd.toNat) (onesBelow 16384)

def gstEffect (f : GSt) (s : State) : State :=
  (enterLog s (.store false f.rel) (gstAddr f s.leaf) (sizeBytes f.size) ((readS s.leaf f.ss).setWidth 16384) 0).2

def gstvEffect (f : GStv) (s : State) : State :=
  (enterLog s (.store true false) (gstvAddr f s.leaf) 2048 (readV s.leaf f.vs) 0).2

def execGld (f : GLd) (s : State) : Out :=
  runFrozen (.gld f) (fun s => gAlign (gldAddr f s.leaf) (sizeBytes f.size)) logFull (gldEffect f) s
def execGst (f : GSt) (s : State) : Out :=
  runFrozen (.gst f) (fun s => gAlign (gstAddr f s.leaf) (sizeBytes f.size)) logFull (gstEffect f) s
def execGldv (f : GLdv) (s : State) : Out :=
  runFrozen (.gldv f) (fun s => gAlign (gldvAddr f s.leaf) 64) logFull (gldvEffect f) s
def execGstv (f : GStv) (s : State) : Out :=
  runFrozen (.gstv f) (fun s => gAlign (gstvAddr f s.leaf) 64) vecLogFull (gstvEffect f) s

/-- GPF changes no value and no order (R173). -/
def execGpf (_ : GPf) (s : State) : Out := .next s

/-! ### Atomics -/

def atomSize (wide : Bool) : Nat := if wide then 8 else 4

/-- The rounding mode an AFADD captures. -/
def fmtRm (l : Leaf) : Nat := (fmtCtx l.fmt).rm

def atomEffect (op : Nat) (sd : BitVec 6) (base : ScalarSrc) (land : BitVec 6) (wide ext ar : Bool) (d c : ScalarSrc)
    (s : State) : State :=
  let l := s.leaf
  let (id, s1) := enterLog s (.atom op (land != 0) ext ar (fmtRm l)) (readSrc l base) (atomSize wide)
    ((readSrc l d).setWidth 16384) (readSrc l c)
  if land = 0 then s1 else addPending s1 id land (.s sd.toNat) (onesBelow 64)

def atomCause (base : ScalarSrc) (wide : Bool) (s : State) : Option Trap :=
  gAlign (readSrc s.leaf base) (atomSize wide)

def atomRun (op : Nat) (f : GAtom) : State → State :=
  atomEffect op f.sd f.base f.land f.wide f.ext f.ar f.data (.reg 0)

def execAadd (f : GAtom) (s : State) : Out := runFrozen (.aadd f) (atomCause f.base f.wide) logFull (atomRun 0 f) s
def execAfadd (f : GAtom) (s : State) : Out := runFrozen (.afadd f) (atomCause f.base f.wide) logFull (atomRun 1 f) s
def execAmin (f : GAtom) (s : State) : Out := runFrozen (.amin f) (atomCause f.base f.wide) logFull (atomRun 2 f) s
def execAmax (f : GAtom) (s : State) : Out := runFrozen (.amax f) (atomCause f.base f.wide) logFull (atomRun 3 f) s
def execAand (f : GAtom) (s : State) : Out := runFrozen (.aand f) (atomCause f.base f.wide) logFull (atomRun 4 f) s
def execAor (f : GAtom) (s : State) : Out := runFrozen (.aor f) (atomCause f.base f.wide) logFull (atomRun 5 f) s
def execAxor (f : GAtom) (s : State) : Out := runFrozen (.axor f) (atomCause f.base f.wide) logFull (atomRun 6 f) s
def execAswp (f : GAtom) (s : State) : Out := runFrozen (.aswp f) (atomCause f.base f.wide) logFull (atomRun 7 f) s
def execAcas (f : GCas) (s : State) : Out :=
  runFrozen (.acas f) (atomCause f.base f.wide) logFull
    (atomEffect 8 f.sd f.base f.land f.wide f.ext f.ar f.data f.cmp) s
def execAinc (f : GAtom) (s : State) : Out := runFrozen (.ainc f) (atomCause f.base f.wide) logFull (atomRun 9 f) s

/-- What an atomic leaves in memory and the flags it raises (R244): `m`, `d` and `c` are of `8 n` bits. -/
def atomValue (op n : Nat) (ext : Bool) (rm m d c : Nat) : Nat × Flags :=
  let e := 8 * n
  let less := decide (readElem ext e m ≤ readElem ext e d)
  match op with
  | 0 => ((m + d) % 2 ^ e, 0)
  | 1 =>
    let (v, f1) := addNum rm (decodeFloat fp32 m) (decodeFloat fp32 d)
    let (x, f2) := roundFloat fp32 ⟨rm, false, false, 0⟩ v
    (x, f1 ||| f2)
  | 2 => (if less then m else d, 0)
  | 3 => (if less then d else m, 0)
  | 4 => (m &&& d, 0)
  | 5 => (m ||| d, 0)
  | 6 => (m ^^^ d, 0)
  | 7 => (d, 0)
  | 8 => (if m = c then d else m, 0)
  | _ => (if d ≤ m then 0 else m + 1, 0)

/-- Flags of engine work enter the E_ bits of FSTAT (R88). -/
def raiseEngineFlags (l : Leaf) (f : Flags) : Leaf := { l with fstat := l.fstat ||| (f.setWidth 64 <<< 8) }

/-! ### Walk, watch and detection -/

/-- The accesses in whose order a trap-log entry stands: the ordinary ones that have left the leaf, and the trap log; only the
suspended ones are unordered with it (R177, R324, R334). -/
def trapOrder (l : Leaf) : List LogEntry := l.olog.filter LogEntry.hasLeft ++ l.tlog

/-- An entry of either log: whether it is of the trap log, the accesses in whose order it stands, and the entry. -/
def findEntry (l : Leaf) (id : Nat) : Option (Bool × List LogEntry × LogEntry) :=
  match l.olog.find? fun e => e.id == id with
  | some e => some (false, l.olog, e)
  | none => (l.tlog.find? fun e => e.id == id).map fun e => (true, trapOrder l, e)

def updLogs (l : Leaf) (f : List LogEntry → List LogEntry) : Leaf := { l with olog := f l.olog, tlog := f l.tlog }

def setStage (s : State) (g id : Nat) (st : LogStage) : State :=
  updLeaf s g fun l => updLogs l fun log => log.map fun e => if e.id == id then { e with stage := st } else e

/-- Every store of the leaf before the FENCE, in its log and to this package's memory, has performed. -/
def ArFence.met (home : Nat) (l : Leaf) (f : ArFence) : Bool :=
  (if f.trapLog then l.tlog else l.olog).all fun e => !(e.op.isStore && e.maybeLocal home && decide (e.po < f.po))

/-- The moment of each FENCE.AR of the leaf whose stores have now performed is noted (R217). -/
def settleAr (s : State) (g : Nat) : State :=
  { s with arFences := s.arFences.map fun f =>
      if f.here && f.leaf == g && f.done.isNone && f.met s.node.package.toNat (getLeaf s g) then { f with done := some s.nextId } else f }

/-- What a FENCE.AR makes known to a load behind it: the stores that other leaves have put before FENCE.ARs of their own
which were met before this one was, each within the other's scope (R217). -/
def arClock (s : State) (g po : Nat) : Clock :=
  (s.arFences.filter fun f => f.here && f.leaf == g && decide (f.po < po)).foldl (fun m f =>
    (s.arFences.filter fun h => !(h.here && h.leaf == g) && decide (scopeOf h.leaf g ≤ min h.scope f.scope)
        && (match h.done, f.done with
            | some a, some b => decide (a ≤ b)
            | _, _ => false)).foldl (fun m h => clockJoin m h.covers) m) []

/-- The entry is done: it leaves the log, and marks with nothing before them go too. -/
def leaveLog (s : State) (g id : Nat) : State := settleAr (updLeaf s g fun l => updLogs l fun log => removeEntry log id) g

/-- The kinds of access an entry is checked as (R351, R222). -/
def entryKinds : LogOp → List Kind
  | .load _ _ _ | .aliasf _ => [.r]
  | .atom _ true _ _ _ => [.r, .w]
  | _ => [.w]

/-- WATCH_CTL's region covers bytes of the access (R340). -/
def watched (l : Leaf) (e : LogEntry) : Bool :=
  let n := min 30 (max 6 (l.watchCtl.extractLsb' 2 6).toNat)
  let base := l.watchAddr.toNat / 2 ^ n * 2 ^ n
  e.op != .task && ((e.op.isLoad && l.watchCtl.getLsbD 0) || (e.op.isStore && l.watchCtl.getLsbD 1)
    || (e.op.isAtom && (l.watchCtl.getLsbD 0 || l.watchCtl.getLsbD 1)))
    && overlap e.va.toNat e.size base (2 ^ n)

/-- Stores and atomics are refused by the weight store and by KEYED pages (R175, R180). -/
def writeRefused (op : LogOp) (ps : List ((Nat × Nat) × Trans)) : Option (Cause × Nat) :=
  if !(op.isStore || op.isAtom) then none
  else
    match ps.find? fun x => x.2.cache == 3 || x.2.keyed with
    | some x => some (if x.2.cache = 3 then .access else .key, x.1.1)
    | none => none

/-- Translates an entry for each of its kinds of access. -/
def translateKinds (s : State) (r : Reader) (run : Run) (useTlb : Bool) (ps : List (Nat × Nat)) :
    List Kind → Except (Cause × Nat) (List Trans) × State
  | [] => (.ok [], s)
  | [k] => translateAll s r run.asid run.root useTlb k ps
  | k :: ks =>
    match translateAll s r run.asid run.root useTlb k ps with
    | (.ok _, s1) => translateKinds s1 r run useTlb ps ks
    | (.error e, s1) => (.error e, s1)

/-- A fault of an entry is detected: it waits for the service where the policy says so, ends the run after EXIT, and is
held for its boundary otherwise (R178, R361, R379). -/
def detect (s : State) (g : Nat) (run : Run) (e : LogEntry) (c : Cause) (fva : Nat) : State :=
  match serviceFault s run g 0 fva c with
  | some (idx, s1) => setStage s1 g e.id (.service idx c (BitVec.ofNat 64 fva))
  | none =>
    let l := getLeaf s g
    if l.exited then faultEnd s g (lateTrap e c (BitVec.ofNat 64 fva)).word l.pc (BitVec.ofNat 64 fva)
    else setStage s g e.id (.faulted c (BitVec.ofNat 64 fva))

/-- The reader that an entry is. -/
def entryReader (l : Leaf) (g : Nat) (e : LogEntry) : Reader := { obs := g, clock := leafReadClock l g e.po, gran := 1, po := e.po }

/-- A load behind a store to the same bytes whose walk has not ended well: a fault of the load is not detected meanwhile, so
that the store's comes first (R178, R417). DEDUCED: log entry 90. -/
def waitsForBytes (log : List LogEntry) (e : LogEntry) : Bool :=
  e.op.faultsAtLanding && (olderThan log e.id).any fun o =>
    o.op.isAccess && !o.op.faultsAtLanding && !o.hasLeft && e.overlaps o

/-- An older TLBINV keeps an entry from being translated (R360). -/
def behindTlbinv (log : List LogEntry) (e : LogEntry) : Bool := (olderThan log e.id).any fun o => o.op == .tlbinv

/-- The translations of an entry's pieces, or the first fault. -/
def walkOnce (s : State) (g : Nat) (run : Run) (e : LogEntry) (useTlb : Bool) : Except (Cause × Nat) (List Trans) × State :=
  let ps := pageSplit e.va.toNat e.size
  match translateKinds s (entryReader (getLeaf s g) g e) run useTlb ps (entryKinds e.op) with
  | (.ok ts, s1) =>
    match writeRefused e.op (ps.zip ts) with
    | some x => (.error x, s1)
    | none => (.ok ts, s1)
  | (.error x, s1) => (.error x, s1)

/-- The same; a refusal found through a cached translation is confirmed by a fresh walk (R353). -/
def walkEntryPieces (s : State) (g : Nat) (run : Run) (e : LogEntry) (useTlb : Bool) :
    Except (Cause × Nat) (List Trans) × State :=
  match walkOnce s g run e useTlb with
  | (.error x, s1) => if useTlb then walkOnce s g run e false else (.error x, s1)
  | (.ok ts, s1) => (.ok ts, s1)

/-- The entry is to be walked: it waits for its walk, or its leaf is at trap level and its cluster is to be saved, which takes
its suspended entries as far as they go (R345, step 2). -/
def toWalk (s : State) (g : Nat) (e : LogEntry) : Bool :=
  e.stage == .walk || (e.stage == .suspended && stopping s g && (getLeaf s g).level == .trap && (getLeaf s g).wait != .none)

/-- A walk has found a fault. The device's write of a task record that faults is lost; one that an older store to the same
bytes keeps waiting is not detected yet. DEDUCED: log entries 67 and 90. -/
def walkFault (s : State) (g : Nat) (run : Run) (log : List LogEntry) (e : LogEntry) (c : Cause) (va : Nat) : State :=
  if e.op == .task then leaveLog s g e.id else if waitsForBytes log e then s else detect s g run e c va

/-- A cut still waits for the entry, which it found translated. -/
def LogStage.waitsFor (st : LogStage) (id : Nat) : Bool :=
  match st with
  | .cutting us => us.contains id
  | _ => false

def LogStage.forget (id : Nat) (st : LogStage) : LogStage :=
  match st with
  | .cutting us => .cutting (us.filter fun u => u != id)
  | x => x

/-- An entry is translated: a cut made before, which took the translation it then had, waits for it no longer, for a trap has
suspended it since (R358). -/
def forgetUser (s : State) (id : Nat) : State :=
  let cuts := { s with inval := { s.inval with cuts := s.inval.cuts.map fun c => { c with users := c.users.filter fun u => u != id } } }
  if s.leaves.any fun p => (p.2.olog ++ p.2.tlog).any fun e => e.stage.waitsFor id then
    let f := fun (e : LogEntry) => { e with stage := e.stage.forget id }
    { cuts with leaves := s.leaves.map fun p => (p.1, { p.2 with olog := p.2.olog.map f, tlog := p.2.tlog.map f }) }
  else cuts

def execWalkComplete (g id : Nat) (useTlb : Bool) (s : State) : Out :=
  let l := getLeaf s g
  match findEntry l id, leafRun s g with
  | some (trapLog, log, e), some run =>
    if !toWalk s g e || e.op.isMark || e.op == .tlbinv || behindTlbinv log e then .next s
    else
      match walkEntryPieces s g run e useTlb with
      | (.error (c, va), s1) => .next (walkFault s1 g run log e c va)
      | (.ok ts, s1) =>
        if !trapLog && !e.watchOff && watched l e then .next (walkFault s1 g run log e .watch e.va.toNat)
        else .next (setStage (forgetUser s1 id) g id (.ready ts))
  | _, _ => .next s

/-! ### Performing -/

/-- Reads the pieces of a translated access: bytes, releases. -/
def readPages (s : State) (r : Reader) : List ((Nat × Nat) × Trans) → List Byte × List Release × State
  | [] => ([], [], s)
  | x :: xs =>
    let (b, rl, s1) := readPhys s { r with priv := x.2.priv } x.2.pkg x.2.pa x.1.2
    let (b2, rl2, s2) := readPages s1 r xs
    (b ++ b2, rl ++ rl2, s2)

/-- What the reads of an entry acquire from the releases they saw (R212). -/
def noteRead (l : Leaf) (g : Nat) (e : LogEntry) (rels : List Release) : Leaf :=
  let c := acquired g rels
  if c.isEmpty then l
  else if e.op.acquires then { l with acqs := l.acqs ++ [(e.po, c)] }
  else if e.op.isLoad then { l with readSync := l.readSync ++ [(e.po, c)] }
  else l

/-- The writer that an entry is: remote writes are a stream of their own (R215). -/
def entryWriter (home : Nat) (l : Leaf) (g : Nat) (e : LogEntry) (ts : List Trans) : Writer :=
  { obs := if ts.any fun t => t.pkg != home then remoteObs g else g, po := e.po, rels := entryFenced l g e,
    own := entryOwn l g e, chain := e.op.isAtom }

def performLoad (s : State) (g : Nat) (e : LogEntry) (vec ext : Bool) (ps : List ((Nat × Nat) × Trans)) : State :=
  let l := getLeaf s g
  let r := entryReader l g e
  let (b, rels, s1) := readPages s { r with clock := clockJoin r.clock (arClock s g e.po) } ps
  let v := if vec then bytesVec b else (extendLoad ext e.size (bytesNat b)).setWidth 16384
  updLeaf s1 g fun l => noteRead (fixValue l e.id v) g e rels

/-- The number of the engine operation that an observer is. -/
def engineOf (o : Nat) : Option Nat := if 10000 ≤ o then some ((o - 10000) / 1000) else none

/-- Bytes about to be written at a physical place are mixed with those there, where the newest of them are of a write that
`race` names (R2, R187). -/
def mixPieces (s : State) (race : WriteRec → Bool) (pkg : Nat) : List (Nat × Nat) → List Byte → List Byte × State
  | [], _ => ([], s)
  | p :: ps, b =>
    let k := memKey pkg (canonAddr p.1)
    let sel := fun a => match s.hist.find? fun w => w.covers a with
      | some w => race w
      | none => false
    let (m, s1) := mixWhere sel k (b.take p.2) (memRead s.mem k p.2) s
    let (r, s2) := mixPieces s1 race pkg ps (b.drop p.2)
    (m ++ r, s2)

/-- The same for the translated pages of an access. -/
def mixPages (s : State) (race : WriteRec → Bool) : List ((Nat × Nat) × Trans) → List Byte → List Byte × State
  | [], _ => ([], s)
  | x :: xs, b =>
    let (m, s1) := mixPieces s race x.2.pkg (pieces x.2.pa x.1.2) (b.take x.1.2)
    let (r, s2) := mixPages s1 race xs (b.drop x.1.2)
    (m ++ r, s2)

/-- A write of an engine operation of the leaf whose completion the leaf has not observed (R187, R268). -/
def unobserved (l : Leaf) (g p : Nat) (w : WriteRec) : Bool :=
  (engineOf w.obs).isSome && obsLeaf w.obs == some g && mapGet (leafClock l g p) w.obs 0 == 0

def performStore (s : State) (g : Nat) (e : LogEntry) (ts : List Trans) (ps : List ((Nat × Nat) × Trans)) : State :=
  let (b, s1) := mixPages s (unobserved (getLeaf s g) g e.po) ps (vecBytes e.data e.size)
  writePages s1 (entryWriter s1.node.package.toNat (getLeaf s1 g) g e ts) ps b

/-- A compare-and-swap that finds another value writes nothing (R244). -/
def casFails (op m c : Nat) : Bool := op == 8 && m != c

def performAtom (s : State) (g : Nat) (e : LogEntry) (op : Nat) (ext : Bool) (rm : Nat) (ts : List Trans)
    (ps : List ((Nat × Nat) × Trans)) : State :=
  let l := getLeaf s g
  let (b, rels, s1) := readPages s { entryReader l g e with latest := true } ps
  let m := bytesNat b
  let w := 2 ^ (8 * e.size)
  let (v, fl) := atomValue op e.size ext rm m (e.data.toNat % w) (e.cmp.toNat % w)
  let s2 := updLeaf s1 g fun l =>
    noteRead (raiseEngineFlags (fixValue l e.id ((extendLoad ext e.size m).setWidth 16384)) fl) g e rels
  if casFails op m (e.cmp.toNat % w) then s2
  else
    let (b, s3) := mixPages s2 (unobserved (getLeaf s2 g) g e.po) ps (natBytes v e.size)
    writePages s3 (entryWriter s3.node.package.toNat (getLeaf s3 g) g e ts) ps b

/-- An ALIASF names, for every write to its HBM4E bytes that happens before it, itself and its scope; at DEVICE or DOMAIN scope
what application cores have written there is written back (R221, R222). -/
def performAliasf (s : State) (g : Nat) (e : LogEntry) (scope : Nat) (ps : List ((Nat × Nat) × Trans)) : State :=
  let clk := leafReadClock (getLeaf s g) g e.po
  let keys := ps.filterMap fun x => if isHbm x.2.pa then some (memKey x.2.pkg, x.2.pa, x.1.2) else none
  let covers := fun (w : WriteRec) => keys.any fun k =>
    (pieces k.2.1 k.2.2).any fun p => overlap w.key w.bytes.length (k.1 (canonAddr p.1)) p.2
  let mark : AliasMark := ⟨g, e.po, scope, g, (getLeaf s g).run⟩
  { s with hist := s.hist.map fun w =>
      if !covers w then w
      else { w with aliased := if w.po ≤ mapGet clk w.obs 0 then w.aliased ++ [mark] else w.aliased
                    unflushed := w.unflushed && decide (scope < 4) } }

/-! ### The cut (R358, R360) -/

/-- What a cut covers: first address, bytes (none for every address), ASID (none for all), and whether G entries too. -/
structure Cut where
  va : Nat
  size : Option Nat
  asid : Option (BitVec 16)
  global : Bool
  deriving DecidableEq, Repr

def Cut.hits (c : Cut) (a n : Nat) : Bool :=
  match c.size with
  | none => true
  | some m => overlap a n c.va m

def Cut.asidHits (c : Cut) (a : BitVec 16) : Bool :=
  match c.asid with
  | none => true
  | some b => a == b

def runAsid (s : State) (g : Nat) : Option (BitVec 16) := (leafRun s g).map fun r => r.asid

/-- The cut removes the translation that an access of a run with this ASID holds (R358). -/
def Cut.takes (c : Cut) (asid : BitVec 16) (t : Trans) : Bool :=
  c.hits t.page t.size && (if t.global then c.global else c.asidHits asid)

/-- A shelf becomes BROKEN when a cut takes the page of a spill frame (R315). -/
def breakShelf (c : Cut) (asid : BitVec 16) (sh : Shelf) : Shelf :=
  if sh.frames.any (c.takes asid) then { sh with broken := true } else sh

def breakShelves (c : Cut) (asid : BitVec 16) (l : Leaf) : Leaf :=
  { l with shelves := l.shelves.map fun x => (x.1, breakShelf c asid x.2) }

/-- Entries translated through what the cut takes, which must perform before the completion. -/
def cutUsers (s : State) (c : Cut) : List Nat :=
  s.leaves.flatMap fun p =>
    match runAsid s p.1 with
    | some a => ((p.2.olog ++ p.2.tlog).filter fun e => e.op.isAccess && e.trans.any (c.takes a)).map fun e => e.id
    | none => []

/-- The records of the shelves that a cut breaks, which stay in memory. -/
def brokenRecords (s : State) (c : Cut) : List OpenMem :=
  let mine := fun (a : BitVec 16) (l : Leaf) => l.shelves.flatMap fun x => if x.2.frames.any (c.takes a) then x.2.records else []
  (s.leaves.flatMap fun p => match runAsid s p.1 with
    | some a => mine a p.2
    | none => []) ++ s.runs.flatMap fun r => r.saved.flatMap fun x => x.leaves.flatMap (mine r.asid)

/-- One cut: every matching translation goes at once, and every pointer entry that covers a part of the range, whichever space
it is of. DEDUCED: log entry 39. -/
def makeCut (s : State) (c : Cut) : State :=
  { s with
    tlb := s.tlb.filter fun t =>
      !(c.hits t.base t.size && (c.asidHits t.asid || t.global) && (!t.global || c.global))
    ptrs := s.ptrs.filter fun p => !c.hits p.base p.size
    freeMem := s.freeMem ++ brokenRecords s c
    leaves := s.leaves.map fun p =>
      match runAsid s p.1 with
      | some a => (p.1, breakShelves c a p.2)
      | none => p
    runs := s.runs.map fun r =>
      { r with saved := r.saved.map fun x => { x with leaves := x.leaves.map (breakShelves c r.asid) } } }

/-- The row is on its way to its spill record (R311). -/
def Row.inTransit (r : Row) : Bool := match r.loc with | .transit _ => true | _ => false

/-- A spill page that the cut covers still has an access of the stack search unit in flight (R315, R358). -/
def spillBusy (s : State) (c : Cut) : Bool :=
  s.leaves.any fun p =>
    match runAsid s p.1 with
    | some a => p.2.shelves.any fun x => x.2.frames.any (c.takes a) && x.2.rows.any Row.inTransit
    | none => false

/-- The root ports whose context a cut matches get ATS Invalidation Requests (R391). DEDUCED: log entry 40. -/
def sendAts (s : State) (c : Cut) (id : Nat) : State :=
  { s with atsReqs := s.atsReqs ++ ((List.range 4).filter fun n => portHit s c n).map fun n => (n, id) }
where
  portHit (s : State) (c : Cut) (n : Nat) : Bool :=
    s.node.ctxEn.getLsbD n && s.node.root.getLsbD n
      && c.asidHits (low 16 (bytesVec (memRead s.mem (memKey s.node.package.toNat (canonAddr (mapGet s.node.ctx n 0).toNat)) 2)))

/-- What was translated before a cut has not all performed yet; a suspended entry holds no translation. -/
def cutBusy (s : State) (c : Cut) (id : Nat) (users : List Nat) : Bool :=
  (s.leaves.any fun p => (p.2.olog ++ p.2.tlog).any fun e => users.contains e.id && !e.trans.isEmpty)
    || spillBusy s c || s.atsReqs.any fun r => r.2 == id

def tlbinvCut (e : LogEntry) (asid : BitVec 16) : Cut :=
  ⟨e.va.toNat, if e.size = 0 then none else some (min (e.size * 4096) (2 ^ 64 - e.va.toNat)), some asid, false⟩

/-- TLBINV cuts when nothing older is left, and performs once the accesses it cut off have performed. -/
def performTlbinv (s : State) (g : Nat) (e : LogEntry) : State :=
  match e.stage, runAsid s g with
  | .walk, some a =>
    let c := tlbinvCut e a
    setStage (sendAts (makeCut s c) c e.id) g e.id (.cutting (cutUsers s c))
  | .cutting us, some a => if cutBusy s (tlbinvCut e a) e.id us then s else leaveLog s g e.id
  | _, _ => s

/-- The bytes an entry reaches, by key, whichever window it goes through. -/
def reached (e : LogEntry) (ts : List Trans) : List (Nat × Nat) :=
  ((pageSplit e.va.toNat e.size).zip ts).flatMap fun x =>
    (pieces x.2.pa x.1.2).map fun p => (memKey x.2.pkg (canonAddr p.1), p.2)

/-- An older entry of the log reaches a byte of `e` through another virtual address, of either window (R177, R211, R221); one
that is not translated yet is asked where its bytes lie. -/
def aliasHeld (s : State) (g : Nat) (log : List LogEntry) (e : LogEntry) : Bool :=
  match e.stage, leafRun s g with
  | .ready ts, some run =>
    (olderThan log e.id).any fun o =>
      o.op.isAccess && samePlace (o.va.toNat % 256) o.size (e.va.toNat % 256) e.size
        && (match o.stage with
            | .ready us => meets (reached e ts) (reached o us)
            | _ => match (walkEntryPieces s g run o true).1 with
              | .ok us => meets (reached e ts) (reached o us)
              | .error _ => false)
  | _, _ => false
where
  samePlace (a n b m : Nat) : Bool := overlap a n b m || overlap (a + 256) n b m || overlap a n (b + 256) m

/-- An entry performs (R176), once nothing older holds it. DESIGN CHOICE: log entry 6. -/
def execLogEntryPerform (g id : Nat) (s : State) : Out :=
  let l := getLeaf s g
  match findEntry l id with
  | none => .next s
  | some (_, log, e) =>
    if entryHeld s.node.package.toNat log e || aliasHeld s g log e then .next s
    else
      match e.op, e.stage with
      | .tlbinv, _ => .next (performTlbinv s g e)
      | op, .ready ts =>
        let ps := (pageSplit e.va.toNat e.size).zip ts
        .next (leaveLog (match op with
          | .load vec ext _ => performLoad s g e vec ext ps
          | .store _ _ | .task => performStore s g e ts ps
          | .atom o _ ext _ rm => performAtom s g e o ext rm ts ps
          | .aliasf sc => performAliasf s g e sc ps
          | _ => s) g id)
      | _, _ => .next s

/-- What a leaf parked in a freeze waits for has come: every landing of a drain, or those that are due (R45, R48). -/
def lateArrived (l : Leaf) : Bool :=
  match l.wait with
  | .late true => allArrived l
  | .late false => dueArrived l
  | _ => false

/-- The data of a performed load or atomic reach the landing buffer, and may end a freeze (R43, R45). -/
def execLoadDataArrival (g id : Nat) (s : State) : Out :=
  let l := getLeaf s g
  if awaits l id && (findEntry l id).isNone then
    let l1 := markArrived l id
    .next (setLeaf s g (if lateArrived l1 then { l1 with wait := .none } else l1))
  else .next s

/-! ### Open reads (R50) -/

/-- A value that the load may turn out to have, found without performing it: had the bundle waited, it would have come (R2,
R50). -/
def peekLoad (s : State) (g id : Nat) : Option Vec :=
  match findEntry (getLeaf s g) id, leafRun s g with
  | some (_, _, e), some run =>
    match (walkEntryPieces s g run e true).1 with
    | .ok ts =>
      let r := entryReader (getLeaf s g) g e
      let (b, _, _) := readPages s { r with clock := clockJoin r.clock (arClock s g e.po), latest := e.op.isAtom }
        ((pageSplit e.va.toNat e.size).zip ts)
      match e.op with
      | .load true _ _ => some (bytesVec b)
      | .load false ext _ => some ((extendLoad ext e.size (bytesNat b)).setWidth 16384)
      | .atom _ _ ext _ _ => some ((extendLoad ext e.size (bytesNat b)).setWidth 16384)
      | _ => none
    | .error _ => none
  | _, _ => none

/-- The contents that the other course gives a register or a latch, where they are known; a load that has performed has put its
data there. -/
def openContents (s : State) (alt : Vec) : Option (Nat × Vec) → Option Vec
  | none => some alt
  | some (id, mask) =>
    if mask = 0 || (findEntry s.leaf id).isNone then some alt
    else (peekLoad s s.cur id).map fun v => mixBits alt v mask

/-- One register as the bundle about to issue reads it. -/
def openReg (s : State) (d : Doubt) : State :=
  match openContents s d.alt d.hole with
  | none => s
  | some v =>
    let (c, s1) := takeChoice s 2
    if c = 0 then s1 else s1.upd fun l => writeDest l d.dest v (onesBelow 16384)

/-- One latch as the bundle about to issue reads it. -/
def openLatch (s : State) (p : Nat × LatchDoubt) : State :=
  match openContents s p.2.alt (p.2.hole.map fun id => (id, onesBelow 16384)) with
  | none => s
  | some v =>
    let (c, s1) := takeChoice s 2
    if c = 0 then s1 else s1.upd fun l => { l with latches := mapSet l.latches p.1 0 v }

/-- The registers and latches as the bundle about to issue reads them: where R50 leaves a read open, a choice says which of
the two values it gives. -/
def openReads (s : State) : State :=
  s.leaf.doubts.latches.foldl openLatch (s.leaf.doubts.regs.foldl openReg s)

end Sys2Proof.Machine
end

