-- ==== Sys2Proof/Machine/Ordering.lean ====
section
/-! DEFINITION. FENCE, DRAIN, ALIASF and TLBINV (R216, R217, R222, R360): the K-slot operations on order. -/

namespace Sys2Proof.Machine

/-- A mark in the acting leaf's log: it holds what comes later by what stands before it; with nothing before it, it has
nothing to order. -/
def markLog (s : State) (op : LogOp) : State :=
  let (id, s1) := fresh s
  s1.upd fun l =>
    let log := logOf l
    if log.isEmpty then { l with po := l.po + 1 }
    else { setLog l (log ++ [⟨id, 0, l.po, op, 0, 0, 0, 0, .walk, false⟩]) with po := l.po + 1 }

/-- FENCE: the mark, and the place where releases and acquires stand. At LEAF scope REL leaves no
mark, and ACQ and AR leave that of ACQ. DESIGN CHOICE: log entry 107. -/
def fenceEffect (f : KFence) (s : State) : State :=
  let l := s.leaf
  let p := l.po
  let rel := f.kind == 1 || f.kind == 3
  let acq := f.kind == 2 || f.kind == 3
  let s1 := if f.scope = 0 && !acq then s.upd fun l => { l with po := l.po + 1 }
            else markLog s (.fence f.scope.toNat (if f.scope = 0 then 2 else f.kind.toNat))
  let s2 := s1.upd fun l =>
    { l with relFences := if rel then l.relFences ++ [(p, f.scope.toNat)] else l.relFences
             acqFences := if acq then l.acqFences ++ [p] else l.acqFences }
  if f.kind = 3 then
    settleAr { s2 with arFences := s2.arFences ++ [⟨s.cur, l.run, p, l.level == .trap, f.scope.toNat,
      clockJoin l.places [(s.cur, p - 1)], none, true⟩] } s.cur
  else s2

def drainEffect (s : State) : State :=
  let p := s.leaf.po
  (markLog s .drain).upd fun l => { l with drains := l.drains ++ [p] }

def execFence (f : KFence) (s : State) : Out := .next (fenceEffect f s)
def execDrain (s : State) : Out := .next (drainEffect s)

/-- The length of an ALIASF, and the pieces of a TLBINV: bits 31:0 of a register. -/
def lowWord (w : Word) : Nat := w.toNat % 2 ^ 32

/-- ALIGN names the base, also where LENGTH alone is misaligned. DEDUCED: log entry 44. -/
def aliasfCause (f : KAliasf) (s : State) : Option Trap :=
  let a := readS s.leaf f.sa
  if a.toNat % 64 != 0 || lowWord (readS s.leaf f.sb) % 64 != 0 then some (slotTrap .align .k 0 a) else none

def aliasfEffect (f : KAliasf) (s : State) : State :=
  (enterLog s (.aliasf f.scope.toNat) (readS s.leaf f.sa) (lowWord (readS s.leaf f.sb)) 0 0).2

def execAliasf (f : KAliasf) (s : State) : Out := runFrozen (.aliasf f) (aliasfCause f) logFull (aliasfEffect f) s

def tlbinvCause (f : KTlbinv) (s : State) : Option Trap :=
  let a := readS s.leaf f.sa
  if a.toNat % 4096 != 0 then some (slotTrap .align .k 0 a) else none

def tlbinvEffect (f : KTlbinv) (s : State) : State :=
  (enterLog s .tlbinv (readS s.leaf f.sa) (lowWord (readS s.leaf f.sb)) 0 0).2

def execTlbinv (f : KTlbinv) (s : State) : Out := runFrozen (.tlbinv f) (tlbinvCause f) logFull (tlbinvEffect f) s

end Sys2Proof.Machine
end

