-- ==== Sys2Proof/Machine/Kettle.lean ====
section
/-! DEFINITION. Kettles and gatherings (R226 to R240): the six K-slot instructions, and the events that carry releases,
upward arrivals and flips. -/

namespace Sys2Proof.Machine

/-! ### Fields -/

def kettlePkg (n : Nat) : Nat := n / 65536
def kettleCluster (n : Nat) : Nat := n / 256 % 256
def kettleIndex (n : Nat) : Nat := n % 256

/-- The parent link as its named fields (R235). -/
def parentWord (w : Word) : BitVec 32 := w.setWidth 32 &&& 0xFF1F00FF#32

def Kettle.hasParent (k : Kettle) : Bool := k.parent.getLsbD 31

def parentNo (p : BitVec 32) : Nat :=
  kettleNo (p.extractLsb' 24 7).toNat (p.extractLsb' 16 5).toNat (p.extractLsb' 0 8).toNat

/-- R229. -/
def phasePast (phase p : BitVec 32) : Bool := decide (1 ≤ (phase - p).toNat) && decide ((phase - p).toNat < 2 ^ 31)

/-- The completion test (R228). -/
def Kettle.complete (k : Nat) (x : Kettle) : Bool :=
  x.state == .open_ && x.carr.length == x.child.toNat
    && (if k < 64 then x.arrived == x.member && (x.member != 0 || x.child != 0) else x.arr == x.count)

def memberBit (j : Nat) : BitVec 32 := 1#32 <<< j

/-! ### Trees -/

/-- A kettle-tree error ends the run and names the kettle whose message failed (R238, R383). -/
def treeError (s : State) (run src : Nat) : State :=
  endRun s run ⟨1, 0xFFFF, 0x16, 0, 0, some (src / 256, kettleIndex src)⟩

def runOfCluster (s : State) (c : Nat) : Option Run := s.runs.find? fun r => r.places.contains (some c)

/-- A cluster of the run that is on the device, or saved (R239). -/
def inPlacement (r : Run) (c : Nat) : Bool := r.places.contains (some c) || r.saved.any fun x => x.from_ == c

/-- Another package and this one reach each other's memory and kettles, where ACCEPT has bit 8, before GO as after it (R388, R389,
R394). DESIGN CHOICE: log entry 113. -/
def remoteReachable (s : State) (pkg : Nat) : Bool :=
  s.node.accept.getLsbD 8 && s.node.fabric && decide (pkg < s.node.domain.toNat) && !s.lostPkgs.contains pkg

/-- The parent lies outside the reach a scope code gives to this cluster (R209, R235): DOMAIN ends with the domain's packages. -/
def outsideExtent (home domain c : Nat) (extent : BitVec 3) (p : BitVec 32) : Bool :=
  let n := parentNo p
  let pkg := kettlePkg n
  let pc := kettleCluster n
  match extent.toNat with
  | 2 => pkg != home || pc != c
  | 3 => pkg != home || pc / 12 != c / 12
  | 4 => pkg != home
  | _ => pkg != home && decide (domain ≤ pkg)

/-- Sends the upward arrival of a CLOSED kettle whose releases are acknowledged (R228, R237, R238). DEDUCED: log entry 65. -/
def sendUpward (s : State) (c k : Nat) (x : Kettle) : State :=
  let home := s.node.package.toNat
  let src := kettleNo home c k
  let dst := parentNo x.parent
  match runOfCluster s c with
  | none => s
  | some run =>
    let reach := if kettlePkg dst = home then inPlacement run (kettleCluster dst) else remoteReachable s (kettlePkg dst)
    if !reach || outsideExtent home s.node.domain.toNat c x.extent x.parent then treeError s run.id src
    else
      let (id, s1) := fresh s
      { setKettle s1 c k { x with sent := true } with arrivals := s1.arrivals ++ [⟨id, run.id, src, dst, x.rel⟩] }

/-- After a change of a kettle: the completion test, and the upward arrival when it is due. -/
def advanceKettle (s : State) (c k : Nat) : State :=
  let x := getKettle s c k
  let x1 := if x.complete k then { x with state := .closed } else x
  let s1 := if x.complete k then setKettle s c k x1 else s
  if x1.state == .closed && x1.hasParent && x1.acks.isEmpty && !x1.sent then sendUpward s1 c k x1 else s1

/-- A kettle flips with what the flip releases (R228). -/
def flipKettle (s : State) (c k : Nat) (rel : List Release) : State :=
  let x := getKettle s c k
  let home := s.node.package.toNat
  let src := kettleNo home c k
  let run := ((runOfCluster s c).map fun r => r.id).getD 0
  let y := { x with phase := x.phase + 1, arr := 0, carr := [], arrived := 0, member := x.next, state := .open_,
                    acks := [], sent := false, rel := [], flips := mapPut x.flips x.phase.toNat rel }
  if x.carr.any fun d => kettlePkg d != home && !remoteReachable s (kettlePkg d) then treeError s run src
  else advanceKettle { setKettle s c k y with flips := s.flips ++ x.carr.map fun d => ⟨run, d, src, rel⟩ } c k

/-! ### Instructions -/

def leafKettle (s : State) (k : BitVec 8) : Kettle := getKettle s (clusterOf s.cur) k.toNat

def karvCause (f : KKet) (s : State) : Option Trap :=
  let x := leafKettle s f.ket
  let j := localLeaf s.cur
  if f.ket.toNat < 64 then
    failIf_ (x.state != .open_ || !x.member.getLsbD j || x.arrived.getLsbD j) .gathering
  else failIf_ (x.state != .open_) .kettle
where
  failIf_ (b : Bool) (c : Cause) : Option Trap := if b then some (slotTrap c .k) else none

/-- One arrival; ARR counts in its 14 bits (R232). DESIGN CHOICE: log entry 108. -/
def arrive (f : KKet) (g : Nat) (l : Leaf) (x : Kettle) : Kettle :=
  let y := if f.ket.toNat < 64 then { x with arrived := x.arrived ||| memberBit (localLeaf g) }
           else { x with arr := x.arr + 1 }
  if f.sync then { y with acks := y.acks ++ [(g, l.po, l.level == .trap)] } else y

def karvEffect (f : KKet) (s : State) : State :=
  let c := clusterOf s.cur
  let x := leafKettle s f.ket
  let s1 := setKettle s c f.ket.toNat (arrive f s.cur s.leaf x)
  let s2 := s1.upd fun l => { l with po := l.po + 1 }
  advanceKettle (addScalar s2 1 f.sa (x.phase.setWidth 64) none .k) c f.ket.toNat

/-- What a completed KWAIT.ACQ acquires: the releases of the flip of its phase (R212). -/
def acquirePhase (l : Leaf) (g : Nat) (x : Kettle) (p : BitVec 32) : Leaf :=
  acquire l (acquired g (mapGet x.flips p.toNat []))

def kwaitCause (f : KKet) (s : State) : Option Trap :=
  if (leafKettle s f.ket).state == .idle then some (slotTrap .kettle .k) else none

def kwaitEffect (f : KKet) (s : State) : State :=
  let x := leafKettle s f.ket
  let p := (readS s.leaf f.sa).setWidth 32
  if phasePast x.phase p then
    if f.sync then s.upd fun l => acquirePhase l s.cur x p else s
  else s.upd fun l => { l with wait := .phase f.ket.toNat p f.sync }

def kstateCode : KState → Nat
  | .idle => 0
  | .open_ => 1
  | .closed => 2

/-- KPOLL's words (R234). -/
def kpollWord (k mode : Nat) (x : Kettle) : Word :=
  let arr := if k < 64 then popBits 32 x.arrived.toNat else x.arr.toNat
  if mode = 0 then
    BitVec.ofNat 64 (x.phase.toNat * 2 ^ 32 + kstateCode x.state * 2 ^ 30 + x.extent.toNat * 2 ^ 27
      + (if x.hasParent then 2 ^ 26 else 0) + x.child.toNat * 2 ^ 20 + x.carr.length * 2 ^ 14 + arr)
  else if mode = 1 then
    if k < 64 then x.member ++ x.arrived else x.count.setWidth 64
  else x.parent ++ (if k < 64 then x.next else 0)
where
  popBits : Nat → Nat → Nat
    | 0, _ => 0
    | n + 1, v => v % 2 + popBits n (v / 2)

def kpollEffect (f : KPoll) (s : State) : State :=
  addScalar s 1 f.sd (kpollWord f.ket.toNat f.mode.toNat (leafKettle s f.ket)) none .k

def kinitCause (f : KInit) (s : State) : Option Trap :=
  let c := clusterOf s.cur
  let x := leafKettle s f.ket
  let cfg := readS s.leaf f.sa
  let ext : BitVec 3 := cfg.extractLsb' 24 3
  let count : BitVec 14 := cfg.extractLsb' 0 14
  let p := parentWord (readS s.leaf f.sb)
  let n := parentNo p
  let home := s.node.package.toNat
  let busy := x.state == .closed || x.arr != 0 || x.arrived != 0 || !x.carr.isEmpty
  let badCfg := !(decide (2 ≤ ext.toNat) && decide (ext.toNat ≤ 5)) || (decide (f.ket.toNat < 64) && count != 0)
  let badLink := p.getLsbD 31
    && (decide (23 < kettleCluster n) || n == kettleNo home c f.ket.toNat || outsideExtent home s.node.domain.toNat c ext p)
  if busy || badCfg || badLink then some (slotTrap .kettle .k) else none

def kinitEffect (f : KInit) (s : State) : State :=
  let c := clusterOf s.cur
  let x := leafKettle s f.ket
  let cfg := readS s.leaf f.sa
  let count : BitVec 14 := cfg.extractLsb' 0 14
  setKettle s c f.ket.toNat
    (if 64 ≤ f.ket.toNat && count == 0 then { x with state := .idle, count := 0, child := 0, parent := 0, extent := 2 }
     else { x with count := count, child := cfg.extractLsb' 16 6, extent := cfg.extractLsb' 24 3,
                   parent := parentWord (readS s.leaf f.sb), state := .open_ })

/-- The leaf's first phase as a member (R236). -/
def joinNow (x : Kettle) (j : Nat) : Bool := x.state == .open_ && !x.arrived.getLsbD j

def gjoinCause (f : KJoin) (s : State) : Option Trap :=
  let x := getKettle s (clusterOf s.cur) f.ket.toNat
  if x.next.getLsbD (localLeaf s.cur) then some (slotTrap .gathering .k) else none

/-- `sd` gets PHASE, or PHASE + 1 taken exactly (R10, R236). DEDUCED: log entry 95. -/
def gjoinEffect (f : KJoin) (s : State) : State :=
  let c := clusterOf s.cur
  let j := localLeaf s.cur
  let x := getKettle s c f.ket.toNat
  let y := { x with next := x.next ||| memberBit j,
                    member := if joinNow x j then x.member ||| memberBit j else x.member }
  let p : Word := x.phase.setWidth 64 + (if joinNow x j then 0 else 1)
  addScalar (setKettle s c f.ket.toNat y) 1 f.sd p none .k

def gleaveCause (f : KLeave) (s : State) : Option Trap :=
  let x := getKettle s (clusterOf s.cur) f.ket.toNat
  if x.next.getLsbD (localLeaf s.cur) then none else some (slotTrap .gathering .k)

/-- A leaf leaves gathering `k` (R236). -/
def leaveGathering (s : State) (g k : Nat) : State :=
  let c := clusterOf g
  let j := localLeaf g
  let x := getKettle s c k
  let m := ~~~(memberBit j)
  let y := { x with next := x.next &&& m, member := if joinNow x j then x.member &&& m else x.member }
  let s1 := setKettle s c k y
  if joinNow x j then advanceKettle s1 c k else s1

def gleaveEffect (f : KLeave) (s : State) : State := leaveGathering s s.cur f.ket.toNat

/-- EXIT takes a leaf out of every gathering it is still a member of (R236). -/
def leaveAll (s : State) (g : Nat) : State :=
  (List.range 64).foldl (fun s k =>
    if (getKettle s (clusterOf g) k).next.getLsbD (localLeaf g) then leaveGathering s g k else s) s

def execKarv (f : KKet) (s : State) : Out := runOp (.karv f) (karvCause f) noWait (karvEffect f) s
def execKwait (f : KKet) (s : State) : Out := runBlocking (.kwait f) (kwaitCause f) noWait (kwaitEffect f) s
def execKpoll (f : KPoll) (s : State) : Out := runPlain (.kpoll f) (kpollEffect f) s
def execKinit (f : KInit) (s : State) : Out := runOp (.kinit f) (kinitCause f) noWait (kinitEffect f) s
def execGjoin (f : KJoin) (s : State) : Out := runOp (.gjoin f) (gjoinCause f) noWait (gjoinEffect f) s
def execGleave (f : KLeave) (s : State) : Out := runOp (.gleave f) (gleaveCause f) noWait (gleaveEffect f) s

/-! ### Events -/

/-- Every older entry of the log a KARV.REL waits for has performed (R225, R237, R334). -/
def ackDue (l : Leaf) (a : Nat × Nat × Bool) : Bool :=
  (if a.2.2 then trapOrder l else l.olog).all fun e => e.op.isMark || decide (a.2.1 ≤ e.po)

/-- What a KARV.REL at place `po` releases: the leaf's writes and those it has acquired by then, which are known once its older
entries have performed, in the reach of the tree (R212, R237). -/
def arrivalRelease (l : Leaf) (g po : Nat) (x : Kettle) : Release := ⟨x.extent.toNat, g, leafClock l g po, l.run⟩

def execKettleReleaseAck (c k g : Nat) (s : State) : Out :=
  let x := getKettle s c k
  match x.acks.find? fun a => a.1 == g && ackDue (getLeaf s g) a with
  | some a =>
    let y := { x with acks := x.acks.erase a, rel := x.rel ++ [arrivalRelease (getLeaf s g) g a.2.1 x] }
    .next (advanceKettle (setKettle s c k y) c k)
  | none => .next s

/-- What a kettle's message carries to another package, for a flip that comes back on it (R212, R237). -/
def sendAbroad (s : State) (run src : Nat) (rel : List Release) : State :=
  let phase := (getKettle s (kettleCluster src) (kettleIndex src)).phase.toNat
  updRun s run fun r => { r with abroad := r.abroad ++ [(src, phase, rel)] }

/-- An arrival that reaches another package is counted there, or refused, which that package's state says (R238). DEDUCED: log entry 65. -/
def remoteArrival (s : State) (a : Arrival) : State :=
  if !remoteReachable s (kettlePkg a.dst) then treeError s a.run a.src
  else
    let (c, s1) := takeChoice s 2
    if c = 0 then sendAbroad s1 a.run a.src a.rel else treeError s1 a.run a.src

/-- An upward arrival: the state of its parent counts as it stands now (R238). DESIGN CHOICE: log entry 109. -/
def execKettleUpwardArrival (id : Nat) (s : State) : Out :=
  match s.arrivals.find? fun a => a.id == id with
  | none => .next s
  | some a =>
    let s1 := { s with arrivals := s.arrivals.filter fun x => x.id != id }
    if kettlePkg a.dst != s.node.package.toNat then .next (remoteArrival s1 a)
    else
      match findRun s a.run with
      | none => .next s1
      | some run =>
        let c := kettleCluster a.dst
        let k := kettleIndex a.dst
        if run.places.contains (some c) then
          let x := getKettle s c k
          if x.state != .open_ || x.carr.length == x.child.toNat then .next (treeError s1 run.id a.src)
          else .next (advanceKettle (setKettle s1 c k { x with carr := x.carr ++ [a.src], rel := x.rel ++ a.rel }) c k)
        else if inPlacement run c then .next s
        else .next (treeError s1 run.id a.src)

/-- A flip that has reached its kettle, in flight. -/
def flipFor (s : State) (c k : Nat) : Option Flip :=
  s.flips.find? fun f => f.dst == kettleNo s.node.package.toNat c k
    && (match findRun s f.run with
        | some r => r.places.contains (some c)
        | none => false)

/-- A flip of the kettle on its way to a child in another package. -/
def flipAway (s : State) (c k : Nat) : Option Flip :=
  s.flips.find? fun f => f.src == kettleNo s.node.package.toNat c k && kettlePkg f.dst != s.node.package.toNat

/-- A flip reaches the kettle, or leaves it for another package (R237, R238). -/
def execKettleFlip (c k : Nat) (s : State) : Out :=
  let x := getKettle s c k
  match flipFor s c k, flipAway s c k with
  | some f, _ => .next (flipKettle { s with flips := s.flips.erase f } c k f.rel)
  | none, some f =>
    let s1 := { s with flips := s.flips.erase f }
    .next (if remoteReachable s (kettlePkg f.dst) then sendAbroad s1 f.run f.src f.rel else treeError s1 f.run f.src)
  | none, none =>
    if x.state == .closed && !x.hasParent && x.acks.isEmpty then .next (flipKettle s c k x.rel) else .next s

end Sys2Proof.Machine
end

