-- ==== Sys2Proof/Machine/Branch.lean ====
section
/-! DEFINITION. Control transfers (R109 to R112), loops (R113 to R118), SETFMT (R97), and where the next bundle comes
from: delay bundles, end actions, positions (R37, R53, R116). -/

namespace Sys2Proof.Machine

/-! ### Loop levels (R114) -/

def loopActive (w : Word) : Bool := w.getLsbD 31
def loopStart (w : Word) : Nat := (w.extractLsb' 0 12).toNat
def loopEnd (w : Word) : Nat := (w.extractLsb' 12 12).toNat
def loopCount (w : Word) : Nat := (w.extractLsb' 32 32).toNat

def loopWord (count start stop : Nat) (active : Bool) : Word :=
  BitVec.ofNat 64 (start % 4096 + stop % 4096 * 4096 + (if active then 2 ^ 31 else 0) + count % 2 ^ 32 * 2 ^ 32)

/-- Clears ACTIVE and leaves the other fields. -/
def loopClose (w : Word) : Word := w &&& ~~~(0x80000000 : Word)

def loopContains (w : Word) (i : Nat) : Bool := decide (loopStart w ≤ i) && decide (i ≤ loopEnd w)

/-- A taken transfer closes the levels whose body it leaves (R117). -/
def closeLeft (w : Word) (from_ target : Nat) : Word :=
  if loopActive w && loopContains w from_ && !loopContains w target then loopClose w else w

/-- The bundle stands at the END of an active level (R116). -/
def atActiveEnd (l : Leaf) : Bool :=
  (loopActive l.loopInner && loopEnd l.loopInner == l.pc.toNat)
    || (loopActive l.loopOuter && loopEnd l.loopOuter == l.pc.toNat)

/-- The end action at index `i`: the levels after it, and the next index where a level acts (R116). -/
def endAction (outer inner : Word) (i : Nat) : Word × Word × Option Nat :=
  if loopActive inner && loopEnd inner == i then
    if 1 < loopCount inner then
      (outer, loopWord (loopCount inner - 1) (loopStart inner) (loopEnd inner) true, some (loopStart inner))
    else (outer, loopWord 0 (loopStart inner) (loopEnd inner) false, some (loopEnd inner + 1))
  else if loopActive outer && loopEnd outer == i then
    let inner' := if loopActive inner then loopClose inner else inner
    if 1 < loopCount outer then
      (loopWord (loopCount outer - 1) (loopStart outer) (loopEnd outer) true, inner', some (loopStart outer))
    else (loopWord 0 (loopStart outer) (loopEnd outer) false, inner', some (loopEnd outer + 1))
  else (outer, inner, none)

/-! ### Transfers -/

/-- A transfer at an active END is illegal, an issue cause of the K slot (R116). -/
def transferCause (s : State) : Option Trap :=
  if atActiveEnd s.leaf then some (slotTrap .illegalOp .k) else none

/-- A transfer that is taken to `target` (R110, R117); CALL closes no level. -/
def takeTransfer (l : Leaf) (target : Word) (closes : Bool) : Leaf :=
  let t := target.toNat
  let n := l.pc.toNat
  { l with xfer := .taken target
           loopOuter := if closes then closeLeft l.loopOuter n t else l.loopOuter
           loopInner := if closes then closeLeft l.loopInner n t else l.loopInner }

def labelTarget (l : Leaf) (off : BitVec 28) : Word := l.pc + off.signExtend 64

def branchIf (s : State) (taken : Bool) (target : Word) : State :=
  s.upd fun l => if taken then takeTransfer l target true else { l with xfer := .notTaken }

def branchCmp (s : State) (f : KBcc) (p : Word → Word → Bool) : State :=
  branchIf s (p (readS s.leaf f.sa) (readS s.leaf f.sb)) (labelTarget s.leaf f.off)

/-- CALL's link: s63 ← n + 2 at latency 1, no latch (R111). -/
def callTo (s : State) (target : Word) : State :=
  let s1 := s.upd fun l => takeTransfer l target false
  addScalar s1 1 63 (s.leaf.pc + 2) none .k

def execBr (f : KBr) (s : State) : Out :=
  runOp (.br f) transferCause noWait (fun s => branchIf s true (labelTarget s.leaf f.off)) s
def execBri (f : KBri) (s : State) : Out :=
  runOp (.bri f) transferCause noWait (fun s => branchIf s true (readS s.leaf f.sa + f.off.signExtend 64)) s
def execCall (f : KBr) (s : State) : Out :=
  runOp (.call f) transferCause noWait (fun s => callTo s (labelTarget s.leaf f.off)) s
def execCallInd (f : KBri) (s : State) : Out :=
  runOp (.callInd f) transferCause noWait (fun s => callTo s (readS s.leaf f.sa + f.off.signExtend 64)) s
def execRet (s : State) : Out :=
  runOp .ret transferCause noWait (fun s => branchIf s true (readS s.leaf 63)) s
def execBeq (f : KBcc) (s : State) : Out :=
  runOp (.beq f) transferCause noWait (fun s => branchCmp s f fun a b => a == b) s
def execBne (f : KBcc) (s : State) : Out :=
  runOp (.bne f) transferCause noWait (fun s => branchCmp s f fun a b => a != b) s
def execBlt (f : KBcc) (s : State) : Out :=
  runOp (.blt f) transferCause noWait (fun s => branchCmp s f fun a b => decide (a.toInt < b.toInt)) s
def execBge (f : KBcc) (s : State) : Out :=
  runOp (.bge f) transferCause noWait (fun s => branchCmp s f fun a b => decide (b.toInt ≤ a.toInt)) s
def execBltn (f : KBcc) (s : State) : Out :=
  runOp (.bltn f) transferCause noWait (fun s => branchCmp s f fun a b => decide (a.toNat < b.toNat)) s
def execBgen (f : KBcc) (s : State) : Out :=
  runOp (.bgen f) transferCause noWait (fun s => branchCmp s f fun a b => decide (b.toNat ≤ a.toNat)) s
def execBz (f : KBz) (s : State) : Out :=
  runOp (.bz f) transferCause noWait
    (fun s => branchIf s (readS s.leaf f.sa == 0) (labelTarget s.leaf f.off)) s
def execBnz (f : KBz) (s : State) : Out :=
  runOp (.bnz f) transferCause noWait
    (fun s => branchIf s (readS s.leaf f.sa != 0) (labelTarget s.leaf f.off)) s

/-! ### Loops -/

/-- The body [n+1, n+off] breaks the nesting with an active level (R115); a restored level whose START lies after its END has
no body (R116) and meets none. -/
def nestBad (w : Word) (n off : Nat) : Bool :=
  let a := n + 1
  let b := n + off
  let inside := decide (loopStart w ≤ a) && decide (b ≤ loopEnd w)
  let overlaps := decide (loopStart w ≤ loopEnd w) && decide (a ≤ loopEnd w) && decide (loopStart w ≤ b)
  n == loopEnd w || (overlaps && !inside) || (inside && b == loopEnd w)

/-- The loop-state checks, issue causes of the K slot (R115). -/
def loopCause (off : Nat) (s : State) : Option Trap :=
  let l := s.leaf
  let n := l.pc.toNat
  let bad :=
    if loopActive l.loopOuter && loopActive l.loopInner then true
    else if loopActive l.loopOuter then nestBad l.loopOuter n off
    else if loopActive l.loopInner then nestBad l.loopInner n off
    else false
  if bad then some (slotTrap .illegalOp .k) else none

/-- Opens a level, or passes the body when the count is 0 (R115). -/
def openLoop (l : Leaf) (c off : Nat) : Leaf :=
  let n := l.pc.toNat
  if c = 0 then { l with xfer := .skip (BitVec.ofNat 64 (n + off + 1)) }
  else
    let w := loopWord c (n + 1) (n + off) true
    if loopActive l.loopOuter || loopActive l.loopInner then { l with loopInner := w } else { l with loopOuter := w }

def execLoop (f : KLoop) (s : State) : Out :=
  runOp (.loop f) (loopCause f.off.toNat) noWait
    (fun s => s.upd fun l => openLoop l ((readS l f.sa).toNat % 2 ^ 32) f.off.toNat) s
def execLoopi (f : KLoopi) (s : State) : Out :=
  runOp (.loopi f) (loopCause f.off.toNat) noWait (fun s => s.upd fun l => openLoop l f.count.toNat f.off.toNat) s

/-! ### FMT -/

/-- A new FMT enters its shadow: it holds from four positions on (R54, R97). -/
def pendFmt (l : Leaf) (v : BitVec 22) : Leaf := { l with fmtPend := l.fmtPend ++ [⟨v.setWidth 32, 4⟩] }

def execSetfmt (f : KSetfmt) (s : State) : Out :=
  .next (s.upd fun l => pendFmt l (if f.reg then (readS l f.sa).extractLsb' 0 22 else f.imm))

/-- A code of A, B or OUT is reserved (R98). -/
def fmtBad (v : BitVec 32) : Bool :=
  decide (12 ≤ (v.extractLsb' 0 5).toNat) || decide (12 ≤ (v.extractLsb' 5 5).toNat)
    || decide (12 ≤ (v.extractLsb' 10 5).toNat)

/-- The SETFMTs whose shadow ends here take effect, the later-issued last (R54, R97). DEDUCED: log entry 18. -/
def landFmt (l : Leaf) : Leaf :=
  { l with fmt := (l.fmtPend.filter fun p => p.dist == 0).foldl (fun _ p => p.value) l.fmt
           fmtPend := l.fmtPend.filter fun p => p.dist != 0 }

/-! ### The end of a position -/

/-- One position has issued: distances shrink by one (R37, R54). -/
def tickPosition (l : Leaf) : Leaf :=
  { l with inflight := l.inflight.map fun r => { r with dist := r.dist - 1 }
           fmtPend := l.fmtPend.map fun p => { p with dist := p.dist - 1 }
           seq := l.seq + 1 }

/-- Where the leaf goes after the bundle at `pc`, given what its transfer decided and whether it was a delay bundle
(R53, R110, R115 to R117, R332). -/
def advance (l : Leaf) : Leaf :=
  let i := l.pc.toNat
  let seqNext := fun (l : Leaf) =>
    let (o, n, nxt) := endAction l.loopOuter l.loopInner i
    { l with loopOuter := o, loopInner := n,
             pc := match nxt with | some t => BitVec.ofNat 64 t | none => l.pc + 1 }
  let l1 :=
    match l.delay with
    | .taken t => { l with pc := t }
    | .rte => { l with pc := l.pc + 1, rteDue := true }
    | _ =>
      match l.xfer with
      | .skip t => { l with pc := t }
      | .none => seqNext l
      | _ => { l with pc := l.pc + 1 }
  { l1 with delay := (match l.xfer with | .skip _ => .none | x => x), xfer := .none }

/-- The boundary after a bundle. `blocks` marks an always-blocking bundle; one that waited is marked in the leaf. -/
def finishLeaf (l : Leaf) (blocks : Bool) : Leaf :=
  let l1 := advance (tickPosition l)
  { l1 with blocked := blocks || l.waited, waited := false, skipSlot := 0 }

end Sys2Proof.Machine
end

