-- ==== Sys2Proof/Machine/PressMath.lean ====
section
/-! DEFINITION. The arithmetic of press passes (R92, R93, R247, R263, R264) and of the conversions at their ends (R267),
which the sewing unit shares. -/

namespace Sys2Proof.Machine

/-- One row of a chunk: numbers for a floating-point or block format, integers for an integer format. -/
inductive Operand where
  | nums (l : List Num)
  | ints (l : List Int)
  deriving DecidableEq, Repr

def splitRows {α : Type} (n : Nat) : Nat → List α → List (List α)
  | 0, _ => []
  | k + 1, l => l.take n :: splitRows n k (l.drop n)

/-- A row's element codes. -/
def rowCodes (c : Nat) (row : List Byte) : List Nat := splitNat (fmtWidth c) (kPerPass c) (bytesNat row)

/-- Decodes 64 bytes of a row with its exponent words (R76, R77, R79, R86). -/
def decodeRow (c : Nat) (ctx : FCtx) (row expo : List Byte) : Operand :=
  let es := rowCodes c row
  match fmtOf c with
  | .flt f => .nums (es.map (readFloat f ctx))
  | .int i => .ints (es.map (intValue i))
  | .blk bx8 =>
    let ws := splitNat 16 (kPerPass c / 32) (bytesNat expo)
    .nums (es.mapIdx fun k x => decodeBlk bx8 (ws.getD (k / 32) 0) x)
  | .other => .ints []

/-- The 32 rows of a chunk (R247). -/
def decodeChunk (c : Nat) (ctx : FCtx) (b : List Byte) : List Operand :=
  let w := if c = 5 then 4 else if c = 6 then 8 else 0
  let ex := b.drop 2048
  (List.range 32).map fun r => decodeRow c ctx ((b.drop (64 * r)).take 64) ((ex.drop (w * r)).take w)

/-- The cell operations (R262). -/
inductive Cell where
  | mac | absd | cmax | xpop
  deriving DecidableEq, Repr

def cellOf : Nat → Cell
  | 0 => .mac
  | 1 => .absd
  | 2 => .cmax
  | _ => .xpop

/-- The larger, with −0 below +0; a NaN prevails. -/
def maxNum (a b : Num) : Num := if a.isNan || b.isNan then .nan else if lessNum a b then b else a

/-- One element of a floating-point pass: the accumulator's code, and the products or differences of two rows. -/
def floatCell (cell : Cell) (ctx : FCtx) (acc : Nat) (a b : List Num) : Nat × Flags :=
  let x := readFloat fp32 ctx acc
  match cell with
  | .cmax =>
    let sums := a.zipWith (addNum ctx.rm) b
    let fl := sums.foldl (fun (f : Flags) t => f ||| t.2) 0
    let (v, f2) := roundFloat fp32 ctx (sums.foldl (fun m t => maxNum m t.1) x)
    (v, fl ||| f2)
  | .absd =>
    let st := (a.zipWith (fun p q =>
      let (v, f) := addNum ctx.rm p q.neg
      (v.abs, f)) b).foldl Acc.add (Acc.start.add (x, 0))
    let (t, f1) := st.total ctx.rm
    let (v, f2) := roundFloat fp32 ctx t
    (v, f1 ||| f2)
  | _ =>
    let st := (a.zipWith mulNum b).foldl Acc.add (Acc.start.add (x, 0))
    let (t, f1) := st.total ctx.rm
    let (v, f2) := roundFloat fp32 ctx t
    (v, f1 ||| f2)

/-- One element of an integer pass. -/
def intCell (cell : Cell) (ctx : FCtx) (acc : Nat) (a b : List Int) : Nat × Flags :=
  let x := intValue ⟨32, true⟩ acc
  let t := match cell with
    | .cmax => (a.zipWith (· + ·) b).foldl max x
    | .absd => (a.zipWith (fun p q => ((p - q).natAbs : Int)) b).foldl (· + ·) x
    | _ => (a.zipWith (· * ·) b).foldl (· + ·) x
  deliverInt ctx t

def operandCell (cell : Cell) (ctx : FCtx) (acc : Nat) : Operand → Operand → Nat × Flags
  | .nums a, .nums b => floatCell cell ctx acc a b
  | .ints a, .ints b => intCell cell ctx acc a b
  | _, _ => (acc, 0)

/-- XPOP's element: 512 less the bits in which two 64-byte rows differ. -/
def xpopCell (ctx : FCtx) (acc : Nat) (a b : List Byte) : Nat × Flags :=
  let diff := popcountNat 512 (bytesNat a ^^^ bytesNat b)
  deliverInt ctx (intValue ⟨32, true⟩ acc + 512 - diff)

/-! ### Tiles -/

abbrev Tile := Map Lane

def tileAt (t : Tile) (i : Nat) : Lane := mapGet t i 0

def tileList (t : Tile) : List Nat := (List.range 1024).map fun i => (tileAt t i).toNat

def tileOf (l : List Nat) : Tile :=
  (l.mapIdx fun i x => (i, BitVec.ofNat 32 x)).filter fun p => p.2 != 0

/-- What ACC = 1 starts a tile with (R263). -/
def cellInit (cell : Cell) (isInt : Bool) : Nat :=
  match cell with
  | .cmax => if isInt then 0x80000000 else 0xFF800000
  | _ => 0

/-- One pass: every element from its row of A and its row of B. -/
def passOperands (cell : Cell) (ctx : FCtx) (acc : List Nat) (a b : List Operand) : List (Nat × Flags) :=
  (acc.mapIdx fun i x => operandCell cell ctx x (a.getD (i / 32) (.ints [])) (b.getD (i % 32) (.ints [])))

def passBits (ctx : FCtx) (acc : List Nat) (a b : List Byte) : List (Nat × Flags) :=
  acc.mapIdx fun i x => xpopCell ctx x ((a.drop (64 * (i / 32))).take 64) ((b.drop (64 * (i % 32))).take 64)

/-! ### Conversions of 32 values -/

/-- Converts FP32 codes or 32-bit integers to a format: element codes, exponent words (one for each 32), flags. -/
def convertRow (ti : Bool) (tgt : Nat) (ctx : FCtx) (xs : List Nat) : List Nat × List Nat × Flags :=
  match fmtOf tgt with
  | .blk bx8 =>
    let nums := xs.map fun x => if ti then numOfInt (intValue ⟨32, true⟩ x) else readFloat fp32 ctx x
    let bs := (splitRows 32 (xs.length / 32) nums).map (encodeBlk bx8 ctx)
    (bs.flatMap fun b => b.2.1, bs.map fun b => b.1, bs.foldl (fun f b => f ||| b.2.2) 0)
  | _ =>
    let rs := xs.map fun x => if ti then convertInt tgt ctx (intValue ⟨32, true⟩ x) else convertNum tgt ctx (readFloat fp32 ctx x)
    (rs.map Prod.fst, [], rs.foldl (fun f r => f ||| r.2) 0)

/-- The bytes of a converted row: its elements, then its exponent words (R267). -/
def rowBytes (tgt : Nat) (es ws : List Nat) : List Byte :=
  natBytes (packNat (fmtWidth tgt) es) (es.length * fmtWidth tgt / 8) ++ ws.flatMap fun w => natBytes w 2

/-- MMAZ's A rows from FP32 codes through the down-converter (R264). -/
def downRow (c : Nat) (ctx : FCtx) (xs : List Nat) : Operand × Flags :=
  let (es, ws, fl) := convertRow false c ctx xs
  (match fmtOf c with
   | .flt f => .nums (es.map (readFloat f ctx))
   | .int i => .ints (es.map (intValue i))
   | .blk bx8 => .nums (es.mapIdx fun k x => decodeBlk bx8 (ws.getD (k / 32) 0) x)
   | .other => .ints [], fl)

end Sys2Proof.Machine
end

