-- ==== Sys2Proof/Machine/Press.lean ====
section
/-! DEFINITION. The press (R247 to R276): its M-slot forms, the operation queues, passes, epilogues, and the token
counters. -/

namespace Sys2Proof.Machine

/-! ### Queues and tiles -/

def pressQueue (l : Leaf) : List PressOp :=
  match l.level with
  | .ordinary => l.pq
  | .trap => l.tq

/-- The operation queue of the level is full (R256). -/
def pressFull (s : State) : Bool :=
  match s.leaf.level with
  | .ordinary => decide (16 ≤ s.leaf.pq.length)
  | .trap => decide (4 ≤ s.leaf.tq.length)

def getTile (l : Leaf) (z : Nat) : Tile := mapGet l.tiles z []

/-- The tile an operation writes. -/
def PressOp.writes (o : PressOp) : Option Nat :=
  match o.form with
  | .mma z _ _ _ _ | .mmaz z _ _ _ | .accz z | .accwr z _ _ => some z
  | .epi _ _ _ _ => none

/-- Tiles per pass that MMAZ reads (R264). -/
def tilesPerPass (fmt : BitVec 32) : Nat := kPerPass (fmtA fmt) / 32

/-- The tiles an operation only reads and has not finished reading. -/
def PressOp.reads (o : PressOp) : List Nat :=
  match o.form with
  | .mmaz _ zs _ _ => (List.range (o.n * tilesPerPass o.fmt)).map fun i => zs + i
  | .epi zs _ _ _ => if o.stage = .queued || o.stage = .fired then [zs] else []
  | _ => []

/-- An operation that has made its last write to its tile. -/
def PressOp.finished (o : PressOp) : Bool :=
  match o.form with
  | .epi _ _ _ _ => false
  | _ => o.stage != .queued && decide (o.n ≤ o.pass)

/-- A queued operation that writes the tile has not completed (R249). -/
def tileBusy (l : Leaf) (z : Nat) : Bool := (l.pq ++ l.tq).any fun o => o.writes == some z

/-- Writes a tile, keeping what a busy tile has held (R249). -/
def writeTile (l : Leaf) (z : Nat) (t : Tile) : Leaf :=
  { l with tiles := mapSet l.tiles z [] t
           tileHist := mapPut l.tileHist z (mapGet l.tileHist z [] ++ [([], t)]) }

/-- An operation that writes the tile issues: it counts from what the tile now holds (R249). -/
def noteWriter (l : Leaf) (z id : Nat) : Leaf :=
  let was := if tileBusy l z then mapGet l.tileHist z [] else [([], getTile l z)]
  { l with tileHist := mapPut l.tileHist z (was.dropLast ++ was.getLast?.toList.map fun e => (e.1 ++ [id], e.2)) }

/-- An operation that writes the tile has left its queue: what the tile held only before the earliest writer left issued is
forgotten (R249). -/
def trimTile (l : Leaf) (z : Nat) : Leaf :=
  let ws := ((l.pq ++ l.tq).filter fun o => o.writes == some z).map fun o => o.id
  { l with tileHist :=
      if ws.isEmpty then mapDel l.tileHist z
      else mapPut l.tileHist z ((mapGet l.tileHist z []).dropWhile fun e => !e.1.any ws.contains) }

/-- Enters an operation into the queue of the leaf's level with what it captures (R256). -/
def enqueue (s : State) (form : PressForm) (n : Nat) (tok : Option Nat) (fa fb : Nat × Int) : State :=
  let (id, s1) := fresh s
  s1.upd fun l =>
    let o : PressOp :=
      { id := id, form := form, n := n, fmt := l.fmt, tok := tok, feedA := fa, feedB := fb, stage := .queued, pass := 0,
        claimA := [], claimB := [], slot := 0, seg := 0, po := l.po, taint := [] }
    let l1 := { l with po := l.po + 1 }
    let l2 := match o.writes with
      | some z => noteWriter l1 z id
      | none => l1
    match l.level with
    | .ordinary => { l2 with pq := l2.pq ++ [o] }
    | .trap => { l2 with tq := l2.tq ++ [o] }

/-! ### Feeds (R255) -/

def feedOf (l : Leaf) (x : PressSrc) : Nat × Int :=
  match x with
  | .feed f => ((getFeed l f.toNat).offset.toNat, (getFeed l f.toNat).stride.toInt)
  | .buf _ => (0, 0)

/-- The walk: the feed's offset after `n` chunks from where it stood at issue. DEDUCED: log entry 58. -/
def walkFeed (l0 : Leaf) (x : PressSrc) (n : Nat) (l : Leaf) : Leaf :=
  match x with
  | .feed f =>
    let fd := getFeed l0 f.toNat
    let fd1 : Feed := { fd with offset := BitVec.ofInt 22 ((fd.offset.toNat : Int) + n * fd.stride.toInt) }
    { l with feeds := mapSet l.feeds f.toNat .reset fd1 }
  | .buf _ => l

def feedChunks (l : Leaf) (x : PressSrc) (n : Nat) : List Int :=
  match x with
  | .feed _ => (List.range n).map (feedChunk (feedOf l x))
  | .buf _ => []

/-! ### Checks (R270) -/

def mTrap (c : Cause) : Trap := slotTrap c .m

def emulCode (c : Nat) : Bool := c == 10 || c == 11

/-- Rows 3 and 4: emulated codes, and the pair. -/
def pairCause (fmt : BitVec 32) : Option Trap :=
  if emulCode (fmtA fmt) || emulCode (fmtB fmt) then some (mTrap .formatEmul)
  else if !pairOk (fmtA fmt) (fmtB fmt) then some (mTrap .illegalFmt)
  else none

/-- Row 6 for one operand. -/
def bufferBad (l : Leaf) (x : PressSrc) (size n : Nat) : Bool :=
  match x with
  | .buf q =>
    let b := getBuf l q.toNat
    b.cap == 0 || b.faulted || b.leafMode || b.e != size || decide (b.cap < n)
  | .feed _ => false

/-- Rows 6 to 8 for the operands and their chunk sizes. -/
def operandCause (l : Leaf) (xs : List (PressSrc × Nat)) (n : Nat) : Option Trap :=
  if xs.any fun x => bufferBad l x.1 x.2 n then some (mTrap .queueConfig)
  else if xs.any fun x => (feedChunks l x.1 n).any fun a => a % 64 != 0 then some (alignTrap 6)
  else if xs.any fun x => (feedChunks l x.1 n).any fun a => decide (a < 0) || decide ((sheetSize : Int) < a + x.2)
  then some (mTrap .sheetBounds)
  else none

def passCount (n : BitVec 8) : Nat := n.toNat + 1

def mmaSizes (f : MMma) (l : Leaf) : List (PressSrc × Nat) :=
  let x := f.cell == 3
  [(f.a, operandChunk x (fmtA l.fmt)), (f.b, operandChunk x (fmtB l.fmt))]

def mmaCause (f : MMma) (s : State) : Option Trap :=
  let l := s.leaf
  match (if f.cell = 3 then none else pairCause l.fmt) with
  | some t => some t
  | none => operandCause l (mmaSizes f l) (passCount f.n)

def mmaEffect (f : MMma) (s : State) : State :=
  let l := s.leaf
  let n := passCount f.n
  (enqueue s (.mma f.zd.toNat f.cell.toNat f.a f.b f.acc) n (tokOf f.kt f.tk) (feedOf l f.a) (feedOf l f.b)).upd
    fun x => walkFeed l f.b n (walkFeed l f.a n x)

/-- Row 5: the source tiles of MMAZ (R264). -/
def mmazRangeBad (f : MMmaz) (l : Leaf) : Bool :=
  let g := tilesPerPass l.fmt
  let zs := f.zs.toNat
  let last := zs + passCount f.n * g - 1
  let top := if l.level = .trap then 15 else 13
  zs % g != 0 || decide (top < last) || (decide (zs ≤ f.zd.toNat) && decide (f.zd.toNat ≤ last))

def mmazCause (f : MMmaz) (s : State) : Option Trap :=
  let l := s.leaf
  match pairCause l.fmt with
  | some t => some t
  | none =>
    if mmazRangeBad f l then some (mTrap .illegalOp)
    else operandCause l [(f.b, operandChunk false (fmtB l.fmt))] (passCount f.n)

def mmazEffect (f : MMmaz) (s : State) : State :=
  let l := s.leaf
  let n := passCount f.n
  (enqueue s (.mmaz f.zd.toNat f.zs.toNat f.b f.acc) n (tokOf f.kt f.tk) (0, 0) (feedOf l f.b)).upd (walkFeed l f.b n)

def acczEffect (f : MAccz) (s : State) : State := enqueue s (.accz f.zd.toNat) 1 (tokOf f.kt f.tk) (0, 0) (0, 0)

def accwrEffect (f : MAccwr) (s : State) : State :=
  enqueue s (.accwr f.zd.toNat f.half (readV s.leaf f.vs)) 1 (tokOf f.kt f.tk) (0, 0) (0, 0)

def epiCause (f : MEpi) (s : State) : Option Trap :=
  let l := s.leaf
  if emulCode (fmtOut l.fmt) then some (mTrap .formatEmul)
  else if (readS l f.sa).toNat % 16 != 0 then some (slotTrap .align .m 0 (readS l f.sa))
  else if (readS l f.sb).toNat % 16 != 0 then some (alignTrap 6)
  else none

def epiEffect (f : MEpi) (s : State) : State :=
  enqueue s (.epi f.zs.toNat f.ti (readS s.leaf f.sa) (readS s.leaf f.sb)) 1 (tokOf f.kt f.tk) (0, 0) (0, 0)

def execMma (f : MMma) (s : State) : Out := runFrozen (.mma f) (mmaCause f) pressFull (mmaEffect f) s
def execMmaz (f : MMmaz) (s : State) : Out := runFrozen (.mmaz f) (mmazCause f) pressFull (mmazEffect f) s
def execAccz (f : MAccz) (s : State) : Out := runFrozen (.accz f) noCause pressFull (acczEffect f) s
def execAccwr (f : MAccwr) (s : State) : Out := runFrozen (.accwr f) noCause pressFull (accwrEffect f) s
def execEpi (f : MEpi) (s : State) : Out := runFrozen (.epi f) (epiCause f) pressFull (epiEffect f) s

/-! ### ACCRD (R249, R266) -/

/-- A tile as ACCRD sees it: each element of a busy tile is one of the values it has held. DEDUCED: log entry 56. -/
def accrdTile (s : State) (z : Nat) : List Nat × State :=
  let l := s.leaf
  let h := mapGet l.tileHist z []
  if tileBusy l z && decide (1 < h.length) then
    ((List.range 1024).map fun i =>
      (tileAt (h.getD (Config.freeChoice (s.free + i) % h.length) ([], [])).2 i).toNat, { s with free := s.free + 1024 })
  else (tileList (getTile l z), s)

def accrdEffect (f : MAccrd) (s : State) : State :=
  let (t, s1) := accrdTile s f.zs.toNat
  let half := if f.half then 1 else 0
  let (v, fl) : Vec × Flags :=
    if f.cvt = 0 then (ofElements 32 ((t.drop (512 * half)).take 512), 0)
    else
      let fmt := if f.cvt = 1 then bf16 else fp16
      let rs := t.map fun x => roundFloat fmt plainCtx (decodeFloat fp32 x)
      (ofElements 16 (rs.map Prod.fst), rs.foldl (fun (a : Flags) r => a ||| r.2) 0)
  addResult s1 6 (.v f.vd.toNat) v (onesBelow 16384) (some 11) (slotRank .m) fl

def execAccrd (f : MAccrd) (s : State) : Out := runPlain (.accrd f) (accrdEffect f) s

/-! ### Buffers and feeds -/

/-- BASE, E, CAP and MODE of QCFG's operands (R251). -/
def qcfgShape (f : MQcfg) (l : Leaf) : Nat × Nat × Nat × Bool :=
  let w := readS l f.sb
  ((readS l f.sa).toNat, (w.extractLsb' 0 16).toNat * 64, (w.extractLsb' 16 16).toNat, w.getLsbD 32)

def qcfgBuf (f : MQcfg) (l : Leaf) : Buf :=
  let (base, e, cap, mode) := qcfgShape f l
  if cap = 0 then .reset
  else { Buf.reset with base := base, e := e, cap := cap, leafMode := mode }

def namesBuffer (q : Nat) (o : PressOp) : Bool := (opBuffers o).contains q

/-- Copies of the acting leaf into a buffer. -/
def copiesInto (s : State) (q : Nat) : Bool :=
  (getQuire s (quireOf s.cur)).copies.any fun c => c.leaf == s.cur && (match c.form with
    | .copyq n _ _ _ _ _ => n == q
    | _ => false)

def qcfgCause (f : MQcfg) (s : State) : Option Trap :=
  let l := s.leaf
  let (base, e, cap, _) := qcfgShape f l
  let b := getBuf l f.q.toNat
  let held := 0 < b.count .reserved + b.count .written + b.count .claimed
  let named := (l.pq ++ l.tq).any (namesBuffer f.q.toNat)
  let inUse := if b.faulted then copiesInto s f.q.toNat else decide held || named
  if base % 64 != 0 then some (alignTrap 6)
  else if sheetSize < base + cap * e then some (mTrap .sheetBounds)
  else if e == 0 || decide (65536 < e) || decide (4095 < cap) || inUse
      || decide (12 < (pinnedSheets (setBuf l f.q.toNat (qcfgBuf f l))).length)
  then some (mTrap .queueConfig)
  else none

/-- Abandoned operations complete in queue order: they leave the queue and post their tokens (R254). -/
def abandon (s : State) (g q : Nat) (trapQ : Bool) : State :=
  let l := getLeaf s g
  let queue := if trapQ then l.tq else l.pq
  let gone := fun (o : PressOp) => o.stage == .queued && namesBuffer q o
  let kept := queue.filter fun o => !gone o
  let l1 := if trapQ then { l with tq := kept } else { l with pq := kept }
  let s1 := setLeaf s g ((queue.filter gone).foldl (fun l o => o.writes.toList.foldl trimTile l) l1)
  (queue.filter gone).foldl (fun s o => postOpt s g o.tok []) s1

/-- Fired operations that claimed entries of the buffer keep their bytes, and have no entry to free any more. -/
def looseClaims (l : Leaf) (q : Nat) : Leaf :=
  let loose := fun (x : PressSrc) (cs : List Claim) => match x with
    | .buf n => if n.toNat = q then cs.map fun c => { c with ent := none } else cs
    | .feed _ => cs
  let f := fun (o : PressOp) => match o.form with
    | .mma _ _ a b _ => { o with claimA := loose a o.claimA, claimB := loose b o.claimB }
    | .mmaz _ _ b _ => { o with claimB := loose b o.claimB }
    | _ => o
  { l with pq := l.pq.map f, tq := l.tq.map f }

def qcfgEffect (f : MQcfg) (s : State) : State :=
  let q := f.q.toNat
  let b := qcfgBuf f s.leaf
  let s1 := abandon (abandon s s.cur q false) s.cur q true
  let s2 := s1.upd fun l => shareBuffer (looseClaims l q) q b
  touchSheets s2 s2.cur (sheetsOf b.base (b.e * b.cap)) false

def bufUnusable (b : Buf) : Bool := b.cap == 0 || b.faulted || decide (2048 < b.e)

def qputCause (f : MQv) (s : State) : Option Trap :=
  if bufUnusable (getBuf s.leaf f.q.toNat) then some (mTrap .queueConfig) else none

def qputWaits (f : MQv) (s : State) : Bool := !(getBuf s.leaf f.q.toNat).roomFor 1

def qputEffect (f : MQv) (s : State) : State :=
  let l := s.leaf
  let b := getBuf l f.q.toNat
  let a := b.entAddr b.fill
  let (_, b1) := b.reserve 1 .written
  let s1 := touchSheets s s.cur (sheetsOf a b.e) true
  s1.upd fun l => sheetWrite (noteShared (setBuf l f.q.toNat b1.promote) a b.e) a (vecBytes (readV l f.v) b.e)

def qgetCause (f : MQv) (s : State) : Option Trap :=
  let b := getBuf s.leaf f.q.toNat
  if bufUnusable b || !b.leafMode then some (mTrap .queueConfig) else none

def qgetWaits (f : MQv) (s : State) : Bool := (getBuf s.leaf f.q.toNat).take1.isNone

/-- QGET: the entry's bytes, mixed where P-slot stores have reached the buffer or another configuration shares them (R163,
R251). -/
def qgetEffect (f : MQv) (s : State) : State :=
  let l := s.leaf
  let b := getBuf l f.q.toNat
  match b.take1 with
  | none => s
  | some (i, b1) =>
    let (v, s1) := mixFormers (b.taint ++ b.lapped) (b.entAddr i) (sheetRead l (b.entAddr i) b.e) s
    let s2 := (touchSheets s1 s1.cur (sheetsOf (b.entAddr i) b.e) false).upd fun l => setBuf l f.q.toNat b1
    addResult s2 6 (.v f.v.toNat) (bytesVec v) (onesBelow 16384) none (slotRank .m) 0

def qstatEffect (f : MQs) (s : State) : State := addScalar s 2 f.sd (getBuf s.leaf f.q.toNat).status none .m

def feedsetEffect (f : MFeed) (s : State) : State :=
  s.upd fun l =>
    let fd : Feed := ⟨(readS l f.sa).setWidth 22, (readS l f.sb).setWidth 24⟩
    { l with feeds := mapSet l.feeds f.f.toNat .reset fd }

def execQcfg (f : MQcfg) (s : State) : Out := runOp (.qcfg f) (qcfgCause f) noWait (qcfgEffect f) s
def execQput (f : MQv) (s : State) : Out := runOp (.qput f) (qputCause f) (qputWaits f) (qputEffect f) s
def execQget (f : MQv) (s : State) : Out := runOp (.qget f) (qgetCause f) (qgetWaits f) (qgetEffect f) s
def execQstat (f : MQs) (s : State) : Out := runPlain (.qstat f) (qstatEffect f) s
def execFeedset (f : MFeed) (s : State) : Out := runPlain (.feedset f) (feedsetEffect f) s

/-! ### Token counters (R271 to R274) -/

/-- Takes `m` from a counter and acquires what its posts made visible. -/
def consumeTokens (l : Leaf) (k m : Nat) : Leaf :=
  acquire { l with toks := mapSet l.toks k 0 (readTok l k - BitVec.ofNat 16 m) } (mapGet l.tokClocks k [])

def waitkCount (f : KWaitk) (l : Leaf) : Nat := if f.reg then (readS l f.sa).toNat % 65536 else f.imm.toNat

def waitkEffect (f : KWaitk) (s : State) : State :=
  let k := f.kn.toNat
  let m := waitkCount f s.leaf
  s.upd fun l => if m ≤ (readTok l k).toNat then consumeTokens l k m else { l with wait := .tokens k m }

def tokrdEffect (f : KTokrd) (s : State) : State :=
  let k := f.kn.toNat
  (addScalar s 1 f.sd ((readTok s.leaf k).setWidth 64) none .k).upd fun l => acquire l (mapGet l.tokClocks k [])

def execWaitk (f : KWaitk) (s : State) : Out := runBlocking (.waitk f) noCause noWait (waitkEffect f) s
def execTokrd (f : KTokrd) (s : State) : Out := runPlain (.tokrd f) (tokrdEffect f) s

/-! ### The unit -/

/-- An operation, and whether it is of the trap queue. -/
def findPress (l : Leaf) (id : Nat) : Option (Bool × PressOp) :=
  match l.pq.find? fun o => o.id == id with
  | some o => some (false, o)
  | none => (l.tq.find? fun o => o.id == id).map fun o => (true, o)

def queueOf (l : Leaf) (trapQ : Bool) : List PressOp := if trapQ then l.tq else l.pq

def updPress (l : Leaf) (id : Nat) (f : PressOp → PressOp) : Leaf :=
  let g := fun (o : PressOp) => if o.id == id then f o else o
  { l with pq := l.pq.map g, tq := l.tq.map g }

/-- Every operation before this one in its queue. -/
def earlierOps (q : List PressOp) (id : Nat) : List PressOp := q.takeWhile fun o => o.id != id

/-- The earlier operation `e` keeps `o` from its tiles (R259). -/
def PressOp.bars (e o : PressOp) : Bool :=
  !e.finished && (e.writes.any (fun z => (o.reads ++ o.writes.toList).contains z) || o.writes.any fun z => e.reads.contains z)

/-- Tile order lets the operation touch its tiles (R259). -/
def tileOrder (q : List PressOp) (o : PressOp) : Bool := (earlierOps q o.id).all fun e => !e.bars o

/-- The lowest free staging slot of a level (R267). -/
def freeStaging (q : Quire) (trapQ : Bool) : Option Nat :=
  (if trapQ then [7] else List.range 7).find? fun n => (mapFind q.staging n).isNone

/-- Claims one operand's entries, if it is a buffer that holds enough. -/
def claimOperand (l : Leaf) (x : PressSrc) (n : Nat) : Option (List Claim × Leaf) :=
  match x with
  | .feed _ => some ([], l)
  | .buf q =>
    let b := getBuf l q.toNat
    (b.claim n).map fun r => (r.1.map fun i => ⟨some i, b.entAddr i⟩, setBuf l q.toNat r.2)

/-- The initial value of the tile of an operation with ACC = 1 (R257, R263). -/
def PressOp.initial (o : PressOp) : Option (List Nat) :=
  let start := fun (c : Cell) => some (List.replicate 1024 (cellInit c (isIntCode (fmtA o.fmt))))
  match o.form with
  | .mma _ cell _ _ true => start (cellOf cell)
  | .mmaz _ _ _ true => start .mac
  | _ => none

/-- A fired operation whose tile is free for it, and that has not begun, sets the tile to its initial value (R257, R259). -/
def initTile (q : List PressOp) (l : Leaf) (o : PressOp) : Leaf :=
  match o.writes, o.initial with
  | some z, some t =>
    if o.stage == .fired && o.pass == 0 && tileOrder q o && getTile l z != tileOf t then writeTile l z (tileOf t) else l
  | _, _ => l

def initTiles (l : Leaf) : Leaf := l.tq.foldl (initTile l.tq) (l.pq.foldl (initTile l.pq) l)

/-- The leaf after firing (R257); none where a condition fails. -/
def fireOp (l : Leaf) (o : PressOp) : Option Leaf :=
  let mark := fun (l : Leaf) (ca cb : List Claim) =>
    initTiles (updPress l o.id fun x => { x with stage := .fired, claimA := ca, claimB := cb })
  match o.form with
  | .mma _ _ a b _ =>
    match claimOperand l a o.n with
    | none => none
    | some (ca, l1) => (claimOperand l1 b o.n).map fun r => mark r.2 ca r.1
  | .mmaz _ _ b _ => (claimOperand l b o.n).map fun r => mark r.2 [] r.1
  | _ => some (mark l [] [])

/-- An operation fires; none does once the spine has asked the run to stop (R276). -/
def execOperationFire (g id : Nat) (s : State) : Out :=
  let l := getLeaf s g
  match findPress l id with
  | none => .next s
  | some (trapQ, o) =>
    if stopping s g || o.stage != .queued || (earlierOps (queueOf l trapQ) id).any fun e => e.stage == .queued then .next s
    else
      match o.form with
      | .epi _ _ _ _ =>
        match freeStaging (getQuire s (quireOf g)) trapQ with
        | none => .next s
        | some n =>
          let s1 := updQuire s (quireOf g) fun q => { q with staging := mapPut q.staging n ⟨g, id, []⟩ }
          .next (updLeaf s1 g fun l => updPress l id fun x => { x with stage := .fired, slot := n })
      | _ =>
        match fireOp l o with
        | some l1 => .next (setLeaf s g l1)
        | none => .next s

/-- Where an operand's chunk of a pass lies. -/
def chunkAddr (x : PressSrc) (feed : Nat × Int) (claims : List Claim) (j : Nat) : Nat :=
  match x with
  | .feed _ => (feedChunk feed j).toNat
  | .buf _ => (claims.getD j ⟨none, 0⟩).addr

/-- The chunk of a pass, and its sheet refills (R164). -/
def readChunkAt (l : Leaf) (x : PressSrc) (feed : Nat × Int) (claims : List Claim) (j size : Nat) : List Byte :=
  sheetRead l (chunkAddr x feed claims j) size

/-- One pass of an operation on its accumulator. -/
def passResult (l : Leaf) (o : PressOp) (acc : List Nat) : List (Nat × Flags) :=
  let ctx := fmtCtx o.fmt
  let ca := fmtA o.fmt
  let cb := fmtB o.fmt
  match o.form with
  | .mma _ cell a b _ =>
    if cell = 3 then
      passBits ctx acc (readChunkAt l a o.feedA o.claimA o.pass 2048) (readChunkAt l b o.feedB o.claimB o.pass 2048)
    else
      passOperands (cellOf cell) ctx acc
        (decodeChunk ca ctx (readChunkAt l a o.feedA o.claimA o.pass (chunkBytes ca)))
        (decodeChunk cb ctx (readChunkAt l b o.feedB o.claimB o.pass (chunkBytes cb)))
  | .mmaz _ zs b _ =>
    let g := tilesPerPass o.fmt
    let ts := (List.range g).map fun i => tileList (getTile l (zs + o.pass * g + i))
    let rows := (List.range 32).map fun r => downRow ca ctx (ts.flatMap fun t => (t.drop (32 * r)).take 32)
    let fl := rows.foldl (fun (f : Flags) x => f ||| x.2) 0
    let rs := passOperands .mac ctx acc (rows.map Prod.fst)
      (decodeChunk cb ctx (readChunkAt l b o.feedB o.claimB o.pass (chunkBytes cb)))
    rs.map fun r => (r.1, r.2 ||| fl)
  | .accz _ => acc.map fun _ => (0, 0)
  | .accwr _ half d =>
    let h := if half then 512 else 0
    let ds := lanes d
    acc.mapIdx fun i x => (if h ≤ i && decide (i < h + 512) then ds.getD (i - h) 0 else x, 0)
  | .epi _ _ _ _ => acc.map fun x => (x, 0)

/-- The accumulator a pass starts from: the tile, or the cell's initial value at the first pass of ACC = 1 (R263). -/
def passStart (l : Leaf) (o : PressOp) (z : Nat) : List Nat :=
  match o.pass, o.initial with
  | 0, some t => t
  | _, _ => tileList (getTile l z)

/-- The sheets a pass touches (R164). -/
def passSheets (o : PressOp) : List Nat :=
  let one := fun (x : PressSrc) (feed : Nat × Int) (claims : List Claim) (size : Nat) =>
    sheetsOf (chunkAddr x feed claims o.pass) size
  match o.form with
  | .mma _ cell a b _ =>
    one a o.feedA o.claimA (operandChunk (cell == 3) (fmtA o.fmt))
      ++ one b o.feedB o.claimB (operandChunk (cell == 3) (fmtB o.fmt))
  | .mmaz _ _ b _ => one b o.feedB o.claimB (operandChunk false (fmtB o.fmt))
  | _ => []

/-- A fired EPI, not staged yet. -/
def PressOp.firedEpi (o : PressOp) : Bool :=
  match o.form, o.stage with
  | .epi _ _ _ _, .fired => true
  | _, _ => false

/-- The fired EPIs of a queue and what tile order has them wait for. -/
def epiNeeds (q : List PressOp) : List PressOp :=
  q.foldr (fun o need => if o.firedEpi || need.any o.bars then o :: need else need) []

/-- A request to stop lets a pass begin only where a fired EPI waits for it: R276 wants every fired EPI staged. DEDUCED: log entry 84. -/
def passAllowed (s : State) (g : Nat) (q : List PressOp) (id : Nat) : Bool :=
  !stopping s g || (epiNeeds q).any fun o => o.id == id

/-- The bytes a pass reads from sheet space. -/
def passRanges (o : PressOp) : Ranges :=
  let one := fun (x : PressSrc) (feed : Nat × Int) (claims : List Claim) (size : Nat) =>
    (chunkAddr x feed claims o.pass, size)
  match o.form with
  | .mma _ cell a b _ =>
    [one a o.feedA o.claimA (operandChunk (cell == 3) (fmtA o.fmt)), one b o.feedB o.claimB (operandChunk (cell == 3) (fmtB o.fmt))]
  | .mmaz _ _ b _ => [one b o.feedB o.claimB (operandChunk false (fmtB o.fmt))]
  | _ => []

/-- Lane by lane and bit by bit, one of two tiles. -/
def mixTiles (v w : Vec) (a b : List (Nat × Flags)) : List (Nat × Flags) :=
  (a.zip (b.zip (lanes v ++ lanes w))).map fun x => (x.1.1 &&& x.2.2 ||| x.2.1.1 &&& (x.2.2 ^^^ 0xFFFFFFFF), x.1.2)

/-- The lanes of a pass. Where its chunks are unpredictable, each bit is that of one of two results that the values present
give (R2, R163, R251, R260). DEDUCED: log entry 48. -/
def passLanes (l : Leaf) (o : PressOp) (acc : List Nat) (s : State) : List (Nat × Flags) × State :=
  let ws := (o.formers l).filter fun w => meets [(w.1, w.2.length)] (passRanges o)
  if ws.isEmpty then (passResult l o acc, s)
  else
    let (l1, s1) := mixedLeaf ws (passRanges o) l s
    let (l2, s2) := mixedLeaf ws (passRanges o) l s1
    let (v, s3) := takeFree s2
    let (w, s4) := takeFree s3
    (mixTiles v w (passResult l1 o acc) (passResult l2 o acc), s4)

/-- DEDUCED: log entry 57. -/
def execPressPass (g id : Nat) (s : State) : Out :=
  let l := getLeaf s g
  match findPress l id with
  | none => .next s
  | some (trapQ, o) =>
    match o.writes with
    | none => .next s
    | some z =>
      if o.stage != .fired || decide (o.n ≤ o.pass) || !tileOrder (queueOf l trapQ) o
          || !passAllowed s g (queueOf l trapQ) id then .next s
      else
        let (rs, s1) := passLanes l o (passStart l o z) (touchSheets s g (passSheets o) false)
        .next (updLeaf s1 g fun l =>
          initTiles (updPress (raiseEngineFlags (writeTile l z (tileOf (rs.map Prod.fst))) (joinResultFlags rs)) id
            fun x => { x with pass := x.pass + 1 }))
where
  joinResultFlags (rs : List (Nat × Flags)) : Flags := rs.foldl (fun a r => a ||| r.2) 0

/-! ### Epilogues (R267 to R269) -/

/-- Row length in bytes (R267). -/
def epiRowLen (out : Nat) : Nat := 32 * fmtWidth out / 8 + (if isBlkCode out then 2 else 0)

/-- The segments of an EPI's rows: virtual address, offset in the slot, length (R268). -/
def epiSegments (o : PressOp) : List (Nat × Nat × Nat) :=
  match o.form with
  | .epi _ _ addr stride =>
    let n := epiRowLen (fmtOut o.fmt)
    (List.range 32).flatMap fun r =>
      let a := (addr + BitVec.ofNat 64 r * stride).toNat
      (pageSplit a n).map fun p => (p.1 % 2 ^ 64, n * r + (p.1 - a), p.2)
  | _ => []

/-- DEDUCED: log entry 59. -/
def execEpiStage (g id : Nat) (s : State) : Out :=
  let l := getLeaf s g
  match findPress l id with
  | none => .next s
  | some (trapQ, o) =>
    match o.form with
    | .epi zs ti _ _ =>
      if o.stage != .fired || !tileOrder (queueOf l trapQ) o then .next s
      else
        let out := fmtOut o.fmt
        let rows := (splitRows 32 32 (tileList (getTile l zs))).map (convertRow ti out (fmtCtx o.fmt))
        let bs := rows.flatMap fun r => rowBytes out r.1 r.2.1
        let fl := rows.foldl (fun (f : Flags) r => f ||| r.2.2) 0
        let s1 := updQuire s (quireOf g) fun q => { q with staging := mapPut q.staging o.slot ⟨g, id, bs⟩ }
        .next (updLeaf s1 g fun l =>
          initTiles (updPress (raiseEngineFlags l fl) id fun x => { x with stage := .storing }))
    | _ => .next s

/-- A segment's store faults: it waits for the service, or the EPI is HELD and EPI_STORE raised (R269). -/
def epiFails (s : State) (g : Nat) (trapQ : Bool) (o : PressOp) (run : Run) (c : Cause) (va : Nat) : State :=
  match serviceFault s run g 1 va c with
  | some (idx, s1) =>
    updLeaf s1 g fun l => updPress l o.id fun x => { x with stage := .service idx c (BitVec.ofNat 64 va) }
  | none =>
    let s1 := updLeaf s g fun l => updPress l o.id fun x => { x with stage := .held }
    raiseAsync s1 g trapQ { cause := .epiStore, detail := c.code, unit := 1, obj := o.slot, async := true,
                            fva := BitVec.ofNat 64 va, op := o.id }

/-- Engine operations are translated after the leaf's earlier TLBINVs have performed (R360). -/
def tlbinvBefore (l : Leaf) (trapQ : Bool) (po : Nat) : Bool :=
  (if trapQ then l.tlog else l.olog).any fun e => e.op == .tlbinv && decide (e.po < po)

/-- Some access of the leaf older than an engine operation has not performed: the operation's stores come after it
(R218, R268); with a handler's, suspended ones are unordered (R334). -/
def olderAccess (l : Leaf) (trapQ : Bool) (po : Nat) : Bool :=
  (if trapQ then trapOrder l else l.olog).any fun e => !e.op.isMark && decide (e.po < po)

/-- A store of an engine is refused by the weight store and by KEYED pages. -/
def storeBars (t : Trans) : Bool := t.cache == 3 || t.keyed

def engineReader (s : State) (id g po gran : Nat) : Reader :=
  { obs := engineObs id g, clock := leafReadClock (getLeaf s g) g po, gran := gran, po := po, behind := some (g, po) }

/-- A write that the stores of an EPI or a SEWST are not ordered with: the leaf's later ones and those of operations issued
after it (R268, R291). -/
def storeRaces (g id po : Nat) (w : WriteRec) : Bool :=
  match engineOf w.obs with
  | some i => decide (id < i)
  | none => (w.obs == g || w.obs == remoteObs g) && decide (po < w.po)

def execEpiSegmentStore (g id : Nat) (useTlb : Bool) (s : State) : Out :=
  let l := getLeaf s g
  match findPress l id, leafRun s g with
  | some (trapQ, o), some run =>
    match (epiSegments o)[o.seg]? with
    | none => .next s
    | some (va, off, n) =>
      if o.stage != .storing || olderAccess l trapQ o.po then .next s
      else
        match translateSure s (engineReader s id g o.po 1) run.asid run.root useTlb va .w storeBars with
        | (.error c, s1) => .next (epiFails s1 g trapQ o run c va)
        | (.ok t, s1) =>
          if t.cache = 3 then .next (epiFails s1 g trapQ o run .access va)
          else if t.keyed then .next (epiFails s1 g trapQ o run .key va)
          else
            let bs := match mapFind (getQuire s1 (quireOf g)).staging o.slot with
              | some st => (st.bytes.drop off).take n
              | none => []
            let (m, s0) := mixPages s1 (storeRaces g id o.po) [((va, n), t)] bs
            let s2 := writePages s0 { obs := engineObs id g, po := 1 } [((va, n), t)] m
            .next (updLeaf s2 g fun l => updPress l id fun x => { x with seg := x.seg + 1 })
  | _, _ => .next s

/-! ### Completion (R258) -/

def freeClaims (l : Leaf) (x : PressSrc) (cs : List Claim) : Leaf :=
  match x with
  | .buf q => setBuf l q.toNat ((getBuf l q.toNat).freeEnts (cs.filterMap fun c => c.ent))
  | .feed _ => l

/-- The operation leaves its queue: claimed entries, staging slot, then the token. -/
def completePress (s : State) (g : Nat) (o : PressOp) : State :=
  let s1 := updLeaf s g fun l =>
    let l1 := match o.form with
      | .mma _ _ a b _ => freeClaims (freeClaims l a o.claimA) b o.claimB
      | .mmaz _ _ b _ => freeClaims l b o.claimB
      | _ => l
    let l2 := { l1 with pq := l1.pq.filter fun x => x.id != o.id, tq := l1.tq.filter fun x => x.id != o.id }
    match o.writes with
    | some z => trimTile l2 z
    | none => l2
  let s2 := match o.form with
    | .epi _ _ _ _ => updQuire s1 (quireOf g) fun q => { q with staging := mapDel q.staging o.slot }
    | _ => s1
  postOpt s2 g o.tok [(engineObs o.id g, 1)]

/-- An earlier operation of the leaf that writes the same tile is still to complete (R249, R259). -/
def completesLater (l : Leaf) (o : PressOp) : Bool :=
  o.writes.isSome && (l.pq ++ l.tq).any fun e => decide (e.id < o.id) && e.writes == o.writes

def execOperationComplete (g id : Nat) (s : State) : Out :=
  match findPress (getLeaf s g) id with
  | none => .next s
  | some (_, o) =>
    match o.form with
    | .epi _ _ _ _ =>
      if o.stage == .storing && decide ((epiSegments o).length ≤ o.seg) then .next (completePress s g o) else .next s
    | _ => if o.finished && !completesLater (getLeaf s g) o then .next (completePress s g o) else .next s

/-- What RTE's choice does to a HELD EPI (R269, R335). -/
def retryEpi (s : State) (g id : Nat) (retry : Bool) : State :=
  match findPress (getLeaf s g) id with
  | some (_, o) =>
    if o.stage != .held then s
    else if retry then updLeaf s g fun l => updPress l id fun x => { x with stage := .storing }
    else completePress s g o
  | none => s

end Sys2Proof.Machine
end

