-- ==== Sys2Proof/Machine/Sewing.lean ====
section
/-! DEFINITION. The sewing unit (R277 to R296): configuration, the pre-check, the queue, steps column by column, and
stores of the boundary. -/

namespace Sys2Proof.Machine

/-! ### Shapes (R278, R280) -/

/-- A shape with its type and current region. -/
structure SewShape where
  nb : Nat
  p : Nat
  u : Nat
  d : Nat
  it : Bool
  cur : Bool
  deriving DecidableEq, Repr

def shapeOf (w : Word) : SewShape :=
  { nb := (w.extractLsb' 48 16).toNat, p := (w.extractLsb' 32 16).toNat, u := (w.extractLsb' 16 16).toNat,
    d := (w.extractLsb' 4 12).toNat, it := w.getLsbD 1, cur := w.getLsbD 0 }

def SewShape.word (x : SewShape) : Word :=
  BitVec.ofNat 64 (x.nb % 65536 * 2 ^ 48 + x.p % 65536 * 2 ^ 32 + x.u % 65536 * 2 ^ 16 + x.d % 4096 * 16
    + (if x.it then 2 else 0) + (if x.cur then 1 else 0))

def SewShape.bytes (x : SewShape) : Nat := 4 * x.nb * x.p * x.u * x.d

/-- Some field is zero or above 32,768 (R280, R292). -/
def SewShape.bad (x : SewShape) : Bool :=
  x.nb == 0 || x.p == 0 || x.u == 0 || x.d == 0 || decide (32768 < x.nb) || decide (32768 < x.p)
    || decide (32768 < x.u)

/-- The shape a step leaves (R282). -/
def SewShape.after (x : SewShape) (st : SewStep) (it : Bool) : SewShape :=
  { x with p := x.p * st.n, u := x.u / st.m, d := st.dn, it := it, cur := !x.cur }

def pairIsInt (fmt : BitVec 32) : Bool := isIntCode (fmtA fmt)

/-! ### The pre-check (R284) -/

/-- REASON and NEED of the first condition a step fails. -/
def stepFails (x : SewShape) (st : SewStep) (cap : Nat) : Option (Nat × Nat) :=
  if st.dc != x.d then some (2, 0)
  else if x.u % st.m != 0 then some (3, 0)
  else if 32768 < x.p * st.n then some (4, 0)
  else
    let need := 4 * x.nb * (x.p * st.n) * (x.u / st.m) * st.dn
    if cap < need then some (1, need) else none

def sewFaultWord (reason step need : Nat) : Word :=
  BitVec.ofNat 64 (reason * 2 ^ 40 + step % 64 * 2 ^ 34 + min need 0xFFFFFFFF)

/-- The trap of the first failing step, or the shape after the last. -/
def preCheck (cap : Nat) (it : Bool) : List SewStep → Nat → SewShape → Except Trap SewShape
  | [], _, x => .ok x
  | st :: r, i, x =>
    match stepFails x st cap with
    | some (reason, need) => .error { mTrap .boundaryOverflow with sewFault := sewFaultWord reason i need }
    | none => preCheck cap it r (i + 1) (x.after st it)

/-! ### Issue -/

/-- The sewing queue is full (R286). -/
def sewFull (s : State) : Bool := decide (8 ≤ s.leaf.sewq.length)

def bondStep (l : Leaf) (fold : Word) (m n bl br : Nat) (back : Bool) : SewStep :=
  let a := (readBond l bl).toNat
  let b := (readBond l br).toNat
  ⟨fold, m, n, if back then b else a, if back then a else b, back⟩

/-- Rows 2 and 3 of R292 for a step. -/
def sewPairCause (fmt : BitVec 32) : Option Trap :=
  match pairCause fmt with
  | some t => some t
  | none => if isBlkCode (fmtA fmt) || isBlkCode (fmtB fmt) then some (mTrap .illegalFmt) else none

def unconfigured (l : Leaf) : Option Trap := if l.sewCfg.cap = 0 then some (mTrap .illegalOp) else none

def foldAlign (sts : List SewStep) : Option Trap :=
  match sts.find? fun st => st.fold.toNat % 64 != 0 with
  | some st => some (slotTrap .align .m 0 st.fold)
  | none => none

def preCheckCause (l : Leaf) (sts : List SewStep) : Option Trap :=
  match preCheck l.sewCfg.cap (pairIsInt l.fmt) sts 0 (shapeOf l.sewShape) with
  | .error t => some t
  | .ok _ => none

def sewSteps (f : MSew) (l : Leaf) : List SewStep :=
  [bondStep l (readS l f.sa) (f.m.toNat + 1) (f.n.toNat + 1) f.bl.toNat f.br.toNat f.dir]

def sewCause (f : MSew) (s : State) : Option Trap :=
  let l := s.leaf
  firstOf [sewPairCause l.fmt, unconfigured l, foldAlign (sewSteps f l), preCheckCause l (sewSteps f l)]
where
  firstOf : List (Option Trap) → Option Trap
    | [] => none
    | some t :: _ => some t
    | none :: r => firstOf r

/-- One step of a sewing program, and whether a reserved bit of it is set (R290). -/
def progStep (l : Leaf) (b : List Byte) : SewStep × Bool :=
  let at_ := fun i => (b.getD i 0).toNat
  let bad := decide (32 ≤ at_ 8) || decide (32 ≤ at_ 9) || decide (2 ≤ at_ 11) || (b.drop 12).any fun x => x != 0
  (bondStep l (BitVec.ofNat 64 (bytesNat (b.take 8))) (at_ 8 % 32 + 1) (at_ 9 % 32 + 1) (at_ 10 % 16) (at_ 10 / 16)
    (at_ 11 % 2 == 1), bad)

def sewrunShape (f : MSew2) (l : Leaf) : Nat × Nat := ((readS l f.sa).toNat, (readS l f.sb).toNat % 2 ^ 32)

/-- The steps of a program, the first `n` of them. -/
def progStepsOf (l : Leaf) : Nat → List Byte → List (SewStep × Bool)
  | 0, _ => []
  | n + 1, b => progStep l (b.take 16) :: progStepsOf l n (b.drop 16)

/-- The steps of a program. -/
def progSteps (l : Leaf) (b : List Byte) : List (SewStep × Bool) := progStepsOf l (b.length / 16) b

/-- Reads the program that lies in sheet space, as a P-slot load does; the issue of a bundle has read it before any of its
operations takes effect (R290). -/
def readProgram (f : MSew2) (s : State) : List Byte × State :=
  match s.prog with
  | some b => (b, { s with prog := none })
  | none =>
    let (off, cnt) := sewrunShape f s.leaf
    let n := 16 * min cnt ((sheetSize - off) / 16)
    let s1 := blurred [(off, n)] s
    (sheetRead s1.leaf off n, { s with free := s1.free })

/-- A SEWRUN with a program beyond sheet space traps by its offset though its count be 0. DESIGN CHOICE: log entry 92. -/
def sewrunCause (f : MSew2) (s : State) : Option Trap :=
  let (off, cnt) := sewrunShape f s.leaf
  let l := s.leaf
  match sewCause.firstOf [sewPairCause l.fmt, unconfigured l, if off % 16 != 0 then some (alignTrap 6) else none] with
  | some t => some t
  | none =>
    let ps := progSteps l (readProgram f s).1
    let sts := ps.map Prod.fst
    sewCause.firstOf [foldAlign sts, if sheetSize < off + 16 * cnt then some (mTrap .sheetBounds) else none,
      if decide (64 < cnt) || ps.any Prod.snd then some (mTrap .illegalOp) else none, preCheckCause l sts]

/-- Enters a sewing operation with what it captures (R286). -/
def enterSew (s : State) (form : SewForm) (tok : Option Nat) : State :=
  let (id, s1) := fresh s
  s1.upd fun l =>
    let o : SewOp :=
      { id := id, form := form, fmt := l.fmt, tok := tok, r0 := l.sewCfg.r0, r1 := l.sewCfg.r1, cap := l.sewCfg.cap,
        shape := l.sewShape, step := 0, col := 0, fold := none, seg := 0, held := false, service := none, po := l.po,
        taint := [], lap := [] }
    { l with sewq := l.sewq ++ [o], po := l.po + 1 }

/-- The shape that steps leave, one after the other (R285). -/
def shapeAfter (it : Bool) (sts : List SewStep) (x : SewShape) : SewShape := sts.foldl (fun y st => y.after st it) x

/-- Enters steps and moves the issue-side shape to what they leave (R285). -/
def issueSteps (s : State) (sts : List SewStep) (tok : Option Nat) : State :=
  (enterSew s (.steps sts) tok).upd fun l =>
    { l with sewShape := (shapeAfter (pairIsInt s.leaf.fmt) sts (shapeOf s.leaf.sewShape)).word }

def sewEffect (f : MSew) (s : State) : State := issueSteps s (sewSteps f s.leaf) (tokOf f.kt f.tk)

/-- SEWRUN reads its program as a P-slot load does (R290). -/
def sewrunEffect (f : MSew2) (s : State) : State :=
  let (off, cnt) := sewrunShape f s.leaf
  let (b, s1) := readProgram f s
  issueSteps (touchSheets s1 s1.cur (sheetsOf off (16 * cnt)) false) ((progSteps s.leaf b).map Prod.fst) (tokOf f.kt f.tk)

/-- Elements of one batch row. -/
def rowElems (x : SewShape) : Nat := x.p * x.u * x.d

def sewstCause (f : MSew2) (s : State) : Option Trap :=
  let l := s.leaf
  let out := fmtOut l.fmt
  let r := rowElems (shapeOf l.sewShape)
  sewCause.firstOf [if emulCode out then some (mTrap .formatEmul) else none, unconfigured l,
    if (readS l f.sa).toNat % 16 != 0 then some (slotTrap .align .m 0 (readS l f.sa)) else none,
    if (readS l f.sb).toNat % 16 != 0 then some (alignTrap 6) else none,
    if isBlkCode out && r % 32 != 0 || fmtWidth out == 4 && r % 2 != 0 then some (mTrap .illegalOp) else none]

def sewstEffect (f : MSew2) (s : State) : State :=
  enterSew s (.store (readS s.leaf f.sa) (readS s.leaf f.sb)) (tokOf f.kt f.tk)

def execSew (f : MSew) (s : State) : Out := runFrozen (.sew f) (sewCause f) sewFull (sewEffect f) s
def execSewrun (f : MSew2) (s : State) : Out := runFrozen (.sewrun f) (sewrunCause f) sewFull (sewrunEffect f) s
def execSewst (f : MSew2) (s : State) : Out := runFrozen (.sewst f) (sewstCause f) sewFull (sewstEffect f) s

/-! ### SEWCFG and BONDSET (R281, R289) -/

def sewcfgParts (f : MSewcfg) (l : Leaf) : SewCfg × SewShape :=
  let w := readS l f.sd
  (⟨(readS l f.sa).toNat, (readS l f.sb).toNat, (readS l f.sc).toNat % 2 ^ 32⟩,
   { shapeOf w with cur := false })

def sewcfgCause (f : MSewcfg) (s : State) : Option Trap :=
  let l := s.leaf
  let (c, x) := sewcfgParts f l
  if c.cap = 0 then none
  else if c.r0 % 64 != 0 || c.r1 % 64 != 0 || c.cap % 64 != 0 then some (alignTrap 6)
  else if decide (sheetSize < c.r0 + c.cap) || decide (sheetSize < c.r1 + c.cap) then some (mTrap .sheetBounds)
  else if decide (131072 < c.cap) || overlap c.r0 c.cap c.r1 c.cap || x.bad
      || decide (12 < (pinnedSheets { l with sewCfg := c }).length)
  then some (mTrap .illegalOp)
  else if c.cap < x.bytes then some { mTrap .boundaryOverflow with sewFault := sewFaultWord 1 0 x.bytes }
  else none

/-- Bytes of a leaf's sheet space that become unpredictable: each bit stays, or is as `ws` has it (R2). DEDUCED: log entry 61. -/
def mixSheet (s : State) (g : Nat) (ws : Formers) (a n : Nat) : State :=
  if ws.isEmpty then s
  else
    let (b, s1) := mixFormers ws a (sheetRead (getLeaf s g) a n) s
    updLeaf s1 g fun l => sheetWrite l a b

/-- The ranges common to two regions and what queued operations captured. -/
def capturedOverlaps (l : Leaf) (c : SewCfg) : List (Nat × Nat) :=
  l.sewq.flatMap fun o =>
    ([o.r0, o.r1].flatMap fun a => [c.r0, c.r1].map fun b => (max a b, min (a + o.cap) (b + c.cap))).filterMap
      fun r => if r.1 < r.2 then some (r.1, r.2 - r.1) else none

/-- SEWCFG; bytes of new regions that queued operations captured are unpredictable in both boundaries while those operations
are at work (R289). -/
def sewcfgEffect (f : MSewcfg) (s : State) : State :=
  let (c, x) := sewcfgParts f s.leaf
  if c.cap = 0 then s.upd fun l => { l with sewCfg := ⟨0, 0, 0⟩ }
  else
    let s1 := s.upd fun l =>
      { l with
        sewCfg := c, sewShape := x.word
        sewq := l.sewq.map fun o => { o with lap := o.lap ++ capturedOverlaps { l with sewq := [o] } c } }
    touchSheets s1 s1.cur (sheetsOf c.r0 c.cap ++ sheetsOf c.r1 c.cap) false

def bondValue (f : MBond) (l : Leaf) : Nat := if f.reg then (readS l f.sa).toNat % 65536 else f.imm.toNat

def bondsetCause (f : MBond) (s : State) : Option Trap :=
  if bondValue f s.leaf = 0 || decide (4095 < bondValue f s.leaf) then some (mTrap .illegalOp) else none

def bondsetEffect (f : MBond) (s : State) : State :=
  s.upd fun l => { l with bonds := mapSet l.bonds f.bn.toNat 1 (BitVec.ofNat 12 (bondValue f l)) }

def execSewcfg (f : MSewcfg) (s : State) : Out := runOp (.sewcfg f) (sewcfgCause f) noWait (sewcfgEffect f) s
def execBondset (f : MBond) (s : State) : Out := runOp (.bondset f) (bondsetCause f) noWait (bondsetEffect f) s

/-! ### Steps (R277, R282) -/

def updHead (l : Leaf) (f : SewOp → SewOp) : Leaf :=
  match l.sewq with
  | o :: r => { l with sewq := f o :: r }
  | [] => l

def leftBond (st : SewStep) : Nat := if st.back then st.dn else st.dc
def rightBond (st : SewStep) : Nat := if st.back then st.dc else st.dn

/-- The bytes that a column's elements take, and the bytes a column occupies (R277). -/
def columnBytes (fmt : BitVec 32) (st : SewStep) : Nat := (leftBond st * st.m * fmtWidth (fmtB fmt) + 7) / 8
def columnSize (fmt : BitVec 32) (st : SewStep) : Nat := (columnBytes fmt st + 63) / 64 * 64

/-- Columns of a fold, and columns that one group of passes needs: a forward step takes one at a time, a backward step
all those of one output digit. -/
def columnCount (st : SewStep) : Nat := st.n * rightBond st
def groupSize (st : SewStep) : Nat := if st.back then rightBond st else 1

def SewOp.current (o : SewOp) : Option SewStep :=
  match o.form with
  | .steps l => l[o.step]?
  | .store _ _ => none

/-- Columns of the present group that have been read. -/
def readColumns (o : SewOp) (st : SewStep) : Nat := ((o.fold.map List.length).getD 0) / max 1 (columnBytes o.fmt st)

def regionBase (o : SewOp) (second : Bool) : Nat := if second then o.r1 else o.r0

/-- The elements of one column as they are read in FMT.B. -/
def columnOperand (fmt : BitVec 32) (b : List Byte) (n : Nat) : Operand :=
  let c := fmtB fmt
  let es := splitNat (fmtWidth c) n (bytesNat b)
  match fmtOf c with
  | .flt f => .nums (es.map (readFloat f (fmtCtx fmt)))
  | .int i => .ints (es.map (intValue i))
  | _ => .ints []

/-- Elements of an operand picked by index. -/
def pickOperand (o : Operand) (is : List Nat) : Operand :=
  match o with
  | .nums l => .nums (is.map fun i => l.getD i .nan)
  | .ints l => .ints (is.map fun i => l.getD i 0)

def joinOperands : List Operand → Operand
  | [] => .ints []
  | [o] => o
  | o :: r =>
    match o, joinOperands r with
    | .nums a, .nums b => .nums (a ++ b)
    | .ints a, .ints b => .ints (a ++ b)
    | x, _ => x

/-- One boundary element through Convert into FMT.A: its code and flags (R278, R282). -/
def boundaryCode (fmt : BitVec 32) (x : Nat) : Nat × Flags :=
  if pairIsInt fmt then convertInt (fmtA fmt) (fmtCtx fmt) (intValue ⟨32, true⟩ x)
  else convertNum (fmtA fmt) (fmtCtx fmt) (readFloat fp32 (fmtCtx fmt) x)

def codesOperand (fmt : BitVec 32) (es : List Nat) : Operand :=
  match fmtOf (fmtA fmt) with
  | .flt f => .nums (es.map (readFloat f (fmtCtx fmt)))
  | .int i => .ints (es.map (intValue i))
  | _ => .ints []

/-- Chunks of `k` terms, ascending, each added to the accumulator and delivered (R92, R93). -/
def sewChunks (ctx : FCtx) (k : Nat) : Nat → Nat → Operand → Operand → Flags → Nat × Flags
  | 0, acc, _, _, fl => (acc, fl)
  | fuel + 1, acc, x, y, fl =>
    let cut := fun (o : Operand) => match o with
      | .nums l => (Operand.nums (l.take k), Operand.nums (l.drop k), l.length)
      | .ints l => (Operand.ints (l.take k), Operand.ints (l.drop k), l.length)
    let (x0, x1, n) := cut x
    let (y0, y1, _) := cut y
    if n = 0 then (acc, fl)
    else
      let (v, f1) := operandCell .mac ctx acc x0 y0
      sewChunks ctx k fuel v x1 y1 (fl ||| f1)

/-- Offset of an element of a boundary (R278). -/
def elemOffset (x : SewShape) (a p u b : Nat) : Nat := 4 * (((a * x.p + p) * x.u + u) * x.d + b)

/-- The outputs a group of columns gives: (a, p', u', β') with the fold side of each (R282). `g` is the group. -/
def groupFolds (st : SewStep) (g : Nat) (cols : List Operand) : List (Nat × Nat × Operand) :=
  if st.back then
    (List.range st.dn).map fun b =>
      (g, b, joinOperands (cols.map fun c => pickOperand c ((List.range st.m).map fun i => b * st.m + i)))
  else [(g / max 1 st.dn, g % max 1 st.dn, cols.headD (.ints []))]

/-- The boundary elements that output digit `j` at (a, p, u') takes, in order of κ. DEDUCED: log entry 60. -/
def contracted (x : SewShape) (st : SewStep) (a p u' : Nat) : List Nat :=
  (List.range (st.dc * st.m)).map fun k =>
    let b := k / st.m
    let i := k % st.m
    let u := if st.back then u' * st.m + i else i * (x.u / st.m) + u'
    elemOffset x a p u b

/-- The new elements of one group: offset, value and flags. -/
def groupOutputs (l : Leaf) (o : SewOp) (st : SewStep) (g : Nat) (cols : List Operand) : List (Nat × Nat × Flags) :=
  let x := shapeOf o.shape
  let y := x.after st (pairIsInt o.fmt)
  let base := regionBase o x.cur
  let ctx := fmtCtx o.fmt
  (groupFolds st g cols).flatMap fun (j, b', fold) =>
    (List.range x.nb).flatMap fun a => (List.range x.p).flatMap fun p => (List.range y.u).map fun u' =>
      let cs := (contracted x st a p u').map fun off => boundaryCode o.fmt (bytesNat (sheetRead l (base + off) 4))
      let fl := cs.foldl (fun (f : Flags) c => f ||| c.2) 0
      let (v, f2) := sewChunks ctx (kPerPass (fmtA o.fmt)) cs.length 0 (codesOperand o.fmt (cs.map Prod.fst)) fold fl
      let p' := if st.back then j * x.p + p else p * st.n + j
      (regionBase o y.cur + elemOffset y a p' u' b', v, f2)

/-- The columns read for the present group. -/
def groupColumns (o : SewOp) (st : SewStep) : List Operand :=
  (splitRows (columnBytes o.fmt st) (groupSize st) (o.fold.getD [])).map
    fun b => columnOperand o.fmt b (leftBond st * st.m)

/-- The bytes that a later configuration shares with the operation's regions keep, bit by bit, what they held or take what the
operation writes (R289, R2); `old` is the leaf before. -/
def mixShared (s : State) (g : Nat) (o : SewOp) (old : Leaf) : State :=
  o.lap.foldl (fun s r => mixSheet s g [(r.1, sheetRead old r.1 r.2)] r.1 r.2) s

/-- Where the step at work leaves its boundary: first byte and length. -/
def SewOp.target (o : SewOp) (st : SewStep) : Nat × Nat :=
  let y := (shapeOf o.shape).after st (pairIsInt o.fmt)
  (regionBase o y.cur, y.bytes)

/-- A step begins to write its boundary: the leaf may find what was there before until it observes the completion (R218). -/
def startBoundary (l : Leaf) (g : Nat) (o : SewOp) (st : SewStep) : Leaf :=
  let (a, n) := o.target st
  if o.col = 0 then
    { l with wet := ⟨engineObs o.id g, a, sheetRead l a n, true⟩ :: l.wet.filter (Wet.unseen l g) }
  else l

/-- The boundary of a step that has made its last pass, mixed with what P-slot stores have left there (R279). -/
def finishBoundary (s : State) (g : Nat) (o : SewOp) (st : SewStep) : State :=
  let w := ((shapeOf o.shape).after st (pairIsInt o.fmt)).word
  updLeaf (mixSheet s g o.taint (o.target st).1 (o.target st).2) g fun l => updHead { l with sewLast := some w } fun o =>
    { o with step := o.step + 1, col := 0, fold := none, shape := w }

/-- The passes of one group of columns. -/
def sewGroup (s : State) (g : Nat) (o : SewOp) (st : SewStep) : State :=
  let x := shapeOf o.shape
  let old := getLeaf s g
  let (src, s0) := mixedLeaf o.taint [(regionBase o x.cur, x.bytes)] old (touchSheets s g (sheetsOf (regionBase o x.cur) x.bytes) false)
  let outs := groupOutputs src o st (o.col / max 1 (groupSize st)) (groupColumns o st)
  let fl := outs.foldl (fun (f : Flags) x => f ||| x.2.2) 0
  let (a, n) := o.target st
  let s1 := updLeaf (touchSheets s0 g (sheetsOf a n) true) g fun l =>
    outs.foldl (fun l c => sheetWrite l c.1 (natBytes c.2.1 4)) (raiseEngineFlags (startBoundary l g o st) fl)
  let s2 := mixShared s1 g o old
  let done := o.col + groupSize st
  if columnCount st ≤ done then finishBoundary s2 g o st
  else updLeaf s2 g fun l => updHead l fun o => { o with col := done, fold := none }

/-- The operation at the head may act. -/
def sewActive (l : Leaf) : Option SewOp :=
  match l.sewq with
  | o :: _ => if o.held || o.service.isSome then none else some o
  | [] => none

/-- No pass begins once the leaf's cluster is asked to stop (R276, R295). -/
def execSewStepPass (g : Nat) (s : State) : Out :=
  match sewActive (getLeaf s g) with
  | none => .next s
  | some o =>
    match o.current with
    | none => .next s
    | some st =>
      if stopping s g then .next s else .next (if readColumns o st = groupSize st then sewGroup s g o st else s)

/-! ### Faults (R293) -/

/-- The destination boundary of a step that stopped holds, bit by bit, what it has written or what stood there before. -/
def spoilDest (s : State) (g : Nat) (o : SewOp) : State :=
  match o.current with
  | none => s
  | some st =>
    let was := ((getLeaf s g).wet.filter fun w => w.sew && w.obs == engineObs o.id g && decide (w.off = (o.target st).1)).take 1
    if o.col = 0 then s else mixSheet s g (was.map fun w => (w.off, w.old)) (o.target st).1 (o.target st).2

/-- A fault of a fold read or a store is reported: the queue holds until the handler returns. -/
def sewReport (s : State) (g : Nat) (o : SewOp) (c : Cause) (fva : Word) : State :=
  let s1 := updLeaf (spoilDest s g o) g fun l => updHead l fun x => { x with held := true, service := none }
  raiseAsync s1 g false { cause := c, unit := 2, async := true, fva := fva, op := o.id }

/-- The fault enters the service, where the run's policy is SERVICE, or is reported (R361). -/
def sewFails (s : State) (g : Nat) (o : SewOp) (run : Run) (c : Cause) (va : Nat) : State :=
  match serviceFault s run g 2 va c with
  | some (idx, s1) => updLeaf s1 g fun l => updHead l fun x => { x with service := some (idx, c, BitVec.ofNat 64 va) }
  | none => sewReport s g o c (BitVec.ofNat 64 va)

/-- Every access of the leaf before the operation has performed (R218). -/
def sewReadsNow (l : Leaf) (o : SewOp) : Bool := l.olog.all fun e => e.op.isMark || decide (o.po ≤ e.po)

/-- The newest write of a byte does not come before the reader. -/
def newestRaces (s : State) (r : Reader) (k : Nat) : Bool :=
  (s.hist.find? fun w => w.covers k).any fun w => !(decide (w.po ≤ mapGet r.clock w.obs 0) && w.po != 0)

/-- A byte of a column was being written: its newest write does not come before the operation (R213, R296). -/
def columnRaces (s : State) (r : Reader) (ps : List ((Nat × Nat) × Trans)) : Bool :=
  ps.any fun x => (pieces x.2.pa x.1.2).any fun p =>
    let k := memKey x.2.pkg (canonAddr p.1)
    (s.hist.any fun w => overlap w.key w.bytes.length k p.2) && (List.range p.2).any fun i => newestRaces s r (k + i)

/-- The translations of a fold column's pages; a page outside the weight store that a cached translation gives is confirmed by a
fresh walk (R353). -/
def foldTrans (s : State) (r : Reader) (run : Run) (useTlb : Bool) (ps : List (Nat × Nat)) :
    Except (Cause × Nat) (List Trans) × State :=
  match translateAll s r run.asid run.root useTlb .r ps with
  | (.ok ts, s1) =>
    if useTlb && ts.any fun t => t.cache != 3 then translateAll s1 r run.asid run.root false .r ps else (.ok ts, s1)
  | (.error e, s1) => (.error e, s1)

/-- The bytes of a column: where they were being written, each bit is that of one of two reads of it (R2, R296). -/
def readColumn (s : State) (r : Reader) (ps : List ((Nat × Nat) × Trans)) : List Byte × State :=
  let (b, _, s1) := readPages s r ps
  if columnRaces s r ps then
    let (c, _, s2) := readPages s1 r ps
    mixBytes (b.length / 2048 + 1) b c s2
  else (b, s1)

/-- One read of a fold column; every page of it is walked before any is tested for weight store (R293). DESIGN CHOICE: log
entry 110. -/
def execFoldColumnRead (g : Nat) (useTlb : Bool) (s : State) : Out :=
  let l := getLeaf s g
  match sewActive l, leafRun s g with
  | some o, some run =>
    match o.current with
    | none => .next s
    | some st =>
      if stopping s g || !(decide (readColumns o st < groupSize st) && sewReadsNow l o) then .next s
      else
        let va := st.fold + BitVec.ofNat 64 ((o.col + readColumns o st) * columnSize o.fmt st)
        let ps := pageSplit va.toNat (columnBytes o.fmt st)
        match foldTrans s (engineReader s o.id g o.po 1) run useTlb ps with
        | (.error (c, a), s1) => .next (sewFails s1 g o run c a)
        | (.ok ts, s1) =>
          match (ps.zip ts).find? fun x => x.2.cache != 3 with
          | some x => .next (sewFails s1 g o run .access (x.1.1 % 2 ^ 64))
          | none =>
            let r := engineReader s1 o.id g o.po 1
            let (b, s2) := readColumn s1 r (ps.zip ts)
            .next (updLeaf s2 g fun l => updHead l fun o => { o with fold := some (o.fold.getD [] ++ b) })
  | _, _ => .next s

/-! ### SEWST (R291) -/

/-- One row's bytes and flags. -/
def sewRow (l : Leaf) (o : SewOp) (a : Nat) : List Byte × Flags :=
  let x := shapeOf o.shape
  let n := rowElems x
  let raw := sheetRead l (regionBase o x.cur + 4 * n * a) (4 * n)
  let out := fmtOut o.fmt
  let (es, ws, fl) := convertRow x.it out (fmtCtx o.fmt) (splitNat 32 n (bytesNat raw))
  (rowBytes out es ws, fl)

def sewRowLen (o : SewOp) : Nat :=
  let n := rowElems (shapeOf o.shape)
  let out := fmtOut o.fmt
  n * fmtWidth out / 8 + (if isBlkCode out then n / 32 * 2 else 0)

/-- The segments of a SEWST: row, offset in the row, virtual address, length. -/
def sewSegments (o : SewOp) : List (Nat × Nat × Nat × Nat) :=
  match o.form with
  | .store addr stride =>
    (List.range (shapeOf o.shape).nb).flatMap fun r =>
      let a := (addr + BitVec.ofNat 64 r * stride).toNat
      (pageSplit a (sewRowLen o)).map fun p => (r, p.1 - a, p.1 % 2 ^ 64, p.2)
  | .steps _ => []

/-- Flags of every row of a SEWST; one that is abandoned raises none of them, of which the spec does not speak (R88, R293). DESIGN CHOICE: log entry 87. -/
def sewStoreFlags (l : Leaf) (o : SewOp) : Flags :=
  match o.form with
  | .store _ _ => (List.range (shapeOf o.shape).nb).foldl (fun (f : Flags) a => f ||| (sewRow l o a).2) 0
  | .steps _ => 0

def execSewstSegmentStore (g : Nat) (useTlb : Bool) (s : State) : Out :=
  let l := getLeaf s g
  match sewActive l, leafRun s g with
  | some o, some run =>
    match (sewSegments o)[o.seg]? with
    | none => .next s
    | some (r, off, va, n) =>
      if stopping s g || olderAccess l false o.po then .next s
      else
        match translateSure s (engineReader s o.id g o.po 1) run.asid run.root useTlb va .w storeBars with
        | (.error c, s1) => .next (sewFails s1 g o run c va)
        | (.ok t, s1) =>
          if t.cache = 3 then .next (sewFails s1 g o run .access va)
          else if t.keyed then .next (sewFails s1 g o run .key va)
          else
            let src := shapeOf o.shape
            let s2 := touchSheets s1 g (sheetsOf (regionBase o src.cur) src.bytes) false
            let (x, s3) := mixedLeaf o.taint [(regionBase o src.cur, src.bytes)] (getLeaf s2 g) s2
            let b := ((sewRow x o r).1.drop off).take n
            let (m, s4) := mixPages s3 (storeRaces g o.id o.po) [((va, n), t)] b
            let s5 := writePages s4 { obs := engineObs o.id g, po := 1 } [((va, n), t)] m
            .next (updLeaf s5 g fun l => updHead l fun o => { o with seg := o.seg + 1 })
  | _, _ => .next s

/-! ### Completion (R287, R293) -/

/-- All steps made, or all segments stored. -/
def SewOp.made (o : SewOp) : Bool :=
  match o.form with
  | .steps l => decide (l.length ≤ o.step)
  | .store _ _ => decide ((sewSegments o).length ≤ o.seg)

/-- What the operation's completion makes visible to its leaf: every earlier step's boundary as well (R287). -/
def sewDone (l : Leaf) (g : Nat) (o : SewOp) : Clock :=
  (l.wet.filter fun w => w.sew).foldl (fun c w => clockJoin c [(w.obs, 1)]) [(engineObs o.id g, 1)]

/-- Takes the head off the queue and posts its token. -/
def leaveSew (s : State) (g : Nat) (o : SewOp) : State :=
  postOpt (updLeaf s g fun l => { l with sewq := l.sewq.filter fun x => x.id != o.id }) g o.tok (sewDone (getLeaf s g) g o)

def execSewingOpComplete (g : Nat) (s : State) : Out :=
  let l := getLeaf s g
  match sewActive l with
  | none => .next s
  | some o =>
    if o.made then .next (leaveSew (lastStores (updLeaf s g fun l => raiseEngineFlags l (sewStoreFlags l o)) g o) g o) else .next s
where
  /-- What P-slot stores have left in the boundary since the last step's passes (R279). -/
  lastStores (s : State) (g : Nat) (o : SewOp) : State :=
    match o.form with
    | .steps (_ :: _) => mixSheet s g o.taint (regionBase o (shapeOf o.shape).cur) (shapeOf o.shape).bytes
    | _ => s

/-- RTE's choice for a held sewing queue (R293, R335). An abandonment sets SEW_SHAPE to what the last step that completed left,
be it of an earlier SEWCFG; the spec names nothing else, and where no step of the run has completed the shape is the one
that the faulted operation captured. DESIGN CHOICE: log entry 87. -/
def retrySew (s : State) (g id : Nat) (retry : Bool) : State :=
  let l := getLeaf s g
  match l.sewq with
  | o :: _ =>
    if o.id != id || !o.held then s
    else if retry then
      updLeaf s g fun l => updHead l fun x => { x with held := false, col := 0, fold := none }
    else l.sewq.foldl (fun s o => leaveSew s g o) (updLeaf s g fun l => { l with sewShape := l.sewLast.getD o.shape })
  | [] => s

end Sys2Proof.Machine
end

