-- ==== Sys2Proof/Machine/Aes.lean ====
section
/-! DEFINITION. AES-256 (FIPS 197) and the XTS mode of IEEE 1619, which R200 names. Bytes are naturals below 256. -/

namespace Sys2Proof.Machine

/-- Multiplication by x in the field of AES. -/
def xtime (a : Nat) : Nat := if a < 128 then 2 * a else (2 * a) % 256 ^^^ 0x1B

/-- The product in the field of AES, over the low `n` bits of `b`. -/
def gfMul (a b : Nat) : Nat → Nat
  | 0 => 0
  | n + 1 => (if b % 2 = 1 then a else 0) ^^^ gfMul (xtime a) (b / 2) n

def gfSquare (a : Nat) : Nat := gfMul a a 8

/-- a^(2^n − 2) after n = 8 rounds: the inverse, and 0 of 0. -/
def gfInv (a : Nat) : Nat :=
  let a2 := gfSquare a
  let a3 := gfMul a2 a 8
  let a6 := gfSquare a3
  let a12 := gfSquare a6
  let a15 := gfMul a12 a3 8
  let a240 := gfSquare (gfSquare (gfSquare (gfSquare a15)))
  gfMul (gfMul a240 a12 8) a2 8

def rotl8 (a n : Nat) : Nat := a * 2 ^ n % 256 ^^^ a / 2 ^ (8 - n)

/-- SubBytes of one byte, and its inverse. -/
def sbox (a : Nat) : Nat :=
  let b := gfInv a
  b ^^^ rotl8 b 1 ^^^ rotl8 b 2 ^^^ rotl8 b 3 ^^^ rotl8 b 4 ^^^ 0x63

def invSbox (a : Nat) : Nat := gfInv (rotl8 a 1 ^^^ rotl8 a 3 ^^^ rotl8 a 6 ^^^ 0x05)

def xorBytes (a b : List Nat) : List Nat := a.zipWith (fun x y => x ^^^ y) b

/-- The key schedule of AES-256: `n` more words after the ones in `ws` (the latest first). -/
def expandKey : Nat → Nat → Nat → List (List Nat) → List (List Nat)
  | 0, _, _, ws => ws
  | n + 1, i, rcon, ws =>
    let prev := ws.headD []
    let old := ws.getD 7 []
    let t :=
      if i % 8 = 0 then
        let r := (prev.drop 1 ++ prev.take 1).map sbox
        xorBytes r [rcon, 0, 0, 0]
      else if i % 8 = 4 then prev.map sbox
      else prev
    expandKey n (i + 1) (if i % 8 = 0 then xtime rcon else rcon) (xorBytes old t :: ws)

def words4 : Nat → List Nat → List (List Nat)
  | 0, _ => []
  | n + 1, l => l.take 4 :: words4 n (l.drop 4)

/-- The fifteen round keys of a 32-byte key. -/
def roundKeys (key : List Nat) : List (List Nat) :=
  let ws := (expandKey 52 8 1 (words4 8 key).reverse).reverse
  (List.range 15).map fun r => ((ws.drop (4 * r)).take 4).flatten

/-- State byte `r + 4c` comes from column c + r (or c − r) of row r. -/
def shiftRows (st : List Nat) : List Nat := (List.range 16).map fun k => st.getD (k % 4 + 4 * ((k / 4 + k % 4) % 4)) 0
def invShiftRows (st : List Nat) : List Nat :=
  (List.range 16).map fun k => st.getD (k % 4 + 4 * ((k / 4 + 4 - k % 4) % 4)) 0

def mixColumn (m : List Nat) (col : List Nat) : List Nat :=
  (List.range 4).map fun r =>
    (List.range 4).foldl (fun a c => a ^^^ gfMul (col.getD c 0) (m.getD ((c + 4 - r) % 4) 0) 8) 0

def mixColumns (m : List Nat) (st : List Nat) : List Nat := (words4 4 st).flatMap (mixColumn m)

def aesRound (m : List Nat) (st key : List Nat) : List Nat := xorBytes (mixColumns m (shiftRows (st.map sbox))) key

/-- Enciphers one block of 16 bytes. -/
def aesEncrypt (keys : List (List Nat)) (block : List Nat) : List Nat :=
  let st0 := xorBytes block (keys.getD 0 [])
  let st := ((keys.drop 1).take 13).foldl (aesRound [2, 3, 1, 1]) st0
  xorBytes (shiftRows (st.map sbox)) (keys.getD 14 [])

/-- Deciphers one block of 16 bytes. -/
def aesDecrypt (keys : List (List Nat)) (block : List Nat) : List Nat :=
  let rev := keys.reverse
  let st0 := (invShiftRows (xorBytes block (rev.getD 0 []))).map invSbox
  let st := ((rev.drop 1).take 13).foldl
    (fun st k => (invShiftRows (mixColumns [14, 11, 13, 9] (xorBytes st k))).map invSbox) st0
  xorBytes st (rev.getD 14 [])

/-- The tweak times α, `n` times, as a little-endian number of 128 bits. -/
def tweakMul (t : Nat) : Nat → Nat
  | 0 => t
  | n + 1 => tweakMul (if t < 2 ^ 127 then 2 * t else (2 * t) % 2 ^ 128 ^^^ 0x87) n

/-- One 16-byte block of an XTS data unit: `tweak` is the unit's number, `j` the block's place in the unit. -/
def xtsBlock (enc : Bool) (k1 k2 : List (List Nat)) (tweak j : Nat) (block : List Nat) : List Nat :=
  let t0 := packBytes (aesEncrypt k2 (unpackBytes 16 tweak))
  let t := unpackBytes 16 (tweakMul t0 j)
  xorBytes (if enc then aesEncrypt k1 (xorBytes block t) else aesDecrypt k1 (xorBytes block t)) t
where
  packBytes : List Nat → Nat
    | [] => 0
    | b :: r => b + 256 * packBytes r
  unpackBytes : Nat → Nat → List Nat
    | 0, _ => []
    | n + 1, x => x % 256 :: unpackBytes n (x / 256)

/-- Bytes that start `off` bytes into a region enciphered in 512-byte units; `off` and the length are multiples of 16. PRESUMED: log entry 52. -/
def xtsBytes (enc : Bool) (key : BitVec 512) (mix off : Nat) (bs : List Byte) : List Byte :=
  let kb := (natBytes key.toNat 64).map BitVec.toNat
  let k1 := roundKeys (kb.take 32)
  let k2 := roundKeys (kb.drop 32)
  let go := fun (i : Nat) =>
    let a := off + 16 * i
    xtsBlock enc k1 k2 (mix * 2 ^ 64 + a / 512) (a % 512 / 16) (((bs.drop (16 * i)).take 16).map BitVec.toNat)
  ((List.range (bs.length / 16)).flatMap go).map fun n => BitVec.ofNat 8 n

end Sys2Proof.Machine
end

