-- ==== Sys2Proof/Machine/Copy.lean ====
section
/-! DEFINITION. The C slot and the block-transfer engine (R183 to R208): copies and their events, handles, guard tags,
imposition records. -/

namespace Sys2Proof.Machine

/-! ### Issue -/

def nextCopies (s : State) : List Copy := (getQuire s (quireOf s.cur)).copies

/-- The time-sorted buffer, or the leaf's share of it, is full (R186). -/
def copiesFull (s : State) : Bool :=
  decide (64 ≤ (nextCopies s).length) || decide (32 ≤ ((nextCopies s).filter fun c => c.leaf == s.cur).length)

/-- ALIGN of a C-slot form: the first misaligned virtual address, else something that is none (R193, R328). DESIGN CHOICE: log entry 55. -/
def copyAlign (vas others : List Word) : Option Trap :=
  match vas.find? fun a => a.toNat % 64 != 0 with
  | some a => some (slotTrap .align .c 0 a)
  | none => if others.any fun a => a.toNat % 64 != 0 then some (alignTrap 8) else none

/-- Rows 5 and 6 of R193. -/
def copyTail (s : State) (imp : Bool) (stamp : Word) : Option Trap :=
  if imp && s.leaf.impose.toNat % 64 != 0 then some (slotTrap .align .c 0 s.leaf.impose)
  else if s.dtc.toNat + 2 ^ 32 < stamp.toNat then some (slotTrap .timeRange .c)
  else none

def handleBad (h : Handle) (reach : Nat) : Bool := !h.cfg || h.ecause != 0 || decide (h.len < reach)

/-- The first of a list of checks that fails. -/
def firstCause : List (Option Trap) → Option Trap
  | [] => none
  | some t :: _ => some t
  | none :: r => firstCause r

def lowLen (w : Word) : Nat := w.toNat % 2 ^ 32

def failIf (b : Bool) (t : Trap) : Option Trap := if b then some t else none

/-- Enters a copy into the time-sorted buffer; a stamp already reached releases it at once (R185). -/
def issueCopy (s : State) (form : CopyForm) (region : Nat) (stamp : Word) (tok : Option Nat) (publ imp trapf : Bool) :
    State :=
  let (id, s1) := fresh s
  let l := s.leaf
  let c : Copy :=
    { id := id, leaf := s.cur, form := form, region := region, stamp := stamp, tok := tok, publ := publ, imp := imp,
      trapf := trapf, impose := l.impose, po := l.po, atTrap := l.level == .trap,
      released := decide (stamp.toNat ≤ s.dtc.toNat), started := false, record := none, done := 0, fault := none,
      service := none, order := id, mates := s.quires.flatMap (fun p => p.2.copies.map fun x => x.id) ++ (l.pq ++ l.tq).map (fun o => o.id) ++ l.sewq.map fun o => o.id,
      wild := [] }
  (updQuire s1 (quireOf s.cur) fun q => { q with copies := q.copies ++ [c] }).upd fun l => { l with po := l.po + 1 }

def addFill (h : BitVec 6) (s : State) : State :=
  s.upd fun l => setHandle l h.toNat { getHandle l h.toNat with fill := (getHandle l h.toNat).fill + 1 }

def addDrain (h : BitVec 6) (s : State) : State :=
  s.upd fun l => setHandle l h.toNat { getHandle l h.toNat with drain := (getHandle l h.toNat).drain + 1 }

/-- The range of an empty copy is tested too: one that begins beyond LEN exceeds it (R191, R193). DESIGN CHOICE: log entry 104. -/
def copyCause (f : CCopy) (s : State) : Option Trap :=
  let l := s.leaf
  let off := readS l f.sb
  let len := lowLen (readS l f.sc)
  firstCause [failIf (handleBad (getHandle l f.h.toNat) (off.toNat + len)) (slotTrap .handleState .c),
    copyAlign [readS l f.sa] [off, readS l f.sc], copyTail s f.imp (readS l f.st)]

def copyEffect (f : CCopy) (s : State) : State :=
  let l := s.leaf
  issueCopy (addFill f.h s) (.copy f.h.toNat (readS l f.sa) (readS l f.sb).toNat (lowLen (readS l f.sc)))
    (getHandle l f.h.toNat).verso (readS l f.st) (tokOf f.kt f.tk) f.publ f.imp f.trapf

/-- Row bytes and rows of COPY2's shape. -/
def copy2Shape (w : Word) : Nat × Nat := (lowLen w, (w.extractLsb' 32 24).toNat)

def copy2Cause (f : CCopy) (s : State) : Option Trap :=
  let l := s.leaf
  let (row, rows) := copy2Shape (readS l f.sb)
  firstCause [failIf (handleBad (getHandle l f.h.toNat) (row * rows)) (slotTrap .handleState .c),
    copyAlign [readS l f.sa] [BitVec.ofNat 64 row, readS l f.sc], copyTail s f.imp (readS l f.st)]

def copy2Effect (f : CCopy) (s : State) : State :=
  let l := s.leaf
  let (row, rows) := copy2Shape (readS l f.sb)
  issueCopy (addFill f.h s) (.copy2 f.h.toNat (readS l f.sa) row rows (readS l f.sc))
    (getHandle l f.h.toNat).verso (readS l f.st) (tokOf f.kt f.tk) f.publ f.imp f.trapf

/-- The entry count is bits 31:0 of s[sb], as for every length (R191 names the bits for a length only). DESIGN CHOICE: log entry 85. -/
def copyqCause (f : CCopyq) (s : State) : Option Trap :=
  let l := s.leaf
  let b := getBuf l f.q.toNat
  firstCause [failIf (b.cap == 0 || decide (b.cap < lowLen (readS l f.sb))) (slotTrap .queueConfig .c),
    copyAlign [readS l f.sa] [readS l f.sc], copyTail s f.imp (readS l f.st)]

def copyqWaits (f : CCopyq) (s : State) : Bool :=
  copiesFull s || !(getBuf s.leaf f.q.toNat).roomFor (lowLen (readS s.leaf f.sb))

def copyqEffect (f : CCopyq) (s : State) : State :=
  let l := s.leaf
  let b := getBuf l f.q.toNat
  let (is, b1) := b.reserve (lowLen (readS l f.sb)) .reserved
  let str := if readS l f.sc = 0 then BitVec.ofNat 64 b.e else readS l f.sc
  issueCopy (s.upd fun l => setBuf l f.q.toNat b1) (.copyq f.q.toNat (readS l f.sa) is b.e b.base str) 0 (readS l f.st)
    (tokOf f.kt f.tk) false f.imp true

def copyhCause (f : CCopyh) (s : State) : Option Trap :=
  let l := s.leaf
  firstCause [failIf (handleBad (getHandle l f.h.toNat) 0) (slotTrap .handleState .c),
    copyAlign [readS l f.sa, readS l f.sb] [readS l f.sc], copyTail s f.imp (readS l f.st)]

def copyhEffect (f : CCopyh) (s : State) : State :=
  let l := s.leaf
  issueCopy (addFill f.h s) (.copyh f.h.toNat (readS l f.sa) (readS l f.sb) (lowLen (readS l f.sc))) 0 (readS l f.st)
    (tokOf f.kt f.tk) false f.imp f.trapf

/-- DESIGN CHOICE, as for COPY: log entry 104. -/
def copyoutCause (f : CCopyh) (s : State) : Option Trap :=
  let l := s.leaf
  let off := readS l f.sb
  firstCause [failIf (handleBad (getHandle l f.h.toNat) (off.toNat + lowLen (readS l f.sc))) (slotTrap .handleState .c),
    copyAlign [readS l f.sa] [off, readS l f.sc], copyTail s f.imp (readS l f.st)]

def copyoutEffect (f : CCopyh) (s : State) : State :=
  let l := s.leaf
  issueCopy (addDrain f.h s) (.copyout f.h.toNat (readS l f.sa) (readS l f.sb).toNat (lowLen (readS l f.sc)))
    (getHandle l f.h.toNat).recto (readS l f.st) (tokOf f.kt f.tk) false f.imp f.trapf

/-- A copy form: while the buffer has no entry for it the bundle waits, and is checked at the position where it finally issues
(R186). -/
def runCopy (i : Instr) (cause : State → Option Trap) (waits : State → Bool) (eff : State → State) (s : State) : Out :=
  match s.phase, ownCause i none s, copiesFull s with
  | .alone, none, true => .next (waitAtIssue s)
  | _, _, _ => runOp i cause waits eff s

def execCopy (f : CCopy) (s : State) : Out := runCopy (.copy f) (copyCause f) copiesFull (copyEffect f) s
def execCopy2 (f : CCopy) (s : State) : Out := runCopy (.copy2 f) (copy2Cause f) copiesFull (copy2Effect f) s
def execCopyq (f : CCopyq) (s : State) : Out := runCopy (.copyq f) (copyqCause f) (copyqWaits f) (copyqEffect f) s
def execCopyh (f : CCopyh) (s : State) : Out := runCopy (.copyh f) (copyhCause f) copiesFull (copyhEffect f) s
def execCopyout (f : CCopyh) (s : State) : Out := runCopy (.copyout f) (copyoutCause f) copiesFull (copyoutEffect f) s

/-! ### PUB, HREL, HSTAT, HCFG, CCANCEL -/

def pubCause (f : CH) (s : State) : Option Trap :=
  failIf (handleBad (getHandle s.leaf f.h.toNat) 0) (slotTrap .handleState .c)

def pubWaits (f : CH) (s : State) : Bool := !(getHandle s.leaf f.h.toNat).quiet

def pubEffect (f : CH) (s : State) : State :=
  s.upd fun l => setHandle l f.h.toNat (publish l (getHandle l f.h.toNat) [])

def hrelWaits (f : CH) (s : State) : Bool :=
  (getHandle s.leaf f.h.toNat).cfg && !(getHandle s.leaf f.h.toNat).quiet

def hrelEffect (f : CH) (s : State) : State := s.upd fun l => setHandle l f.h.toNat .reset

/-- The status word (R205). -/
def Handle.word (h : Handle) : Word :=
  BitVec.ofNat 64 (h.gen.toNat * 2 ^ 32 + h.ecause * 2 ^ 24 + h.detail * 2 ^ 19 + h.drain * 2 ^ 11 + h.fill * 2 ^ 4
    + h.state)

/-- HSTAT acquires what the completions it reports made visible (R212). -/
def hstatEffect (f : CHstat) (s : State) : State :=
  let h := getHandle s.leaf f.h.toNat
  (addScalar s 2 f.sd (if f.fa then (if h.ecause = 0 then 0 else h.fva) else h.word) none .c).upd
    fun l => acquire l (clockJoin h.posted h.clock)

/-- The handle HCFG makes: GEN is kept where it was configured, and 0 for a FREE one (R189). -/
def hcfgHandle (f : CHcfg) (l : Leaf) : Handle :=
  let was := getHandle l f.h.toNat
  let h := if was.cfg then was else .reset
  let r := (readS l f.sa).toNat
  let v := (readS l f.sb).toNat
  let n := lowLen (readS l f.sc)
  { h with cfg := true, recto := r, verso := v, len := n, taint := [], lap := [] }

def hcfgCause (f : CHcfg) (s : State) : Option Trap :=
  let l := s.leaf
  let h := getHandle l f.h.toNat
  let r := (readS l f.sa).toNat
  let v := (readS l f.sb).toNat
  let n := lowLen (readS l f.sc)
  if h.ecause != 0 then some (slotTrap .handleState .c)
  else if !h.quiet then none
  else
    firstCause [copyAlign [] [readS l f.sa, readS l f.sb, BitVec.ofNat 64 n],
      failIf (decide (sheetSize < r + n) || decide (sheetSize < v + n)) (slotTrap .sheetBounds .c),
      failIf (n == 0 || decide (131072 < n) || overlap r n v n
        || decide (12 < (pinnedSheets (setHandle l f.h.toNat (hcfgHandle f l))).length)) (slotTrap .handleState .c)]

def hcfgWaits (f : CHcfg) (s : State) : Bool := !(getHandle s.leaf f.h.toNat).quiet

/-- Configuring over a buffer leaves the overlap unpredictable within both (R251). -/
def hcfgEffect (f : CHcfg) (s : State) : State :=
  let h := hcfgHandle f s.leaf
  let s1 := s.upd fun l => shareHandle l f.h.toNat h
  touchSheets s1 s.cur (sheetsOf h.recto h.len ++ sheetsOf h.verso h.len) false

/-- A copy that CCANCEL may remove: neither released nor started, its stamp not passed (R185, R206). -/
def cancellable (s : State) (c : Copy) : Bool :=
  c.leaf == s.cur && !c.released && !c.started && decide (s.dtc.toNat ≤ c.stamp.toNat)

def CopyForm.names (f : CopyForm) (w : CancelWhat) : Bool :=
  match w, f with
  | .all, _ => true
  | .handle h, .copy n _ _ _ | .handle h, .copy2 n _ _ _ _ | .handle h, .copyh n _ _ _ | .handle h, .copyout n _ _ _ =>
    n == h.toNat
  | .buffer q, .copyq n _ _ _ _ _ => n == q.toNat
  | _, _ => false

/-- The handle with a copy's count taken back. -/
def dropCount (f : CopyForm) (h : Handle) : Handle :=
  match f with
  | .copyout _ _ _ _ => { h with drain := h.drain - 1 }
  | _ => { h with fill := h.fill - 1 }

def CopyForm.handle : CopyForm → Option Nat
  | .copy n _ _ _ | .copy2 n _ _ _ _ | .copyh n _ _ _ | .copyout n _ _ _ => some n
  | .copyq _ _ _ _ _ _ => none

/-- What cancelling one copy does to its handle or buffer (R206, R253). -/
def cancelOne (l : Leaf) (c : Copy) : Leaf :=
  match c.form with
  | .copyq q _ is _ _ _ =>
    let b := is.foldl (fun (b : Buf) i => b.setEnt i .void) (getBuf l q)
    setBuf l q b.promote
  | f =>
    match f.handle with
    | some n => setHandle l n (settlePublish l (dropCount f (getHandle l n)) [])
    | none => l

def ccancelEffect (f : CCancel) (s : State) : State :=
  let gone := (nextCopies s).filter fun c => cancellable s c && c.form.names f.what
  (updQuire s (quireOf s.cur) fun q =>
    { q with copies := q.copies.filter fun c => !gone.any fun x => x.id == c.id }).upd fun l => gone.foldl cancelOne l

def execPub (f : CH) (s : State) : Out := runBlocking (.pub f) (pubCause f) (pubWaits f) (pubEffect f) s
def execHrel (f : CH) (s : State) : Out := runOp (.hrel f) noCause (hrelWaits f) (hrelEffect f) s
def execHstat (f : CHstat) (s : State) : Out := runPlain (.hstat f) (hstatEffect f) s
def execHcfg (f : CHcfg) (s : State) : Out := runOp (.hcfg f) (hcfgCause f) (hcfgWaits f) (hcfgEffect f) s
def execCcancel (f : CCancel) (s : State) : Out := runPlain (.ccancel f) (ccancelEffect f) s

/-! ### The engine -/

def findCopy (s : State) (q id : Nat) : Option Copy := (getQuire s q).copies.find? fun c => c.id == id

def updCopy (s : State) (q id : Nat) (f : Copy → Copy) : State :=
  updQuire s q fun x => { x with copies := x.copies.map fun c => if c.id == id then f c else c }

def dropCopy (s : State) (q id : Nat) : State :=
  updQuire s q fun x => { x with copies := x.copies.filter fun c => c.id != id }

/-- The bytes a copy moves. -/
def Copy.total (c : Copy) : Nat :=
  match c.form with
  | .copy _ _ _ n | .copyh _ _ _ n | .copyout _ _ _ n => n
  | .copy2 _ _ row rows _ => row * rows
  | .copyq _ _ is e _ _ => is.length * e

/-- One block: its global sides, its sheet side, and its length. -/
structure Part where
  src : Option Nat
  dst : Option Nat
  sheet : Nat
  len : Nat
  deriving DecidableEq, Repr

def pageLeft (a : Word) : Nat := 4096 - a.toNat % 4096

/-- The block at offset `d` of a copy (R192, R196). DEDUCED: log entry 50. -/
def Copy.part (c : Copy) (d : Nat) : Part :=
  let at_ := fun (a : Word) (n : Nat) => a + BitVec.ofNat 64 n
  match c.form with
  | .copy _ src off len =>
    let a := at_ src d
    ⟨some a.toNat, none, c.region + off + d, min (len - d) (pageLeft a)⟩
  | .copy2 _ src row _ str =>
    let a := at_ src (d % row) + BitVec.ofNat 64 (d / row) * str
    ⟨some a.toNat, none, c.region + d, min (row - d % row) (pageLeft a)⟩
  | .copyq _ src is e base str =>
    let a := at_ src (d % e) + BitVec.ofNat 64 (d / e) * str
    ⟨some a.toNat, none, base + is.getD (d / e) 0 * e + d % e, min (e - d % e) (pageLeft a)⟩
  | .copyh _ dst src len =>
    let a := at_ src d
    let b := at_ dst d
    ⟨some a.toNat, some b.toNat, 0, min (len - d) (min (pageLeft a) (pageLeft b))⟩
  | .copyout _ dst off len =>
    let b := at_ dst d
    ⟨none, some b.toNat, c.region + off + d, min (len - d) (pageLeft b)⟩

/-- Every part of a copy from offset `d`. -/
def Copy.parts (c : Copy) : Nat → Nat → List Part
  | 0, _ => []
  | fuel + 1, d => if c.total ≤ d then [] else c.part d :: c.parts fuel (d + max 1 (c.part d).len)

def sourcePage (p : Part) : Nat := p.src.getD 0 / 4096

/-- The block at offset `d`: one part, or the parts of a COPYQ that lie in one page, entry after entry (R196). -/
def Copy.block (c : Copy) (d : Nat) : List Part :=
  match c.form with
  | .copyq _ _ _ _ _ _ =>
    let ps := c.parts (c.total + 1) d
    ps.takeWhile fun p => sourcePage p == sourcePage (c.part d)
  | _ => [c.part d]

/-- The observer is another engine operation that may have been in flight together with this copy (R187): one that issued
after it, or a copy that had not performed when it issued. -/
def Copy.races (c : Copy) (obs : Nat) : Bool :=
  match engineOf obs with
  | some i => i != c.id && (decide (c.id < i) || c.mates.contains i)
  | none => false

/-- A write that the copy is not ordered with: another engine's, or one of its leaf's later stores (R187). -/
def Copy.racesWrite (c : Copy) (w : WriteRec) : Bool :=
  c.races w.obs || ((w.obs == c.leaf || w.obs == remoteObs c.leaf) && decide (c.po < w.po))

/-- `n` bytes the spec leaves open. -/
def freeBytes : Nat → Nat → State → List Byte × State
  | 0, _, s => ([], s)
  | fuel + 1, n, s =>
    if n = 0 then ([], s)
    else
      let (v, s1) := takeFree s
      let k := min n 2048
      let (r, s2) := freeBytes fuel (n - k) s1
      (vecBytes v k ++ r, s2)

/-- No access that precedes the copy in the leaf's program order is unperformed (R187, R216, R360), a suspended one of the
interrupted program included. -/
def logsBehind (l : Leaf) (c : Copy) : Bool := (l.olog ++ l.tlog).all fun e => e.op.isMark || decide (c.po ≤ e.po)

/-- The DTC has reached the stamp, or had at the issue (R185). -/
def Copy.due (s : State) (c : Copy) : Bool := c.released || decide (c.stamp.toNat ≤ s.dtc.toNat)

/-- No released copy with an earlier stamp, or an equal one and issued earlier, is still to start (R185). -/
def firstToStart (s : State) (cs : List Copy) (c : Copy) : Bool :=
  cs.all fun o => o.id == c.id || o.started || !o.due s
    || decide (c.stamp.toNat < o.stamp.toNat) || (o.stamp == c.stamp && decide (c.order < o.order))

/-- The imposition record, where the copy takes one, has been read (R200). -/
def Copy.hasRecord (c : Copy) : Bool := !c.imp || c.record.isSome

/-- The copy may move its next block. -/
def copyMoves (s : State) (q : Nat) (c : Copy) : Bool :=
  c.due s && c.hasRecord && c.fault.isNone && c.service.isNone && decide (c.done < c.total)
    && logsBehind (getLeaf s c.leaf) c && (c.started || firstToStart s (getQuire s q).copies c)

def copyReader (s : State) (c : Copy) : Reader :=
  { obs := engineObs c.id c.leaf, clock := leafReadClock (getLeaf s c.leaf) c.leaf c.po, gran := 64, po := c.po
    behind := some (c.leaf, c.po) }

/-- A block faults: it waits for the service, or the copy ends (R196, R197). A copy whose record faults has not begun to move
(R185, R200). -/
def copyFails (s : State) (q : Nat) (c : Copy) (run : Run) (cause : Cause) (va : Nat) : State :=
  let s0 := updCopy s q c.id fun x => { x with started := x.started || c.hasRecord, fault := some (cause, BitVec.ofNat 64 va) }
  match serviceFault s0 run c.leaf 4 va cause with
  | some (idx, s1) => updCopy s1 q c.id fun x => { x with service := some idx }
  | none =>
    match c.form with
    | .copyq b _ _ _ _ _ => updLeaf s0 c.leaf fun l => setBuf l b { getBuf l b with faulted := true }
    | _ => s0

/-- One side of a block translated. A KEYED page is asked for afresh where a copy may be refused it (R353). -/
def sideTrans (s : State) (r : Reader) (run : Run) (useTlb : Bool) (k : Kind) :
    Option Nat → Except (Cause × Nat) (Option Trans) × State
  | none => (.ok none, s)
  | some a =>
    match translateSure s r run.asid run.root useTlb a k fun t => t.keyed with
    | (.ok t, s1) => (.ok (some t), s1)
    | (.error c, s1) => (.error (c, a), s1)

/-- A side of one part of a block, whose page has been translated. -/
def partSide (t : Option Trans) (len : Nat) : Option Nat → List ((Nat × Nat) × Trans)
  | none => []
  | some a =>
    match t with
    | some x => [((a, len), { x with pa := x.pa - x.pa % 4096 + a % 4096 })]
    | none => []

/-- The record's fields: BASE, LENGTH, KEY_HANDLE, VERSION, LAYOUT_ID (R199). -/
def parseRecord (b : List Byte) : Nat × Nat × Nat × Nat × Nat :=
  let f := fun i n => bytesNat ((b.drop i).take n)
  (f 0 8, f 8 8, f 16 2, f 20 4, f 24 4)

/-- The key that serves `len` bytes at `va`, with the mixed-in part of the tweak and the offset from BASE (R200). -/
def keyFor (s : State) (run : Run) (rec_ : Option (Nat × Nat × Nat × Nat × Nat)) (va len : Nat) :
    Option (BitVec 512 × Nat × Nat) :=
  match rec_ with
  | none => none
  | some (base, length, kh, ver, layout) =>
    let e := mapGet s.keys kh .reset
    if decide (base ≤ va) && decide (va + len ≤ base + length) && decide (kh < 4096) && e.valid && e.asid == run.asid
        && e.version.toNat == ver
    then some (e.key, layout * 2 ^ 32 + ver, va - base) else none

/-- Ciphers a block; bytes stand open where the record's BASE or LENGTH breaks its own rule. -/
def cipher (s : State) (enc : Bool) (k : BitVec 512 × Nat × Nat) (va : Nat)
    (rec_ : Option (Nat × Nat × Nat × Nat × Nat)) (b : List Byte) : List Byte × State :=
  let ok := match rec_ with
    | some (base, length, _) => base % 4096 == 0 && length % 512 == 0 && va % 16 == 0
    | none => false
  if ok then (xtsBytes enc k.1 k.2.1 k.2.2 b, s) else freeBytes 4 b.length s

def keyedSide (t : Option Trans) : Bool := t.any fun x => x.keyed

/-- COPYQ entries whose last byte has come are Written (R253). -/
def markWritten (s : State) (c : Copy) (upto : Nat) : State :=
  match c.form with
  | .copyq q _ is e _ _ =>
    updLeaf s c.leaf fun l =>
      let b := (List.range is.length).foldl (fun (b : Buf) j =>
        if decide ((j + 1) * e ≤ upto) && b.ent (is.getD j 0) == .reserved then b.setEnt (is.getD j 0) .written else b)
        (getBuf l q)
      setBuf l q b.promote
  | _ => s

/-- What the sheet bytes of a part hold that are not the copy's alone: stored to by the leaf since its issue, or written by
another engine operation in flight with it (R187). -/
def Copy.sheetRaces (c : Copy) (l : Leaf) (off n : Nat) : Formers :=
  (c.wild ++ (l.wet.filter fun w => c.races w.obs).map fun w => (w.off, w.old)).filter fun w =>
    overlap w.1 w.2.length off n

/-- Writes a part's bytes to its destination. -/
def landPart (s : State) (c : Copy) (p : Part) (dst : List ((Nat × Nat) × Trans)) (b : List Byte) : State :=
  match p.dst with
  | some _ =>
    let (m, s1) := mixPages s c.racesWrite dst b
    writePages s1 { obs := engineObs c.id c.leaf, po := 1 } dst m
  | none =>
    let l := getLeaf s c.leaf
    let ws := c.sheetRaces l p.sheet b.length
    let (m, s1) := mixWhere (coveredBy ws) p.sheet b (sheetRead l p.sheet b.length) s
    engineSheet s1 c.leaf (engineObs c.id c.leaf) p.sheet m

/-- The sheet bytes that a copy reads: those the leaf or another engine has written meanwhile may be old or new, and so may
those of its handle that P-slot stores have reached or a buffer shares (R163, R187, R251). -/
def readSheetPart (s : State) (c : Copy) (p : Part) : List Byte × State :=
  let l := getLeaf s c.leaf
  let taint := match c.form.handle with
    | some n => (getHandle l n).taint
    | none => []
  mixFormers (c.sheetRaces l p.sheet p.len ++ taint) p.sheet (sheetRead l p.sheet p.len) s

/-- After a guard mismatch, the destination bytes of the remaining blocks are open (R198). -/
def scribble (s : State) (c : Copy) (run : Run) : List Part → State
  | [] => s
  | p :: ps =>
    match sideTrans s (copyReader s c) run false .w p.dst with
    | (.error _, s1) => scribble s1 c run ps
    | (.ok dst, s1) =>
      let (b, s2) := freeBytes 4 p.len s1
      scribble (landPart s2 c p (partSide dst p.len p.dst) b) c run ps

/-- The key of one side of a part, where that side is ciphered. -/
def sideKey (s : State) (c : Copy) (run : Run) (t : Option Trans) (len : Nat) (a : Option Nat) : Option (BitVec 512 × Nat × Nat) :=
  if keyedSide t && c.imp then keyFor s run c.record (a.getD 0) len else none

/-- A part of a block that the record does not serve, and the block's address on the side that fails, the source side
first (R197); `first` is the block's first part. DESIGN CHOICE: log entry 86. -/
def keyFails (s : State) (c : Copy) (run : Run) (src dst : Option Trans) (first p : Part) : Option Nat :=
  if keyedSide src && c.imp && (sideKey s c run src p.len p.src).isNone then first.src
  else if keyedSide dst && (sideKey s c run dst p.len p.dst).isNone then first.dst
  else none

/-- Moves one part of a block. -/
def movePart (s : State) (c : Copy) (run : Run) (src dst : Option Trans) (p : Part) : State :=
  let (b0, s1) := match p.src with
    | some _ =>
      let (b, _, s1) := readPages s (copyReader s c) (partSide src p.len p.src)
      (b, s1)
    | none => readSheetPart (touchSheets s c.leaf (sheetsOf p.sheet p.len) false) c p
  let (b1, s2) := match sideKey s c run src p.len p.src with
    | some k => cipher s1 false k (p.src.getD 0) c.record b0
    | none => (b0, s1)
  let (b2, s3) := match sideKey s c run dst p.len p.dst with
    | some k => cipher s2 true k (p.dst.getD 0) c.record b1
    | none => (b1, s2)
  landPart s3 c p (partSide dst p.len p.dst) b2

/-- Moves one translated block. A GUARD fault of a copy with two global sides names the destination. DESIGN CHOICE: log entry 86. -/
def moveBlock (s : State) (q : Nat) (c : Copy) (run : Run) (ps : List Part) (src dst : Option Trans) (guardOk : Bool) : State :=
  match ps.findSome? (keyFails s c run src dst (c.part c.done)) with
  | some va => copyFails s q c run .key va
  | none =>
    let p := c.part c.done
    if !guardOk then copyFails (scribble s c run (c.parts (c.total + 1) c.done)) q c run .guard (p.dst.getD (p.src.getD 0))
    else
      let n := ps.foldl (fun n p => n + p.len) 0
      let s1 := ps.foldl (fun s p => movePart s c run src dst p) s
      let s2 := updCopy s1 q c.id fun x => { x with started := true, done := x.done + n }
      markWritten s2 c (c.done + n)

/-- Translates both global sides of the next block, the source first, and moves it. DESIGN CHOICE: log entry 86. -/
def copyStep (s : State) (q : Nat) (c : Copy) (run : Run) (w : BlockOpt) : State :=
  let p := c.part c.done
  match sideTrans s (copyReader s c) run w.useTlb .r p.src with
  | (.error (e, va), s1) => copyFails s1 q c run e va
  | (.ok src, s1) =>
    match sideTrans s1 (copyReader s1 c) run w.useTlb .w p.dst with
    | (.error (e, va), s2) => copyFails s2 q c run e va
    | (.ok dst, s2) => moveBlock s2 q c run (c.block c.done) src dst w.guardOk

/-- The imposition record is read once, when the copy is released (R200). DEDUCED: log entry 51. One that lies in a KEYED page is
read as stored. DESIGN CHOICE: log entry 106. -/
def readRecord (s : State) (q : Nat) (c : Copy) (run : Run) (useTlb : Bool) : State :=
  match readVirt s (copyReader s c) run.asid run.root useTlb .r c.impose.toNat 64 with
  | (.error (e, va), s1) => copyFails s1 q c run e va
  | (.ok (b, _), s1) => updCopy s1 q c.id fun x => { x with record := some (parseRecord b) }

/-- A released copy of a run that ended otherwise than by EXIT may be dropped (R208). -/
def runOver (run : Run) : Bool :=
  match run.ending with
  | some e => e.status != 0
  | none => false

/-- A released copy that takes an imposition record is to read it, after its leaf's older accesses (R187, R200). -/
def recordDue (s : State) (c : Copy) : Bool :=
  c.due s && !c.hasRecord && c.fault.isNone && c.service.isNone && logsBehind (getLeaf s c.leaf) c

def execCopyRelease (q id : Nat) (s : State) : Out :=
  match findCopy s q id with
  | none => .next s
  | some c =>
    if !c.due s then .next s
    else
      let s1 := updCopy s q id fun x => { x with released := true }
      match recordDue s c, leafRun s c.leaf with
      | true, some run =>
        let (n, s2) := takeChoice s1 2
        .next (readRecord s2 q c run (n == 1))
      | _, _ => .next s1

def execCopyBlock (q id : Nat) (w : BlockOpt) (s : State) : Out :=
  match findCopy s q id with
  | none => .next s
  | some c =>
    match leafRun s c.leaf with
    | none => .next s
    | some run =>
      if !copyMoves s q c then .next s
      else
        let (drop, s0) := if runOver run then takeChoice s 2 else (0, s)
        .next (if drop = 1 then dropCopy s0 q id else copyStep s0 q c run w)

/-! ### Performing (R194, R197) -/

/-- The copy has moved all it will. -/
def copyDone (s : State) (q : Nat) (c : Copy) : Bool :=
  c.due s && c.service.isNone && (c.fault.isSome || (c.hasRecord && decide (c.total ≤ c.done)))
    && (c.started || (logsBehind (getLeaf s c.leaf) c && firstToStart s (getQuire s q).copies c))

/-- Records a fault in a handle: the first cause stands. -/
def recordFault (h : Handle) (c : Cause) (fva : Word) : Handle :=
  if h.ecause ≠ 0 then h
  else
    let own := c == .key || c == .guard
    { h with ecause := if own then c.code else Cause.code .copyFault, detail := if own then 0 else c.code, fva := fva }

/-- The handle after a copy that names it has performed. -/
def handleAfter (l : Leaf) (c : Copy) (h : Handle) : Handle :=
  let h1 := dropCount c.form h
  let h2 := match c.fault with
    | some (e, va) => recordFault h1 e va
    | none => h1
  let clk : Clock := [(engineObs c.id c.leaf, 1)]
  let h3 := { h2 with posted := clockJoin h2.posted clk, deferred := h2.deferred || c.publ }
  settlePublish l h3 []

/-- COPY_FAULT of a copy: DETAIL holds the underlying cause, KEY and GUARD among them, for every form (R197). DESIGN CHOICE: log
entry 103. -/
def copyTrap (c : Copy) (e : Cause) (va : Word) : Trap :=
  { cause := .copyFault, detail := e.code, unit := 4, async := true, fva := va,
    obj := match c.form with
      | .copyq q _ _ _ _ _ => 0x40 + q
      | f => f.handle.getD 0 }

/-- DEDUCED: log entry 53. -/
def performCopy (s : State) (q : Nat) (c : Copy) : State :=
  let s1 := match c.form.handle with
    | some n => updLeaf s c.leaf fun l => setHandle l n (handleAfter l c (getHandle l n))
    | none => s
  let s2 := match c.fault with
    | some (e, va) => if c.trapf then raiseAsync s1 c.leaf c.atTrap (copyTrap c e va) else s1
    | none => s1
  dropCopy (postOpt s2 c.leaf c.tok [(engineObs c.id c.leaf, 1)]) q c.id

def execCopyPerform (q id : Nat) (s : State) : Out :=
  match findCopy s q id with
  | none => .next s
  | some c => if copyDone s q c then .next (performCopy s q c) else .next s

end Sys2Proof.Machine
end

