-- ==== Sys2Proof/Machine/Signature.lean ====
section
/-! DEFINITION. The signature unit (R297 to R318): shelves, the signature queues, selection, insertion and spilling. -/

namespace Sys2Proof.Machine

/-! ### Descriptors (R299) -/

def bitsOf (b : List Byte) (i n : Nat) : Nat := bytesNat ((b.drop i).take n)

def descOf (b : List Byte) : ShelfCfg :=
  { mask := BitVec.ofNat 256 (bitsOf b 0 32), spillVa := BitVec.ofNat 64 (bitsOf b 32 8), spillRows := bitsOf b 40 4,
    rowBase := bitsOf b 44 2, rowCount := bitsOf b 46 2, k := bitsOf b 48 2, s := bitsOf b 50 1, w := bitsOf b 52 2 }

/-- A field outside its limits. -/
def ShelfCfg.bad (c : ShelfCfg) : Bool :=
  (c.spillRows != 0 && c.spillVa.toNat % 4096 != 0)
    || decide (16777216 < c.spillRows) || c.spillRows % 64 != 0
    || decide (8184 < c.rowBase) || c.rowBase % 8 != 0
    || decide (c.rowCount < 8) || decide (8192 < c.rowCount) || c.rowCount % 8 != 0
    || decide (8192 < c.rowBase + c.rowCount) || decide (c.rowCount ≤ c.s + c.w)
    || decide (1024 < c.k) || decide (64 < c.s) || decide (256 < c.w)

/-! ### Queues and what issue sees (R300, R302) -/

def sigQueue (l : Leaf) : List SigOp :=
  match l.level with
  | .ordinary => l.sigq
  | .trap => l.sigtq

def sigFull (s : State) : Bool :=
  match s.leaf.level with
  | .ordinary => decide (16 ≤ s.leaf.sigq.length)
  | .trap => decide (4 ≤ s.leaf.sigtq.length)

/-- The queued configurations of a shelf, oldest first; one of no rows deconfigures. -/
def queuedCfgs (l : Leaf) (sh : Nat) : List ShelfCfg :=
  (l.sigq ++ l.sigtq).filterMap fun o =>
    match o.form with
    | .shcfg c => if o.sh == sh then some c else none
    | _ => none

/-- The configuration as seen at issue. -/
def issueCfg (l : Leaf) (sh : Nat) : Option ShelfCfg :=
  match (queuedCfgs l sh).getLast? with
  | some c => if c.rowCount = 0 then none else some c
  | none => (getShelf l sh).cfg

/-- The row ranges a shelf owns or is still giving up; a SHCFG of no rows claims none (R300). -/
def shelfClaims (l : Leaf) (sh : Nat) : List (Nat × Nat) :=
  (((getShelf l sh).cfg.toList ++ queuedCfgs l sh).filter fun c => c.rowCount != 0).map fun c => (c.rowBase, c.rowCount)

/-- A row of the range belongs to another shelf of the quire. -/
def rowsTaken (s : State) (sh : Nat) (c : ShelfCfg) : Bool :=
  (List.range 4).any fun j =>
    let g := 4 * quireOf s.cur + j
    (List.range 16).any fun n =>
      !(g == s.cur && n == sh)
        && (shelfClaims (getLeaf s g) n).any fun r => overlap r.1 r.2 c.rowBase c.rowCount

def enterSig (s : State) (sh : Nat) (form : SigForm) (tok : Option Nat) : State :=
  let (id, s1) := fresh s
  s1.upd fun l =>
    let o : SigOp := { id := id, sh := sh, form := form, tok := tok, held := false, po := l.po, taint := [] }
    let l1 := { l with po := l.po + 1 }
    match l.level with
    | .ordinary => { l1 with sigq := l1.sigq ++ [o] }
    | .trap => { l1 with sigtq := l1.sigtq ++ [o] }

/-! ### Issue (R303, R313) -/

def shelfTrap (d : Nat) : Trap := slotTrap .shelf .m d

/-- Rows 3 and 4 for a 64-byte sheet range. -/
def recordCause (off : Nat) : Option Trap :=
  if off % 64 != 0 then some (alignTrap 6) else if sheetSize < off + 64 then some (mTrap .sheetBounds) else none

def needsShelf (l : Leaf) (sh : Nat) : Option Trap := if (issueCfg l sh).isNone then some (shelfTrap 4) else none

/-- Reads the descriptor as a P-slot load reads (R218); the issue of a bundle has read it before any of its operations takes
effect (R302, R313). -/
def readDesc (f : MShcfg) (s : State) : List Byte × State :=
  match s.prog with
  | some b => (b, { s with prog := none })
  | none =>
    let a := (readS s.leaf f.sa).toNat
    let s1 := blurred [(a, 64)] s
    (sheetRead s1.leaf a 64, { s with free := s1.free })

def shcfgDesc (f : MShcfg) (s : State) : ShelfCfg := descOf (readDesc f s).1

def shcfgCause (f : MShcfg) (s : State) : Option Trap :=
  let l := s.leaf
  match recordCause (readS l f.sa).toNat with
  | some t => some t
  | none =>
    let c := shcfgDesc f s
    if c.rowCount = 0 then none
    else if c.spillRows != 0 && !s.node.accept.getLsbD 4 then some (mTrap .illegalOp)
    else if c.bad then some (shelfTrap 2)
    else if rowsTaken s f.sh.toNat c then some (shelfTrap 3)
    else none

def shcfgEffect (f : MShcfg) (s : State) : State :=
  let (b, s1) := readDesc f s
  enterSig (touchSheets s1 s1.cur (sheetsOf (readS s.leaf f.sa).toNat 64) false) f.sh.toNat (.shcfg (descOf b))
    (tokOf f.kt f.tk)

/-- A tag: bits 31:0 of its register; a signature: lanes 0 to 7. -/
def tagOf (w : Word) : BitVec 32 := w.setWidth 32
def sigOf (v : Vec) : BitVec 256 := v.setWidth 256

def sinsEffect (f : MSins) (s : State) : State :=
  enterSig s f.sh.toNat (.sins (sigOf (readV s.leaf f.vs)) (tagOf (readS s.leaf f.sa))) (tokOf f.kt f.tk)

def sageEffect (f : MSage) (s : State) : State := enterSig s f.sh.toNat .sage (tokOf f.kt f.tk)

def sdelEffect (f : MSdel) (s : State) : State :=
  enterSig s f.sh.toNat (.sdel (tagOf (readS s.leaf f.sa))) (tokOf f.kt f.tk)

/-- Row 9: the handle, and room for the longest list (R306). -/
def sselCause (f : MSsel) (s : State) : Option Trap :=
  let l := s.leaf
  match issueCfg l f.sh.toNat with
  | none => some (shelfTrap 4)
  | some c => if handleBad (getHandle l f.h.toNat) (4 * (1 + c.s + c.w + c.k)) then some (mTrap .handleState) else none

def sselEffect (f : MSsel) (s : State) : State :=
  enterSig (addFill f.h s) f.sh.toNat (.ssel (sigOf (readV s.leaf f.vs)) f.h.toNat) (tokOf f.kt f.tk)

def srdrCause (f : MSrdr) (s : State) : Option Trap :=
  match recordCause (readS s.leaf f.sa).toNat with
  | some t => some t
  | none => needsShelf s.leaf f.sh.toNat

def srdrEffect (f : MSrdr) (s : State) : State :=
  enterSig s f.sh.toNat (.srdr (readS s.leaf f.sa).toNat (tagOf (readS s.leaf f.sb))) (tokOf f.kt f.tk)

def execShcfg (f : MShcfg) (s : State) : Out := runFrozen (.shcfg f) (shcfgCause f) sigFull (shcfgEffect f) s
def execSins (f : MSins) (s : State) : Out :=
  runFrozen (.sins f) (fun s => needsShelf s.leaf f.sh.toNat) sigFull (sinsEffect f) s
def execSage (f : MSage) (s : State) : Out :=
  runFrozen (.sage f) (fun s => needsShelf s.leaf f.sh.toNat) sigFull (sageEffect f) s
def execSdel (f : MSdel) (s : State) : Out :=
  runFrozen (.sdel f) (fun s => needsShelf s.leaf f.sh.toNat) sigFull (sdelEffect f) s
def execSsel (f : MSsel) (s : State) : Out := runFrozen (.ssel f) (sselCause f) sigFull (sselEffect f) s
def execSrdr (f : MSrdr) (s : State) : Out := runFrozen (.srdr f) (srdrCause f) sigFull (srdrEffect f) s

/-! ### SRDR's record (R309) -/

def locCode : Loc → Nat
  | .array _ => 0
  | .transit _ => 1
  | .spill _ => 2

def rowRecord (x : Shelf) (t : BitVec 32) : List Byte :=
  match x.rows.find? fun r => r.tag == t with
  | some r =>
    natBytes r.sig.toNat 32 ++ natBytes t.toNat 4 ++ natBytes (r.heat + 128) 1 ++ natBytes (locCode r.loc) 1 ++ natBytes 0 26
  | none => natBytes 0 32 ++ natBytes t.toNat 4 ++ natBytes 0 28

/-! ### Foreign writes to a spill region (R301, R2) -/

/-- The row that a record holds. -/
def recordRow (r : Nat) (b : List Byte) : Option Row :=
  let c := (b.getD 36 0).toNat
  if c < 128 then none
  else some ⟨BitVec.ofNat 32 (bytesNat ((b.drop 32).take 4)), BitVec.ofNat 256 (bytesNat (b.take 32)), c % 16, .spill r⟩

/-- The records that other agents have written. -/
def hitRecords (x : Shelf) : List Nat :=
  (List.range (64 * x.frames.length)).filter fun r => x.taint.any fun w => overlap w.1 w.2.length (recordKey x r) 64

/-- One record as the shelf finds it: each bit the shelf's or one that another agent wrote there. A tag that another row has
is not taken a second time. -/
def mixRecord (x : Shelf) (s : State) (r : Nat) : Shelf × State :=
  let (b, s1) := mixFormers x.taint (recordKey x r) (spillRecord x r) s
  let rest := x.rows.filter fun y => y.loc != .spill r
  ({ x with rows := rest ++ (recordRow r b).toList.filter fun y => !rest.any fun z => z.tag == y.tag }, s1)

/-- A shelf as the signature unit finds it: as it stands, where no other agent has written its region. -/
def foundShelf (x : Shelf) (s : State) : Shelf × State :=
  if x.taint.isEmpty then (x, s)
  else (hitRecords x).foldl (fun (y : Shelf × State) r => mixRecord y.1 y.2 r) (x, s)

/-! ### SHSTAT (R310) -/

def Row.inArray (r : Row) : Bool := match r.loc with | .array _ => true | _ => false
def Row.inSpill (r : Row) : Bool := match r.loc with | .spill _ => true | _ => false

def shstatWord (l : Leaf) (sh : Nat) (x : Shelf) : Word :=
  let count := fun (p : Row → Bool) => (x.rows.filter p).length
  BitVec.ofNat 64 (count Row.inSpill * 2 ^ 39 + count Row.inArray * 2 ^ 25 + count Row.inTransit * 2 ^ 20
    + ((l.sigq ++ l.sigtq).filter fun o => o.sh == sh).length * 2 ^ 15 + (if x.broken then 4 else 0)
    + (if (issueCfg l sh).isSome then 1 else 0))

def newestWord (x : Shelf) : Word :=
  match x.newest with
  | some t => BitVec.ofNat 64 (2 ^ 32 + t.toNat)
  | none => 0

def shstatEffect (f : MShstat) (s : State) : State :=
  let (x, s1) := foundShelf (getShelf s.leaf f.sh.toNat) s
  addScalar s1 2 f.sd (if f.new then newestWord x else shstatWord s.leaf f.sh.toNat x) none .m

def execShstat (f : MShstat) (s : State) : Out := runPlain (.shstat f) (shstatEffect f) s

/-! ### Sets and the order (R298, R305) -/

def isSink (c : ShelfCfg) (r : Row) : Bool := decide (r.tag.toNat < c.s)

def isRecent (c : ShelfCfg) (newest : Option (BitVec 32)) (r : Row) : Bool :=
  match newest with
  | some n => decide (n.toNat < r.tag.toNat + c.w)
  | none => false

def eligible (c : ShelfCfg) (newest : Option (BitVec 32)) (r : Row) : Bool := !isSink c r && !isRecent c newest r

def score (c : ShelfCfg) (q : BitVec 256) (r : Row) : Nat := popcountNat 256 ((~~~(q ^^^ r.sig)) &&& c.mask).toNat

/-- Inserts before the first element that does not come before. -/
def insertBy {α : Type} (before : α → α → Bool) (x : α) : List α → List α
  | [] => [x]
  | y :: r => if before y x then y :: insertBy before x r else x :: y :: r

def sortBy {α : Type} (before : α → α → Bool) (l : List α) : List α := l.foldr (insertBy before) []

/-- Score descending, then TAG descending. -/
def ranksBefore (c : ShelfCfg) (q : BitVec 256) (a b : Row) : Bool :=
  decide (score c q b < score c q a) || (score c q a == score c q b && decide (b.tag.toNat < a.tag.toNat))

def selectedRows (c : ShelfCfg) (x : Shelf) (q : BitVec 256) : List Row :=
  (sortBy (ranksBefore c q) (x.rows.filter (eligible c x.newest))).take c.k

/-- The page list, ascending. -/
def selectTags (c : ShelfCfg) (x : Shelf) (q : BitVec 256) : List Nat :=
  let tags := (selectedRows c x q).map fun r => r.tag
  (sortBy (fun a b => decide (a < b)) ((x.rows.filter fun r => !eligible c x.newest r || tags.contains r.tag).map
    fun r => r.tag.toNat))

/-- The list that SSEL writes: of a shelf whose region other agents have written no more tags than its handle has room for, since
what is unpredictable stays within the shelf (R301, R306). -/
def listedTags (c : ShelfCfg) (x : Shelf) (q : BitVec 256) : List Nat :=
  if x.taint.isEmpty then selectTags c x q else (selectTags c x q).take (c.s + c.w + c.k)

def heatSelected (c : ShelfCfg) (x : Shelf) (q : BitVec 256) : Shelf :=
  let tags := (selectedRows c x q).map fun r => r.tag
  { x with rows := x.rows.map fun r => if tags.contains r.tag then { r with heat := 15 } else r }

/-! ### Insertion (R307) -/

def hasTag (x : Shelf) (t : BitVec 32) : Bool := x.rows.any fun r => r.tag == t

/-- The lowest array row of the shelf that holds none. -/
def freeArrayRow (c : ShelfCfg) (x : Shelf) : Option Nat :=
  ((List.range c.rowCount).map fun i => c.rowBase + i).find? fun n => !x.rows.any fun r => r.loc == .array n

/-- The lowest record neither valid nor reserved. -/
def freeRecord (c : ShelfCfg) (x : Shelf) : Option Nat :=
  (List.range c.spillRows).find? fun n => !x.rows.any fun r => r.loc == .transit n || r.loc == .spill n

def coldest : List Row → Option Row
  | [] => none
  | r :: rs =>
    match coldest rs with
    | some b => if decide (r.heat < b.heat) || (r.heat == b.heat && decide (r.tag.toNat < b.tag.toNat)) then some r else some b
    | none => some r

/-- What an insertion comes to: done, refused for want of a record, or waiting for a transit slot. -/
inductive Insert where
  | done (x : Shelf)
  | full
  | wait
  deriving DecidableEq, Repr

/-- DESIGN CHOICE: log entry 81. -/
def insertRow (c : ShelfCfg) (x : Shelf) (sig : BitVec 256) (t : BitVec 32) (slotFree : Bool) : Insert :=
  if hasTag x t then
    .done { x with rows := x.rows.map fun r => if r.tag == t then { r with sig := sig, heat := 15 } else r }
  else
    let n := match x.newest with
      | none => t
      | some m => if m.toNat < t.toNat then t else m
    let new : Row := ⟨t, sig, 15, .array 0⟩
    match freeArrayRow c x with
    | some a => .done { x with newest := some n, rows := x.rows ++ [{ new with loc := .array a }] }
    | none =>
      match coldest ((x.rows.filter fun r => r.inArray && eligible c (some n) r)
          ++ (if eligible c (some n) new then [new] else [])) with
      | none => .full
      | some v =>
        match freeRecord c x with
        | none => .full
        | some r =>
          if !slotFree then .wait
          else if v.tag == t then
            .done { x with newest := some n, rows := x.rows ++ [{ new with loc := .transit r }] }
          else
            .done { x with
              newest := some n
              rows := (x.rows.map fun y => if y.tag == v.tag then { y with loc := .transit r } else y)
                ++ [{ new with loc := v.loc }] }

/-- Rows in transit on a quire (R311). -/
def inTransit (s : State) (q : Nat) : Nat :=
  (List.range 4).foldl (fun n j =>
    (getLeaf s (4 * q + j)).shelves.foldl (fun n p => n + (p.2.rows.filter Row.inTransit).length) n) 0

/-! ### The spill region (R301) -/

/-- A page's conditions beyond its translation. -/
def spillPageOk (home : Nat) (t : Trans) : Bool :=
  !t.keyed && t.cache == 2 && t.pkg == home && region t.pa == .hbm true

/-- Translates every page of the region for reading and writing; the first page that fails otherwise. DESIGN CHOICE: log entry 96. -/
def spillFrames (s : State) (r : Reader) (run : Run) : List Nat → Except Nat (List Trans) × State
  | [] => (.ok [], s)
  | va :: vs =>
    match translate s r run.asid run.root false va .r with
    | (.error _, s1) => (.error va, s1)
    | (.ok _, s1) =>
      match translate s1 r run.asid run.root false va .w with
      | (.error _, s2) => (.error va, s2)
      | (.ok t, s2) =>
        if !spillPageOk s2.node.package.toNat t then (.error va, s2)
        else
          match spillFrames s2 r run vs with
          | (.ok ts, s3) => (.ok (t :: ts), s3)
          | (.error e, s3) => (.error e, s3)

def spillPages (c : ShelfCfg) : List Nat :=
  (List.range (c.spillRows * 64 / 4096)).map fun i => (c.spillVa.toNat + 4096 * i) % 2 ^ 64

/-- The first page that lies on another stack than the region's first. -/
def strayPage (ps : List Nat) (ts : List Trans) : Option Nat :=
  match ts with
  | [] => none
  | t :: _ => ((ps.zip ts).find? fun x => stackOf x.2.pa != stackOf t.pa).map Prod.fst

/-! ### Completion (R302) -/

def sigHead (l : Leaf) (trapQ : Bool) : Option SigOp := (if trapQ then l.sigtq else l.sigq).head?

def dropSig (l : Leaf) (id : Nat) : Leaf :=
  { l with sigq := l.sigq.filter fun o => o.id != id, sigtq := l.sigtq.filter fun o => o.id != id }

/-- What the operation's completion makes visible to its leaf (R212, R302). -/
def SigOp.done (o : SigOp) (g : Nat) : Clock := [(engineObs o.id g, 1)]

def completeSig (s : State) (g : Nat) (o : SigOp) : State :=
  postOpt (updLeaf s g fun l => dropSig l o.id) g o.tok (o.done g)

def sigFails (s : State) (g : Nat) (trapQ : Bool) (o : SigOp) (detail : Nat) (fva : Word) : State :=
  let hold := fun (x : SigOp) => if x.id == o.id then { x with held := true } else x
  let s1 := updLeaf s g fun l => { l with sigq := l.sigq.map hold, sigtq := l.sigtq.map hold }
  raiseAsync s1 g trapQ { cause := .shelf, detail := detail, unit := 3, obj := o.sh, async := true, fva := fva, op := o.id }

/-- SHCFG takes effect (R300, R301). DEDUCED: log entry 62. DEDUCED: log entry 64. -/
def runShcfg (s : State) (g : Nat) (trapQ : Bool) (o : SigOp) (c : ShelfCfg) : State :=
  let was := getShelf (getLeaf s g) o.sh
  if c.rowCount = 0 then completeSig (updLeaf (noteRecords s was .reset) g fun l => setShelf l o.sh .reset) g o
  else
    match leafRun s g with
    | none => s
    | some run =>
      let ps := spillPages c
      match spillFrames s (engineReader s o.id g o.po 1) run ps with
      | (.error va, s1) => sigFails s1 g trapQ o 5 (BitVec.ofNat 64 va)
      | (.ok ts, s1) =>
        match strayPage ps ts with
        | some va => sigFails s1 g trapQ o 5 (BitVec.ofNat 64 va)
        | none =>
          let s2 := { s1 with freeMem := s1.freeMem ++ ts.map fun t => ⟨frameKey t, 4096, some []⟩ }
          completeSig (updLeaf (noteRecords s2 was .reset) g fun l => setShelf l o.sh ⟨some c, none, [], ts, false, []⟩) g o

/-- SSEL's list into the verso, then its count and publish (R306). -/
def runSsel (s : State) (g : Nat) (o : SigOp) (c : ShelfCfg) (x : Shelf) (q : BitVec 256) (h : Nat) : State :=
  let tags := listedTags c x q
  let bs := natBytes tags.length 4 ++ tags.flatMap fun t => natBytes t 4
  let s1 := engineSheet s g (engineObs o.id g) (getHandle (getLeaf s g) h).verso bs
  let s2 := noteRecords s1 (getShelf (getLeaf s g) o.sh) (heatSelected c x q)
  completeSig (updLeaf s2 g fun l =>
    let hd := getHandle l h
    let hd1 := { hd with fill := hd.fill - 1, deferred := true, posted := clockJoin hd.posted (o.done g) }
    setHandle (setShelf l o.sh (heatSelected c x q)) h (settlePublish l hd1 [])) g o

/-- SRDR's record; what the leaf stores there before the token is observed is mixed with it (R309). -/
def runSrdr (s : State) (g : Nat) (o : SigOp) (x : Shelf) (off : Nat) (t : BitVec 32) : State :=
  let (b, s1) := mixWhere (fun a => meets [(a, 1)] o.taint) off (rowRecord x t) (sheetRead (getLeaf s g) off 64) s
  completeSig (engineSheet s1 g (engineObs o.id g) off b) g o

/-- The head of a queue takes effect. -/
def runSig (s0 : State) (g : Nat) (trapQ : Bool) (o : SigOp) : State :=
  let l := getLeaf s0 g
  let (x, s) := foundShelf (getShelf l o.sh) s0
  let put := fun (y : Shelf) => completeSig (updLeaf (noteRecords s (getShelf l o.sh) y) g fun l => setShelf l o.sh y) g o
  match o.form with
  | .shcfg c => if tlbinvBefore l trapQ o.po then s else runShcfg s g trapQ o c
  | f =>
    match x.cfg with
    | none => completeSig s g o
    | some c =>
      if x.broken then sigFails s g trapQ o 6 0
      else
        match f with
        | .sins sig t =>
          match insertRow c x sig t (decide (inTransit s (quireOf g) < 16)) with
          | .done y => put y
          | .full => sigFails s g trapQ o 1 0
          | .wait => s
        | .sage => put { x with rows := x.rows.map fun r => { r with heat := r.heat - 1 } }
        | .sdel t => put { x with rows := x.rows.filter fun r => r.tag != t }
        | .ssel q h => runSsel s g o c x q h
        | .srdr off t => runSrdr s g o x off t
        | .shcfg _ => s

/-- An operation runs and completes; none starts once the cluster is asked to stop (R317). -/
def execSignatureOpComplete (g : Nat) (trapQ : Bool) (s : State) : Out :=
  match sigHead (getLeaf s g) trapQ with
  | some o => .next (if o.held || stopping s g then s else runSig s g trapQ o)
  | none => .next s

/-- The transit row of quire `q` that `id` names, `(leaf * 16 + shelf) * 2^24 + record`, reaches its record (R311). -/
def execSpillTransitComplete (q id : Nat) (s : State) : Out :=
  let g := 4 * q + id / 2 ^ 28 % 4
  let sh := id / 2 ^ 24 % 16
  let r := id % 2 ^ 24
  let x := getShelf (getLeaf s g) sh
  if x.rows.any fun y => y.loc == .transit r then
    .next (updLeaf s g fun l =>
      setShelf l sh { x with rows := x.rows.map fun y => if y.loc == .transit r then { y with loc := .spill r } else y })
  else .next s

/-! ### RTE's choice (R314) -/

/-- An abandoned operation changes nothing; an SSEL gives its count back. -/
def abandonSig (s : State) (g : Nat) (o : SigOp) : State :=
  let s1 := match o.form with
    | .ssel _ h => updLeaf s g fun l =>
        let hd := getHandle l h
        setHandle l h (settlePublish l { hd with fill := hd.fill - 1 } [])
    | _ => s
  completeSig s1 g o

def retrySig (s : State) (g id detail : Nat) (retry : Bool) : State :=
  let l := getLeaf s g
  match l.sigq with
  | o :: _ =>
    if o.id != id || !o.held then s
    else if retry && detail != 6 then
      updLeaf s g fun l => { l with sigq := l.sigq.map fun x => if x.id == id then { x with held := false } else x }
    else l.sigq.foldl (fun s o => abandonSig s g o) s
  | [] => s

end Sys2Proof.Machine
end

