-- ==== Sys2Proof/Machine/Trap.lean ====
section
/-! DEFINITION. TRAP, BRK and RTE, the return from a trap, the system registers, and the boundary at which a due cause is
taken (R319 to R343). -/

namespace Sys2Proof.Machine

/-! ### TRAP and BRK (R331) -/

/-- SOFTWARE or BREAK, taken at the boundary after the bundle. -/
def pendSoftware (c : Cause) (imm : BitVec 16) (s : State) : State :=
  s.upd fun l => { l with swPend := some { cause := c, fva := imm.setWidth 64 } }

def execTrap (f : KImm) (s : State) : Out := runPlain (.trap f) (pendSoftware .software f.imm) s
def execBrk (f : KImm) (s : State) : Out := runPlain (.brk f) (pendSoftware .break_ f.imm) s

/-! ### RTE (R332) -/

/-- DEDUCED: log entry 19. -/
def rteCause (s : State) : Option Trap :=
  match s.leaf.level with
  | .ordinary => some (slotTrap .privilege .k)
  | .trap => transferCause s

/-- RTE sets its delay bundle going; the return follows that bundle. -/
def rteEffect (s : State) : State := s.upd fun l => { l with xfer := .rte }

def execRte (s : State) : Out := runOp .rte rteCause noWait rteEffect s

def ctlDelay (l : Leaf) : Bool := l.trapCtl.getLsbD 2
def ctlSkip (l : Leaf) : Bool := l.trapCtl.getLsbD 1
def ctlRetry (l : Leaf) : Bool := l.trapCtl.getLsbD 0

/-- The slot that SKIPSLOT names: TRAP_CAUSE.SLOT, where the trap was a decode or issue cause of a slot (R329). -/
def skipOf (l : Leaf) : Nat :=
  let slot := (l.trapCause.extractLsb' 13 4).toNat
  if ctlSkip l && l.slotCause && decide (1 ≤ slot) && decide (slot ≤ 9) then slot else 0

/-- The handler's choice for the trapped engine fault (R335). DEDUCED: log entry 45. -/
def applyRetry (s : State) (g : Nat) : State :=
  let l := getLeaf s g
  match l.handling with
  | none => s
  | some t =>
    match t.unit with
    | 1 => retryEpi s g t.op (ctlRetry l)
    | 2 => retrySew s g t.op (ctlRetry l)
    | 3 => retrySig s g t.op t.detail (ctlRetry l)
    | _ => s

/-- A wait that a bundle which has issued stands in; the others are found again at the resume point. DEDUCED: log entry 21. -/
def issuedWait : Wait → Wait
  | .tokens k m => .tokens k m
  | .phase k p a => .phase k p a
  | .task a b => .task a b
  | .taskDone a h => .taskDone a h
  | _ => .none

/-- Suspended entries are reissued (R333). -/
def reissue (e : LogEntry) : LogEntry := if e.stage = .suspended then { e with stage := .walk } else e

/-- The frame restored: the interrupted stream goes on at TRAP_PC (R327, R332). -/
def restoreFrame (l : Leaf) (fr : Frame) : Leaf :=
  let same := l.trapPc == fr.pc
  { l with
    level := .ordinary, frame := none, handling := none, rteDue := false, pc := l.trapPc, inflight := fr.inflight,
    latches := fr.latches, fmt := fr.fmt, fmtPend := fr.fmtPend, loopOuter := fr.loopOuter, loopInner := fr.loopInner,
    wait := issuedWait fr.wait, blocked := fr.blocked, waited := same && fr.waited, xfer := .none,
    doubts := fr.doubts, held := if same then fr.held else .none, swPend := fr.swPend, slotCause := false,
    delay := if ctlDelay l then .taken l.trapNpc else if same && fr.delay == .notTaken then .notTaken else .none,
    skipSlot := skipOf l, olog := l.olog.map reissue }

/-- The return after RTE's delay bundle, once the handler's results have landed and its log has performed (R332, R334). -/
def rteReturn (s : State) (g : Nat) : State :=
  let s1 := applyRetry (updLeaf s g landAll) g
  updLeaf s1 g fun l =>
    match l.frame with
    | some fr => restoreFrame l fr
    | none => l

/-- The return may take place. -/
def rteReady (l : Leaf) : Bool := l.rteDue && allArrived l && l.tlog.isEmpty

/-! ### System registers (R341, R342) -/

def frameOr {α : Type} (l : Leaf) (own : α) (saved : Frame → α) : α :=
  match l.frame with
  | some fr => saved fr
  | none => own

/-- WS_WINDOW (R181). -/
def wsWord (s : State) : Word := BitVec.ofNat 64 (s.wsPeriod.toNat * 2 ^ 20 + s.wsLength.toNat * 2 ^ 8)

/-- LEAF_ID (R343). -/
def leafId (pkg g : Nat) : Word :=
  BitVec.ofNat 64 (pkg * 2 ^ 26 + halfOf g * 2 ^ 25 + clusterOf g * 2 ^ 20 + quireOf g * 2 ^ 12 + g % 4 * 2 ^ 10 + g)

def readSys (s : State) (num : Nat) : Word :=
  let l := s.leaf
  match num with
  | 0x000 => (frameOr l l.fmt fun fr => fr.fmt).setWidth 64
  | 0x001 => l.fstat
  | 0x002 => l.freezeLimit
  | 0x003 => frameOr l l.loopOuter fun fr => fr.loopOuter
  | 0x004 => frameOr l l.loopInner fun fr => fr.loopInner
  | 0x005 => l.pin0
  | 0x006 => l.pin1
  | 0x007 => wsWord s
  | 0x008 => l.impose
  | 0x009 => l.sewShape
  | 0x00A => l.sewFault
  | 0x00B => l.watchAddr
  | 0x00C => l.watchCtl
  | 0x00E => leafId s.node.package.toNat s.cur
  | 0x00F => s.dtc
  | 0x010 => l.trapCause
  | 0x011 => l.trapPc
  | 0x012 => l.trapNpc
  | 0x013 => l.trapFva
  | 0x014 => l.trapCtl
  | 0x015 => l.trapVec
  | 0x016 => l.emulVec
  | n => if 0x018 ≤ n ∧ n ≤ 0x01B then mapGet l.scratch (n - 0x018) 0 else 0

/-- Readable at trap level only. -/
def trapOnlyRead (n : Nat) : Bool := decide (0x010 ≤ n)

/-- Writable at trap level only. -/
def trapOnlyWrite (n : Nat) : Bool := n == 2 || n == 3 || n == 4 || n == 9 || decide (0x010 ≤ n)

def sysrdCause (f : KSys) (s : State) : Option Trap :=
  if s.leaf.level == .ordinary && trapOnlyRead f.num.toNat then some (slotTrap .privilege .k) else none

def sysrdEffect (f : KSys) (s : State) : State := addScalar s 1 f.r (readSys s f.num.toNat) none .k

def withPin (l : Leaf) (n : Nat) (v : Word) : Leaf := if n = 5 then { l with pin0 := v } else { l with pin1 := v }

def syswrCause (f : KSys) (s : State) : Option Trap :=
  let l := s.leaf
  let n := f.num.toNat
  let v := readS l f.r
  if l.level == .ordinary && trapOnlyWrite n then some (slotTrap .privilege .k)
  else if n == 5 || n == 6 then
    if 12 < (pinnedSheets (withPin l n v)).length then some (slotTrap .illegalOp .k) else none
  else if n == 9 && (shapeOf v).bad then some (slotTrap .illegalOp .k)
  else none

/-- The fields that a loop level and the other registers keep. -/
def loopMask : Word := 0xFFFFFFFF80FFFFFF

def onFrame (l : Leaf) (f : Frame → Frame) : Leaf := { l with frame := l.frame.map f }

def writeSys (l : Leaf) (num : Nat) (v : Word) : Leaf :=
  match num with
  | 0x000 =>
    match l.level with
    | .ordinary => pendFmt l (v.setWidth 22)
    | .trap => onFrame l fun fr => { fr with fmt := (v.setWidth 22).setWidth 32, fmtPend := [] }
  | 0x001 => { l with fstat := l.fstat &&& ~~~v }
  | 0x002 => { l with freezeLimit := v &&& 0xFFFF }
  | 0x003 => onFrame l fun fr => { fr with loopOuter := v &&& loopMask }
  | 0x004 => onFrame l fun fr => { fr with loopInner := v &&& loopMask }
  | 0x005 => { l with pin0 := v }
  | 0x006 => { l with pin1 := v }
  | 0x008 => { l with impose := v }
  | 0x009 => { l with sewShape := v &&& 0xFFFFFFFFFFFFFFF3 }
  | 0x00B => { l with watchAddr := v }
  | 0x00C => { l with watchCtl := v &&& 0xFF }
  | 0x010 => { l with trapCause := v &&& 0x3FFFFFFF }
  | 0x011 => { l with trapPc := v }
  | 0x012 => { l with trapNpc := v }
  | 0x013 => { l with trapFva := v }
  | 0x014 => { l with trapCtl := v &&& 7 }
  | n => if 0x018 ≤ n ∧ n ≤ 0x01B then { l with scratch := mapSet l.scratch (n - 0x018) 0 v } else l

/-- The sheets that a write to a pin register pins. -/
def pinSheets (n : Nat) (v : Word) : List Nat :=
  if n = 5 ∨ n = 6 then ((List.range 64).filter fun i => v.getLsbD i).map fun i => if n = 5 then i else 64 + i else []

def syswrEffect (f : KSys) (s : State) : State :=
  let v := readS s.leaf f.r
  touchSheets (s.upd fun l => writeSys l f.num.toNat v) s.cur (pinSheets f.num.toNat v) false

def execSysrd (f : KSys) (s : State) : Out := runOp (.sysrd f) (sysrdCause f) noWait (sysrdEffect f) s
def execSyswr (f : KSys) (s : State) : Out := runOp (.syswr f) (syswrCause f) noWait (syswrEffect f) s

/-! ### The boundary (R322, R323) -/

/-- A cause of ranks 1 to 4 that is due for a leaf in the wait of a bundle that has issued: no landing falls due there. -/
def dueInWait (l : Leaf) : Option (Trap × Leaf) :=
  (dueCause { l with inflight := [] } false).map fun x => (x.1, { x.2 with inflight := l.inflight })

/-- The leaf after a blocking bundle whose late load has faulted: its other results have landed (R48 step 4). -/
def settleFaulted (l : Leaf) : Leaf := { landTogether l with latches := [] }

/-- Every result has its data, or a fault in their place. -/
def allSettled (l : Leaf) : Bool :=
  l.inflight.all fun r => match r.waiting with
    | some id => (logOf l).any fun e => e.id == id && (match e.stage with | .faulted _ _ => true | _ => false)
    | none => true

/-- The cause due at the leaf's boundary; `drain` says that the bundle there must drain the leaf before it can issue. After
an always-blocking bundle its results land first, and only a fault of one of them may stop that (R48). -/
def dueHere (l : Leaf) (drain : Bool) : Option (Trap × Leaf) :=
  if l.rteDue then dueCause l true
  else if issuedWait l.wait != .none then dueInWait l
  else if l.blocked then
    if allArrived l then dueCause (settleBlocked l) false
    else if allSettled l then dueCause (settleFaulted l) true
    else none
  else dueCause l drain

/-- A leaf that still issues. -/
def issuing (l : Leaf) : Bool := l.run.isSome && !l.exited

/-- A leaf stalled at GSYNC, or frozen, gives up the quire's stall: its bundle has not issued (R242, R322). -/
def leaveStall (s : State) (g : Nat) : State :=
  updQuire s (quireOf g) fun q =>
    if q.sel = g % 4 then { q with gsync := .idle, freeze := 0 } else q

end Sys2Proof.Machine
end

