-- ==== Sys2Proof/Machine/RunWork.lean ====
section
/-! DEFINITION. Work inside a run (R374 to R380): ribbons, the head-task queues, EXIT and YIELD. -/

namespace Sys2Proof.Machine

/-! ### RIBN (R374) -/

def ribnEffect (f : KRibn) (s : State) : State :=
  let q := getQuire s (quireOf s.cur)
  if f.rem then addScalar s 1 f.sd (BitVec.ofNat 64 (q.ribbon.length - q.cursor)) none .k
  else
    match q.ribbon[q.cursor]? with
    | some w => addScalar (updQuire s (quireOf s.cur) fun q => { q with cursor := q.cursor + 1 }) 1 f.sd w none .k
    | none => addScalar s 1 f.sd (BitVec.allOnes 64) none .k

def execRibn (f : KRibn) (s : State) : Out := runPlain (.ribn f) (ribnEffect f) s

/-! ### The task table (R375, R376) -/

/-- Run-relative leaf number of a leaf of a placed run (R373). -/
def relLeaf (run : Run) (g : Nat) : Nat := 32 * (run.places.idxOf (some (clusterOf g))) + g % 32

def tableSize (run : Run) : Nat :=
  if run.pkt.tasks = 0 then 0 else run.pkt.taskCount + 32 * run.pkt.clusters * run.pkt.spawn

/-- STATE of a record; 5 stands for the FREE that follows an initial record's completion. The records of TSPAWN start FREE
(R375). DESIGN CHOICE: log entry 111. -/
def taskState (run : Run) (j : Nat) : Nat := mapGet run.taskState j 0

def taskIsFree (st : Nat) : Bool := st == 0 || st == 5

def recordVa (run : Run) (j : Nat) : Nat := (run.pkt.tasks.toNat + 64 * j) % 2 ^ 64

/-- Where a release of leaf `g` stands: after all it has entered so far (R376). DEDUCED: log entry 67. -/
def taskRel (l : Leaf) (g : Nat) : TaskRel := ⟨g, l.po, l.level == .trap⟩

/-- A leaf of a run by its number: on the device, or in the cluster saved from there (R345). -/
def leafOf (s : State) (run : Run) (g : Nat) : Leaf :=
  match run.saved.find? fun x => x.from_ == clusterOf g with
  | some x => x.leaves.getD (localLeaf g) .reset
  | none => getLeaf s g

/-- Every entry of the leaf's log before the release has performed. -/
def TaskRel.done (s : State) (run : Run) (r : TaskRel) : Bool := ackDue (leafOf s run r.leaf) (r.leaf, r.po, r.trapLog)

/-- What the release makes known, once it has been performed. -/
def TaskRel.clock (s : State) (run : Run) (r : TaskRel) : Clock := leafClock (leafOf s run r.leaf) r.leaf r.po

def relDone (s : State) (run : Run) : Option TaskRel → Bool
  | some r => r.done s run
  | none => true

/-- A record as leaf `g` finds it: its own writes it sees at once. -/
def relSeen (s : State) (run : Run) (g : Nat) : Option TaskRel → Bool
  | some r => r.leaf == g || r.done s run
  | none => true

/-- A write of a record's bytes by leaf `g`: a release that enters its log and performs after all that is older (R212, R376). -/
def taskWrite (s : State) (g : Nat) (run : Run) (j off : Nat) (b : List Byte) : State :=
  { (enterLog { s with cur := g } .task (BitVec.ofNat 64 (recordVa run j + off)) b.length (bytesVec b) 0).2 with cur := s.cur }

/-- PAYLOAD as the device reads it; open where it cannot be translated. -/
def taskPayload (s : State) (g : Nat) (run : Run) (j : Nat) : Word × State :=
  let l := getLeaf s g
  let rd : Reader := { obs := g, clock := leafReadClock l g l.po, gran := 1, po := l.po, latest := true }
  match readVirt s rd run.asid run.root false .r (recordVa run j) 8 with
  | (.ok (b, _), s1) => (BitVec.ofNat 64 (bytesNat b), s1)
  | (.error _, s1) =>
    let (v, s2) := takeFree s1
    (low 64 v, s2)

/-- A record's new STATE, in the device and on its way to memory, and the release that the write is. -/
def setTask (s : State) (g : Nat) (run : Run) (j st : Nat) : State :=
  let s1 := updRun s run.id fun r => { r with taskState := mapSet r.taskState j 0 st }
  let s2 := taskWrite s1 g run j 8 [BitVec.ofNat 8 (if st = 5 then 0 else st)]
  updRun s2 run.id fun r => { r with taskRels := mapPut r.taskRels j (taskRel (getLeaf s2 g) g) }

/-- The device reads a record's STATE for leaf `g`: an acquire of the write that it finds there (R376). -/
def readTask (s : State) (g : Nat) (run : Run) (j : Nat) : State :=
  match mapFind run.taskRels j with
  | some r =>
    if relSeen s run g (some r) then updLeaf s g fun l => acquire l (acquired g [⟨5, r.leaf, r.clock s run, none⟩]) else s
  | none => s

/-- Completes the leaf's current task (R376). -/
def completeTask (s : State) (g : Nat) : State :=
  let l := getLeaf s g
  match leafRun s g with
  | none => s
  | some run =>
    if l.task = 0 then s
    else
      let j := l.task.toNat - 1
      let s1 := setTask s g run j 3
      let s2 := if j < run.pkt.taskCount then setTask s1 g run j 5 else s1
      updLeaf s2 g fun l => { l with task := 0 }

def halfQueue (run : Run) (h : Nat) : List TaskRef := run.taskQ.getD h []

def setHalfQueue (run : Run) (h : Nat) (q : List TaskRef) : Run :=
  { run with taskQ := (List.range 2).map fun i => if i = h then q else halfQueue run i }

/-- No task of the run is QUEUED or TAKEN, and every queue is empty. -/
def noTasks (run : Run) : Bool :=
  run.taskQ.all (fun q => q.isEmpty) && run.taskState.all fun p => p.2 != 1 && p.2 != 2

/-- The oldest task of a queue, once its release has come (R375). -/
def nextTask (s : State) (run : Run) : List TaskRef → Option TaskRef
  | [] => none
  | t :: _ => if relDone s run t.rel then some t else none

/-- Leaf `g` finds that no task is left: every STATE that says so has been written (R376). -/
def noTasksSeen (s : State) (run : Run) (g : Nat) : Bool := noTasks run && run.taskRels.all fun p => relSeen s run g (some p.2)

/-- A TGET of leaf `g` finds a task, or that there is none to come. DEDUCED: log entry 66. -/
def tgetReady (s : State) (g : Nat) : Bool :=
  match leafRun s g with
  | some run => (nextTask s run (halfQueue run (halfOf g))).isSome || noTasksSeen s run g
  | none => false

/-- Puts a TGET's or TAWAIT's result where it lands with the bundle's own. -/
def addTaskResult (s : State) (g dist sd : Nat) (v : Word) : State :=
  updLeaf s g fun l =>
    { l with inflight := l.inflight ++
        [⟨dist, .s sd, v.setWidth 16384, onesBelow 64, none, l.seq, slotRank .k, 0, none⟩] }

/-- What a TGET takes (R377); one that finds no task left has read the STATE of every record (R376). Where both destinations
name one register, R40 leaves no room for both writes: the handle stands. DESIGN CHOICE: log entry 89. -/
def tgetTake (s : State) (g dist sd sh : Nat) : State :=
  match leafRun s g with
  | none => s
  | some run =>
    match nextTask s run (halfQueue run (halfOf g)) with
    | some t =>
      let s1 := updLeaf s g fun l => match t.rel with
        | some r => acquire l (acquired g [⟨5, r.leaf, r.clock s run, none⟩])
        | none => l
      let s2 := updRun s1 run.id fun r =>
        setHalfQueue r (halfOf g) ((halfQueue r (halfOf g)).filter fun x => x.rec_ != t.rec_)
      let s3 := setTask s2 g run t.rec_ 2
      let (p, s4) := taskPayload s3 g run t.rec_
      let hd := BitVec.ofNat 64 (t.rec_ + 1)
      addTaskResult (addTaskResult (updLeaf s4 g fun l => { l with task := hd }) g dist sd p) g dist sh hd
    | none =>
      let s1 := run.taskRels.foldl (fun s p => readTask s g run p.1) s
      addTaskResult (addTaskResult s1 g dist sd 0) g dist sh 0

def tgetEffect (f : KTask) (s : State) : State :=
  let s1 := completeTask s s.cur
  if tgetReady s1 s1.cur then tgetTake s1 s1.cur 1 f.sd.toNat f.x.toNat
  else s1.upd fun l => { l with wait := .task f.sd.toNat f.x.toNat }

/-- The records of the leaf's slice (R375). -/
def taskSlice (run : Run) (g : Nat) : List Nat :=
  if run.pkt.tasks = 0 then []
  else (List.range run.pkt.spawn).map fun i => run.pkt.taskCount + relLeaf run g * run.pkt.spawn + i

/-- Leaf `g` finds the record FREE; one that another leaf is about to free is not FREE yet. -/
def freeSeen (s : State) (run : Run) (g j : Nat) : Bool :=
  taskIsFree (taskState run j) && relSeen s run g (mapFind run.taskRels j)

/-- The lowest FREE record of the leaf's slice. -/
def freeTask (s : State) (run : Run) (g : Nat) : Option Nat := (taskSlice run g).find? (freeSeen s run g)

/-- The records whose STATE a TSPAWN reads: its slice as far as the first FREE one. -/
def spawnReads (s : State) (run : Run) (g : Nat) : List Nat :=
  (taskSlice run g).takeWhile (fun j => !freeSeen s run g j) ++ (freeTask s run g).toList

def tspawnEffect (f : KTask) (s0 : State) : State :=
  let g := s0.cur
  match leafRun s0 g with
  | none => s0
  | some run =>
    let s := (spawnReads s0 run g).foldl (fun s j => readTask s g run j) s0
    match freeTask s0 run g with
    | none => addScalar s 1 f.sd 0 none .k
    | some j =>
      let s1 := taskWrite s g run j 0 (natBytes (readS s.leaf f.x).toNat 8)
      let s2 := setTask s1 g run j 1
      let rel := taskRel (getLeaf s2 g) g
      let s3 := updRun s2 run.id fun r =>
        setHalfQueue r (halfOf g) (halfQueue r (halfOf g) ++ [⟨j, some rel⟩])
      addScalar s3 1 f.sd (BitVec.ofNat 64 (j + 1)) none .k

/-- The record that a handle names, if the table holds it. -/
def handleRec (run : Run) (h : Word) : Option Nat :=
  if h = 0 ∨ tableSize run < h.toNat then none else some (h.toNat - 1)

/-- A TAWAIT of leaf `g` on a handle can end; `waited` says that it has been waiting. -/
def tawaitReady (s : State) (g : Nat) (h : Word) (waited : Bool) : Bool :=
  match leafRun s g with
  | none => false
  | some run =>
    match handleRec run h with
    | none => true
    | some j =>
      let st := taskState run j
      if st = 3 ∨ st = 4 then relDone s run (mapFind run.taskRels j)
      else if st = 5 ∧ waited then relDone s run (mapFind run.taskRels j)
      else taskIsFree st

/-- What a TAWAIT gives, and the reaping (R377); one that waited for a record reaped meanwhile gets 0xFF. DEDUCED: log entry 66. -/
def tawaitTake (s : State) (g dist sd : Nat) (h : Word) (waited : Bool) : State :=
  match leafRun s g with
  | none => s
  | some run =>
    match handleRec run h with
    | none => addTaskResult s g dist sd 0xFF
    | some j =>
      let st := taskState run j
      let s1 := readTask s g run j
      if st = 3 ∨ st = 4 then addTaskResult (setTask s1 g run j 0) g dist sd (if st = 3 then 0 else 3)
      else if st = 5 ∧ waited then addTaskResult s1 g dist sd 0
      else addTaskResult s1 g dist sd 0xFF

def tawaitEffect (f : KTask) (s : State) : State :=
  let h := readS s.leaf f.x
  if tawaitReady s s.cur h false then tawaitTake s s.cur 1 f.sd.toNat h false
  else s.upd fun l => { l with wait := .taskDone f.sd.toNat h }

/-- Leaf `g` finds the record QUEUED. -/
def queuedSeen (s : State) (run : Run) (g j : Nat) : Bool :=
  run.taskQ.all fun q => q.all fun t => t.rec_ != j || relSeen s run g t.rel

def tcancelEffect (f : KTask) (s : State) : State :=
  let g := s.cur
  match leafRun s g with
  | none => s
  | some run =>
    match handleRec run (readS s.leaf f.x) with
    | none => addScalar s 1 f.sd 0 none .k
    | some j =>
      let s0 := readTask s g run j
      if taskState run j = 1 && queuedSeen s run g j then
        let s1 := setTask s0 g run j 4
        let s2 := updRun s1 run.id fun r => { r with taskQ := r.taskQ.map fun q => q.filter fun t => t.rec_ != j }
        addScalar s2 1 f.sd 1 none .k
      else addScalar s0 1 f.sd 0 none .k

def execTget (f : KTask) (s : State) : Out := runBlocking (.tget f) noCause noWait (tgetEffect f) s
def execTspawn (f : KTask) (s : State) : Out := runPlain (.tspawn f) (tspawnEffect f) s
def execTawait (f : KTask) (s : State) : Out := runBlocking (.tawait f) noCause noWait (tawaitEffect f) s
def execTcancel (f : KTask) (s : State) : Out := runPlain (.tcancel f) (tcancelEffect f) s

/-! ### EXIT and YIELD (R378 to R380) -/

/-- The oldest entry of a log whose fault has been detected. -/
def faultedEntry : List LogEntry → Option Trap
  | [] => none
  | e :: r =>
    match e.stage with
    | .faulted c fva => some (lateTrap e c fva)
    | _ => faultedEntry r

/-- EXIT at ordinary level: the leaf stops; a load fault not yet taken ends the run (R379). -/
def exitLeaf (s : State) (g : Nat) : State :=
  let s1 := leaveAll (completeTask s g) g
  let s2 := updLeaf s1 g fun l => { l with exited := true, inflight := [], wait := .none }
  match faultedEntry (getLeaf s2 g).olog with
  | some t => faultEnd s2 g t.word (getLeaf s2 g).pc t.fva
  | none => s2

def exitEffect (s : State) : State :=
  let l := s.leaf
  match l.level with
  | .ordinary => exitLeaf s s.cur
  | .trap => faultEnd s s.cur l.trapCause l.trapPc l.trapFva

def execExit (s : State) : Out := runPlain .exit_ exitEffect s

def yieldCause (f : KYield) (s : State) : Option Trap :=
  let n := ((leafRun s s.cur).map fun r => r.segs.length).getD 0
  if f.sel && f.segno != 0xFFFF && decide (n ≤ f.segno.toNat) then some (slotTrap .illegalOp .k) else none

/-- YIELD: the selected segment, and the back of the selector's order (R380, R381). -/
def yieldEffect (f : KYield) (s : State) : State :=
  let s1 := if f.sel then s.upd fun l => { l with selSeg := if f.segno = 0xFFFF then none else some f.segno.toNat } else s
  updQuire s1 (quireOf s.cur) fun q => { q with sel := (s.cur % 4 + 1) % 4 }

def execYield (f : KYield) (s : State) : Out := runBlocking (.yield f) (yieldCause f) noWait (yieldEffect f) s

end Sys2Proof.Machine
end

