-- ==== Sys2Proof/Machine/Transform.lean ====
section
/-! DEFINITION. The X slot (R147 to R159): convert, pack, unpack, expand, transpose. -/

namespace Sys2Proof.Machine

/-- A result of the X slot: `mask` names the bits of vd it writes, and the latch gets zero in the others (R148). -/
def xResult (s : State) (lat latch : Nat) (nowb : Bool) (vd : BitVec 9) (value mask : Vec) (flags : Flags) : State :=
  addResult s lat (vecDest nowb vd) value mask (some latch) (slotRank .x) flags

def joinFlags (l : List (Nat × Flags)) : Flags := l.foldl (fun a x => a ||| x.2) 0

/-- Elements `first` to `first + es.length − 1` of width `w`, and the bits they cover. -/
def placeElems (w first : Nat) (es : List Nat) : Vec × Vec :=
  (BitVec.ofNat 16384 (packNat w es) <<< (w * first), onesBelow (w * es.length) <<< (w * first))

/-- XCVT (R150). -/
def xcvtEffect (f : XCvt) (s : State) : State :=
  let l := s.leaf
  let frm := f.src.toNat
  let tgt := f.dst.toNat
  let ws := fmtWidth frm
  let wd := fmtWidth tgt
  let n := 16384 / max ws wd
  let p := f.part.toNat * n
  let src := elements ws (readV l f.vs)
  let used := if wd ≤ ws then src else (src.drop p).take n
  let rs := used.map (convertCode frm tgt (leafCtx l))
  let (v, m) := placeElems wd (if wd < ws then p else 0) (rs.map Prod.fst)
  xResult s 3 8 f.nowb f.vd v m (joinFlags rs)

def isBx8 (code : Nat) : Bool := code == 5

/-- Blocks of 32 from a list. -/
def blocks32 {α : Type} : Nat → List α → List (List α)
  | 0, _ => []
  | n + 1, l => l.take 32 :: blocks32 n (l.drop 32)

def floatOf (code : Nat) : FloatFmt :=
  match fmtOf code with
  | .flt f => f
  | _ => fp32

/-- XPACK (R151, R152). -/
def xpackEffect (f : XCvt) (s : State) : State :=
  let l := s.leaf
  let c := leafCtx l
  let t := floatOf f.src.toNat
  let bx8 := isBx8 f.dst.toNat
  let n := 16384 / t.width
  let nums := (elements t.width (readV l f.vs)).map (readFloat t c)
  let bs := (blocks32 (n / 32) nums).map (encodeBlk bx8 c)
  let (ev, em) := placeElems (if bx8 then 8 else 4) (f.part.toNat * n) (bs.flatMap fun b => b.2.1)
  let (xv, xm) := placeElems 16 (f.part.toNat * (n / 32)) (bs.map fun b => b.1)
  let fl := bs.foldl (fun (a : Flags) b => a ||| b.2.2) 0
  xResult s 5 8 f.nowb f.vd (ev ||| (xv <<< 8192)) (em ||| (xm <<< 8192)) fl

/-- XUNPK (R152). -/
def xunpkEffect (f : XCvt) (s : State) : State :=
  let l := s.leaf
  let c := leafCtx l
  let t := floatOf f.dst.toNat
  let bx8 := isBx8 f.src.toNat
  let n := 16384 / t.width
  let src := readV l f.vs
  let es := elements (if bx8 then 8 else 4) src
  let xw := elements 16 (src >>> 8192)
  let rs := (List.range n).map fun i =>
    let g := f.part.toNat * n + i
    roundFloat t c (decodeBlk bx8 (xw.getD (g / 32) 0) (es.getD g 0))
  xResult s 3 8 f.nowb f.vd (ofElements t.width (rs.map Prod.fst)) (onesBelow 16384) (joinFlags rs)

def execXcvt (f : XCvt) (s : State) : Out := .next (xcvtEffect f s)
def execXpack (f : XCvt) (s : State) : Out := .next (xpackEffect f s)
def execXunpk (f : XCvt) (s : State) : Out := .next (xunpkEffect f s)

/-! ### XEXP (R153 to R157) -/

def xexpCount (f : XExp) : Nat := if f.fmt = 0 then 512 else 1024
def xexpWidth (f : XExp) : Nat := if f.fmt = 0 then 32 else 16

/-- The number of tables the indices of this PART reach (R157). -/
def xexpTables (f : XExp) : Nat := (f.part.toNat * xexpCount f + xexpCount f - 1) / 128 + 1

def xexpReady (f : XExp) (s : State) : Bool :=
  let g := (getHandle s.leaf f.h.toNat).gen
  decide ((g - (readS s.leaf f.sg).setWidth 32).toNat < 2 ^ 31)

/-- FREE and ERROR trap at once; the length counts once the handle is ready. -/
def xexpCause (f : XExp) (s : State) : Option Trap :=
  let h := getHandle s.leaf f.h.toNat
  if !h.cfg || h.ecause != 0 then some (slotTrap .handleState .x)
  else if xexpReady f s && decide (h.len < xexpTables f * xexpWidth f) then some (slotTrap .handleState .x)
  else none

def xexpWaits (f : XExp) (s : State) : Bool := !xexpReady f s

/-- The recto of the other published generations at or above the wanted one (R155). -/
def xexpOthers (h : Handle) (want : BitVec 32) : List (List Byte) := h.rectos.take (h.gen - want).toNat

/-- The expansion of the indices by tables in memory order. -/
def expandBy (f : XExp) (l : Leaf) (tab : List Byte) : Vec :=
  let n := xexpCount f
  let w := xexpWidth f
  let ents := splitNat w (xexpTables f * 8) (bytesNat (tab.take (xexpTables f * w)))
  let idx := splitNat 3 4096 (readV l f.vs).toNat
  ofElements w ((List.range n).map fun i =>
    let g := f.part.toNat * n + i
    ents.getD (g / 128 * 8 + idx.getD g 0) 0)

/-- Bit by bit, the first value or one of the others. -/
def mixVecs (v : Vec) : List Vec → State → Vec × State
  | [], s => (v, s)
  | w :: ws, s =>
    let (m, s1) := takeFree s
    mixVecs (mixBits v w m) ws s1

/-- The expansion: by the tables of the recto, which may hold what a store or another configuration left there, or, where more
than one generation at or above the wanted one was published, by those of any of them (R155, R163, R251, R2). -/
def xexpEffect (f : XExp) (s : State) : State :=
  let l := s.leaf
  let h := getHandle l f.h.toNat
  let n := xexpTables f * xexpWidth f
  let (tab, s0) := mixFormers h.taint h.recto (sheetRead l h.recto n) s
  let (v, s1) := mixVecs (expandBy f l tab) ((xexpOthers h ((readS l f.sg).setWidth 32)).map (expandBy f l)) s0
  let s2 := touchSheets s1 s1.cur (sheetsOf h.recto n) false
  (xResult s2 3 9 f.nowb f.vd v (onesBelow 16384) 0).upd fun l => acquire l h.clock

def execXexp (f : XExp) (s : State) : Out := runOp (.xexp f) (xexpCause f) (xexpWaits f) (xexpEffect f) s

/-! ### XTRN (R158) -/

def xtrnEffect (f : XTrn) (s : State) : State :=
  let w := 32 / 2 ^ f.esz.toNat
  let n := 16384 / w
  let r := 2 ^ f.rlog.toNat
  let c := n / r
  let es := (elements w (readV s.leaf f.vs)).toArray
  let out := (List.range n).map fun k => es.getD (k % r * c + k / r) 0
  xResult s 8 10 f.nowb f.vd (ofElements w out) (onesBelow 16384) 0

def execXtrn (f : XTrn) (s : State) : Out := .next (xtrnEffect f s)

end Sys2Proof.Machine
end

