-- ==== Sys2Proof/Machine/Issue.lean ====
section
/-! DEFINITION. Issue (R18, R21, R30, R43 to R56, R241, R242, R322, R323, R381, R382): which leaf of a quire issues, the
checks of the bundle it stands at, the order of the bundle's effects, and the events of the leaf selector, of freezes and
waits, and of segments. -/

namespace Sys2Proof.Machine

/-! ### What each operation checks at issue -/

/-- The cause an operation raises at issue (R321), on the leaf as its reads see it. -/
def issueCause (i : Instr) (s : State) : Option Trap :=
  let l := s.leaf
  match i with
  | .br _ | .bri _ | .call _ | .callInd _ | .ret | .beq _ | .bne _ | .blt _ | .bge _ | .bltn _ | .bgen _ | .bz _ | .bnz _ =>
    transferCause s
  | .loop f => loopCause f.off.toNat s
  | .loopi f => loopCause f.off.toNat s
  | .sysrd f => sysrdCause f s
  | .syswr f => syswrCause f s
  | .rte => rteCause s
  | .karv f => karvCause f s
  | .kwait f => kwaitCause f s
  | .kinit f => kinitCause f s
  | .gjoin f => gjoinCause f s
  | .gleave f => gleaveCause f s
  | .aliasf f => aliasfCause f s
  | .tlbinv f => tlbinvCause f s
  | .yield f => yieldCause f s
  | .pld f => sheetCause (pldRanges f l) (sizeBytes f.size)
  | .pst f => sheetCause (pstRanges f l) (sizeBytes f.size)
  | .pldv f => sheetCause (pldvRanges f l) 64
  | .pstv f => pstvCause f s
  | .pldvs f => sheetCause (pldvsRanges f l) (sizeBytes f.size)
  | .pgth f => sheetCause (pgthRanges f l) 4
  | .psct f => sheetCause (storeRanges (psctStores f l)) 4
  | .pldh f => pldhCause f.h f.base f.off (sizeBytes f.size) (sizeBytes f.size) s
  | .pldhV f => pldhCause f.h f.base f.off 2048 64 s
  | .gld f => gAlign (gldAddr f l) (sizeBytes f.size)
  | .gst f => gAlign (gstAddr f l) (sizeBytes f.size)
  | .gldv f => gAlign (gldvAddr f l) 64
  | .gstv f => gAlign (gstvAddr f l) 64
  | .aadd f | .afadd f | .amin f | .amax f | .aand f | .aor f | .axor f | .aswp f | .ainc f => atomCause f.base f.wide s
  | .acas f => atomCause f.base f.wide s
  | .mma f => mmaCause f s
  | .mmaz f => mmazCause f s
  | .epi f => epiCause f s
  | .qcfg f => qcfgCause f s
  | .qput f => qputCause f s
  | .qget f => qgetCause f s
  | .sewcfg f => sewcfgCause f s
  | .bondset f => bondsetCause f s
  | .sew f => sewCause f s
  | .sewrun f => sewrunCause f s
  | .sewst f => sewstCause f s
  | .shcfg f => shcfgCause f s
  | .sins f => needsShelf l f.sh.toNat
  | .sage f => needsShelf l f.sh.toNat
  | .sdel f => needsShelf l f.sh.toNat
  | .ssel f => sselCause f s
  | .srdr f => srdrCause f s
  | .xexp f => xexpCause f s
  | .copy f => copyCause f s
  | .copy2 f => copy2Cause f s
  | .copyq f => copyqCause f s
  | .copyh f => copyhCause f s
  | .copyout f => copyoutCause f s
  | .pub f => pubCause f s
  | .hcfg f => hcfgCause f s
  | _ => none

/-- The operation waits before its bundle issues (R47). -/
def issueWaits (i : Instr) (s : State) : Bool :=
  match i with
  | .qput f => qputWaits f s
  | .qget f => qgetWaits f s
  | .xexp f => xexpWaits f s
  | .copy _ | .copy2 _ | .copyh _ | .copyout _ => copiesFull s
  | .copyq f => copyqWaits f s
  | .pub f => pubWaits f s
  | .hrel f => hrelWaits f s
  | .hcfg f => hcfgWaits f s
  | _ => false

/-- A log or queue that the operation enters has no room, so the quire freezes (R176, R222, R256, R286, R302, R360). -/
def issueFull (i : Instr) (s : State) : Bool :=
  match i with
  | .gld _ | .gst _ | .gldv _ | .aadd _ | .afadd _ | .amin _ | .amax _ | .aand _ | .aor _ | .axor _ | .aswp _ | .acas _
  | .ainc _ | .aliasf _ | .tlbinv _ => logFull s
  | .gstv _ => vecLogFull s
  | .mma _ | .mmaz _ | .accz _ | .accwr _ | .epi _ => pressFull s
  | .sew _ | .sewrun _ | .sewst _ => sewFull s
  | .shcfg _ | .sins _ | .sage _ | .sdel _ | .ssel _ | .srdr _ => sigFull s
  | _ => false

/-- The operation takes a log entry of its own (R176, R222, R360). -/
def takesEntry (i : Instr) : Bool :=
  match i with
  | .gld _ | .gst _ | .gldv _ | .gstv _ | .aadd _ | .afadd _ | .amin _ | .amax _ | .aand _ | .aor _ | .axor _ | .aswp _
  | .acas _ | .ainc _ | .aliasf _ | .tlbinv _ => true
  | _ => false

/-- The log or a queue has no room for all that the bundle enters. -/
def bundleFull (is : List Instr) (s : State) : Bool :=
  (is.any fun i => issueFull i s)
    || (decide (1 < (is.filter takesEntry).length)
        && decide (logCap s.leaf < logCount (logOf s.leaf) + (is.filter takesEntry).length))

def Instr.isCopy : Instr → Bool
  | .copy _ | .copy2 _ | .copyq _ | .copyh _ | .copyout _ => true
  | _ => false

/-- A copy waits for an entry of the time-sorted buffer before it is checked: its registers are read, and the DTC with them,
where it finally issues (R186). -/
def copyBlocked (is : List Instr) (s : State) : Bool := (is.any Instr.isCopy) && copiesFull s

/-- The sheets that must be resident before the bundle issues (R161, R164). -/
def issueTouches (i : Instr) (s : State) : List Nat :=
  let l := s.leaf
  match i with
  | .pld f => rangeSheets (pldRanges f l)
  | .pst f => rangeSheets (pstRanges f l)
  | .pldv f => rangeSheets (pldvRanges f l)
  | .pstv f => rangeSheets (storeRanges (pstvStores f l))
  | .pldvs f => rangeSheets (pldvsRanges f l)
  | .pgth f => rangeSheets (pgthRanges f l)
  | .psct f => rangeSheets (storeRanges (psctStores f l))
  | .sewrun f => let (off, cnt) := sewrunShape f l; sheetsOf off (16 * cnt)
  | .shcfg f => sheetsOf (readS l f.sa).toNat 64
  | .hcfg f => let h := hcfgHandle f l; sheetsOf h.recto h.len ++ sheetsOf h.verso h.len
  | .qcfg f => let b := qcfgBuf f l; sheetsOf b.base (b.e * b.cap)
  | .sewcfg f =>
    let c := (sewcfgParts f l).1
    if c.cap = 0 then [] else sheetsOf c.r0 c.cap ++ sheetsOf c.r1 c.cap
  | .syswr f => pinSheets f.num.toNat (readS l f.r)
  | _ => []

/-- The always-blocking instructions (R47). -/
def Instr.alwaysBlocks : Instr → Bool
  | .waitk _ | .kwait _ | .tget _ | .tawait _ | .yield _ | .pub _ => true
  | _ => false

/-- The conditionally blocking instructions (R47). -/
def Instr.mayBlock : Instr → Bool
  | .qput _ | .qget _ | .copy _ | .copy2 _ | .copyq _ | .copyh _ | .copyout _ | .hrel _ | .hcfg _ | .xexp _ => true
  | _ => false

/-- A conditionally blocking bundle (R47). -/
def mayBlock (is : List Instr) (b : Bundle) : Bool := headerSeg b || is.any Instr.mayBlock

/-! ### The order of a bundle's effects -/

/-- Every operation reads before any writes: reads of sheet space and of shared state come first, stores and what changes
shared state last. DEDUCED: log entry 13. -/
def effectRank : Instr → Nat
  | .pld _ | .pldv _ | .pldvs _ | .pgth _ | .pldh _ | .pldhV _ | .xexp _ | .hstat _ | .tokrd _ | .sysrd _ | .qstat _
  | .shstat _ | .kpoll _ => 1
  | .gld _ | .gst _ | .gldv _ | .gstv _ | .gpf _ | .aadd _ | .afadd _ | .amin _ | .amax _ | .aand _ | .aor _ | .axor _
  | .aswp _ | .acas _ | .ainc _ => 3
  | .pst _ | .pstv _ | .psct _ => 4
  | .copy _ | .copy2 _ | .copyq _ | .copyh _ | .copyout _ | .pub _ | .hrel _ | .hcfg _ | .ccancel _ => 5
  | i => match instrSlot i with
    | .m => 2
    | .k => 6
    | _ => 0

def effectOrder (is : List Instr) : List Instr := (List.range 7).flatMap fun n => is.filter fun i => effectRank i == n

/-- Runs the effects of a bundle whose checks have passed. -/
def runEffects (ex : Instr → State → Out) : List Instr → State → Out
  | [], s => .next s
  | i :: is, s =>
    match ex i { s with phase := .effect } with
    | .next s1 => runEffects ex is { s1 with phase := .alone }
    | o => o

/-! ### The bundle a leaf stands at -/

def faultCause : DecodeFault → Cause
  | .illegalBundle => .illegalBundle
  | .illegalOp => .illegalOp
  | .illegalFmt => .illegalFmt
  | .formatEmul => .formatEmul

/-- A slot's word where the leaf stands: SKIPSLOT makes it its NOP (R329). -/
def slotHere (skip : Nat) (b : Bundle) (sl : Slot) : Word := if slotCode sl = skip then 0 else slotBits b sl

/-- FORMAT_EMUL and ILLEGAL_FMT of a format field of the slot's own are issue causes (R321), not decode causes. -/
def DecodeFault.atIssue : DecodeFault → Bool
  | .illegalFmt | .formatEmul => true
  | _ => false

/-- Decodes a slot where the leaf stands; one that only its format fields are wrong with stands for its NOP until its cause is
found at issue. -/
def decodeHere (ctx : DecodeCtx) (skip : Nat) (b : Bundle) (sl : Slot) : Except Trap Instr :=
  match decodeSlot sl (slotHere skip b sl) with
  | .error e => if DecodeFault.atIssue e then .ok (.nop sl) else .error (slotTrap (faultCause e) sl)
  | .ok i => if i.ctxIllegal ctx then .error (slotTrap .illegalOp sl) else .ok i

def decodeAll (ctx : DecodeCtx) (skip : Nat) (b : Bundle) : List Slot → Except Trap (List Instr)
  | [] => .ok []
  | sl :: r =>
    match decodeHere ctx skip b sl with
    | .error t => .error t
    | .ok i =>
      match decodeAll ctx skip b r with
      | .ok is => .ok (i :: is)
      | .error t => .error t

/-- The nine operations of the bundle, or the one cause of R30. -/
def decodeLeaf (ctx : DecodeCtx) (skip : Nat) (b : Bundle) : Except Trap (List Instr) :=
  if headerOk b then decodeAll ctx skip b Slot.all else .error { cause := .illegalBundle, slot := 10 }

def fetchBundle (s : State) : Bundle := mapGet (getQuire s (quireOf s.cur)).imem s.leaf.pc.toNat 0

def fetchOk (l : Leaf) : Bool := decide (l.pc.toNat ≤ 4095)

/-- The operations of the acting leaf's bundle, none where it does not decode. -/
def bundleOps (s : State) : List Instr :=
  match decodeLeaf (decodeCtx s) s.leaf.skipSlot (fetchBundle s) with
  | .ok is => is
  | .error _ => []

/-! ### Overlays (R51, R382) -/

def Segment.contains (g : Segment) (i : Nat) : Bool := decide (g.first ≤ i) && decide (i < g.first + g.count)

def Segment.meets (a b : Segment) : Bool := overlap a.first a.count b.first b.count

def runSegments (s : State) (g : Nat) : List Segment := ((leafRun s g).map fun r => r.segs).getD []

/-- The leaf's wanted segment at index `i`. -/
def wantedSegment (segs : List Segment) (sel : Option Nat) (i : Nat) : Option Nat :=
  let has := fun n => match segs[n]? with
    | some g => g.contains i
    | none => false
  match sel with
  | some n => if has n then some n else (List.range segs.length).find? has
  | none => (List.range segs.length).find? has

/-- The segment that must be loaded before the acting leaf's bundle issues. -/
def missingSegment (s : State) : Option Nat :=
  let l := s.leaf
  if headerSeg (fetchBundle s) then
    match wantedSegment (runSegments s s.cur) l.selSeg l.pc.toNat with
    | some n => if (getQuire s (quireOf s.cur)).segs.contains n then none else some n
    | none => none
  else none

/-- The current segment after the bundle at the leaf's index has issued. -/
def passSegment (s : State) : Option Nat :=
  let l := s.leaf
  let segs := runSegments s s.cur
  let kept := match l.curSeg with
    | some n => match segs[n]? with
      | some g => if g.contains l.pc.toNat then some n else none
      | none => none
    | none => none
  if headerSeg (fetchBundle s) then
    match wantedSegment segs l.selSeg l.pc.toNat with
    | some n => some n
    | none => kept
  else kept

/-! ### The leaf selector (R381) -/

/-- Not parked; a leaf whose segment could not be loaded goes on to take its trap. -/
def Wait.runs : Wait → Bool
  | .none | .segFault _ _ => true
  | _ => false

def leafReady (s : State) (g : Nat) : Bool := issuing (getLeaf s g) && (getLeaf s g).wait.runs

/-- The first ready leaf of a quire from place `j` on, cyclically. -/
def nextReady (s : State) (q j : Nat) : Option Nat :=
  ((List.range 4).map fun k => 4 * q + (j + k) % 4).find? fun g => leafReady s g

/-- The current leaf has issued 65,536 bundles, so that another ready one takes its place (R381): at its boundary, and not in
a freeze or a GSYNC stall, which only a trap cause or a request ends early (R43, R45, R242). DEDUCED: log entry 22. A leaf in a handler is not passed over.
DESIGN CHOICE: log entry 112. -/
def bundleLimit (s : State) (q : Nat) : Bool :=
  let x := getQuire s q
  decide (65536 ≤ x.selCount) && x.last == x.sel && (getLeaf s (4 * q + x.sel)).level == .ordinary && x.freeze == 0 && x.gsync == .idle

/-- The leaf that issues next: the current one while it is ready, but for the rule of 65,536 bundles. -/
def chooseLeaf (s : State) (q : Nat) : Option Nat :=
  nextReady s q (if bundleLimit s q then (getQuire s q).sel + 1 else (getQuire s q).sel)

/-- Makes a leaf the current one; another leaf's freeze is over. -/
def selectLeaf (s : State) (g : Nat) : State :=
  { updQuire s (quireOf g) fun q =>
      if q.sel = g % 4 then q else { q with sel := g % 4, freeze := 0, gsync := .idle }
    with cur := g }

/-! ### One issue cycle -/

/-- What an issue cycle of a quire comes to: a state in which nothing has issued, a trap at the leaf's boundary, or a bundle
with its operations and whether it is always blocking. -/
inductive Plan where
  | hold (s : State)
  | trap (t : Trap) (s : State)
  | go (is : List Instr) (blocks : Bool) (s : State)
  deriving DecidableEq, Repr

def Plan.goes : Plan → Bool
  | .go _ _ _ => true
  | _ => false

/-- A trap at the acting leaf's boundary. -/
def trapHere (s : State) (t : Trap) : State := takeTrap (leaveStall s s.cur) t

/-- The leaf with the sheets pinned that an operation pins or frees (R162). -/
def pinsOf (i : Instr) (l : Leaf) : Option Leaf :=
  match i with
  | .qcfg f => some (setBuf l f.q.toNat (qcfgBuf f l))
  | .sewcfg f => some { l with sewCfg := (sewcfgParts f l).1 }
  | .hcfg f => some (setHandle l f.h.toNat (hcfgHandle f l))
  | .syswr f => if f.num = 5 ∨ f.num = 6 then some (withPin l f.num.toNat (readS l f.r)) else none
  | _ => none

/-- The first issue cause of the operations, in slot order. `p` is the state with what the operations before them pin: the
limit of 12 sheets holds of all that a bundle pins, and the operation that exceeds it raises its own cause. DEDUCED: log entry 91. -/
def firstCauseOf : List Instr → State → State → Option Trap
  | [], _, _ => none
  | i :: is, s, p =>
    match pinsOf i p.leaf with
    | some l =>
      match issueCause i p with
      | some t => some t
      | none => firstCauseOf is s (p.upd fun _ => l)
    | none =>
      match issueCause i s with
      | some t => some t
      | none => firstCauseOf is s p

/-- The cause of the acting leaf's bundle that format fields of the X slot give (R99, R159, R321). -/
def ownFormatCause (s : State) : Option Trap :=
  match decodeSlot .x (slotHere s.leaf.skipSlot (fetchBundle s) .x) with
  | .error e => if DecodeFault.atIssue e then some (slotTrap (faultCause e) .x) else none
  | .ok _ => none

/-- The first issue cause of a bundle, in slot order. -/
def firstIssueCause (is : List Instr) (s : State) : Option Trap :=
  match firstCauseOf is s s, ownFormatCause s with
  | some t, some x => some (if x.slot < t.slot then x else t)
  | none, x => x
  | some t, none => some t

/-- The operations whose causes are found now: those of a copy that must wait for the time-sorted buffer are found where it
finally issues (R186), those of the others at once (R157). -/
def checkedNow (is : List Instr) (s : State) : List Instr :=
  if copyBlocked is s then is.filter fun i => !Instr.isCopy i else is

/-- As many of the wanted sheets, from the lowest, as can be resident together (R161). DESIGN CHOICE: log entry 83. -/
def fitting (s : State) (g : Nat) (want : List Nat) : List Nat :=
  let others := (getQuire s (quireOf g)).frames.filter fun f => framePinned s f && !(f.leaf == g && want.contains f.sheet)
  ((List.range 128).filter fun n => want.contains n).take (64 - others.length)

/-- The sheets that the bundle waits for. -/
def bundleSheets (is : List Instr) (s : State) : List Nat := fitting s s.cur (is.flatMap fun i => issueTouches i s)

/-- The lowest of them that is not resident. -/
def missingSheet (is : List Instr) (s : State) : Option Nat :=
  (bundleSheets is s).find? fun n => !resident (getQuire s (quireOf s.cur)) s.cur n

/-- The waits of a decoded bundle, on the leaf as its reads see it; `s0` is the leaf before its results have landed and `s1`
the one the bundle issues on. The order is: a log or queue without room, sheets, what the operations wait for, then GSYNC. DEDUCED: log entry 15. -/
def planWaits (is : List Instr) (blocks : Bool) (s0 s1 s : State) : Plan :=
  if bundleFull is s then .hold (freezeOnce s0)
  else
    match missingSheet is s with
    | some n => .hold (freezeOnce (touchSheet s0 s.cur (bundleSheets is s) false n))
    | none =>
      if is.any fun i => issueWaits i s then .hold (waitAtIssue s0)
      else if headerGsync (fetchBundle s) && (getQuire s (quireOf s.cur)).gsync != .go then
        .hold (updQuire s0 (quireOf s.cur) fun q => { q with gsync := .stalled })
      else .go is blocks s1

/-- The issue causes and waits of a decoded bundle; `s1` is the leaf that it issues on. -/
def planIssue (is : List Instr) (blocks : Bool) (s0 s1 : State) : Plan :=
  let s := openReads s1
  match firstIssueCause (checkedNow is s) s with
  | some t => .trap t s0
  | none => if copyBlocked is s then .hold (waitAtIssue s0) else planWaits is blocks s0 s1 s

/-- An always-blocking bundle first drains the leaf (R48). A cause taken where a SETFMT shadow ends finds FMT as it was, and
the pending value at distance 0 goes into the frame with it. DEDUCED: log entries 16 and 18. -/
def planOps (is : List Instr) (s0 s : State) : Plan :=
  if is.any Instr.alwaysBlocks then
    if !allArrived s0.leaf then .hold (freezeOnce s0)
    else planIssue is true (s0.upd drained) (s0.upd fun l => landFmt (drained l))
  else planIssue is false s0 s

/-- The leaf as the bundle at its index finds it: with what lands at this position. -/
def landHere (s : State) : State := s.upd fun l => landFmt (landDue l)

/-- The bundle at the leaf's index must drain the leaf before it can issue: it is always blocking, its segment is not resident,
or it waits at issue (R48, R49, R51); so does a stop at trap level (R344). -/
def drainAhead (s0 : State) : Bool :=
  let s := landHere s0
  (stopping s0 s0.cur && s0.leaf.level == .trap)
    || (fetchOk s0.leaf
        && ((missingSegment s).isSome
            || match decodeLeaf (decodeCtx s) s0.leaf.skipSlot (fetchBundle s) with
               | .error _ => false
               | .ok is =>
                 let r := openReads s
                 is.any Instr.alwaysBlocks
                   || (!fmtBad s.leaf.fmt && (firstIssueCause (checkedNow is r) r).isNone
                       && (copyBlocked is r
                           || (!bundleFull is r && (missingSheet is r).isNone && is.any fun i => issueWaits i r)))))

/-- The bundle at the leaf's index: its fetch, its format word, its decoding (R323, ranks 5 to 8). -/
def planBundle (s0 : State) : Plan :=
  let s := landHere s0
  let l := s0.leaf
  match l.wait with
  | .segFault c fva => .trap { cause := c, fva := fva } (s0.upd fun l => { l with wait := .none })
  | _ =>
    if !fetchOk l then .trap { cause := .access, fva := l.pc } s0
    else
      match missingSegment s with
      | some n =>
        if allArrived l then .hold (passSelector (s0.upd fun l => { parkAtIssue l with wait := .segment n }) s0.cur)
        else .hold (freezeOnce s0)
      | none =>
        if fmtBad s.leaf.fmt then .trap { cause := .illegalFmt } (s0.upd landFmt)
        else
          match decodeLeaf (decodeCtx s) l.skipSlot (fetchBundle s) with
          | .error t => .trap t s0
          | .ok is => planOps is s0 s

/-- The acting leaf parks for a request to stop (R242, R345). -/
def parkForStop (s : State) : State :=
  passSelector (s.upd fun l => if l.wait = .none then { l with wait := .preempted } else l) s.cur

/-- A request to stop is served at a boundary where no trap is taken (R323); a handler's results land first (R344). -/
def planStop (s : State) : Plan :=
  let l := s.leaf
  if l.level == .trap && !allArrived l then .hold (freezeOnce s)
  else
    let s1 := match l.level with
      | .ordinary => s
      | .trap => s.upd fun l => { drained l with latches := [], doubts := .none, held := .none }
    if !dueArrived s1.leaf then .hold (parkForStop s1)
    else
      match planBundle s1 with
      | .trap t s2 => .trap t s2
      | _ => .hold (parkForStop s1)

/-- The acting leaf's boundary: the results of a blocking bundle, RTE's return, due causes, a request to stop, late
landings; then the bundle. -/
def planLeaf (s : State) : Plan :=
  let l := s.leaf
  match dueHere l (drainAhead s) with
  | some (t, l1) => .trap t (setLeaf s s.cur { l1 with wait := issuedWait l1.wait })
  | none =>
    if l.rteDue then .hold (if rteReady l then rteReturn s s.cur else if allArrived l then s else freezeOnce s)
    else if l.blocked && !allArrived l then .hold (freezeOnce s)
    else
      let s0 := if l.blocked then s.upd settleBlocked else s
      if stopping s0 s.cur then planStop s0
      else if !dueArrived s0.leaf then .hold (freezeOnce s0)
      else planBundle s0

/-- A quire of the cluster freezes, blocks or traps: the positions are in step no longer (R241). -/
def outOfStep (s : State) (q : Nat) : State :=
  { s with quires := s.quires.map fun p => if p.1 / 8 = q / 8 then (p.1, { p.2 with step := none }) else p }

/-- A trap taken between issue cycles ends its cluster's step (R241). -/
def trapNow (s : State) (t : Trap) : State := outOfStep (trapHere s t) (quireOf s.cur)

/-- A due cause is taken at the leaf's boundary, wherever the leaf stands (R324). -/
def takeDueAt (s : State) (g : Nat) : State :=
  let l := getLeaf s g
  if !issuing l then s
  else
    match dueHere l (drainAhead { s with cur := g }) with
    | some (t, l1) => trapNow { setLeaf s g { l1 with wait := issuedWait l1.wait } with cur := g } t
    | none => s

/-- A leaf parked for a request takes no trap until it resumes (R345), but for a handler's whose stop awaits a load that has
faulted (R48, R344). -/
def execTrapEntry (g : Nat) (s : State) : Out :=
  let l := getLeaf s g
  .next (if stopping s g && !l.wait.runs then
    match l.level, lateLoad l.inflight true l.tlog with
    | .trap, some t => if issuing l then trapNow { s with cur := g } t else s
    | _, _ => s
  else takeDueAt s g)

/-- The counts of the quire when the acting leaf's bundle issues: the bundles in a row at ordinary level begin anew where
another leaf issued last (R381). -/
def countIssue (s : State) : State :=
  updQuire s (quireOf s.cur) fun q =>
    let row := if q.last = s.cur % 4 then q.selCount else 0
    { q with sel := s.cur % 4, last := s.cur % 4, freeze := 0, gsync := .idle, step := q.step.map (· + 1)
             selCount := match s.leaf.level with
               | .ordinary => row + 1
               | .trap => row }

/-- The instructions that act on the kettle file (R231). -/
def Instr.onKettles : Instr → Bool
  | .karv _ | .kwait _ | .kpoll _ | .kinit _ | .gjoin _ | .gleave _ => true
  | _ => false

/-- The bundle a quire would issue next acts on the kettle file. -/
def kettlesNext (s : State) (q : Nat) : Bool :=
  match chooseLeaf s q with
  | some g => (bundleOps { s with cur := g }).any Instr.onKettles
  | none => false

/-- Another quire of the cluster, in step with this one, has still to issue its bundle of the cycle (R241), or issues in the
same cycle and comes before it at the kettle file (R231). -/
def aheadOf (s : State) (q : Nat) : Bool :=
  match (getQuire s q).step with
  | none => false
  | some n => (List.range 8).any fun j =>
    let o := 8 * (q / 8) + j
    (match (getQuire s o).step with
      | some m => decide (m < n) || (m == n && decide (o < q) && kettlesNext s q && kettlesNext s o)
      | none => false) && (chooseLeaf s o).isSome

/-- The boundary after the bundle; a leaf that has exited or whose run has ended keeps its index. `o` is the leaf that the
bundle issued on. -/
def finishBundle (s : State) (g : Nat) (seg : Option Nat) (blocks cond : Bool) (o : Leaf) : State :=
  updLeaf s g fun l =>
    if l.exited then l else { passDoubts blocks cond o (finishLeaf (ownReads o l) blocks) with curSeg := seg }

/-- After a bundle: the selector goes on where the leaf has parked or exited. A quire that blocks ends the step of its
cluster; one that has no leaf to issue from any more is in step no longer itself, and the others stay so (R241). -/
def passQuire (s : State) (g : Nat) (blocks : Bool) : State :=
  let q := quireOf g
  let s1 := if leafReady s g then s else passSelector s g
  if blocks || (!leafReady s g && !(getLeaf s g).exited) then outOfStep s1 q
  else if (chooseLeaf s1 q).isNone then updQuire s1 q fun x => { x with step := none }
  else s1

/-- The bundle's SEWRUN reads its program at issue, or its SHCFG its descriptor (R290, R302). -/
def readsProgram (is : List Instr) (s : State) : State :=
  let keep := fun (x : List Byte × State) => { x.2 with prog := some x.1 }
  match is.findSome? fun i => match i with
    | .sewrun f => some (keep (readProgram f s))
    | .shcfg f => some (keep (readDesc f s))
    | _ => none with
  | some t => t
  | none => s

/-- One issue cycle of a quire, given the meanings of the operations. -/
def issueQuire (ex : Instr → State → Out) (q : Nat) (s : State) : Out :=
  if aheadOf s q then .next s
  else
    match chooseLeaf s q with
    | none => .next s
    | some g =>
      match planLeaf (selectLeaf s g) with
      | .hold s1 => .next (outOfStep s1 q)
      | .trap t s1 => .next (outOfStep (trapHere s1 t) q)
      | .go is blocks s1 =>
        match runEffects ex (effectOrder is) (countIssue (readsProgram is (openReads s1))) with
        | .next s2 =>
          .next (passQuire (finishBundle s2 g (passSegment s1) blocks (mayBlock is (fetchBundle s1)) s1.leaf) g blocks)
        | o => o

/-! ### NOP (R29) -/

def execNop (_ : Slot) (s : State) : Out := .next s

/-! ### Events of waits and freezes -/

/-- A leaf waiting at issue has nothing to wait for any more, or has a cause to take. -/
def issueClear (s : State) (g : Nat) : Bool :=
  let s1 := landHere { s with cur := g }
  let is := bundleOps s1
  (firstIssueCause (checkedNow is s1) s1).isSome || (!copyBlocked is s1 && !is.any fun i => issueWaits i s1)

/-- A leaf parked in a freeze can go on: what it waits for has come, or what is due has and its bundle need not drain the leaf
any more; and there is room (R45). -/
def freezeClear (s : State) (g : Nat) : Bool :=
  let s1 := landHere { s with cur := g }
  let is := bundleOps s1
  let l := getLeaf s g
  (lateArrived l || (dueArrived l && !l.blocked && !drainAhead { s with cur := g }))
    && (l.blocked || (!bundleFull is s1 && (missingSheet is s1).isNone))

def wake (s : State) (g : Nat) : State := updLeaf s g fun l => { l with wait := .none }

/-- What a parked leaf waits for has come about (R48, R49, R189, R204, R233, R272, R377). -/
def execBlockedBundleResume (g : Nat) (s : State) : Out :=
  let l := getLeaf s g
  if !issuing l || stopping s g then .next s
  else
    match l.wait with
    | .tokens k m =>
      .next (if m ≤ (readTok l k).toNat then wake (updLeaf s g fun l => consumeTokens l k m) g else s)
    | .phase k p acq =>
      let x := getKettle s (clusterOf g) k
      .next (if phasePast x.phase p then wake (if acq then updLeaf s g fun l => acquirePhase l g x p else s) g else s)
    | .task sd sh => .next (if tgetReady s g then wake (tgetTake s g 0 sd sh) g else s)
    | .taskDone sd h => .next (if tawaitReady s g h true then wake (tawaitTake s g 0 sd h true) g else s)
    | .atIssue => .next (if issueClear s g then wake s g else s)
    | .late _ => .next (if freezeClear s g then wake s g else s)
    | _ => .next s

/-- The bound on a freeze, none where it never parks (R44, R344). -/
def freezeLimitOf (l : Leaf) : Option Nat :=
  let n := l.freezeLimit.toNat % 65536
  if n = 0 ∨ l.level = .trap then none else some (max 64 n)

/-- A freeze has lasted for LIMIT cycles: the frozen leaf is parked (R45), until every landing that a drain awaits has come
or, outside a drain, those that are due. -/
def execFreezeLimitPark (q : Nat) (s : State) : Out :=
  let x := getQuire s q
  let g := 4 * q + x.sel
  match freezeLimitOf (getLeaf s g) with
  | some n =>
    .next (if leafReady s g && decide (n ≤ x.freeze) then
      passSelector (updLeaf s g fun l => { l with wait := .late (l.blocked || drainAhead { s with cur := g }) }) g
      else s)
  | none => .next s

/-- The quire's stalled bundle would issue now. -/
def gsyncIssues (s : State) (q : Nat) : Bool :=
  match chooseLeaf s q with
  | some g => (planLeaf (selectLeaf (updQuire s q fun x => { x with gsync := .go }) g)).goes
  | none => false

/-- All eight quires of a cluster are stalled: the line is asserted, and in the next cycle each of them issues its bundle
(R241); from then on they are in step. -/
def execGsyncLineAssert (c : Nat) (s : State) : Out :=
  let qs := (List.range 8).map fun j => 8 * c + j
  .next (if qs.all fun q => (getQuire s q).gsync == .stalled && gsyncIssues s q then
    { qs.foldl (fun s q => updQuire s q fun x => { x with gsync := .go, step := some 0 }) s with agenda := qs.map .issue ++ s.agenda }
    else s)

/-- The current leaf has issued 65,536 bundles and another one is ready (R381). -/
def execSelectorBundleLimit (q : Nat) (s : State) : Out :=
  let x := getQuire s q
  if bundleLimit s q then
    match nextReady s q (x.sel + 1) with
    | some g => .next (if g % 4 = x.sel then s else updQuire s q fun x => { x with sel := g % 4, freeze := 0 })
    | none => .next s
  else .next s

/-- The sheets that a leaf's bundle waits for (R161). -/
def bundleNeeds (s : State) (g : Nat) : List Nat :=
  let s1 := landHere { s with cur := g }
  bundleSheets (bundleOps s1) s1

/-- The sheets that its engine operations need (R164). -/
def engineNeeds (l : Leaf) : List Nat :=
  ((l.pq ++ l.tq).filter fun o => o.stage == .fired).flatMap passSheets ++ (srdrTargets l).flatMap fun a => sheetsOf a 64

def neededSheets (s : State) (g : Nat) : List Nat := bundleNeeds s g ++ engineNeeds (getLeaf s g)

/-- The missing sheet is refilled next: a bundle's are made resident in ascending order, an engine's as it comes to them. -/
def refillDue (s : State) (g sheet : Nat) : Bool :=
  let here := resident (getQuire s (quireOf g)) g
  !here sheet && ((bundleNeeds s g).find? (fun n => !here n) == some sheet || (engineNeeds (getLeaf s g)).contains sheet)

/-- A sheet that an access waits for is made resident (R161, R164). -/
def execSheetRefill (g sheet : Nat) (s : State) : Out :=
  .next (if refillDue s g sheet then touchSheet s g (neededSheets s g) false sheet else s)

/-! ### Segments (R382) -/

/-- Another leaf of the quire that may still issue holds a segment that the load would displace. DESIGN CHOICE: log entry 101. -/
def segmentHeld (s : State) (g : Nat) (segs : List Segment) (n : Nat) : Bool :=
  match segs[n]? with
  | none => false
  | some x =>
    (List.range 4).any fun j =>
      let o := 4 * quireOf g + j
      o != g && issuing (getLeaf s o) && (getQuire s (quireOf g)).segs.any fun m =>
        (getLeaf s o).curSeg == some m && m != n && (match segs[m]? with
          | some y => x.meets y
          | none => false)

/-- The segment's bundles in the instruction memory, and the segments that stay resident. -/
def putSegment (q : Quire) (segs : List Segment) (n : Nat) (x : Segment) (b : List Byte) : Quire :=
  { q with
    imem := (List.range x.count).foldl (fun m i =>
      mapPut m (x.first + i) (BitVec.ofNat 512 (bytesNat ((b.drop (64 * i)).take 64)))) q.imem
    segs := (q.segs.filter fun m => m != n && !(match segs[m]? with
      | some y => x.meets y
      | none => false)) ++ [n] }

/-- The spine's reads of a run's image: it sees what its clock has acquired. -/
def spineReader (s : State) : Reader := agentReader s spineObs 1

/-- The spine loads the segment a leaf waits for, or the load faults. -/
def execSegmentLoad (g : Nat) (s : State) : Out :=
  let l := getLeaf s g
  match l.wait, leafRun s g with
  | .segment n, some run =>
    match run.segs[n]? with
    | none => .next s
    | some x =>
      if stopping s g || segmentHeld s g run.segs n then .next s
      else if (getQuire s (quireOf g)).segs.contains n then .next (wake s g)
      else
        match readVirt s (spineReader s) run.asid run.root false .x x.va.toNat (64 * x.count) with
        | (.ok (b, _), s1) => .next (wake (updQuire s1 (quireOf g) fun q => putSegment q run.segs n x b) g)
        | (.error (c, va), s1) =>
          match serviceFault s1 run 0xFFFF 0 va c with
          | some (idx, s2) =>
            .next (updLeaf s2 g fun l => { l with wait := .segService n idx c (BitVec.ofNat 64 va) })
          | none => .next (updLeaf s1 g fun l => { l with wait := .segFault c (BitVec.ofNat 64 va) })
  | _, _ => .next s

end Sys2Proof.Machine
end

