-- ==== Sys2Proof/Machine/Spine.lean ====
section
/-! DEFINITION. The spine's scheduling (R363 to R373, R382 to R385): launch queues and their descriptors, run packets and
images, dependences, placement, and retirement. -/

namespace Sys2Proof.Machine

/-! ### The spine's reads and writes of physical memory -/

/-- A read by the spine of what memory holds now, as an acquire. -/
def spineRead (s : State) (pa n : Nat) : List Byte × State :=
  let (p, s0) := agentNext s spineObs
  let r : Reader := { obs := spineObs, clock := clockJoin (mapGet s.agentClock spineObs []) [(spineObs, p)], gran := 1,
                      po := p, latest := true }
  let (b, rels, s1) := readPhys s0 r s.node.package.toNat pa n
  (b, agentAcquire s1 spineObs rels)

/-- A field of a record in memory. -/
def fieldOf (b : List Byte) (i n : Nat) : Nat := bytesNat ((b.drop i).take n)

def zeroFrom (b : List Byte) (i n : Nat) : Bool := fieldOf b i n == 0

/-- A firmware-event MSI (R392). -/
def fwMsi (s : State) : State := sendMsi s s.node.fwHart.toNat s.node.fwId.toNat []

/-- An address of HBM4E whose stack is ready (R388). -/
def hbmReady (s : State) (a : Nat) : Bool := isHbm a && s.node.hbm.getLsbD (stackOf a)

/-- The spine parses, places and pre-empts (R395). -/
def spineRuns (s : State) : Bool := s.node.spine && s.node.done

/-- The spine has changed how a run is scheduled: the record of the change is in the journal, and may be open until the run is
gone (R395). DESIGN CHOICE: log entry 74. -/
def journaled (id : Nat) (s : State) : State := { s with journal := id :: s.journal.filter fun x => x != id }

/-- What a core's FENCE W,O before a TAIL write has released (R223, R357). -/
def tailRelease (s : State) (hart : Nat) : List Release := (mapGet s.cores hart .reset).out.toList

/-! ### Contexts and descriptors (R363, R365, R366) -/

/-- A context block: ASID, root, ring, its records, tail. -/
structure Context where
  asid : BitVec 16
  root : Nat
  fring : Word
  records : Nat
  tail : Word
  deriving DecidableEq, Repr

def contextOf (b : List Byte) : Context :=
  ⟨BitVec.ofNat 16 (fieldOf b 0 2), fieldOf b 8 8, BitVec.ofNat 64 (fieldOf b 16 8), fieldOf b 24 4,
   BitVec.ofNat 64 (fieldOf b 32 8)⟩

def Run.context (r : Run) : Context := ⟨r.asid, r.root, r.fring, r.fringRecords, r.fringTail⟩

def Run.withContext (r : Run) (c : Context) : Run :=
  { r with asid := c.asid, root := c.root, fring := c.fring, fringRecords := c.records, fringTail := c.tail }

/-- The context of a block that has been changed while a run of it is placed or saved (R363): the new one, the old one, or the
new one for its runs as well. DESIGN CHOICE: log entry 88. -/
def changedContext (s : State) (pa : Nat) (c : Context) : Context × State :=
  match s.runs.find? fun r => r.ctx == pa && r.stage == .placed && r.context != c with
  | none => (c, s)
  | some r =>
    let (i, s1) := takeChoice s 3
    if i = 0 then (c, s1)
    else if i = 1 then (r.context, s1)
    else (c, { s1 with runs := s1.runs.map fun x => if x.ctx == pa && x.stage == .placed then x.withContext c else x })

/-- Reads a context block; none where the read faults. -/
def readContext (s : State) (pa : Nat) : Option Context × State :=
  if isHbm pa && isHbm (pa + 63) then
    let (b, s1) := spineRead s pa 64
    let (c, s2) := changedContext s1 pa (contextOf b)
    (some c, s2)
  else (none, s)

/-- The descriptor's address. -/
def Queue.descPa (q : Queue) : Nat := q.desc.toNat

def descWord (s : State) (q : Queue) (off : Nat) : BitVec 32 × State :=
  if isHbm q.descPa then
    let (b, s1) := spineRead s (q.descPa + off) 4
    (BitVec.ofNat 32 (bytesNat b), s1)
  else (0, s)

def writeDesc (s : State) (q : Queue) (off : Nat) (v : BitVec 32) : State :=
  if isHbm q.descPa then agentWrite s spineObs (q.descPa + off) (natBytes v.toNat 4) (some 4) else s

def badDescriptor (b : List Byte) : Bool :=
  decide (fieldOf b 8 1 < 4) || decide (16 < fieldOf b 8 1) || decide (23 < fieldOf b 9 1)
    || fieldOf b 0 8 % 4096 != 0 || fieldOf b 24 8 % 64 != 0 || !isHbm (fieldOf b 24 8)
    || !zeroFrom b 10 2 || !zeroFrom b 32 32

/-- Reads a descriptor and its context block; none where it is malformed. -/
def readDescriptor (s : State) (q : Queue) : Option Queue × State :=
  if !isHbm q.descPa then (none, s)
  else
    let (b, s1) := spineRead s q.descPa 64
    if badDescriptor b then (none, s1)
    else
      match readContext s1 (fieldOf b 24 8) with
      | (none, s2) => (none, s2)
      | (some _, s2) =>
        (some { q with ring := BitVec.ofNat 64 (fieldOf b 0 8), log2n := fieldOf b 8 1, hart := fieldOf b 9 1,
                       ctx := fieldOf b 24 8, head := BitVec.ofNat 32 (fieldOf b 12 4),
                       progress := BitVec.ofNat 32 (fieldOf b 20 4) }, s2)

/-- A queue that the spine gives up: malformed, or a packet slot cannot be read (R366). -/
def disableQueue (s : State) (n : Nat) : State :=
  fwMsi (setQueue s n { getQueue s n with en := false, badDesc := true, state := .disabled })

/-- The tail in the descriptor. -/
def queueTail (s : State) (q : Queue) : BitVec 32 × State := descWord s q 16

/-- Writes HEAD and PROGRESS to the descriptor (R367). -/
def commitQueue (s : State) (q : Queue) : State := writeDesc (writeDesc s q 12 q.head) q 20 q.progress

/-- The state of an enabled queue that the spine does not hold. -/
def parkedState (q : Queue) (tail : BitVec 32) : QState := if q.head = tail then .idle else .switchedOut

/-- HEAD and PROGRESS of a queue enabled at this TAIL: where the three differ, which R365 forbids, each is one of them. DESIGN CHOICE: log entry 88. -/
def enabledQueue (s : State) (q : Queue) (tail : BitVec 32) : Queue × State :=
  if q.head = tail && q.progress = tail then (q, s)
  else
    let vs := [q.head, q.progress, tail]
    let (i, s1) := takeChoice s 3
    let (j, s2) := takeChoice s1 3
    ({ q with head := vs.getD i tail, progress := vs.getD j tail }, s2)

/-- The queue is enabled: its descriptor is read. -/
def enableQueue (s : State) (n : Nat) : State :=
  match readDescriptor s (getQueue s n) with
  | (none, s1) => disableQueue s1 n
  | (some q, s1) =>
    let (t, s2) := queueTail s1 q
    let (q1, s3) := enabledQueue s2 q t
    setQueue s3 n { q1 with state := parkedState q1 t, parses := 0 }

/-- EN goes to 0: a resident queue is switched out. -/
def stopQueue (s : State) (n : Nat) : State :=
  let q := getQueue s n
  let s1 := if q.state = .resident then commitQueue s q else s
  setQueue s1 n { q with state := if q.state = .resetting then .resetting else .disabled }

/-- A write to a queue's DESC and EN (R364); a queue in reset stays so until its last run has retired. DESIGN CHOICE: log entry 99. -/
def execLaunchQueueConfigWrite (n : Nat) (val : Word) (s : State) : Out :=
  if !s.node.launch || decide (256 ≤ n) then .next s
  else
    let q := getQueue s n
    let en := val.getLsbD 0
    let q1 := { q with en := en, desc := if q.en then q.desc else val &&& 0x0000FFFFFFFFFFC0 }
    let s1 := setQueue s n q1
    .next (if en && !q.en then (if q.state = .resetting then s1 else enableQueue s1 n)
           else if !en && q.en then stopQueue s1 n else s1)

/-- A core writes TAIL: it lands in the descriptor with what the core's last FENCE W,O released (R223, R367). -/
def execLaunchTailWrite (n hart : Nat) (val : Word) (s : State) : Out :=
  let q := getQueue s n
  if !s.node.launch || decide (256 ≤ n) || q.state == .resetting || !isHbm q.descPa then .next s
  else
    let t : BitVec 32 := val.setWidth 32
    let (p, s0) := agentNext s (coreObs hart)
    let w : Writer := { obs := coreObs hart, po := p, own := tailRelease s hart }
    let s1 := writePhys s0 w s.node.package.toNat (q.descPa + 16) (natBytes t.toNat 4)
    let q1 := { q with tails := q.tails ++ (tailRelease s hart).map fun r => (t, r), tailAt := q.tailAt ++ [(t, s.nextId)] }
    .next (setQueue s1 n (if q.state = .idle && q.head != t then { q1 with state := .switchedOut } else q1))

/-! ### Residence (R367) -/

def residentCount (s : State) : Nat := (s.queues.filter fun p => p.2.state == .resident).length

def eligible_ (s : State) (n : Nat) : Bool := (getQueue s n).state == .switchedOut

/-- The eligible queue that is next in the round-robin. DEDUCED: log entry 71. -/
def nextEligible (s : State) : Option Nat :=
  ((List.range 256).map fun k => (s.lastQueue + 1 + k) % 256).find? (eligible_ s)

def execQueueSwitch (n : Nat) (s : State) : Out :=
  let q := getQueue s n
  if !spineRuns s then .next s
  else
    match q.state with
    | .switchedOut =>
      if nextEligible s = some n && decide (residentCount s < 32) then
        match readDescriptor s q with
        | (none, s1) => .next (disableQueue s1 n)
        | (some q1, s1) => .next { setQueue s1 n { q1 with state := .resident, parses := 0 } with lastQueue := n }
      else .next s
    | .resident =>
      let (t, s1) := queueTail s q
      if q.head = t || (decide (64 ≤ q.parses) && (nextEligible s).isSome) then
        .next (setQueue (commitQueue s1 q) n { q with state := parkedState q t })
      else .next s
    | _ => .next s

/-! ### Unpredictable runs (R1, R347, R366) -/

/-- Free values `n` on, by register number. -/
def freeBank (n k : Nat) : List (Nat × Vec) := (List.range k).map fun i => (i, Config.freeValue (n + i))

/-- How many free values a spoiled leaf takes. -/
def spoilCount : Nat := 65536

/-- Sheet space of free bytes. -/
def freeSheet (n : Nat) : Memory :=
  (List.range sheetSize).filterMap fun i =>
    let b := (Config.freeValue (n + i / 2048)).extractLsb' (8 * (i % 2048)) 8
    if b = 0 then none else some (i, b)

/-- Results that have their data hold free values. -/
def spoilResults (n : Nat) (rs : List Result) : List Result :=
  rs.mapIdx fun i r => if r.waiting.isSome then r else { r with value := Config.freeValue (n + i) &&& r.mask }

/-- The system registers that have a place in `writeSys`; a value that SYSWR refuses, for its pins or its shape, is not taken. -/
def spoilSys (n : Nat) (l : Leaf) : Leaf :=
  ([2, 5, 6, 8, 9, 11, 12, 16, 17, 18, 19, 20, 24, 25, 26, 27].zipIdx).foldl (fun l x =>
    let v := low 64 (Config.freeValue (n + x.2))
    let y := writeSys l x.1 v
    if decide (12 < (pinnedSheets y).length) || (x.1 == 9 && (shapeOf v).bad) then l else y) l

/-- A buffer entry's state by number (R250). -/
def entOf : Nat → Option Ent
  | 1 => some .reserved
  | 2 => some .written
  | 3 => some .filled
  | 4 => some .claimed
  | 5 => some .void
  | _ => none

/-- A configuration that breaks no rule of QCFG or HCFG is taken, and another is not. -/
def ifShaped (rs : List (Nat × Nat)) (old new : Leaf) : Leaf :=
  if rs.any (fun r => decide (sheetSize < r.1 + r.2)) || decide (12 < (pinnedSheets new).length) then old else new

/-- A circular buffer of any shape, mode and contents (R250). -/
def spoilBuf (n : Nat) (l : Leaf) (q : Nat) : Leaf :=
  let v := Config.freeValue (n + 2 * q)
  let es := Config.freeValue (n + 2 * q + 1)
  let w := fun i k => (v.extractLsb' i k).toNat
  let cap := w 0 12
  let b : Buf := if cap = 0 then .reset else
    { Buf.reset with
      base := 64 * w 12 16, e := 64 * (1 + w 28 10), cap := cap, leafMode := v.getLsbD 38, faulted := v.getLsbD 39
      fill := w 40 12 % cap, drain := w 52 12 % cap
      ents := (List.range cap).filterMap fun i => (entOf (es.extractLsb' (3 * i) 3).toNat).map fun x => (i, x) }
  ifShaped [b.region] l (shareBuffer l q b)

/-- A handle of any regions, counts and error (R188). -/
def spoilHandle (n : Nat) (l : Leaf) (k : Nat) : Leaf :=
  let v := Config.freeValue (n + k)
  let w := fun i k => (v.extractLsb' i k).toNat
  let h : Handle := if v.getLsbD 0 then
      { getHandle l k with
        cfg := true, recto := 64 * w 1 16, verso := 64 * w 17 16, len := 64 * (1 + w 33 11), gen := v.extractLsb' 44 32
        fill := w 76 7, drain := w 83 8, ecause := w 91 8, detail := w 99 5, fva := v.extractLsb' 104 64
        deferred := v.getLsbD 168, taint := [], lap := [] }
    else .reset
  if overlap h.recto h.len h.verso h.len then l else ifShaped h.regions l (shareHandle l k h)

/-- Everything that a leaf's save area holds of registers is unpredictable, its buffers and handles with them, and its sheet
space (R1, R347); what its run does to memory from then on follows from them (R2). DEDUCED: log entry 73. -/
def spoilLeaf (n : Nat) (l0 : Leaf) : Leaf :=
  let w := fun i => low 64 (Config.freeValue (n + i))
  let l := (List.range 64).foldl (spoilHandle (n + 4200)) ((List.range 8).foldl (spoilBuf (n + 4100)) (spoilSys (n + 700) l0))
  { l with
    pc := w 680 &&& 0xFFF
    sregs := (freeBank n 64).foldl (fun (m : Map Word) p => if p.1 = 0 then m else mapSet m p.1 0 (low 64 p.2)) []
    vregs := (freeBank (n + 64) 512).foldl (fun (m : Map Vec) p => mapSet m p.1 0 p.2) []
    mregs := (freeBank (n + 576) 8).foldl (fun (m : Map Mask) p => mapSet m p.1 0 (low 512 p.2)) []
    feeds := (freeBank (n + 584) 16).foldl (fun (m : Map Feed) p => mapSet m p.1 .reset ⟨low 22 p.2, p.2.extractLsb' 22 24⟩) []
    bonds := (freeBank (n + 600) 16).foldl (fun (m : Map (BitVec 12)) p => mapSet m p.1 1 (low 12 p.2)) []
    toks := (freeBank (n + 616) 16).foldl (fun (m : Map (BitVec 16)) p => mapSet m p.1 0 (low 16 p.2)) []
    tiles := (freeBank (n + 632) 16).map fun p =>
      (p.1, tileOf (elements 32 p.2 ++ elements 32 (Config.freeValue (n + 648 + p.1))))
    fmt := (w 664).setWidth 22 |>.setWidth 32, fmtPend := []
    fstat := w 665 &&& 0x1F1F
    loopOuter := w 666 &&& loopMask, loopInner := w 667 &&& loopMask
    trapVec := w 668 &&& 0x1FFF, emulVec := w 669 &&& 0x1FFF, sewFault := w 670
    latches := (freeBank (n + 720) 12).foldl (fun (m : Map Vec) p => mapSet m p.1 0 p.2) []
    inflight := spoilResults (n + 5000) l.inflight
    frame := l.frame.map fun f =>
      { f with
        inflight := spoilResults (n + 30000) f.inflight
        latches := (freeBank (n + 740) 12).foldl (fun (m : Map Vec) p => mapSet m p.1 0 p.2) []
        fmt := (w 671).setWidth 22 |>.setWidth 32, fmtPend := []
        loopOuter := w 672 &&& loopMask, loopInner := w 673 &&& loopMask, pc := w 674 &&& 0xFFF }
    sheet := freeSheet (n + 2000) }

/-- Leaves become unpredictable; what they pin is resident. -/
def spoilLeaves (s : State) (gs : List Nat) : State :=
  gs.foldl (fun s g =>
    let s1 := { updLeaf s g (spoilLeaf s.free) with free := s.free + spoilCount }
    touchSheets s1 g (pinnedSheets (getLeaf s1 g)) false) s

/-- The frames that a table, or one that it leads to, maps for writing: package, address and size (R349). -/
def writableFrames (s : State) : Nat → Nat → List (Nat × Nat × Nat)
  | 0, t => (tableWords s t).flatMap (own 0)
  | n + 1, t => (tableWords s t).flatMap fun e =>
      if ptePointer e then (if pteV e then writableFrames s n (ptePpn e * 4096) else []) else own (n + 1) e
where
  own (level : Nat) (e : Word) : List (Nat × Nat × Nat) :=
    if pteV e && !ptePointer e && ptePermits e .w then
      [(if pteRemote e then ptePkg e else s.node.package.toNat, ptePpn e * 4096, pageSize e level)]
    else []

/-- All memory that a run may write becomes unpredictable. -/
def openRun (s : State) (r : Run) : State :=
  { s with freeMem := s.freeMem ++ (writableFrames s 5 r.root).flatMap fun f =>
      (List.range (f.2.2 / 256)).map fun i => ⟨memKey f.1 (canonAddr (f.2.1 + 256 * i)), 256, none⟩ }

/-- Where `n` bytes from a virtual address lie: keys and lengths. -/
def virtKeys (s : State) (asid : BitVec 16) (root : Nat) (k : Kind) (va n : Nat) : List (Nat × Nat) × State :=
  let ps := pageSplit va n
  match translateAll s (spineReader s) asid root false k ps with
  | (.ok ts, s1) =>
    ((ps.zip ts).flatMap fun x => (pieces x.2.pa x.1.2).map fun p => (memKey x.2.pkg (canonAddr p.1), p.2), s1)
  | (.error _, s1) => ([], s1)

/-- Another agent than the spine has written one of those bytes since a place in coherence order. -/
def writtenSince (s : State) (asid : BitVec 16) (root : Nat) (k : Kind) (at_ va n : Nat) : Bool :=
  let news := s.hist.filter fun w => decide (at_ ≤ w.id) && w.obs != spineObs
  !news.isEmpty && (virtKeys s asid root k va n).1.any fun x => news.any fun w => overlap w.key w.bytes.length x.1 x.2

/-- Software has rewritten the slot of a run's packet (R365). -/
def slotWritten (s : State) (r : Run) : Bool := writtenSince s r.asid r.root .r r.slotAt r.slot 128

/-- The run is unpredictable for it from now on, or is not. DESIGN CHOICE: log entry 88. -/
def rewritten (s : State) (r : Run) : Bool × State :=
  if slotWritten s r then
    let (c, s1) := takeChoice s 2
    (c == 1, s1)
  else (false, s)

/-! ### Packets and images (R368 to R370) -/

def depList (b : List Byte) : List Word := [64, 72, 80].map fun i => BitVec.ofNat 64 (fieldOf b i 8)

def packetOf (b : List Byte) : Packet :=
  let w := fun i => BitVec.ofNat 64 (fieldOf b i 8)
  let fl := fieldOf b 2 1
  { prio := fieldOf b 1 1, depfail := fl % 2 == 1, service := fl / 2 % 2 == 1, barrier := fl / 4 % 2 == 1,
    clusters := fieldOf b 3 1, leafMask := BitVec.ofNat 4 (fieldOf b 4 1), spawn := fieldOf b 5 1,
    image := w 8, args := w 16, data := w 24, sheet := w 32, sheetLen := fieldOf b 40 4,
    trapv := BitVec.ofNat 16 (fieldOf b 44 2), emulv := BitVec.ofNat 16 (fieldOf b 46 2), colophon := w 48, signal := w 56,
    deps := depList b, runId := w 88, save := w 96, ribbon := w 104, tasks := w 112, taskCount := fieldOf b 120 4 }

/-- A field outside its limits, or a reserved bit set (R370). -/
def packetBad (b : List Byte) : Bool :=
  fieldOf b 0 1 != 1 || decide (8 ≤ fieldOf b 1 1) || decide (8 ≤ fieldOf b 2 1)
    || fieldOf b 3 1 == 0 || decide (24 < fieldOf b 3 1) || fieldOf b 4 1 == 0 || decide (16 ≤ fieldOf b 4 1)
    || !zeroFrom b 6 2 || !zeroFrom b 124 4
    || [8, 16, 32, 48, 104, 112].any (fun i => fieldOf b i 8 % 64 != 0)
    || fieldOf b 40 4 % 64 != 0 || decide (sheetSize < fieldOf b 40 4)
    || decide (8192 ≤ fieldOf b 44 2) || decide (8192 ≤ fieldOf b 46 2)
    || fieldOf b 56 8 % 8 != 0 || fieldOf b 96 8 % 4096 != 0

/-- The ending of a run that is never placed. -/
def parseEnding (cause : Cause) (fva : Nat) : Ending :=
  ⟨1, 0xFFFF, BitVec.ofNat 32 cause.code, 0, BitVec.ofNat 64 fva, none⟩

/-- A read by the spine of a run's virtual memory. -/
def spineVirt (s : State) (asid : BitVec 16) (root : Nat) (va n : Nat) : Except (Cause × Nat) (List Byte) × State :=
  match readVirt s { spineReader s with latest := true } asid root false .r va n with
  | (.ok (b, rels), s1) => (.ok b, agentAcquire s1 spineObs rels)
  | (.error e, s1) => (.error e, s1)

def segmentOf (b : List Byte) : Segment := ⟨fieldOf b 0 2, fieldOf b 2 2, BitVec.ofNat 64 (fieldOf b 8 8)⟩

def segmentBad (nb : Nat) (b : List Byte) : Bool :=
  let x := segmentOf b
  x.count == 0 || decide (4096 < x.first + x.count) || !zeroFrom b 4 4 || x.va.toNat % 64 != 0 || decide (x.first < nb)

/-- What a run image's header says: base bundles, entry, segments. -/
structure Image where
  nb : Nat
  entry : Nat
  segs : List Segment
  deriving DecidableEq, Repr

/-- Reads the header and the segment entries; the error is the run's ending. -/
def readImage (s : State) (asid : BitVec 16) (root : Nat) (va : Nat) : Except Ending Image × State :=
  match spineVirt s asid root va 64 with
  | (.error (c, a), s1) => (.error (parseEnding c a), s1)
  | (.ok h, s1) =>
    let nb := fieldOf h 0 2
    let entry := fieldOf h 2 2
    let nseg := fieldOf h 4 2
    if nb == 0 || decide (4096 < nb) || decide (4096 ≤ entry) || decide (256 < nseg) || !zeroFrom h 6 58 then
      (.error (parseEnding .illegalOp 0), s1)
    else
      match spineVirt s1 asid root (va + 64 + 64 * nb) (16 * nseg) with
      | (.error (c, a), s2) => (.error (parseEnding c a), s2)
      | (.ok t, s2) =>
        let es := (List.range nseg).map fun i => (t.drop (16 * i)).take 16
        if es.any (segmentBad nb) then (.error (parseEnding .illegalOp 0), s2)
        else (.ok ⟨nb, entry, es.map segmentOf⟩, s2)

/-- A TAIL value lies beyond the packet at HEAD. -/
def Queue.beyond (q : Queue) (t : BitVec 32) : Bool := t != q.head && decide ((t - q.head).toNat < 2 ^ 31)

/-- The packet slot at HEAD, and the place in coherence order of the first TAIL write beyond it. -/
def Queue.slotVa (q : Queue) : Nat := q.ring.toNat + 128 * (q.head.toNat % 2 ^ q.log2n)

def slotSince (s : State) (q : Queue) : Nat := (q.tailAt.filter fun x => q.beyond x.1).foldl (fun m x => min m x.2) s.nextId

def newRun (s : State) (id n : Nat) (q : Queue) (c : Context) (p : Packet) (since : Nat) : Run :=
  { id := id, queue := n, index := q.head, hart := q.hart, ctx := q.ctx, asid := c.asid, root := c.root, fring := c.fring,
    fringRecords := c.records, fringTail := c.tail, pkt := p, segs := [], stage := .parsed, places := [], saved := [],
    placedAt := 0, startDtc := s.dtc, taskQ := [[], []], taskState := [], taskRels := [], ending := none, preempt := [], clock := [], wild := false,
    slot := q.slotVa, slotAt := since, abroad := [] }

/-- A packet is parsed: the TAIL writes that went beyond it are acquired, and those it was the last of are done with (R367). -/
def acquirePacketTails (s : State) (n : Nat) : State :=
  let q := getQueue s n
  setQueue (agentAcquire s spineObs ((q.tails.filter fun x => q.beyond x.1).map Prod.snd)) n
    { q with tails := q.tails.filter fun x => q.beyond x.1 && x.1 != q.head + 1
             tailAt := q.tailAt.filter fun x => q.beyond x.1 && x.1 != q.head + 1 }

/-- TAIL has run further ahead than the ring holds, or software has rewritten the slot since it lay below TAIL: the packet is the
slot's content at this moment, and the run goes by it, or ends as one of a malformed packet does, or is unpredictable in all it
starts with and in the memory it may write (R1, R365, R366). DESIGN CHOICE: log entry 88. -/
def overrunCourse (s : State) (q : Queue) (tail : BitVec 32) (written : Bool) : Nat × State :=
  if 2 ^ q.log2n < (tail - q.progress).toNat || written then takeChoice s 3 else (0, s)

/-- The spine parses one packet (R366, R370). -/
def execPacketParse (n : Nat) (s : State) : Out :=
  let q0 := getQueue s n
  let (t, s0) := queueTail s q0
  if !spineRuns s || q0.state != .resident || q0.head == t || decide (2 ^ q0.log2n ≤ (q0.head - q0.progress).toNat) then .next s
  else
    let sa := acquirePacketTails s0 n
    let q := getQueue sa n
    match readContext sa q.ctx with
    | (none, s1) => .next (disableQueue (commitQueue s1 q) n)
    | (some c, s1) =>
      match spineVirt s1 c.asid c.root q.slotVa 128 with
      | (.error _, s2) => .next (disableQueue (commitQueue s2 q) n)
      | (.ok b, s2) =>
        let since := slotSince s q0
        let (way, so) := overrunCourse s2 q t (writtenSince s2 c.asid c.root .r since q.slotVa 128)
        let (id, s3) := fresh so
        let r := { newRun s id n q c (packetOf b) since with wild := way == 2 }
        let s4 := setQueue (journaled id s3) n { q with head := q.head + 1, parses := q.parses + 1 }
        let add := fun (s : State) (r : Run) => { s with runs := s.runs ++ [r] }
        if packetBad b || way == 1 then .next (add s4 { r with ending := some (parseEnding .illegalOp 0), stage := .ended })
        else
          match readImage s4 c.asid c.root r.pkt.image.toNat with
          | (.error e, s5) => .next (add s5 { r with ending := some e, stage := .ended })
          | (.ok im, s5) => .next (add s5 { r with segs := im.segs })

/-! ### Readiness (R371) -/

/-- Reads the words a run depends on. -/
def readDeps (s : State) (r : Run) : List Word → Except Ending (List Nat) × State
  | [] => (.ok [], s)
  | a :: as =>
    if a = 0 then readDeps s r as
    else
      match spineVirt s r.asid r.root a.toNat 8 with
      | (.error (c, va), s1) => (.error (parseEnding c va), s1)
      | (.ok b, s1) =>
        match readDeps s1 r as with
        | (.ok ws, s2) => (.ok (bytesNat b :: ws), s2)
        | (.error e, s2) => (.error e, s2)

/-- Every earlier packet of the run's queue has retired. -/
def firstOfQueue (s : State) (r : Run) : Bool :=
  ((s.runs.takeWhile fun x => x.id != r.id).all fun x => x.queue != r.queue)

/-- A run's dependences and barrier are met (R371); a failed one counts once all are. DESIGN CHOICE: log entry 100. -/
def execRunReady (id : Nat) (s : State) : Out :=
  match findRun s id with
  | none => .next s
  | some r =>
    if !spineRuns s || r.stage != .parsed then .next s
    else
      match readDeps s r r.pkt.deps with
      | (.error e, s1) => .next (setEnding s1 id e)
      | (.ok ws, s1) =>
        if ws.any (fun w => w / 2 ^ 63 == 0) || (r.pkt.barrier && !firstOfQueue s r) then .next s
        else if r.pkt.depfail && ws.any (fun w => w % 65536 != 0) then
          .next (setEnding s1 id ⟨4, 0xFFFF, 0, 0, 0, none⟩)
        else .next (updRun s1 id fun x => { x with stage := .ready })

/-! ### Service order (R372) -/

/-- Clusters a run holds. -/
def Run.held (r : Run) : List Nat := r.places.filterMap fun p => p

def freeClusters (s : State) : List Nat :=
  (List.range 24).filter fun c => s.node.half.getLsbD (c / 12) && !s.runs.any fun r => r.held.contains c

/-- A run that waits for clusters, and how many it needs. -/
def Run.needs (r : Run) : Option Nat :=
  match r.stage with
  | .ready => some r.pkt.clusters
  | .placed => if r.saved.isEmpty then none else some r.saved.length
  | _ => none

/-- `a` is served before `b`; of one queue the run parsed first. -/
def servedBefore (a b : Run) : Bool :=
  decide (b.pkt.prio < a.pkt.prio)
    || (a.pkt.prio == b.pkt.prio && (decide (a.queue < b.queue) || (a.queue == b.queue && decide (a.id < b.id))))

def waitingRuns (s : State) : List Run := sortBy servedBefore (s.runs.filter fun r => r.needs.isSome)

/-- Clusters that lower priorities could give up. -/
def yieldable (s : State) (prio : Nat) : Nat :=
  (s.runs.filter fun r => r.stage == .placed && r.ending.isNone && decide (r.pkt.prio < prio)).foldl
    (fun n r => n + r.held.length) 0

/-- The run the spine serves next, and whether the free clusters suffice; runs that can be neither placed nor given room
hold back their own priority. -/
def serveNext (s : State) : List Run → List Nat → Option (Run × Bool)
  | [], _ => none
  | r :: rs, stuck =>
    if stuck.contains r.pkt.prio then serveNext s rs stuck
    else
      let free := (freeClusters s).length
      let n := r.needs.getD 0
      if n ≤ free then some (r, true)
      else if n ≤ free + yieldable s r.pkt.prio then some (r, false)
      else serveNext s rs (r.pkt.prio :: stuck)

def served (s : State) : Option (Run × Bool) := serveNext s (waitingRuns s) []

/-! ### Placement (R373 to R375, R382) -/

/-- The leaves of `C` clusters that LEAFMASK names, as (global leaf, rank of the cluster). -/
def maskedLeaves (mask : BitVec 4) (cs : List Nat) : List (Nat × Nat) :=
  (cs.zipIdx).flatMap fun c => ((List.range 32).filter fun j => mask.getLsbD (j % 4)).map fun j => (32 * c.1 + j, c.2)

/-- The registers a leaf starts with. -/
def startRegs (r : Run) (args : List Byte) (rank j : Nat) : Map Word :=
  let base : List (Nat × Word) :=
    [(1, BitVec.ofNat 64 (32 * rank + j)),
     (2, BitVec.ofNat 64 (8 * r.pkt.clusters * ((List.range 4).filter fun i => r.pkt.leafMask.getLsbD i).length)),
     (3, BitVec.ofNat 64 (8 * rank + j / 4))]
    ++ ((List.range 16).map fun i => (4 + i, BitVec.ofNat 64 (fieldOf args (8 * i) 8))) ++ [(20, r.pkt.data)]
  base.foldl (fun m p => mapSet m p.1 0 p.2) []

/-- The state in which a leaf starts a run; its place in program order goes on from the last run's. -/
def startLeaf (r : Run) (old : Leaf) (entry : Nat) (args sheet : List Byte) (clk : Clock) (rank j : Nat) : Leaf :=
  { Leaf.reset with
    run := some r.id, pc := BitVec.ofNat 64 entry, sregs := startRegs r args rank j, sheet := memWrite [] 0 sheet,
    trapVec := r.pkt.trapv.setWidth 64, emulVec := r.pkt.emulv.setWidth 64, po := old.po + 1, acqs := [(old.po, clk)] }

/-- What placement reads besides the image's header. -/
structure Load where
  entry : Nat
  segs : List Segment
  bundles : List Bundle
  args : List Byte
  sheet : List Byte
  ribbons : List (List Word)
  deriving DecidableEq, Repr

/-- The ribbons of quires `k` on; a count above 1,023 makes the packet malformed. -/
def readRibbons (s : State) (r : Run) (k : Nat) : Nat → Except Ending (List (List Word)) × State
  | 0 => (.ok [], s)
  | n + 1 =>
    if r.pkt.ribbon = 0 then (.ok (List.replicate (n + 1) []), s)
    else
      let va := r.pkt.ribbon.toNat + 8192 * k
      match spineVirt s r.asid r.root va 8 with
      | (.error (c, a), s1) => (.error (parseEnding c a), s1)
      | (.ok h, s1) =>
        let cnt := bytesNat h
        if 1023 < cnt then (.error (parseEnding .illegalOp 0), s1)
        else
          match spineVirt s1 r.asid r.root (va + 8) (8 * cnt) with
          | (.error (c, a), s2) => (.error (parseEnding c a), s2)
          | (.ok b, s2) =>
            match readRibbons s2 r (k + 1) n with
            | (.ok rest, s3) => (.ok (((List.range cnt).map fun i => BitVec.ofNat 64 (fieldOf b (8 * i) 8)) :: rest), s3)
            | (.error e, s3) => (.error e, s3)

/-- Reads of a run's memory in turn; an address of 0 reads nothing. -/
def readParts (s : State) (r : Run) : List (Nat × Nat) → Except Ending (List (List Byte)) × State
  | [] => (.ok [], s)
  | (va, n) :: ps =>
    match (if n = 0 then (.ok [], s) else spineVirt s r.asid r.root va n) with
    | (.error (c, a), s1) => (.error (parseEnding c a), s1)
    | (.ok b, s1) =>
      match readParts s1 r ps with
      | (.ok bs, s2) => (.ok (b :: bs), s2)
      | (.error e, s2) => (.error e, s2)

/-- Everything placement reads: image, bundles, arguments, sheet image, initial task records, ribbons. -/
def loadRun (s : State) (r : Run) : Except Ending Load × State :=
  match readImage s r.asid r.root r.pkt.image.toNat with
  | (.error e, s1) => (.error e, s1)
  | (.ok im, s1) =>
    match readParts s1 r [(r.pkt.image.toNat + 64, 64 * im.nb), (r.pkt.args.toNat, if r.pkt.args = 0 then 0 else 128),
        (r.pkt.sheet.toNat, r.pkt.sheetLen), (r.pkt.tasks.toNat, if r.pkt.tasks = 0 then 0 else 64 * r.pkt.taskCount)] with
    | (.error e, s2) => (.error e, s2)
    | (.ok parts, s2) =>
      match readRibbons s2 r 0 (8 * r.pkt.clusters) with
      | (.error e, s3) => (.error e, s3)
      | (.ok rb, s3) =>
        let img := parts.getD 0 []
        (.ok { entry := im.entry, segs := im.segs, args := parts.getD 1 [], sheet := parts.getD 2 [], ribbons := rb,
               bundles := (List.range im.nb).map fun i => BitVec.ofNat 512 (fieldOf img (64 * i) 64) }, s3)

/-- The quire of a run's `k`-th place as it starts. -/
def startQuire (ld : Load) (k : Nat) : Quire :=
  { Quire.reset with
    imem := (ld.bundles.zipIdx).foldl (fun m b => mapSet m b.2 0 b.1) [], ribbon := ld.ribbons.getD k [] }

/-- The halves' head-task queues: initial task `j` goes to the half of cluster rank `j mod C` (R375). -/
def initialTasks (r : Run) (cs : List Nat) : List (List TaskRef) :=
  (List.range 2).map fun h =>
    (((List.range (if r.pkt.tasks = 0 then 0 else r.pkt.taskCount)).filter fun j =>
      (cs.getD (j % max 1 cs.length) 0) / 12 == h).map fun j => ⟨j, none⟩)

/-- STATE 1 of every initial task, written by the device. -/
def writeTaskStates (s : State) (r : Run) : State :=
  (List.range (if r.pkt.tasks = 0 then 0 else r.pkt.taskCount)).foldl (fun s j =>
    let (p, s1) := agentNext s spineObs
    match writeVirt s1 (spineReader s1) { obs := spineObs, po := p, rels := [agentRelease s1 spineObs 5] } r.asid r.root
        false (recordVa r j + 8) [1] with
    | (_, s2) => s2) s

/-- The leaves that an unpredictable run starts with, and its memory (R366). -/
def spoilRun (s : State) (r : Run) (cs : List Nat) : State :=
  if r.wild then
    openRun (spoilLeaves s ((maskedLeaves r.pkt.leafMask cs).map Prod.fst)) r
  else s

/-- Every leaf that the run uses starts (R373); the leaves acquire what the spine has. -/
def startRun (s : State) (r : Run) (ld : Load) (cs : List Nat) : State :=
  let (at_, s0) := fresh s
  let s1 := writeTaskStates s0 r
  let clk := clockJoin (mapGet s1.agentClock spineObs []) [(spineObs, mapGet s1.agentPo spineObs 0)]
  let s2 := (maskedLeaves r.pkt.leafMask cs).foldl (fun s x =>
    updLeaf s x.1 fun old => startLeaf r old ld.entry ld.args ld.sheet clk x.2 (x.1 % 32)) s1
  let s3 := ((cs.zipIdx).flatMap fun c => (List.range 8).map fun j => (8 * c.1 + j, 8 * c.2 + j)).foldl
    (fun s x => setQuire s x.1 (startQuire ld x.2)) s2
  let s4 := spoilRun { s3 with kfiles := cs.foldl (fun m c => mapDel m c) s3.kfiles } r cs
  updRun s4 r.id fun x =>
    { x with stage := .placed, places := cs.map some, segs := ld.segs, placedAt := at_, startDtc := s.dtc,
             taskQ := initialTasks r cs,
             taskState := (List.range (if r.pkt.tasks = 0 then 0 else r.pkt.taskCount)).map fun j => (j, 1) }

/-- The spine places a ready run on the lowest free clusters (R372). -/
def execRunPlace (id : Nat) (s : State) : Out :=
  match served s with
  | some (r, true) =>
    if !spineRuns s || r.id != id || r.stage != .ready then .next s
    else
      match readContext s r.ctx with
      | (none, s1) => .next (setEnding s1 id (parseEnding .access r.ctx))
      | (some c, s0) =>
        let (re, s1) := rewritten s0 r
        let r1 := { r.withContext c with wild := r.wild || re }
        let s2 := updRun (journaled id s1) id fun _ => r1
        match loadRun s2 r1 with
        | (.error e, s3) => .next (setEnding s3 id e)
        | (.ok ld, s3) => .next (startRun s3 r1 ld ((freeClusters s).take r.pkt.clusters))
  | _ => .next s

/-! ### Retirement (R208, R318, R378, R383) -/

/-- Work of a leaf that keeps its run from ending. -/
def leafBusy (l : Leaf) : Bool :=
  !l.exited || !l.pq.isEmpty || !l.tq.isEmpty || !l.sewq.isEmpty || !l.sigq.isEmpty || !l.sigtq.isEmpty
    || (l.olog ++ l.tlog).any (fun e => !e.op.isMark) || l.shelves.any fun x => x.2.rows.any Row.inTransit

def runCopies (s : State) (id : Nat) : List Copy :=
  s.quires.flatMap fun p => p.2.copies.filter fun c => (getLeaf s c.leaf).run == some id

/-- The run has nothing left that could write. -/
def runQuiet (s : State) (r : Run) : Bool :=
  r.saved.isEmpty && (runCopies s r.id).isEmpty && s.arrivals.all (fun a => a.run != r.id)
    && s.flips.all (fun f => f.run != r.id) && (runLeaves s r.id).all fun g => !leafBusy (getLeaf s g)

/-- How the run ends, if it may retire now. -/
def retireEnding (s : State) (r : Run) : Option Ending :=
  if !runQuiet s r then none
  else
    match r.ending with
    | some e => some e
    | none => if r.stage = .placed then some ⟨0, 0xFFFF, 0, 0, 0, none⟩ else none

def colophonBytes (r : Run) (e : Ending) (endDtc : Word) : List Byte :=
  let (kc, kk) := match e.ktree with
    | some (c, k) => (c, k)
    | none => (0xFFFF, 0xFFFF)
  natBytes r.pkt.runId.toNat 8 ++ natBytes e.status 2 ++ natBytes e.gleaf 2 ++ natBytes e.cause.toNat 4
    ++ natBytes e.pc.toNat 8 ++ natBytes e.fva.toNat 8 ++ natBytes kc 2 ++ natBytes kk 2 ++ natBytes 0 4
    ++ natBytes r.startDtc.toNat 8 ++ natBytes endDtc.toNat 8 ++ natBytes 0 7

/-- What the leaves of a list, and the engine operations they issued, have written and acquired. -/
def leavesClock (s : State) (gs : List Nat) : Clock :=
  let own := gs.foldl (fun m g => clockJoin m (leafReadClock (getLeaf s g) g (getLeaf s g).po)) []
  s.hist.foldl (fun m w =>
    match obsLeaf w.obs with
    | some g => if gs.contains g then clockJoin m [(w.obs, w.po)] else m
    | none => m) own

/-- What the colophon releases: every write of the run, those made before a gang switch among them (R223, R383). -/
def runClock (s : State) (r : Run) : Clock := clockJoin r.clock (leavesClock s (runLeaves s r.id))

/-- A write of the spine to a run's memory with its release; one that cannot be performed is dropped (R383). DEDUCED: log entry 78. -/
def retireWrite (s : State) (r : Run) (clk : Clock) (va : Nat) (b : List Byte) : Except Unit Unit × State :=
  let (p, s1) := agentNext s spineObs
  let rel := agentRelease s1 spineObs 4
  match writeVirt s1 (spineReader s1) { obs := spineObs, po := p, rels := [{ rel with clock := clockJoin rel.clock clk }] }
      r.asid r.root false va b with
  | (.ok _, s2) => (.ok (), s2)
  | (.error _, s2) => (.error (), s2)

/-- The colophon, VALID last. -/
def writeColophon (s : State) (r : Run) (e : Ending) (clk : Clock) : State :=
  match retireWrite s r clk r.pkt.colophon.toNat (colophonBytes r e s.dtc) with
  | (.error _, s1) => fwMsi s1
  | (.ok _, s1) =>
    match retireWrite s1 r clk (r.pkt.colophon.toNat + 63) [1] with
    | (.error _, s2) => fwMsi s2
    | (.ok _, s2) => s2

def writeSignal (s : State) (r : Run) (e : Ending) (clk : Clock) : State :=
  if r.pkt.signal = 0 then s
  else
    match retireWrite s r clk r.pkt.signal.toNat (natBytes (2 ^ 63 + e.status) 8) with
    | (.error _, s1) => fwMsi s1
    | (.ok _, s1) => s1

/-- The queue's MSI, after the colophon and SIGNAL (R392). -/
def queueMsi (s : State) (r : Run) (after : List (Nat × Nat)) : State :=
  let id := s.node.qbase.toNat + r.queue
  if s.node.qbase = 0 || decide (2047 < id) then s else sendMsi s r.hart id after

/-- The first packet of a queue that has not retired. -/
def progressOf (s : State) (n : Nat) : BitVec 32 :=
  match s.runs.find? fun r => r.queue == n with
  | some r => r.index
  | none => (getQueue s n).head

/-- Every run of a queue in reset has retired: HEAD and PROGRESS go to TAIL (R384, R385). -/
def settleReset (s : State) (n : Nat) : State :=
  let q := getQueue s n
  if q.state != .resetting || s.runs.any fun r => r.queue == n then s
  else
    let (t, s1) := queueTail s q
    let q1 := { q with head := t, progress := t, tails := [], tailAt := [], kill := false, en := q.en && !q.kill,
                       state := if q.en && !q.kill then .idle else .disabled }
    setQueue (commitQueue s1 q1) n q1

/-- A kill is over: the completion word, then BUSY (R385). -/
def settleKill (s : State) : State :=
  match s.kill.active with
  | none => s
  | some (asid, cpa) =>
    if s.runs.any fun r => r.asid == asid then s
    else
      let s1 := if isHbm cpa.toNat then agentWrite s spineObs cpa.toNat (natBytes 1 8) (some 4) else s
      { s1 with kill := { s1.kill with active := none } }

/-- The run's leaves, quires, queues of tasks and services are given up; its kettles stay as they are until the next placement
clears them (R227, R406). -/
def freeRun (s : State) (r : Run) : State :=
  let clear := fun (l : Leaf) => { Leaf.reset with po := l.po }
  { s with
    freeMem := s.freeMem ++ s.leaves.flatMap fun p =>
      if p.2.run = some r.id then p.2.shelves.flatMap fun x => x.2.records else []
    leaves := s.leaves.map fun p => if p.2.run = some r.id then (p.1, clear p.2) else p
    quires := s.quires.map fun p => if r.held.contains (p.1 / 8) then (p.1, .reset) else p
    arFences := s.arFences.map fun f => if f.run = some r.id then { f with here := false } else f
    arrivals := s.arrivals.filter fun a => a.run != r.id
    flips := s.flips.filter fun f => f.run != r.id
    services := s.services.filter fun v => v.run != r.id
    journal := s.journal.filter fun x => x != r.id
    runs := s.runs.filter fun x => x.id != r.id }

/-- PROGRESS advances; the descriptor of a queue that the spine does not hold has it at once, so that a read gives the current
index in any state (R365, R367). -/
def advanceProgress (s : State) (n : Nat) : State :=
  let q := getQueue s n
  let q1 := { q with progress := progressOf s n }
  let s1 := setQueue s n q1
  match q.state with
  | .resident => s1
  | _ => if q.progress = q1.progress then s1 else writeDesc s1 q1 20 q1.progress

/-- Before the colophon the device writes back and drops the lines of the run's LAUNCH_PRIVATE pages: to all that the colophon
reaches, in the package, their writes count in either window (R221, R224). -/
def writeBack (s : State) (r : Run) : State :=
  let mark : AliasMark := ⟨spineObs, mapGet s.agentPo spineObs 0 + 1, 4, spineObs, none⟩
  let mine := fun (w : WriteRec) => w.priv && (mapFind s.privLines (w.key / 64)).any fun p => p.runs.contains r.id
  { s with hist := s.hist.map fun w => if mine w then { w with aliased := w.aliased ++ [mark] } else w }

/-- What a run that is unpredictable by its end has left in memory (R1, R365). -/
def openRetired (s : State) (r : Run) : State :=
  let (re, s1) := rewritten s r
  if re && !r.places.isEmpty then openRun s1 r else s1

/-- The run retires: colophon, SIGNAL, MSI, PROGRESS (R383). A run never placed gives the time of retirement twice. -/
def retireRun (s00 : State) (r : Run) (e : Ending) : State :=
  let s := openRetired s00 r
  let r1 := if r.places.isEmpty then { r with startDtc := s.dtc } else r
  let clk := runClock s r
  let s0 := writeSignal (writeColophon (writeBack (journaled r.id s) r) r1 e clk) r1 e clk
  let s1 := queueMsi s0 r1 (writesSince s0 s.nextId)
  settleKill (settleReset (advanceProgress (freeRun s1 r1) r.queue) r.queue)

def execRunRetire (id : Nat) (s : State) : Out :=
  match findRun s id with
  | none => .next s
  | some r =>
    if !s.node.spine then .next s
    else
      match retireEnding s r with
      | some e => .next (retireRun s r e)
      | none => .next s

/-! ### Reset and kill (R384, R385) -/

/-- RESET on one queue with a status. -/
def resetQueue (s : State) (n status : Nat) (kill : Bool) : State :=
  let q := getQueue s n
  let s1 := setQueue (if q.state = .resident then commitQueue s q else s) n { q with state := .resetting, kill := kill }
  settleReset ((s1.runs.filter fun r => r.queue == n).foldl
    (fun s r => endRun s r.id ⟨status, 0xFFFF, 0, 0, 0, none⟩) s1) n

/-- DEDUCED: log entry 69. -/
def execQueueReset (n : Nat) (s : State) : Out :=
  let q := getQueue s n
  if !s.node.launch || decide (256 ≤ n) || q.state == .resetting || q.state == .disabled then .next s
  else .next (resetQueue s n 2 false)

/-- The ASID of a queue's context. -/
def queueAsid (s : State) (q : Queue) : Option (BitVec 16) :=
  if q.state = .disabled then none else (readContext s q.ctx).1.map fun c => c.asid

/-- Writing 1 to GO: every queue and every run of the ASID (R385). DEDUCED: log entry 70. -/
def execKillGo (val : Word) (s : State) : Out :=
  if !s.node.launch || s.kill.active.isSome || !val.getLsbD 0 then .next s
  else
    let a := s.kill.asid
    let s1 := { s with kill := { s.kill with active := some (a, s.kill.cpa) } }
    let qs := (s.queues.filter fun p => queueAsid s p.2 == some a).map Prod.fst
    let s2 := qs.foldl (fun s n =>
      if (getQueue s n).state = .resetting then setQueue s n { getQueue s n with kill := true } else resetQueue s n 5 true) s1
    let s3 := (s2.runs.filter fun r => r.asid == a).foldl (fun s r => endRun s r.id ⟨5, 0xFFFF, 0, 0, 0, none⟩) s2
    .next (settleKill s3)

end Sys2Proof.Machine
end

