-- ==== Sys2Proof/Machine/Preempt.lean ====
section
/-! DEFINITION. Pre-emption (R207, R239, R276, R295, R317, R344 to R347, R372): the request, the gang switch with its save
area, and the restore. -/

namespace Sys2Proof.Machine

/-! ### The request (R344, R345, R372) -/

/-- Clusters of lower priority that have been asked to stop. -/
def stoppingCount (s : State) (prio : Nat) : Nat :=
  (s.runs.filter fun r => decide (r.pkt.prio < prio)).foldl (fun n r => n + r.preempt.length) 0

/-- `a` is pre-empted before `b`: lower priority, then placed more recently. -/
def yieldsBefore (a b : Run) : Bool :=
  decide (a.pkt.prio < b.pkt.prio) || (a.pkt.prio == b.pkt.prio && decide (b.placedAt < a.placedAt))

/-- The run that gives up a cluster next for one of priority `prio`. -/
def victim (s : State) (prio : Nat) : Option Run :=
  (sortBy yieldsBefore (s.runs.filter fun r =>
    r.stage == .placed && decide (r.pkt.prio < prio) && decide (r.preempt.length < r.held.length))).head?

/-- The request reaches a cluster: leaves that stand in a wait take a cause that is due there first (R323), and the others do
so at their next boundary. -/
def requestStop (s : State) (run c : Nat) : State :=
  let gs := (List.range 32).map fun j => 32 * c + j
  let s1 := gs.foldl (fun s g => if (getLeaf s g).run == some run && !(getLeaf s g).wait.runs then takeDueAt s g else s) s
  updRun s1 run fun r => if r.stage == .placed then { r with preempt := r.preempt ++ [c] } else r

/-- The spine asks a cluster of a run to stop, for the run it serves next: one cluster at a time (R345). -/
def execPreemptRequest (run c : Nat) (s : State) : Out :=
  match served s with
  | some (w, false) =>
    match victim s w.pkt.prio with
    | some v =>
      let have_ := (freeClusters s).length + stoppingCount s w.pkt.prio
      .next (if spineRuns s && v.id == run && v.held.contains c && v.preempt.isEmpty && decide (have_ < w.needs.getD 0)
        then requestStop s run c else s)
    | none => .next s
  | _ => .next s

/-! ### Quiescence (R345, R207, R239, R276, R295, R317) -/

/-- The leaf is parked, or waits, or has exited; a handler's results have all come (R344). -/
def leafStopped (l : Leaf) : Bool := l.exited || (!l.wait.runs && (l.level == .ordinary || allArrived l))

/-- A handler parks with its results landed and its latches reading zero (R344). -/
def settleHandler (l : Leaf) : Leaf :=
  match l.level with
  | .ordinary => l
  | .trap => { (if l.blocked then landTogether l else landAll l) with latches := [], doubts := .none, held := .none }

/-- An entry that will do no more before the switch: faulted, in service, or held by one that is; what a trap suspended is tried
as well (R207, R345). -/
def entryStill (home : Nat) (log : List LogEntry) (e : LogEntry) : Bool :=
  e.op.isMark || (match e.stage with
    | .faulted _ _ | .service _ _ _ => true
    | _ => false) || entryHeld home log e

def leafLogsStill (home : Nat) (l : Leaf) : Bool := l.olog.all (entryStill home l.olog) && l.tlog.all (entryStill home (trapOrder l))

/-- A fired epilogue is staged, and one that is storing has stored all it can before the switch (R276). -/
def epiStill (l : Leaf) (trapQ : Bool) (o : PressOp) : Bool :=
  match o.form, o.stage with
  | .epi _ _ _ _, .fired => false
  | _, .storing => decide ((epiSegments o).length ≤ o.seg) || olderAccess l trapQ o.po
  | _, _ => true

/-- No epilogue has stores left to make, and no row is in transit. -/
def leafEnginesStill (l : Leaf) : Bool :=
  l.pq.all (epiStill l false) && l.tq.all (epiStill l true) && l.shelves.all fun x => !x.2.rows.any Row.inTransit

/-- The cluster of a kettle number of this package. -/
def inCluster (s : State) (c n : Nat) : Bool := kettlePkg n == s.node.package.toNat && kettleCluster n == c

/-- No upward arrival or flip of the run is on its way to or from the cluster, but for those held for a saved one. -/
def kettlesStill (s : State) (r : Run) (c : Nat) : Bool :=
  let held := fun n => kettlePkg n == s.node.package.toNat && r.saved.any fun x => x.from_ == kettleCluster n
  (s.arrivals.all fun a => a.run != r.id || (!inCluster s c a.dst && (!inCluster s c a.src || held a.dst)))
    && s.flips.all fun f => f.run != r.id || (!inCluster s c f.dst && (!inCluster s c f.src || held f.dst))

/-- A copy that does not move before the switch: its stamp lies ahead, or it waits for an older access of its leaf whose fault
is saved, or for such a copy. DEDUCED: log entry 72. -/
def copyStill (s : State) (cs : List Copy) (c : Copy) : Bool :=
  !c.due s || (!c.started && (!logsBehind (getLeaf s c.leaf) c || !firstToStart s cs c))

def clusterStill (s : State) (r : Run) (c : Nat) : Bool :=
  let ls := (List.range 32).map fun j => getLeaf s (32 * c + j)
  let mine := ls.filter fun l => l.run == some r.id
  mine.all (fun l => leafStopped l && leafLogsStill s.node.package.toNat l && leafEnginesStill l)
    && (List.range 8).all (fun j =>
      (getQuire s (8 * c + j)).copies.all (copyStill s (getQuire s (8 * c + j)).copies))
    && kettlesStill s r c

/-! ### The save area (R347) -/

/-- Little-endian words of `w` bytes. -/
def packWords (w : Nat) (l : List Nat) : List Byte := l.flatMap fun x => natBytes x w

/-- A leaf's system registers as saved: those of the interrupted leaf for FMT and the loop levels. -/
def savedSys (s : State) (l : Leaf) (g n : Nat) : Nat :=
  (readSys (setLeaf { s with cur := g } g l) n).toNat

/-- The parts of a leaf block whose layout the manual states: offset and bytes. -/
def leafBlock (s : State) (g : Nat) (l : Leaf) : List (Nat × List Byte) :=
  [(0x0040, packWords 8 ((List.range 64).map fun i => (readS l (BitVec.ofNat 6 i)).toNat)),
   (0x0240, packWords 64 ((List.range 8).map fun i => (readM l (BitVec.ofNat 3 i)).toNat)),
   (0x04C0, packWords 2 ((List.range 16).map fun i => (readBond l i).toNat)),
   (0x04E0, packWords 2 ((List.range 16).map fun i => (readTok l i).toNat)),
   (0x0500, packWords 8 ((List.range 32).map fun i => savedSys s l g i)),
   (0x02_0000, packWords 2048 ((List.range 512).map fun i => (readV l (BitVec.ofNat 9 i)).toNat)),
   (0x12_0000, packWords 4 ((List.range 16).flatMap fun z => tileList (getTile l z)))]

def saveSize : Nat := 65 * 0x10_0000

/-- That memory becomes unpredictable. -/
def openVirt (s : State) (r : Run) (va n : Nat) : State :=
  let (ks, s1) := virtKeys s r.asid r.root .w va n
  { s1 with freeMem := s1.freeMem ++ ks.map fun k => ⟨k.1, k.2, none⟩ }

/-- Where a cluster's image lies in its run's save pool. DESIGN CHOICE: log entry 97. -/
def saveBase (r : Run) (rank : Nat) : Nat := r.pkt.save.toNat + saveSize * rank

/-- Writes a saved cluster's area: the parts with a stated layout; the rest is open. DEDUCED: log entry 73. -/
def writeSaveArea (s : State) (r : Run) (rank c : Nat) (ls : List Leaf) : State :=
  let base := saveBase r rank
  let s1 := openVirt s r base saveSize
  let parts := (ls.zipIdx).flatMap fun x =>
    (leafBlock s (32 * c + x.2) x.1).map fun p => (base + 0x10_0000 + x.2 * 0x20_0000 + p.1, p.2)
  parts.foldl (fun s p =>
    let (po, s2) := agentNext s spineObs
    (writeVirt s2 (spineReader s2) { obs := spineObs, po := po } r.asid r.root false p.1 p.2).2) s1

/-! ### The gang switch (R345) -/

/-- How an entry is saved: a detected fault or a pending service with it, anything else to be translated afresh; one of the
program that a handler has interrupted stays suspended until RTE. -/
def saveEntry (suspended : Bool) (e : LogEntry) : LogEntry :=
  match e.stage with
  | .service _ _ _ | .suspended => e
  | .faulted _ _ => if suspended then { e with stage := .suspended } else e
  | _ => { e with stage := if suspended && !e.op.isMark then .suspended else .walk }

/-- A leaf as it is saved: loads that have performed hold their data. -/
def saveLeaf (x : Leaf) : Leaf :=
  let l := settleHandler x
  let logged := fun id => (l.olog ++ l.tlog).any fun e => e.id == id
  let res := fun (x : Result) => match x.waiting with
    | some id => if logged id then x else { x with waiting := none }
    | none => x
  { l with
    inflight := l.inflight.map res
    frame := l.frame.map fun f => { f with inflight := f.inflight.map res }
    olog := l.olog.map (saveEntry (l.level == .trap)), tlog := l.tlog.map (saveEntry false)
    wait := match l.wait with
      | .preempted => .none
      | w => w }

/-- A cluster whose every part is still is saved, and freed. A service that it waits for goes on (R362). -/
def switchCluster (s : State) (r : Run) (c : Nat) : State :=
  let rank := r.places.idxOf (some c)
  let gs := (List.range 32).map fun j => 32 * c + j
  let mine := fun g => (getLeaf s g).run == some r.id
  let ls := gs.map fun g => if mine g then saveLeaf (getLeaf s g) else .reset
  let qs := (List.range 8).map fun j => { getQuire s (8 * c + j) with frames := [], gsync := .idle, freeze := 0 }
  let clk := leavesClock s (gs.filter mine)
  let (at_, s1) := fresh (writeSaveArea s r rank c ls)
  let sv : Saved :=
    { rank := rank, from_ := c, quires := qs, leaves := ls, kettles := mapGet s.kfiles c [], flips := [],
      seen := gs.map fun g => mapGet s.seen g [], stamp := at_ }
  let s2 := { s1 with
    agentClock := mapPut s1.agentClock spineObs (clockJoin (mapGet s1.agentClock spineObs []) clk)
    leaves := s1.leaves.map fun p => if p.2.run = some r.id ∧ clusterOf p.1 = c then (p.1, { Leaf.reset with po := p.2.po }) else p
    kfiles := mapDel s1.kfiles c
    arFences := s1.arFences.map fun f => if f.run = some r.id ∧ gs.contains f.leaf then { f with here := false } else f
    seen := gs.foldl mapDel s1.seen }
  let s3 := (List.range 8).foldl (fun s j => setQuire s (8 * c + j) .reset) s2
  updRun s3 r.id fun x =>
    { x with saved := x.saved ++ [sv], preempt := x.preempt.filter fun d => d != c, clock := clockJoin x.clock clk,
             places := x.places.map fun p => if p = some c then none else p }

def execGangSwitch (run c : Nat) (s : State) : Out :=
  match findRun s run with
  | some r => .next (if spineRuns s && r.preempt.contains c && clusterStill s r c then switchCluster (journaled run s) r c else s)
  | none => .next s

/-! ### The restore (R346) -/

/-- Places in program order move up by `b`, so that they follow what the new place's leaf has done before. -/
def shiftPo (b : Nat) (l : Leaf) : Leaf :=
  let e := fun (x : LogEntry) => { x with po := x.po + b }
  let p := fun (x : PressOp) => { x with po := x.po + b }
  let q := fun (x : SigOp) => { x with po := x.po + b }
  { l with
    olog := l.olog.map e, tlog := l.tlog.map e, pq := l.pq.map p, tq := l.tq.map p,
    sewq := l.sewq.map fun x => { x with po := x.po + b }
    sigq := l.sigq.map q, sigtq := l.sigtq.map q, po := l.po + b,
    acqs := l.acqs.map fun a => (a.1 + b, a.2), readSync := l.readSync.map fun a => (a.1 + b, a.2),
    acqFences := l.acqFences.map fun a => a + b, relFences := l.relFences.map fun a => (a.1 + b, a.2),
    drains := l.drains.map fun a => a + b }

/-- The numbers of a leaf's unfinished engine operations. -/
def engineIds (l : Leaf) : List Nat :=
  (l.pq ++ l.tq).map (fun o => o.id) ++ (l.sewq.map fun o => o.id) ++ (l.sigq ++ l.sigtq).map fun o => o.id

/-- An unfinished engine operation is the same observer at the leaf's new place. -/
def renameEngine (ids : List Nat) (old new obs : Nat) : Nat :=
  match engineOf obs with
  | some i => if ids.contains i && obsLeaf obs == some old then engineObs i new else obs
  | none => obs

/-- What the leaf has done at its old place comes before all that follows; of its remote writes, those that a DRAIN covers, and
the others from its next DRAIN on (R215, R225). -/
def restoredLeaf (old new : Nat) (base : Nat) (l : Leaf) : Leaf :=
  let dr := l.drains.foldl Nat.max 0
  let known := (l.past.filter fun a => decide (a.1 < dr)).foldl (fun m a => clockJoin m a.2) [(old, l.po)]
  let before := if dr = 0 then known else clockJoin known [(remoteObs old, dr)]
  let later := (l.past.filter fun a => !decide (a.1 < dr)).foldl (fun m a => clockJoin m a.2) [(remoteObs old, l.po)]
  { shiftPo base l with
    acqs := (shiftPo base l).acqs ++ [(base, before)], past := [(base + l.po - 1, later)]
    places := clockJoin l.places [(old, l.po)]
    wet := l.wet.map fun w => { w with obs := renameEngine (engineIds l) old new w.obs } }

/-- A cluster number after a restore. -/
def movedCluster (m : List (Nat × Nat)) (c : Nat) : Nat :=
  match m.find? fun p => p.1 == c with
  | some p => p.2
  | none => c

def movedKettle (home : Nat) (m : List (Nat × Nat)) (n : Nat) : Nat :=
  if kettlePkg n = home then kettleNo home (movedCluster m (kettleCluster n)) (kettleIndex n) else n

def movedLeaf (m : List (Nat × Nat)) (g : Nat) : Nat := 32 * movedCluster m (clusterOf g) + g % 32

def movedParent (home : Nat) (m : List (Nat × Nat)) (p : BitVec 32) : BitVec 32 :=
  if p.getLsbD 31 && (p.extractLsb' 24 7).toNat == home then
    (p &&& 0xFFE0FFFF#32) ||| (BitVec.ofNat 32 (movedCluster m (p.extractLsb' 16 5).toNat) <<< 16)
  else p

/-- A release of a run's leaf is that leaf's wherever it now stands (R225). -/
def moveRelease (run : Nat) (m : List (Nat × Nat)) (r : Release) : Release :=
  if r.run = some run then { r with obs := movedLeaf m r.obs } else r

def moveAlias (run : Nat) (m : List (Nat × Nat)) (a : AliasMark) : AliasMark :=
  if a.run = some run then { a with leaf := movedLeaf m a.leaf } else a

/-- The releases and the ALIASFs that a write carries. -/
def moveWrite (run : Nat) (m : List (Nat × Nat)) (w : WriteRec) : WriteRec :=
  { w with rels := w.rels.map (moveRelease run m), own := w.own.map (moveRelease run m),
           aliased := w.aliased.map (moveAlias run m) }

/-- Parent links, senders and leaves named in a kettle (R239); `base` gives what each leaf's places moved by. -/
def moveKettle (home run : Nat) (m : List (Nat × Nat)) (base : Nat → Nat) (k : Kettle) : Kettle :=
  { k with parent := movedParent home m k.parent, carr := k.carr.map (movedKettle home m),
           acks := k.acks.map fun a => (movedLeaf m a.1, a.2.1 + base a.1, a.2.2),
           rel := k.rel.map (moveRelease run m), flips := k.flips.map fun f => (f.1, f.2.map (moveRelease run m)) }

def moveRel (m : List (Nat × Nat)) (base : Nat → Nat) (r : TaskRel) : TaskRel :=
  { r with leaf := movedLeaf m r.leaf, po := r.po + base r.leaf }

def moveQuire (m : List (Nat × Nat)) (base : Nat → Nat) (q : Quire) : Quire :=
  { q with copies := q.copies.map fun c => { c with leaf := movedLeaf m c.leaf, po := c.po + base c.leaf }
           staging := q.staging.map fun p => (p.1, { p.2 with leaf := movedLeaf m p.2.leaf }) }

/-- The tasks of a half on which the run has no cluster any more go to the other half's queue. DEDUCED: log entry 68. -/
def mergeTasks (r : Run) : List (List TaskRef) :=
  let has := fun h => r.held.any fun c => c / 12 == h
  if has 0 && has 1 then r.taskQ
  else if has 0 then [halfQueue r 0 ++ halfQueue r 1, []]
  else [[], halfQueue r 0 ++ halfQueue r 1]

/-- What the reads of a leaf have met, the places in program order of the moved ones having risen by `n`. -/
def joinSeen (n : Nat) (a b : Seen) : Seen :=
  b.foldl (fun m p => mapPut m p.1 (mapGet m p.1 [] ++ p.2.map fun x => (x.1 + n, x.2))) a

/-- Another agent has written a byte of the area since the spine did. -/
def areaWritten (s : State) (r : Run) (sv : Saved) : Bool :=
  writtenSince s r.asid r.root .w sv.stamp (saveBase r sv.rank) saveSize

/-- Another agent has written the area of some cluster of the run, or the slot of its packet (R347, R365). -/
def restoreBroken (s : State) (r : Run) : Bool × State :=
  let (re, s1) := rewritten s r
  (re || r.saved.any (areaWritten s r), s1)

/-- A broken run's leaves all have unpredictable registers, and so has all memory that it may write (R347). -/
def openRestored (broken : Bool) (s : State) (r : Run) : State :=
  if broken then openRun (spoilLeaves s (runLeaves s r.id)) r else s

/-- One saved cluster onto cluster `c`. -/
def restoreCluster (home : Nat) (m : List (Nat × Nat)) (base : Nat → Nat) (r : Run) (s : State) (x : Saved × Nat) : State :=
  let sv := x.1
  let c := x.2
  let ls := sv.leaves.zipIdx
  let s1 := ((sv.quires.zipIdx).foldl (fun s q => setQuire s (8 * c + q.2) (moveQuire m base q.1)) s)
  let s2 := ls.foldl (fun s l =>
    let old := 32 * sv.from_ + l.2
    let new := 32 * c + l.2
    match l.1.run with
    | some _ =>
      { setLeaf s new (restoredLeaf old new (base old) l.1) with
        seen := mapPut s.seen new (joinSeen (base old) (mapGet s.seen new []) (sv.seen.getD l.2 []))
        hist := s.hist.map fun w => { w with obs := renameEngine (engineIds l.1) old new w.obs } }
    | none => s) s1
  let s3 := { s2 with
    kfiles := mapPut s2.kfiles c (sv.kettles.map fun k => (k.1, moveKettle home r.id m base k.2))
    arFences := s2.arFences.map fun f =>
      if f.here = false ∧ f.run = some r.id ∧ clusterOf f.leaf = sv.from_ then
        { f with leaf := movedLeaf m f.leaf, po := f.po + base f.leaf, here := true }
      else f }
  ls.foldl (fun s l =>
    match l.1.run with
    | some _ => touchSheets s (32 * c + l.2) (pinnedSheets l.1) false
    | none => s) s3

/-- Every saved cluster of a run is restored, and every name of a moved one rewritten. DEDUCED: log entry 72. -/
def restoreRun (s : State) (r : Run) (cs : List Nat) : State :=
  let home := s.node.package.toNat
  let m := (r.saved.zip cs).map fun x => (x.1.from_, x.2)
  let base := fun g => if m.any fun p => p.1 == clusterOf g then (getLeaf s (movedLeaf m g)).po else 0
  let s1 := { s with kfiles := s.kfiles.map fun f =>
    if r.held.contains f.1 then (f.1, f.2.map fun k => (k.1, moveKettle home r.id m (fun _ => 0) k.2)) else f }
  let s2 := (r.saved.zip cs).foldl (restoreCluster home m base r) s1
  let s3 := { s2 with
    arrivals := s2.arrivals.map fun a =>
      if a.run = r.id then { a with src := movedKettle home m a.src, dst := movedKettle home m a.dst,
                                    rel := a.rel.map (moveRelease r.id m) } else a
    hist := s2.hist.map (moveWrite r.id m)
    flips := s2.flips.map fun f =>
      if f.run = r.id then { f with src := movedKettle home m f.src, dst := movedKettle home m f.dst,
                                    rel := f.rel.map (moveRelease r.id m) } else f }
  updRun s3 r.id fun x =>
    let places := x.places.zipIdx.map fun (p : Option Nat × Nat) => match p.1 with
      | some c => some c
      | none => ((r.saved.zip cs).find? fun (z : Saved × Nat) => z.1.rank == p.2).map Prod.snd
    let taskQ := x.taskQ.map fun (q : List TaskRef) => q.map fun (t : TaskRef) => { t with rel := t.rel.map (moveRel m base) }
    let taskRels := x.taskRels.map fun (p : Nat × TaskRel) => (p.1, moveRel m base p.2)
    let abroad := x.abroad.map fun a => (movedKettle home m a.1, a.2.1, a.2.2.map (moveRelease r.id m))
    let y := { x with saved := [], places := places, taskQ := taskQ, taskRels := taskRels, abroad := abroad }
    { y with taskQ := mergeTasks y }

/-- The clusters named are free and different, one for each saved cluster. -/
def restorable (s : State) (r : Run) (cs : List Nat) : Bool :=
  cs.length == r.saved.length && cs.all (fun c => (freeClusters s).contains c && cs.count c == 1)

def execGangRestore (run : Nat) (clusters : List Nat) (s : State) : Out :=
  match served s with
  | some (r, true) =>
    .next (if spineRuns s && r.id == run && r.stage == .placed && restorable s r clusters then
      let (broken, s1) := restoreBroken s r
      openRestored broken (restoreRun (journaled run s1) r clusters) r else s)
  | _ => .next s

end Sys2Proof.Machine
end

