-- ==== Sys2Proof/Machine/Inval.lean ====
section
/-! DEFINITION. The invalidation queue (R355 to R359), and the ATS invalidations of the root ports (R391). -/

namespace Sys2Proof.Machine

/-! ### Registers (R355) -/

/-- The ring lies wholly within one of the HBM4E windows. -/
def ringInWindow (addr log2n : Nat) : Bool :=
  match region addr, region (addr + 32 * 2 ^ log2n - 1) with
  | .hbm a, .hbm b => a == b
  | _, _ => false

/-- A write to ADDR and LOG2N. -/
def execInvalQueueConfigWrite (val : Word) (s : State) : Out :=
  let v := s.inval
  let n := (val.extractLsb' 0 4).toNat
  let log2n := if 4 ≤ n && n ≤ 12 then n else v.log2n
  let addr := (val &&& 0x0000_FFFF_FFFF_F000).toNat
  .next (if s.node.invalq && v.head == v.tail && ringInWindow addr log2n then
    { s with inval := { v with addr := addr, log2n := log2n } } else s)

/-- A TAIL write: taken, with what the core's last FENCE W,O released for the descriptors it covers (R357), or refused with
OVER. -/
def execInvalTailWrite (hart : Nat) (val : Word) (s : State) : Out :=
  let v := s.inval
  let t : BitVec 16 := val.setWidth 16
  if !s.node.invalq || v.log2n == 0 then .next s
  else if (v.tail - v.head).toNat ≤ (t - v.head).toNat && (t - v.head).toNat ≤ 2 ^ v.log2n then
    let rels := if t = v.tail then [] else (tailRelease s hart).map fun r => (v.tail, r)
    .next { s with inval := { v with tail := t, rels := v.rels ++ rels } }
  else .next { s with inval := { v with overrun := true } }

/-! ### Descriptors (R356) -/

def cpaOk (cpa : Nat) : Bool := cpa % 8 == 0 && isHbm cpa

/-- A descriptor's fields; the identifier is the cut's. -/
def cutOf (b : List Byte) (id : Nat) : InvalCut :=
  let fl := fieldOf b 14 1
  let va := fieldOf b 0 8
  let hart := fieldOf b 15 1
  let cpa := fieldOf b 16 8
  { id := id, va := va, pages := fieldOf b 8 4, asid := if fl % 2 = 1 then some (BitVec.ofNat 16 (fieldOf b 12 2)) else none,
    global := fl / 2 % 2 == 1, msi := fl / 4 % 2 == 1, hart := hart, cpa := cpa,
    cval := BitVec.ofNat 64 (fieldOf b 24 8),
    bad := va % 4096 != 0 || !cpaOk cpa || decide (23 < hart) || decide (8 ≤ fl), users := [] }

def InvalCut.cut (c : InvalCut) : Cut := ⟨c.va, if c.pages = 0 then none else some (c.pages * 4096), c.asid, c.global⟩

/-- The cut of descriptor `i` acquires what the TAIL writes that cover it released (R357). -/
def acquireTails (s : State) (i : BitVec 16) : State :=
  let v := s.inval
  let (now, later) := v.rels.partition fun r => decide ((r.1 - v.head).toNat ≤ (i - v.head).toNat)
  { agentAcquire s invalObs (now.map Prod.snd) with inval := { v with rels := later } }

/-- Adds a descriptor to those taken; a malformed one makes no cut and sets BAD. A slot that software has filled while the ring
was full gives what memory holds there at the cut. DESIGN CHOICE: log entry 93. -/
def takeCut (s : State) (c : InvalCut) : State :=
  if c.bad then { s with inval := { s.inval with cuts := s.inval.cuts ++ [c], bad := true } }
  else
    let users := cutUsers s c.cut
    let s1 := sendAts (makeCut s c.cut) c.cut c.id
    { s1 with inval := { s1.inval with cuts := s1.inval.cuts ++ [{ c with users := users }] } }

/-- The next descriptor's cut (R358). -/
def execInvalCut (s : State) : Out :=
  let v := s.inval
  let i := v.head + BitVec.ofNat 16 v.cuts.length
  if !s.node.invalq || v.log2n == 0 || i == v.tail then .next s
  else
    let (b, s1) := agentRead (acquireTails s i) invalObs (v.addr + 32 * (i.toNat % 2 ^ v.log2n)) 32 true
    let (id, s2) := fresh s1
    .next (takeCut s2 (cutOf b id))

/-- The completion word of the oldest descriptor, its MSI, and HEAD (R356, R358). -/
def finishCut (s : State) (c : InvalCut) : State :=
  let s1 := if c.bad then
      (if cpaOk c.cpa then agentWrite s invalObs c.cpa (natBytes (2 ^ 64 - 1) 8) (some 4) else s)
    else agentWrite s invalObs c.cpa (natBytes c.cval.toNat 8) (some 4)
  let s2 := if c.msi && decide (c.hart ≤ 23) then sendMsi s1 c.hart s1.node.invalId.toNat (writesSince s1 s.nextId) else s1
  { s2 with inval := { s2.inval with head := s2.inval.head + 1, cuts := s2.inval.cuts.drop 1 } }

def execInvalCompletion (s : State) : Out :=
  match s.inval.cuts with
  | [] => .next s
  | c :: _ => .next (if !c.bad && cutBusy s c.cut c.id c.users then s else finishCut s c)

/-- An endpoint's Invalidation Completion for one cut (R391). -/
def execAtsInvalidationCompletion (port cut : Nat) (s : State) : Out :=
  .next { s with atsReqs := s.atsReqs.filter fun r => r != (port, cut) }

end Sys2Proof.Machine
end

