-- ==== Sys2Proof/Machine/Node.lean ====
section
/-! DEFINITION. The part in its node (R181, R182, R201, R386 to R398, R418): register pages, boot and FEATURES, firmware,
power, root ports, the headband, fault-service replies, and what application cores and other packages do to memory. -/

namespace Sys2Proof.Machine

/-! ### Boot (R387, R388) -/

/-- What one stage of the bring-up completes: the twelve stacks, the two halves, SPINE, LAUNCH, INVALQ, KEYTAB, the cores. DESIGN CHOICE: log entry 12. -/
def bootGroup (stage : Nat) : Nat :=
  if stage ≤ 12 then 1 else if stage ≤ 14 then 2 else if stage ≤ 18 then 3 else if stage = 19 then 4 else 5

/-- Every function of the groups before this one is up. -/
def bootReached (n : Node) (fw : Firmware) (group : Nat) : Bool :=
  (decide (group ≤ 1) || n.hbm == 0xFFF) && (decide (group ≤ 2) || n.half == 3)
    && (decide (group ≤ 3) || ((n.spine || fw.recovering || fw.stopped) && n.launch && n.invalq
          && (n.keytab || (n.done && !n.accept.getLsbD 7))))

def setBit12 (x : BitVec 12) (i : Nat) : BitVec 12 := x ||| (1#12 <<< i)

/-- The stage completes and sets its READY bit. -/
def bootStage (n : Node) (stage : Nat) : Node :=
  if stage ≤ 12 then { n with hbm := setBit12 n.hbm (stage - 1) }
  else if stage = 13 then { n with half := n.half ||| 1 }
  else if stage = 14 then { n with half := n.half ||| 2 }
  else if stage = 15 then { n with spine := true }
  else if stage = 16 then { n with launch := true }
  else if stage = 17 then { n with invalq := true }
  else if stage = 18 then { n with keytab := !n.done || n.accept.getLsbD 7 }
  else { n with app := true }

/-- What outlives a package reset: the straps, what is offered, and the images in the management flash; an uncommitted
trial is not the active slot of the flash. -/
def flashFirmware (f : Firmware) : Firmware :=
  let g := { Firmware.reset with slot := f.slot, version := f.version, standbyValid := f.standbyValid,
                                 standbyVersion := f.standbyVersion }
  if f.trialActive && !f.reverting then
    { g with slot := !f.slot, version := f.standbyVersion, standbyVersion := f.version } else g

/-- Package reset itself. Memory holds whatever it may. DEDUCED: log entry 11. -/
def resetPackage (s : State) : State :=
  { State.reset with
    node := { Node.reset with package := s.node.package, offer := s.node.offer }
    fw := flashFirmware s.fw
    freeMem := [⟨memKey s.node.package.toNat 0x1000_0000_0000, 0x00C0_0000_0000, none⟩,
                ⟨memKey s.node.package.toNat 0x2000_0000_0000, 0x4000_0000, none⟩]
    agenda := s.agenda, free := s.free, nextId := s.nextId, cur := s.cur, phase := s.phase }

/-- Stage 0 is the reset; the others bring the functions up in R387's order. -/
def execPackageReset (stage : Nat) (s : State) : Out :=
  if stage = 0 then .next (resetPackage s)
  else if bootGroup stage < 5 && bootReached s.node s.fw (bootGroup stage) && !(stage == 15 && (s.fw.recovering || s.fw.stopped))
  then .next { s with node := bootStage s.node stage }
  else .next s

/-! ### FEATURES (R389) -/

/-- GO: ACCEPT is fixed, and KEYTAB and FABRIC go where their features were not accepted. -/
def execFeaturesGo (val : Word) (s : State) : Out :=
  let n := s.node
  if !val.getLsbD 0 || n.done then .next s
  else
    .next { s with node := { n with done := true, keytab := n.keytab && n.accept.getLsbD 7,
                                    fabric := n.fabric && n.accept.getLsbD 8 } }

/-- A write of word `i` of ACCEPT: only offered bits read 1, and bit 0 always does. -/
def writeAccept (n : Node) (i : Nat) (val : Word) : Node :=
  if n.done then n
  else
    let m : BitVec 256 := BitVec.ofNat 256 ((2 ^ 64 - 1) * 2 ^ (64 * i))
    { n with accept := (((n.accept &&& ~~~m) ||| (val.setWidth 256 <<< (64 * i))) &&& n.offer) ||| 1 }

/-! ### The key table (R201) -/

/-- A write of one 8-byte word of an entry. -/
def execKeyEntryWrite (n word : Nat) (val : Word) (s : State) : Out :=
  if !s.node.keytab || decide (4096 ≤ n) then .next s
  else
    let e := mapGet s.keys n .reset
    if word < 8 then
      let m : BitVec 512 := BitVec.ofNat 512 ((2 ^ 64 - 1) * 2 ^ (64 * word))
      .next { s with keys := mapPut s.keys n { e with key := (e.key &&& ~~~m) ||| (val.setWidth 512 <<< (64 * word)) } }
    else if word = 8 then
      .next { s with keys := mapPut s.keys n { e with valid := val.getLsbD 63, asid := val.extractLsb' 32 16,
                                                      version := val.extractLsb' 0 32 } }
    else .next s

/-! ### Firmware (R395, R396) -/

/-- The spine restarts through recovery. -/
def beginRecovery (s : State) : State :=
  fwMsi { s with node := { s.node with spine := false }, fw := { s.fw with recovering := true } }

/-- TRIAL: verification of the image at FW_SRC begins. -/
def execFwTrial (val : Word) (s : State) : Out :=
  let f := s.fw
  if !val.getLsbD 1 || f.trialActive || f.recovering || f.verifying || !s.node.spine then .next s
  else .next { s with fw := { f with verifying := true } }

/-- Ticks of the watchdog. -/
def watchdogTicks (f : Firmware) : Nat := f.watchdog.toNat * 1000000

/-- The two slots change roles. -/
def swapSlots (f : Firmware) : Firmware :=
  { f with slot := !f.slot, version := f.standbyVersion, standbyVersion := f.version }

/-- Verification ends: BADIMG, or the image goes into the inactive slot and the spine restarts into it. -/
def execFwImageVerified (good : Bool) (version : BitVec 32) (s : State) : Out :=
  let f := s.fw
  if !f.verifying || !s.node.spine then .next s
  else if good then
    let g := swapSlots { f with verifying := false, standbyValid := true, standbyVersion := version }
    .next (beginRecovery { s with fw := { g with trialActive := true, watchdogLeft := watchdogTicks f } })
  else .next (fwMsi { s with fw := { f with verifying := false, badImg := true } })

/-- COMMIT before the watchdog expires. -/
def execFwCommit (val : Word) (s : State) : Out :=
  let f := s.fw
  if !val.getLsbD 2 || !f.trialActive || f.reverting || f.watchdogLeft == 0 then .next s
  else .next (fwMsi { s with fw := { f with trialActive := false } })

/-- The watchdog expires: back to the previous slot. DEDUCED: log entry 76. -/
def execCommitWatchdogExpiry (s : State) : Out :=
  let f := s.fw
  if !f.trialActive || f.reverting || f.watchdogLeft != 0 || f.stopped then .next s
  else .next (beginRecovery { s with fw := { swapSlots f with reverting := true, reverted := true } })

/-- The run has a record in the journal that may not be complete: one of a change made and not marked yet, or one of a change
not made yet, of its placement, of the switch or the restore of a cluster, or of its colophon (R395). DESIGN CHOICE: log entry 74. -/
def recordOpen (s : State) (r : Run) : Bool :=
  s.journal.contains r.id || r.stage == .ready || !r.preempt.isEmpty || !r.saved.isEmpty || (retireEnding s r).isSome

/-- A run ends with FIRMWARE_RECOVERY, one that has ended and whose colophon is not written too (R395). -/
def endUnrecorded (s : State) (r : Run) : State :=
  let e : Ending := ⟨6, 0xFFFF, 0, 0, 0, none⟩
  updRun (endRun s r.id e) r.id fun x => { x with ending := some e }

/-- The lock-step pair mismatches; `incomplete` says which open records the mismatch found not marked complete. -/
def execSpineMismatch (incomplete : List Nat) (s : State) : Out :=
  if s.fw.recovering then .next { s with fw := { s.fw with recovering := false, stopped := true } }
  else if !s.node.spine then .next s
  else .next ((s.runs.filter fun r => incomplete.contains r.id && recordOpen s r).foldl endUnrecorded
    { beginRecovery s with journal := [] })

/-- Recovery completes; records that the spine has not seen are announced now. -/
def execRecoveryEnd (s : State) : Out :=
  if !s.fw.recovering then .next s
  else
    let f := s.fw
    let s1 := fwMsi { s with
      node := { s.node with spine := true }
      fw := { f with recovering := false, reverting := false, trialActive := f.trialActive && !f.reverting } }
    .next (if s1.services.any fun v => !v.announced then
      { sendMsi s1 s1.node.svcHart.toNat s1.node.svcId.toNat
          ((s1.services.filter fun v => !v.announced).flatMap fun v => v.valid) with
        services := s1.services.map fun v => { v with announced := true } } else s1)

/-! ### Power (R397) -/

def effectiveLimit (n : Node) : Nat := min 3200 (max 1200 n.limit.toNat)

/-- The governor's evaluation: what it reports is within the limits it holds. DEDUCED: log entry 77. -/
def execPowerGovernorEvaluate (power tj clock vcore : BitVec 16) (s : State) : Out :=
  if power.toNat ≤ effectiveLimit s.node && tj.toNat ≤ 105 then
    .next { s with node := { s.node with power := power, tj := tj, clock := clock, vcore := vcore } }
  else .next s

/-! ### Time and refresh (R20, R181) -/

/-- One tick: the counter, the watchdog, and a refresh period that falls due. DESIGN CHOICE: log entry 80. -/
def execDtcTick (s : State) : Out :=
  let t := s.dtc + 1
  let s1 := { s with dtc := t, fw := { s.fw with watchdogLeft := s.fw.watchdogLeft - 1 } }
  match s.wsNext with
  | some p => .next (if t.toNat % s.wsPeriod.toNat = 0 then { s1 with wsPeriod := p, wsNext := none } else s1)
  | none => .next s1

def execRefreshPeriodChange (period : BitVec 20) (s : State) : Out :=
  if 0 < period.toNat && period.toNat < s.wsPeriod.toNat then .next { s with wsNext := some period } else .next s

/-! ### Register pages (R386, R418) -/

def pageNode : Nat := 0x3000_0000_0000
def pageLaunch : Nat := 0x3000_0001_0000
def pageKill : Nat := 0x3000_0001_4000
def pagePolicy : Nat := 0x3000_0002_0000
def pageInval : Nat := 0x3000_0004_0000
def pageKeys : Nat := 0x3000_0010_0000

/-- The registers by address. -/
inductive Reg where
  | node (off : Nat)
  | launch (n off : Nat)
  | kill (off : Nat)
  | policy (stack : Nat)
  | inval (off : Nat)
  | key (n word : Nat)
  | none
  deriving DecidableEq, Repr

/-- The register at an address that is a multiple of 8. -/
def regAt (pa : Nat) : Reg :=
  if pageNode ≤ pa && pa < pageNode + 0x1000 then .node (pa - pageNode)
  else if pageLaunch ≤ pa && pa < pageKill then .launch ((pa - pageLaunch) / 64) ((pa - pageLaunch) % 64)
  else if pageKill ≤ pa && pa < pageKill + 0x18 then .kill (pa - pageKill)
  else if pagePolicy ≤ pa && pa < pagePolicy + 96 then .policy ((pa - pagePolicy) / 8)
  else if pageInval ≤ pa && pa < pageInval + 0x20 then .inval (pa - pageInval)
  else if pageKeys ≤ pa && pa < pageKeys + 0x8_0000 then .key ((pa - pageKeys) / 128) ((pa - pageKeys) % 128 / 8)
  else .none

/-- READY (R386). -/
def readyWord (n : Node) : Word :=
  0#32 ++ n.root ++ n.hbm ++ BitVec.ofBool n.fabric ++ BitVec.ofBool n.keytab ++ BitVec.ofBool n.invalq
    ++ BitVec.ofBool n.launch ++ BitVec.ofBool n.spine ++ n.half ++ BitVec.ofBool n.app ++ 0#8

def fwStatus (f : Firmware) : Word :=
  f.version ++ 0#26 ++ BitVec.ofBool f.badImg ++ BitVec.ofBool f.reverted ++ BitVec.ofBool f.recovering
    ++ BitVec.ofBool f.trialActive ++ BitVec.ofBool f.standbyValid ++ BitVec.ofBool f.slot

/-- A read of the node page; a root port that is not ready gives zero (R388). -/
def nodeRead (s : State) (off : Nat) : Word :=
  let n := s.node
  if off = 0x000 then readyWord n
  else if off = 0x008 then 0#48 ++ n.domain ++ 0#1 ++ n.package
  else if 0x020 ≤ off && off < 0x040 then n.offer.extractLsb' (64 * ((off - 0x020) / 8)) 64
  else if 0x040 ≤ off && off < 0x060 then n.accept.extractLsb' (64 * ((off - 0x040) / 8)) 64
  else if off = 0x060 then 0#62 ++ BitVec.ofBool n.done ++ 0#1
  else if off = 0x080 then n.qbase ++ n.invalId ++ n.svcId ++ n.fwId ++ n.svcHart ++ n.fwHart ++ n.level ++ 0#8
  else if off = 0x0A0 then s.fw.watchdog ++ 0#32
  else if off = 0x0A8 then fwStatus s.fw
  else if off = 0x0B0 then s.fw.src
  else if off = 0x0C0 then 0#48 ++ n.limit
  else if off = 0x0C8 then n.power ++ n.tj ++ n.clock ++ n.vcore
  else if 0x100 ≤ off && off < 0x120 then
    let p := (off - 0x100) / 8
    if n.root.getLsbD p then mapGet n.ctx p 0 ||| (BitVec.ofBool (n.ctxEn.getLsbD p)).setWidth 64 else 0
  else 0

def qstateCode : QState → BitVec 3
  | .disabled => 0
  | .idle => 1
  | .resident => 2
  | .switchedOut => 3
  | .resetting => 4

/-- A read of a launch queue's registers: TAIL and PROGRESS are windows onto the descriptor; PROGRESS of a resident queue is the
spine's own (R367). -/
def launchRead (s : State) (n off : Nat) : Word :=
  let q := getQueue s n
  if off = 0 then q.desc ||| (BitVec.ofBool q.en).setWidth 64
  else if off = 8 then 0#32 ++ (descWord s q 16).1
  else if off = 16 then 0#32 ++ (if q.state = .resident then q.progress else (descWord s q 20).1)
  else if off = 24 then 0#59 ++ BitVec.ofBool q.badDesc ++ 0#1 ++ qstateCode q.state
  else 0

/-- A read of a whole register; a function that is not ready reads zero. -/
def regRead (s : State) (r : Reg) : Word :=
  match r with
  | .node off => nodeRead s off
  | .launch n off => if s.node.launch then launchRead s n off else 0
  | .kill off =>
    if !s.node.launch then 0
    else if off = 0 then s.kill.asid.setWidth 64
    else if off = 8 then s.kill.cpa
    else if off = 16 then 0#62 ++ BitVec.ofBool s.kill.active.isSome ++ 0#1
    else 0
  | .policy k => if s.node.launch then mapGet s.hbmPolicy k 0x40 else 0
  | .inval off =>
    if !s.node.invalq then 0
    else if off = 0 then BitVec.ofNat 64 (s.inval.addr + s.inval.log2n)
    else if off = 8 then s.inval.tail.setWidth 64
    else if off = 16 then s.inval.head.setWidth 64
    else if off = 24 then 0#62 ++ BitVec.ofBool s.inval.overrun ++ BitVec.ofBool s.inval.bad
    else 0
  | .key n word =>
    if s.node.keytab && word == 8 then
      let e := mapGet s.keys n .reset
      BitVec.ofBool e.valid ++ 0#15 ++ e.asid ++ e.version
    else 0
  | .none => 0

/-- A load of the register pages (R418). -/
def regLoad (s : State) (pa size : Nat) : Word :=
  if [1, 2, 4, 8].contains size && pa % size == 0 then
    let w := regRead s (regAt (pa / 8 * 8))
    BitVec.ofNat 64 (w.toNat / 2 ^ (8 * (pa % 8)) % 2 ^ (8 * size))
  else 0

/-- Identities, cores and the level of the MSIs (R392). -/
def writeMsiReg (n : Node) (v : Word) : Node :=
  let lv : BitVec 2 := v.extractLsb' 8 2
  { n with qbase := v.extractLsb' 53 11, invalId := v.extractLsb' 42 11, svcId := v.extractLsb' 31 11,
           fwId := v.extractLsb' 20 11, svcHart := v.extractLsb' 15 5, fwHart := v.extractLsb' 10 5,
           level := if lv.toNat ≤ 1 then lv else n.level }

/-- TRIAL and COMMIT in one write: each is decided on what stood before it. DEDUCED: log entry 75. -/
def fwControl (v : Word) (s : State) : Out :=
  match execFwTrial v s with
  | .next s1 => execFwCommit v s1
  | o => o

/-- A core's write to the node page; the registers of a root port that is not ready take none (R388). DEDUCED: log entry 41. -/
def nodeWrite (off : Nat) (v : Word) (s : State) : Out :=
  let n := s.node
  if 0x040 ≤ off && off < 0x060 then .next { s with node := writeAccept n ((off - 0x040) / 8) v }
  else if off = 0x060 then execFeaturesGo v s
  else if off = 0x080 then .next { s with node := writeMsiReg n v }
  else if off = 0x0A0 then fwControl v { s with fw := { s.fw with watchdog := v.extractLsb' 32 32 } }
  else if off = 0x0A8 then
    .next { s with fw := { s.fw with badImg := s.fw.badImg && !v.getLsbD 5, reverted := s.fw.reverted && !v.getLsbD 4 } }
  else if off = 0x0B0 then .next { s with fw := { s.fw with src := v &&& 0x0000_FFFF_FFFF_F000 } }
  else if off = 0x0C0 then .next { s with node := { n with limit := v.setWidth 16 } }
  else if 0x100 ≤ off && off < 0x120 then
    let p := (off - 0x100) / 8
    if !n.root.getLsbD p then .next s
    else
      .next { s with node := { n with
        ctx := mapPut n.ctx p (v &&& 0x0000_FFFF_FFFF_FFC0)
        ctxEn := if v.getLsbD 0 then n.ctxEn ||| (1#4 <<< p) else n.ctxEn &&& ~~~(1#4 <<< p) } }
  else .next s

/-- What the management interface may write (R398). -/
def i3cWrite (off : Nat) (v : Word) (s : State) : Out :=
  if s.i3cAddr.isNone then .next s
  else if off = 0x0A0 then fwControl v s
  else if off = 0x0B0 || off = 0x0C0 then nodeWrite off v s
  else .next s

/-- What the management interface reads of the node page (R398). -/
def i3cRead (s : State) (off : Nat) : Word :=
  if s.i3cAddr.isSome && off % 8 == 0 && decide (off ≤ 0x0C8) then nodeRead s off else 0

/-- HBM_POLICY (R182). -/
def writePolicy (s : State) (k : Nat) (v : Word) : State :=
  let old := mapGet s.hbmPolicy k 0x40
  let mode := if v.extractLsb' 12 2 = 3 then old &&& 0x3000 else v &&& 0x3000
  { s with hbmPolicy := mapPut s.hbmPolicy k (mode ||| (v &&& 0xFFF)) }

/-- A core's write to a whole register. -/
def regWrite (hart : Nat) (r : Reg) (v : Word) (s : State) : Out :=
  match r with
  | .node off => nodeWrite off v s
  | .launch n off =>
    if off = 0 then execLaunchQueueConfigWrite n v s
    else if off = 8 then execLaunchTailWrite n hart v s
    else if off = 24 && s.node.launch then
      let s1 := if v.getLsbD 4 then setQueue s n { getQueue s n with badDesc := false } else s
      if v.getLsbD 3 then execQueueReset n s1 else .next s1
    else .next s
  | .kill off =>
    if !s.node.launch then .next s
    else if off = 0 then .next { s with kill := { s.kill with asid := v.setWidth 16 } }
    else if off = 8 then .next { s with kill := { s.kill with cpa := v &&& 0x0000_FFFF_FFFF_FFF8 } }
    else if off = 16 then execKillGo v s
    else .next s
  | .policy k => .next (if s.node.launch then writePolicy s k v else s)
  | .inval off =>
    if off = 0 then execInvalQueueConfigWrite v s
    else if off = 8 then execInvalTailWrite hart v s
    else if off = 24 && s.node.invalq then
      .next { s with inval := { s.inval with overrun := s.inval.overrun && !v.getLsbD 1, bad := s.inval.bad && !v.getLsbD 0 } }
    else .next s
  | .key n word => execKeyEntryWrite n word v s
  | .none => .next s

/-- A write to a register page: only an aligned 8-byte one has an effect (R418). -/
def execRegisterWrite (agent : RegAgent) (pa size : Nat) (val : Word) (s : State) : Out :=
  if size != 8 || pa % 8 != 0 then .next s
  else
    match agent with
    | .core h => regWrite h (regAt pa) val s
    | .i3c =>
      match regAt pa with
      | .node off => i3cWrite off val s
      | _ => .next s

/-- ENTDAA gives the management interface its dynamic address (R398). -/
def execI3cEntdaa (addr : BitVec 7) (s : State) : Out := .next { s with i3cAddr := some addr }

/-! ### Root ports (R390, R391) -/

def execRootLinkUp (n : Nat) (s : State) : Out :=
  if s.node.app && decide (n < 4) then .next { s with node := { s.node with root := s.node.root ||| (1#4 <<< n) } } else .next s

def execRootLinkDown (n : Nat) (s : State) : Out :=
  .next { s with node := { s.node with root := s.node.root &&& ~~~(1#4 <<< n) } }

/-- DESIGN CHOICE: log entry 7. -/
def answer (s : State) (ok : Bool) (v : Nat) : State := { s with reply := ⟨ok, BitVec.ofNat 64 v⟩ }

/-- The context that translates a port's DMA; none where it is blocked or cannot be read. -/
def portContext (s : State) (port : Nat) : Option Context × State :=
  if s.node.ctxEn.getLsbD port then readContext s (mapGet s.node.ctx port 0).toNat else (none, s)

/-- DMA that translates: a read, or a write that neither reaches the weight store nor is an atomic; anything else
completes with Unsupported Request. DEDUCED: log entry 35. -/
def dmaAccess (s : State) (port : Nat) (c : Context) (acc : BusAccess) : State :=
  let rd := agentReader s (portObs port) 1
  match acc with
  | .load va n =>
    match readVirt s rd c.asid c.root false .r va.toNat n with
    | (.ok (b, _), s1) => answer s1 true (bytesNat b)
    | (.error _, s1) => answer s1 false 0
  | .store va b _ =>
    let ps := pageSplit va.toNat b.length
    match translateAll s rd c.asid c.root false .w ps with
    | (.error _, s1) => answer s1 false 0
    | (.ok ts, s1) =>
      if ts.any fun t => t.cache == 3 then answer s1 false 0
      else
        let (p, s2) := agentNext s1 (portObs port)
        answer (writePages s2 { obs := portObs port, po := p } (ps.zip ts) b) true 0
  | _ => answer s false 0

/-- An endpoint's MSI or MSI-X, written to an IMSIC (R390); it is a posted write, after the endpoint's writes before it.
DEDUCED: log entry 35. -/
def portMsi (s : State) (port hart level identity : Nat) : State :=
  if identity = 0 || decide (24 ≤ hart) then answer s false 0
  else
    let mine := (s.hist.filter fun w => w.obs == portObs port).flatMap fun w => w.bytes.mapIdx fun i _ => (w.key + i, w.id)
    answer (pendMsi s ⟨hart, level, identity, mine⟩) true 0

/-- An endpoint's request (R390, R391); an MSI too needs the port's context, though no walk of it. DEDUCED: log entry 35. -/
def execDmaRequest (port : Nat) (acc : BusAccess) (s : State) : Out :=
  if decide (4 ≤ port) || !s.node.root.getLsbD port then .next s
  else
    match portContext s port with
    | (some c, s1) =>
      .next (match acc with
        | .msi hart level identity => portMsi s1 port hart level identity
        | _ => dmaAccess s1 port c acc)
    | (none, s1) => .next (answer s1 false 0)

/-- The same walk answers an ATS Translation Request, with the physical address. -/
def execAtsTranslationRequest (port : Nat) (va : Word) (write : Bool) (s : State) : Out :=
  if decide (4 ≤ port) || !s.node.root.getLsbD port then .next s
  else
    match portContext s port with
    | (none, s1) => .next (answer s1 false 0)
    | (some c, s1) =>
      match translate s1 (agentReader s1 (portObs port) 1) c.asid c.root false va.toNat (if write then .w else .r) with
      | (.ok t, s2) => .next (answer s2 true t.pa)
      | (.error _, s2) => .next (answer s2 false 0)

/-! ### The headband (R393, R394, R215) -/

/-- The domain is formed. -/
def execHeadbandDomainFormed (domain : Nat) (s : State) : Out :=
  let n := s.node
  if n.fabric || !n.app || (n.done && !n.accept.getLsbD 8) || domain == 0 || decide (128 < domain)
      || decide (domain ≤ n.package.toNat) then .next s
  else .next { s with node := { n with domain := BitVec.ofNat 8 domain, fabric := true }, lostPkgs := [] }

/-- The first page of an access whose frame lies in a lost package. -/
def lostPiece (lost : List Nat) (e : LogEntry) : Option Nat :=
  (((pageSplit e.va.toNat e.size).zip e.trans).find? fun x => lost.contains x.2.pkg).map fun x => x.1.1

/-- The entries of a leaf that can no longer reach their package fault with ACCESS. -/
def failLost (lost : List Nat) (s : State) (g : Nat) : State :=
  let l := getLeaf s g
  (l.olog ++ l.tlog).foldl (fun s e =>
    match lostPiece lost e, leafRun s g with
    | some va, some run => detect s g run e .access va
    | _, _ => s) s

/-- A port is taken out of service, and with it the last route to the packages in `lost`. -/
def execHeadbandPortFailure (port : Nat) (lost : List Nat) (s : State) : Out :=
  if 64 ≤ port then .next s
  else
    let gone := lost.filter fun p => p != s.node.package.toNat
    let s1 := { s with lostPorts := port :: s.lostPorts.filter (fun p => p != port)
                       lostPkgs := s.lostPkgs ++ gone.filter fun p => !s.lostPkgs.contains p }
    let s2 := (s1.leaves.map Prod.fst).foldl (failLost gone) s1
    let s3 := (s2.arrivals.filter fun a => gone.contains (kettlePkg a.dst)).foldl
      (fun s a => treeError { s with arrivals := s.arrivals.filter fun x => x.id != a.id } a.run a.src) s2
    .next ((s3.flips.filter fun f => gone.contains (kettlePkg f.dst)).foldl
      (fun s f => treeError { s with flips := s.flips.erase f } f.run f.src) s3)

/-- HBM4E that is ready, or, for what is no store, the weight store as well. -/
def busReach (s : State) (pa n : Nat) : Bool :=
  n != 0 && (pieces pa n).all fun p => hbmReady s p.1 || region p.1 == .weight

/-- The run whose saved kettle file has a kettle of this number, which the spine holds messages for (R239). -/
def savedKettle (s : State) (dst : Nat) (p : Kettle → Bool) : Option Run :=
  s.runs.find? fun r => r.saved.any fun x =>
    x.from_ == kettleCluster dst && p (mapGet x.kettles (kettleIndex dst) (.reset (kettleIndex dst)))

/-- The run that a message to a kettle of this package is for: the one that holds the cluster, where the kettle can take it,
or one that is saved. -/
def localKettle (s : State) (dst : Nat) (p : Kettle → Bool) : Option Run :=
  if kettlePkg dst != s.node.package.toNat then none
  else
    match runOfCluster s (kettleCluster dst), savedKettle s dst p with
    | some r, some v => if p (getKettle s (kettleCluster dst) (kettleIndex dst)) then some r else some v
    | some r, none => some r
    | none, v => v

/-- What this package's messages released that a message from another package stands for: `of` names their senders and phases
(R212, R237). DEDUCED: log entry 65. -/
def broughtBack (run : Run) (of : List (Nat × Nat)) : List Release :=
  (run.abroad.filter fun x => of.contains (x.1, x.2.1)).flatMap fun x => x.2.2

/-- A kettle of a run by its number: on the device, or saved. -/
def kettleAt (s : State) (run : Run) (dst : Nat) : Kettle :=
  match run.saved.find? fun x => x.from_ == kettleCluster dst with
  | some x => mapGet x.kettles (kettleIndex dst) (.reset (kettleIndex dst))
  | none => getKettle s (kettleCluster dst) (kettleIndex dst)

/-- A request from another package performs at the fabric ordering point. A flip carries also what its kettle's own arrival
released. -/
def busAccess (s : State) (pkg : Nat) (acc : BusAccess) : State :=
  let o := pkgObs pkg
  let home := s.node.package.toNat
  match acc with
  | .load pa n =>
    if busReach s pa.toNat n then
      let (b, s1) := agentRead s o pa.toNat n false
      answer s1 true (bytesNat b)
    else answer s false 0
  | .store pa b rel =>
    if busReach s pa.toNat b.length then answer (agentWrite s o pa.toNat b (if rel then some 5 else none)) true 0
    else answer s false 0
  | .atom op ext rm pa n d c ar =>
    if busReach s pa.toNat n && isHbm pa.toNat && (n == 4 || n == 8) && pa.toNat % n == 0 then
      let (p, s0) := agentNext s o
      let r : Reader := { agentReader s0 o 1 with clock := clockJoin (mapGet s0.agentClock o []) [(o, p)], latest := true }
      let (b, rels, s1) := readPhys s0 r home pa.toNat n
      let m := bytesNat b
      let (v, _) := atomValue op n ext rm m (d.toNat % 2 ^ (8 * n)) (c.toNat % 2 ^ (8 * n))
      let s2 := if ar then agentAcquire s1 o rels else s1
      let w : Writer := { obs := o, po := p, own := if ar then [agentRelease s2 o 5] else [], chain := true }
      answer (if casFails op m (c.toNat % 2 ^ (8 * n)) then s2 else writePhys s2 w home pa.toNat (natBytes v n)) true m
    else answer s false 0
  | .arrival src dst of =>
    match localKettle s dst fun x => x.state == .open_ && decide (x.carr.length < x.child.toNat) with
    | some run =>
      let (id, s1) := fresh s
      answer { s1 with arrivals := s1.arrivals ++ [⟨id, run.id, src, dst, agentRelease s1 o 5 :: broughtBack run of⟩] } true 0
    | none => answer s false 0
  | .flip src dst of =>
    let awaits := fun (x : Kettle) => x.state == .closed && x.hasParent && parentNo x.parent == src
    match localKettle s dst awaits with
    | some run =>
      if run.saved.any (fun x => x.from_ == kettleCluster dst) || awaits (getKettle s (kettleCluster dst) (kettleIndex dst)) then
        let rel := agentRelease s o 5 :: broughtBack run of ++ (kettleAt s run dst).rel
        answer { s with flips := s.flips ++ [⟨run.id, dst, src, rel⟩] } true 0
      else answer s false 0
    | none => answer s false 0
  | .msi _ _ _ => answer s false 0

def execHeadbandRequestArrival (pkg : Nat) (acc : BusAccess) (s : State) : Out :=
  if s.node.fabric && pkg != s.node.package.toNat && remoteReachable s pkg then .next (busAccess s pkg acc) else .next s

/-! ### Fault-service replies (R362) -/

/-- The entry's wait is over: it is translated afresh, or its fault is delivered. -/
def answerEntry (retry : Bool) (idx g : Nat) (s : State) (e : LogEntry) : State :=
  match e.stage with
  | .service i c fva =>
    if i != idx then s
    else if retry then setStage s g e.id .walk
    else if (getLeaf s g).exited then faultEnd s g (lateTrap e c fva).word (getLeaf s g).pc fva
    else setStage s g e.id (.faulted c fva)
  | _ => s

def answerPress (retry : Bool) (idx g : Nat) (s : State) (o : PressOp) : State :=
  match o.stage with
  | .service i c fva =>
    if i != idx then s
    else if retry then updLeaf s g fun l => updPress l o.id fun x => { x with stage := .storing }
    else
      let trapQ := (getLeaf s g).tq.any fun x => x.id == o.id
      raiseAsync (updLeaf s g fun l => updPress l o.id fun x => { x with stage := .held }) g trapQ
        { cause := .epiStore, detail := c.code, unit := 1, obj := o.slot, async := true, fva := fva, op := o.id }
  | _ => s

def answerSew (retry : Bool) (idx g : Nat) (s : State) (o : SewOp) : State :=
  match o.service with
  | some (i, c, fva) =>
    if i != idx then s
    else if retry then updLeaf s g fun l => updHead l fun x => { x with service := none }
    else sewReport s g o c fva
  | none => s

def answerWait (retry : Bool) (idx g : Nat) (s : State) : State :=
  match (getLeaf s g).wait with
  | .segService n i c fva =>
    if i != idx then s
    else updLeaf s g fun l => { l with wait := if retry then .segment n else .segFault c fva }
  | _ => s

def answerLeaf (retry : Bool) (idx : Nat) (s : State) (g : Nat) : State :=
  let l := getLeaf s g
  let s1 := (l.olog ++ l.tlog).foldl (answerEntry retry idx g) s
  let s2 := (l.pq ++ l.tq).foldl (answerPress retry idx g) s1
  let s3 := l.sewq.foldl (answerSew retry idx g) s2
  answerWait retry idx g s3

/-- A copy's block moves again, or the copy ends with the fault it found. -/
def answerCopy (retry : Bool) (idx q : Nat) (s : State) (c : Copy) : State :=
  if c.service != some idx then s
  else if retry then updCopy s q c.id fun x => { x with service := none, fault := none }
  else
    let s1 := updCopy s q c.id fun x => { x with service := none }
    match c.form with
    | .copyq b _ _ _ _ _ => updLeaf s1 c.leaf fun l => setBuf l b { getBuf l b with faulted := true }
    | _ => s1

/-- A reply takes effect on whatever waits for the record. -/
def answerService (retry : Bool) (idx : Nat) (s : State) : State :=
  let s1 := { s with services := s.services.filter fun v => v.idx != idx }
  let s2 := (s1.leaves.map Prod.fst).foldl (answerLeaf retry idx) s1
  s2.quires.foldl (fun s p => p.2.copies.foldl (answerCopy retry idx p.1) s) s2

/-- A word of a record, as the spine sees it; zero where the record cannot be read. -/
def recordWord (s : State) (run : Run) (va n : Nat) : Nat × State :=
  match spineVirt s run.asid run.root va n with
  | (.ok b, s1) => (bytesNat b, s1)
  | (.error _, s1) => (0, s1)

/-- The services that log entries, epilogues, sewing operations and segment loads of a leaf wait for. -/
def leafServices (l : Leaf) : List Nat :=
  ((l.olog ++ l.tlog).filterMap fun e => match e.stage with
    | .service i _ _ => some i
    | _ => none)
  ++ ((l.pq ++ l.tq).filterMap fun o => match o.stage with
    | .service i _ _ => some i
    | _ => none)
  ++ (l.sewq.filterMap fun o => o.service.map fun x => x.1)
  ++ (match l.wait with
    | .segService _ i _ _ => [i]
    | _ => [])

/-- The access that waits belongs to a saved leaf: the reply takes effect once it is back. -/
def serviceSaved (run : Run) (idx : Nat) : Bool := run.saved.any fun x => x.leaves.any fun l => (leafServices l).contains idx

/-- The writes of VALID of a record that a handler has claimed. -/
def claimedWrites (s : State) (run : Run) (n : Nat) : List (Nat × Nat) :=
  match (translate s (spineReader s) run.asid run.root false (run.fring.toNat + 64 * n + 15) .r).1 with
  | .ok t => (s.hist.filter fun w => w.covers (memKey t.pkg (canonAddr t.pa))).map fun w => (memKey t.pkg (canonAddr t.pa), w.id)
  | .error _ => []

/-- The spine looks at a record: at RESP of one that an access waits on, at VALID of one that a handler has claimed. -/
def execFaultServiceResponse (r : SvcRecord) (s : State) : Out :=
  if !s.node.spine then .next s
  else
    match r with
    | .device idx =>
      match s.services.find? fun v => v.idx == idx with
      | none => .next s
      | some v =>
        match findRun s v.run with
        | none => .next s
        | some run =>
          let (w, s1) := recordWord s run (v.ring.toNat + 24) 4
          .next (if serviceSaved run idx then s else if w = 1 then answerService true idx s1 else if w = 2 then answerService false idx s1 else s1)
    | .handler id n =>
      match findRun s id with
      | none => .next s
      | some run =>
        if run.fringRecords ≤ n then .next s
        else
          let (w, s1) := recordWord s run (run.fring.toNat + 64 * n + 14) 2
          .next (if w = 0x0107 then sendMsi s1 s1.node.svcHart.toNat s1.node.svcId.toNat (claimedWrites s1 run n) else s1)

/-! ### Application cores (R22, R223, R224, R246, R352, R388, R392) -/

def getCore (s : State) (hart : Nat) : CoreRegs := mapGet s.cores hart .reset

def updCore (s : State) (hart : Nat) (f : CoreRegs → CoreRegs) : State :=
  { s with cores := mapPut s.cores hart (f (getCore s hart)) }

/-- What a core is told of an access that faults: the code its trap has. -/
inductive CoreFault where
  | access | page | align
  deriving DecidableEq, Repr

/-- PRESUMED: log entry 31. -/
def coreFaultCode (k : Kind) : CoreFault → Nat
  | .align => (match k with
    | .r => 4
    | .w => 6
    | .x => 0)
  | .access => (match k with
    | .r => 5
    | .w => 7
    | .x => 1)
  | .page => (match k with
    | .r => 13
    | .w => 15
    | .x => 12)

/-- What translates an access: guest or not, the ASID, the root, whether it must be readable as well as writable, and
whether S-mode may not use a user page for it. -/
structure CoreWalk where
  guest : Bool
  asid : BitVec 16
  root : Nat
  amo : Bool
  barred : Bool
  deriving DecidableEq, Repr

/-- A leaf serves the access; every leaf is a user page (R352). -/
def CoreWalk.permits (w : CoreWalk) (e : Word) (k : Kind) : Bool := !w.barred && ptePermits e k && (!w.amo || pteR e)

/-- An entry's frame, for a core: not through REMOTE = 1 (R352). -/
def coreEntry (s : State) (va : Nat) (e : Word) (size : Nat) : Except CoreFault (Nat × Bool) :=
  match useEntry s va e size with
  | .ok t => if pteRemote e then .error .access else .ok (t.pa, t.ms || t.cache == 2)
  | .error _ => .error .access

/-- The core's cached translations that serve the access. -/
def coreHits (s : State) (hart va : Nat) (w : CoreWalk) (k : Kind) : List (Nat × Bool) :=
  (getCore s hart).tlb.filterMap fun t =>
    if t.1 == w.guest && (t.2.global || t.2.asid == w.asid) && decide (t.2.base ≤ va) && decide (va < t.2.base + t.2.size)
        && w.permits t.2.entry k then (coreEntry s va t.2.entry t.2.size).toOption else none

/-- A fresh walk; what succeeds is kept until SFENCE.VMA takes it out. -/
def coreFresh (s : State) (hart va : Nat) (w : CoreWalk) (k : Kind) : Except CoreFault (Nat × Bool) × State :=
  let r : Reader := { agentReader s (coreObs hart) 1 with core := some hart, floor := (getCore s hart).floor }
  match walkFrom s r va k w.root 5 with
  | (.error .access, s1) => (.error .access, s1)
  | (.error _, s1) => (.error .page, s1)
  | (.ok (e, level, _), s1) =>
    if !w.permits e k then (.error .page, s1)
    else
      match coreEntry s1 va e (pageSize e level) with
      | .error f => (.error f, s1)
      | .ok x =>
        let te : TlbEntry := ⟨w.asid, pteG e, va - va % pageSize e level, pageSize e level, e⟩
        (.ok x, updCore s1 hart fun c => { c with tlb := (w.guest, te) :: c.tlb.filter fun t => t != (w.guest, te) })

/-- Where a core's access of `n` bytes goes: device physical address, and whether the page is MS or uncached. DESIGN CHOICE: log
entry 30. -/
def coreTarget (s : State) (hart n : Nat) (a : CoreAddr) (k : Kind) (amo : Bool) : Except CoreFault (Nat × Bool) × State :=
  match a with
  | .phys pa io => (.ok (pa, io), s)
  | .virt guest smode va =>
    let c := getCore s hart
    let atp := if guest then c.vsatp else c.satp
    let barred := smode && (k == .x || !(if guest then c.vsum else c.sum))
    let w : CoreWalk := ⟨guest, atp.extractLsb' 44 16, (atp.extractLsb' 0 44).toNat * 4096, amo, barred⟩
    if atp.extractLsb' 60 4 != 15 then (.ok (va.toNat, false), s)
    else if 4096 < va.toNat % 4096 + n then (.error .align, s)
    else
      let hits := coreHits s hart va.toNat w k
      let (i, s1) := if hits.isEmpty then (0, s) else takeChoice s (hits.length + 1)
      match hits[i]? with
      | some x => (.ok x, s1)
      | none => coreFresh s1 hart va.toNat w k

/-- Addresses behind the root complex. -/
def isPcie (pa : Nat) : Bool :=
  (decide (0x3000_1000_0000 ≤ pa) && decide (pa < 0x3000_2000_0000))
    || (decide (0x3000_8000_0000 ≤ pa) && decide (pa < 0x3001_0000_0000))

/-- The newest write of the cores that a read comes after which met these writes: another core's own, and what stands for one
of the core's. -/
def newestRead (hart : Nat) (marks : Map Nat) (ws : List WriteRec) : Nat :=
  ws.foldl (fun m w => max m (if w.obs == coreObs hart then mapGet marks w.id 0 else if isCoreObs w.obs then w.id else 0)) 0

/-- The newest of the places of reads that an access depends on. -/
def CoreRegs.afterReads (c : CoreRegs) (after : List Nat) : Nat := after.foldl (fun m k => max m (c.reads.getD k 0)) 0

def CoreStore.covers (w : CoreStore) (a : Nat) : Bool := decide (w.pa ≤ a) && decide (a < w.pa + w.bytes.length)

/-- A core reads memory, its own stores that it holds first: an AMO or an LR what memory holds now, a load what RVWMO lets it
see; `aq` orders everything later after it, and the read comes after those that it depends on. DEDUCED: log entry 29. -/
def coreRead (s : State) (hart pa n : Nat) (latest aq : Bool) (after : List Nat) : List Byte × State :=
  let o := coreObs hart
  let c := getCore s hart
  let held := fun (a : Nat) => c.pending.reverse.find? fun w => w.covers a
  let mine := (List.range n).filterMap fun i => held (pa + i)
  let base := mine.foldl (fun m w => max m w.mark) (max c.floor (c.afterReads after))
  let (p, s0) := agentNext s o
  let r : Reader := { agentReader s0 o 1 with
    clock := clockJoin (mapGet s0.agentClock o []) [(o, p)], core := some hart, latest := latest, floor := base }
  let home := s.node.package.toNat
  let (b, all, s1) := readWrites s0 r home pa n
  let ws := all.filter fun w => (List.range n).any fun i => (held (pa + i)).isNone && w.covers (memKey home (canonAddr (pa + i)))
  let rels := ws.flatMap fun w => w.rels
  let s2 := if aq then agentAcquire s1 o rels else s1
  let pos := if latest && mine.isEmpty then s.nextId else max base (newestRead hart c.marks ws)
  (b.mapIdx fun i x => match held (pa + i) with
    | some w => w.bytes.getD (pa + i - w.pa) x
    | none => x,
   updCore s2 hart fun c =>
    { c with read := max c.read pos, floor := if aq then max c.floor pos else c.floor, reads := pos :: c.reads
             got := c.got ++ rels.filter fun x => !c.got.contains x })

/-- A core writes memory, with what its FENCE RW,W before it or its .rl bit releases; a line of HBM4E stays in its caches
until it is flushed, but no cache keeps one of an MS or uncached page (`io`) or of the weight store (R220, R223, R224, R296).
A later read of the core that finds the bytes comes after `mark`, or after the write itself where there is none. -/
def coreWrite (s : State) (hart pa : Nat) (io : Bool) (b : List Byte) (rl chain : Bool) (mark : Option Nat) : State :=
  let o := coreObs hart
  let (p, s0) := agentNext s o
  let rels := (getCore s hart).rel.toList ++ (if rl then [agentRelease s0 o 4] else [])
  let s1 := writePhys s0 { obs := o, po := p, rels := rels, chain := chain, unflushed := isHbm pa && !io } s.node.package.toNat pa b
  let ids := (List.range (s1.nextId - s.nextId)).map fun i => s.nextId + i
  updCore s1 hart fun c =>
    { c with wrote := s1.nextId - 1, marks := ids.foldl (fun m i => mapPut m i (mark.getD i)) c.marks }

/-- Those of a core's held stores that `sel` names by place, and before each the older ones to the same bytes; and the rest. -/
def splitHeld (sel : CoreStore × Nat → Bool) (ws : List CoreStore) : List CoreStore × List CoreStore :=
  ws.zipIdx.foldr (fun w x =>
    if sel w || x.1.any fun v => overlap v.pa v.bytes.length w.1.pa w.1.bytes.length then (w.1 :: x.1, x.2) else (x.1, w.1 :: x.2)) ([], [])

/-- A core performs stores that it holds (R223). -/
def drainHeld (hart : Nat) (sel : CoreStore × Nat → Bool) (s : State) : State :=
  let x := splitHeld sel (getCore s hart).pending
  x.1.foldl (fun s w => coreWrite s hart w.pa false w.bytes false false (some w.mark)) (updCore s hart fun c => { c with pending := x.2 })

/-- Those to a range, as an access to the same bytes that is to be performed needs. -/
def drainOver (hart pa n : Nat) (all : Bool) (s : State) : State :=
  drainHeld hart (fun w => all || overlap w.1.pa w.1.bytes.length pa n) s

/-- FENCE (R223): one that orders stores first performs those that the core holds; R,RW acquires what the loads before it have
read; RW,W releases to the stores after it, and W,O to the tail-register writes; a load after it goes behind none of the
writes that the accesses before it have met. -/
def coreFence (s0 : State) (hart : Nat) (pred succ : BitVec 4) : State :=
  let s := if pred.getLsbD 0 then drainOver hart 0 0 true s0 else s0
  let o := coreObs hart
  let c := getCore s hart
  let pr := pred.getLsbD 1
  let pw := pred.getLsbD 0
  let sr := succ.getLsbD 1
  let sw := succ.getLsbD 0
  let acq := pr && sr && sw
  let s1 := if acq then agentAcquire s o c.got else s
  let rel := agentRelease s1 o 4
  updCore s1 hart fun c =>
    { c with got := if acq then [] else c.got
             rel := if pr && pw && sw then some rel else c.rel
             out := if pw && succ.getLsbD 2 then some rel else c.out
             floor := if sr then max c.floor (max (if pw then c.wrote else 0) (if pr then c.read else 0)) else c.floor }

/-- A write of satp, vsatp or hgatp; hgatp does not accept MODE 15 (R352). -/
def coreCsr (r : CoreCsr) (v : Word) (c : CoreRegs) : CoreRegs :=
  match r with
  | .satp => { c with satp := v }
  | .vsatp => { c with vsatp := v }
  | .hgatp => if v.extractLsb' 60 4 = 15 then c else { c with hgatp := v }

/-- SFENCE.VMA of one address or all, one ASID or all, on this hart's translations only (R352). -/
def coreSfence (guest : Bool) (va : Option Word) (asid : Option (BitVec 16)) (c : CoreRegs) : CoreRegs :=
  { c with tlb := c.tlb.filter fun t =>
      !(t.1 == guest && va.all (fun v => decide (t.2.base ≤ v.toNat) && decide (v.toNat < t.2.base + t.2.size))
        && asid.all fun a => !t.2.global && t.2.asid == a) }

/-- A core takes an interrupt: the identity is no longer pending, and the writes it announced come before what the core reads
from then on (R392). -/
def coreInterrupt (s : State) (hart identity : Nat) : State :=
  let mine := fun (m : Msi) => m.hart == hart && m.identity == identity
  let told := (s.msis.filter mine).flatMap Msi.after
  let o := coreObs hart
  let linear := fun (id : Nat) => (s.hist.find? fun w => w.id == id).any fun w => w.linear
  { s with msis := s.msis.filter fun m => !mine m
           seen := if told.isEmpty then s.seen else
             mapPut s.seen o (told.foldl (fun m x => Seen.note (linear x.2) (mapGet s.agentPo o 0) m x) (mapGet s.seen o [])) }

/-- What a core's read-modify-write leaves. -/
def amoValue (op : AmoOp) (n m d : Nat) : Nat :=
  let e := 8 * n
  let sg := fun (x : Nat) => (BitVec.ofNat e x).toInt
  match op with
  | .add => (m + d) % 2 ^ e
  | .min => if sg m ≤ sg d then m else d
  | .max => if sg m ≤ sg d then d else m
  | .minu => if m ≤ d then m else d
  | .maxu => if m ≤ d then d else m
  | .and => m &&& d
  | .or => m ||| d
  | .xor => m ^^^ d
  | .swap => d

/-- The kinds of region a core's access can meet. -/
inductive CorePlace where
  | memory | weight | regs | fault
  deriving DecidableEq, Repr

/-- DEDUCED: log entry 32. -/
def corePlace (s : State) (pa n : Nat) : CorePlace :=
  match region pa with
  | .regs => .regs
  | .weight => if (pieces pa n).all fun p => region p.1 == .weight then .weight else .fault
  | .hbm _ => if (pieces pa n).all fun p => hbmReady s p.1 then .memory else .fault
  | .none => .fault

def coreFails (s : State) (k : Kind) (f : CoreFault) : Out := .next { s with reply := ⟨false, BitVec.ofNat 64 (coreFaultCode k f)⟩ }

/-- What lies behind the root complex is no part of the spec. DEDUCED: log entry 33. -/
def coreGuard (pa : Nat) (f : Unit → Out) : Out := if isPcie pa then .refused .pcieDevice else f ()

/-- A load, an instruction fetch, or an LR, which reads what memory holds now. -/
def coreLoad (s : State) (hart pa n : Nat) (k : Kind) (latest aq : Bool) (deps : List Nat) (after : State → State) : Out :=
  coreGuard pa fun _ =>
    match corePlace s pa n with
    | .fault => coreFails s k .access
    | .regs => if k = .x then coreFails s k .access else .next (answer s true (regLoad s pa n).toNat)
    | _ =>
      let (b, s1) := coreRead s hart pa n latest aq deps
      .next (answer (after s1) true (bytesNat b))

/-- A store, performed at once or held; no store to an MS or uncached page is held. -/
def coreStore (s : State) (hart pa : Nat) (io : Bool) (b : List Byte) (held : Bool) (after : List Nat) : Out :=
  coreGuard pa fun _ =>
    match corePlace s pa b.length with
    | .fault => coreFails s .w .access
    | .regs => execRegisterWrite (.core hart) pa b.length (BitVec.ofNat 64 (bytesNat b)) (answer s true 0)
    | _ =>
      let m := (getCore s hart).afterReads after
      if held && !io then .next (answer (updCore s hart fun c => { c with pending := c.pending ++ [⟨pa, b, m⟩] }) true 0)
      else .next (answer (coreWrite (drainOver hart pa b.length false s) hart pa io b false false (some m)) true 0)

def coreAmo (s : State) (hart : Nat) (op : AmoOp) (pa n : Nat) (io : Bool) (d : Word) (aq rl : Bool) : Out :=
  coreGuard pa fun _ =>
    match corePlace s pa n with
    | .memory =>
      let (b, s1) := coreRead (drainOver hart pa n rl s) hart pa n true aq []
      let m := bytesNat b
      .next (answer (coreWrite s1 hart pa io (natBytes (amoValue op n m (d.toNat % 2 ^ (8 * n))) n) rl true none) true m)
    | _ => coreFails s .w .access

/-- The reservation that an LR takes; it covers the bytes read. -/
def reserve (hart pa n : Nat) (s : State) : State :=
  { s with resv := mapPut s.resv hart (memKey s.node.package.toNat (canonAddr pa), n) }

/-- SC: 0 where it writes and 1 where it fails, which RVWMO lets one do that holds its reservation; the reservation goes. What
depends on its answer comes after its write. -/
def coreSc (s : State) (hart pa n : Nat) (io : Bool) (d : Word) (rl : Bool) : Out :=
  coreGuard pa fun _ =>
    match corePlace s pa n with
    | .memory =>
      let held := mapFind s.resv hart == some (memKey s.node.package.toNat (canonAddr pa), n)
      let s1 := { s with resv := mapDel s.resv hart }
      let noted := fun (pos : Nat) (s : State) => updCore s hart fun c => { c with reads := pos :: c.reads }
      if held && !io then
        let (c, s2) := takeChoice s1 2
        if c = 0 then
          let s3 := coreWrite (drainOver hart pa n rl s2) hart pa io (natBytes d.toNat n) rl true none
          .next (answer (noted (getCore s3 hart).wrote s3) true 0)
        else .next (answer (noted 0 s2) true 1)
      else .next (answer (noted 0 s1) true 1)
    | _ => coreFails s .w .access

/-- CBO.FLUSH of a block: what the cores have written to it is in HBM4E (R224). -/
def flushBlock (pa : Nat) (s : State) : State :=
  let k := memKey s.node.package.toNat (canonAddr (pa / 64 * 64))
  { s with hist := s.hist.map fun w => if overlap w.key w.bytes.length k 64 then { w with unflushed := false } else w }

/-- CBO.INVAL of a block: reads after it see what the device wrote through LAUNCH_PRIVATE pages, once the runs that used
the line have retired (R224). -/
def invalBlock (hart pa : Nat) (s : State) : State :=
  let k := memKey s.node.package.toNat (canonAddr (pa / 64 * 64)) / 64
  let (p, s1) := agentNext s (coreObs hart)
  match mapFind s.privLines k with
  | some x =>
    if x.runs.any fun r => (findRun s r).isSome then s1
    else { s1 with privLines := mapPut s1.privLines k { x with clean := (hart, p) :: x.clean } }
  | none => s1

/-- A block operation; only lines of memory are in a cache. -/
def coreBlock (s : State) (pa : Nat) (f : State → State) : Out :=
  match corePlace s pa 1 with
  | .fault => coreFails s .r .access
  | .regs => .next (answer s true 0)
  | _ => .next (answer (f s) true 0)

/-- The access once its address is known. -/
def corePerform (s : State) (hart : Nat) (acc : CoreAccess) (pa : Nat) (io : Bool) : Out :=
  match acc with
  | .load _ n after => coreLoad s hart pa n .r false false after id
  | .fetch _ n => coreLoad s hart pa n .x false false [] id
  | .store _ b held after => coreStore s hart pa io b held after
  | .amo op _ n d aq rl => if pa % n != 0 then coreFails s .w .align else coreAmo s hart op pa n io d aq rl
  | .lr _ n aq =>
    if pa % n != 0 then coreFails s .r .align
    else
      match corePlace s pa n with
      | .memory => coreLoad s hart pa n .r (!io) aq [] (if io then id else reserve hart pa n)
      | _ => coreGuard pa fun _ => coreFails s .r .access
  | .sc _ n d rl => if pa % n != 0 then coreFails s .w .align else coreSc s hart pa n io d rl
  | .cboFlush _ => coreBlock s pa fun s => flushBlock pa (drainOver hart (pa / 64 * 64) 64 false s)
  | .cboInval _ => coreBlock s pa fun s => invalBlock hart pa (drainOver hart (pa / 64 * 64) 64 false s)
  | .drain k => .next (answer (drainHeld hart (fun w => w.2 == k) s) true 0)
  | .fence pred succ => .next (answer (coreFence s hart pred succ) true 0)
  | .csr r v => .next (answer (updCore s hart (coreCsr r v)) true 0)
  | .sum guest on => .next (answer (updCore s hart fun c => if guest then { c with vsum := on } else { c with sum := on }) true 0)
  | .sfence guest va asid => .next (answer (updCore (drainOver hart 0 0 true s) hart (coreSfence guest va asid)) true 0)
  | .interrupt identity => .next (answer (coreInterrupt s hart identity) true 0)
  | .dtc => .next (answer s true s.dtc.toNat)

def accessKind : CoreAccess → Kind
  | .load _ _ _ | .lr _ _ _ | .cboFlush _ | .cboInval _ => .r
  | .fetch _ _ => .x
  | _ => .w

/-- The address of an access; none for what is no access. -/
def accessAddr : CoreAccess → Option CoreAddr
  | .load a _ _ | .fetch a _ | .store a _ _ _ | .amo _ a _ _ _ _ | .lr a _ _ | .sc a _ _ _ | .cboFlush a | .cboInval a => some a
  | .drain _ | .fence _ _ | .csr _ _ | .sum _ _ | .sfence _ _ _ | .interrupt _ | .dtc => none

/-- The bytes that must lie in one page; a block operation stays within its line. -/
def accessSize : CoreAccess → Nat
  | .load _ n _ | .fetch _ n | .amo _ _ n _ _ _ | .lr _ n _ | .sc _ n _ _ => n
  | .store _ b _ _ => b.length
  | _ => 1

/-- Needs a page that can be read as well as written (R352). -/
def accessAmo : CoreAccess → Bool
  | .amo _ _ _ _ _ _ => true
  | _ => false

/-- A core that has been released acts on the device's memory. DESIGN CHOICE: log entry 29. -/
def execApplicationCoreAccess (hart : Nat) (acc : CoreAccess) (s : State) : Out :=
  if !s.node.app || decide (24 ≤ hart) then .next s
  else
    match accessAddr acc with
    | none => corePerform s hart acc 0 false
    | some a =>
      match coreTarget s hart (accessSize acc) a (accessKind acc) (accessAmo acc) with
      | (.error f, s1) => coreFails s1 (accessKind acc) f
      | (.ok (pa, io), s1) => corePerform s1 hart acc pa io

end Sys2Proof.Machine
end

