-- ==== Sys2Proof/Machine/Schedule.lean ====
section
/-! DEFINITION. Which choices the machine offers itself when its agenda is empty: every event of the package that may be
due, once each, one issue cycle of every quire in use, and a tick of the DTC; and how a bundle is put where the next
step issues it. -/

namespace Sys2Proof.Machine

/-- The events of a log entry. -/
def entryEvents (g : Nat) (e : LogEntry) : List Instr := [.walkComplete g e.id true, .logEntryPerform g e.id]

/-- The data of results still waited for. -/
def arrivalEvents (g : Nat) (l : Leaf) : List Instr :=
  (l.inflight ++ (match l.frame with
    | some f => f.inflight
    | none => [])).filterMap fun r => r.waiting.map fun id => .loadDataArrival g id

def pressEvents (g : Nat) (o : PressOp) : List Instr :=
  [.operationFire g o.id, .pressPass g o.id, .epiStage g o.id, .epiSegmentStore g o.id true, .operationComplete g o.id]

def sewEvents (g : Nat) (l : Leaf) : List Instr :=
  if l.sewq.isEmpty then [] else [.foldColumnRead g true, .sewStepPass g, .sewstSegmentStore g true, .sewingOpComplete g]

def sigEvents (g : Nat) (l : Leaf) : List Instr :=
  (if l.sigq.isEmpty then [] else [.signatureOpComplete g false]) ++ (if l.sigtq.isEmpty then [] else [.signatureOpComplete g true])

def transitEvents (g : Nat) (l : Leaf) : List Instr :=
  l.shelves.flatMap fun x => x.2.rows.filterMap fun r => match r.loc with
    | .transit n => some (.spillTransitComplete (quireOf g) ((g % 4 * 16 + x.1) * 2 ^ 24 + n))
    | _ => none

def leafEvents (p : Nat × Leaf) : List Instr :=
  let g := p.1
  let l := p.2
  match l.run with
  | none => []
  | some _ =>
    (l.olog ++ l.tlog).flatMap (entryEvents g) ++ arrivalEvents g l ++ (l.pq ++ l.tq).flatMap (pressEvents g)
      ++ sewEvents g l ++ sigEvents g l ++ transitEvents g l
      ++ (if l.wait = .none then [] else [.trapEntry g, .segmentLoad g, .blockedBundleResume g])

def copyEvents (q : Nat) (c : Copy) : List Instr :=
  [.copyRelease q c.id, .copyBlock q c.id ⟨true, true⟩, .copyPerform q c.id]

def quireEvents (p : Nat × Quire) : List Instr :=
  p.2.copies.flatMap (copyEvents p.1)
    ++ (if p.2.freeze = 0 then [] else [.freezeLimitPark p.1])
    ++ (if p.2.gsync = .stalled ∧ p.1 % 8 = 0 then [.gsyncLineAssert (p.1 / 8)] else [])

def kettleEvents (s : State) : List Instr :=
  (s.kfiles.flatMap fun f => f.2.flatMap fun k =>
    (k.2.acks.map fun a => .kettleReleaseAck f.1 k.1 a.1) ++ (if k.2.state = .closed then [.kettleFlip f.1 k.1] else []))
  ++ (s.arrivals.map fun a => .kettleUpwardArrival a.id)
  ++ s.flips.filterMap fun f =>
      if kettlePkg f.dst = s.node.package.toNat then none else some (.kettleFlip (kettleCluster f.src) (kettleIndex f.src))

def runEvents (s : State) (r : Run) : List Instr :=
  match r.stage with
  | .parsed => [.runReady r.id, .runRetire r.id]
  | .ready => [.runPlace r.id, .runRetire r.id]
  | .placed =>
    (if r.saved.isEmpty then [] else [.gangRestore r.id ((freeClusters s).take r.saved.length)])
      ++ r.preempt.map (fun c => .gangSwitch r.id c) ++ r.held.map (fun c => .preemptRequest r.id c) ++ [.runRetire r.id]
  | .ended => [.runRetire r.id]

def queueEvents (p : Nat × Queue) : List Instr :=
  if p.2.state = .disabled then [] else [.packetParse p.1, .queueSwitch p.1]

/-- The quires with a leaf that a run uses. -/
def usedQuires (s : State) : List Nat := ((s.leaves.filter fun p => p.2.run.isSome).map fun p => quireOf p.1).eraseDups

/-- The stages of the bring-up, in their order, until the application cores are released (R387). -/
def bootEvents (s : State) : List Instr :=
  if s.node.app then [] else (List.range 19).map fun k => .packageReset (k + 1)

/-- The sheet that a leaf parked in a freeze waits for (R161). -/
def refillEvents (s : State) (p : Nat × Leaf) : List Instr :=
  match p.2.wait with
  | .late _ => ((bundleNeeds s p.1).filter (refillDue s p.1)).map fun n => .sheetRefill p.1 n
  | _ => []

/-- Every event that may be due. -/
def dueEvents (s : State) : List Instr :=
  bootEvents s ++ s.leaves.flatMap leafEvents ++ s.leaves.flatMap (refillEvents s) ++ s.quires.flatMap quireEvents ++ kettleEvents s ++ s.runs.flatMap (runEvents s)
    ++ s.queues.flatMap queueEvents ++ s.services.map (fun v => .faultServiceResponse (.device v.idx))
    ++ [.invalCut, .invalCompletion, .commitWatchdogExpiry, .recoveryEnd]

/-- One round of what the package may do by itself. DESIGN CHOICE: log entry 82. -/
def cycle (s : State) : List Choice :=
  (dueEvents s).map .event ++ (usedQuires s).map .issue ++ [.event .dtcTick]

/-! ### Placing a bundle -/

/-- The packet of a run put in place from outside. -/
def placedPacket : Packet :=
  { prio := 0, depfail := false, service := false, barrier := false, clusters := 1, leafMask := 1, spawn := 0, image := 0,
    args := 0, data := 0, sheet := 0, sheetLen := 0, trapv := 0, emulv := 0, colophon := 0, signal := 0, deps := [],
    runId := 0, save := 0, ribbon := 0, tasks := 0, taskCount := 0 }

/-- A run of leaf 0 of cluster 0. -/
def placedRun (id : Nat) : Run :=
  { id := id, queue := 0, index := 0, hart := 0, ctx := 0, asid := 0, root := 0, fring := 0, fringRecords := 0,
    fringTail := 0, pkt := placedPacket, segs := [], stage := .placed, places := [some 0], saved := [], placedAt := 0,
    startDtc := 0, taskQ := [[], []], taskState := [], taskRels := [], ending := none, preempt := [], clock := [], wild := false, slot := 0, slotAt := 0, abroad := [] }

/-- The package brought up, with every offered feature accepted. -/
def bootedNode (n : Node) : Node :=
  { n with hbm := 0xFFF, half := 3, spine := true, launch := true, invalq := true, keytab := true, app := true,
           accept := n.offer ||| 1, done := true }

/-- Leaf 0 stands at index 0, which holds the bundle, and issues next; the sheets that the bundle touches are resident. -/
def placeBundle (s : State) (b : Bundle) : State :=
  let id := s.nextId
  let s1 := { s with
    nextId := id + 1, runs := placedRun id :: s.runs, node := bootedNode s.node, cur := 0, phase := .alone,
    leaves := mapPut s.leaves 0 { getLeaf s 0 with run := some id, exited := false, pc := 0, wait := .none },
    quires := mapPut s.quires 0 { getQuire s 0 with imem := mapPut (getQuire s 0).imem 0 b, sel := 0, segs := [] },
    agenda := .issue 0 :: s.agenda }
  updQuire s1 0 fun q => { q with frames := (((neededSheets s1 0).eraseDups).take 64).map fun n => ⟨0, n, false⟩ }

end Sys2Proof.Machine
end

