-- ==== Sys2Proof/Machine/Dispatch.lean ====
section
/-! DEFINITION. The meaning of every row of the opcode table. -/

namespace Sys2Proof.Machine

def exec (i : Instr) (s : State) : Host.Outcome State Fault Refusal :=
  match i with
  | .nop sl => Sys2Proof.Machine.execNop sl s
  | .add f => Sys2Proof.Machine.execAdd f s
  | .sub f => Sys2Proof.Machine.execSub f s
  | .addi f => Sys2Proof.Machine.execAddi f s
  | .mul f => Sys2Proof.Machine.execMul f s
  | .mulh f => Sys2Proof.Machine.execMulh f s
  | .mulhn f => Sys2Proof.Machine.execMulhn f s
  | .div f => Sys2Proof.Machine.execDiv f s
  | .divn f => Sys2Proof.Machine.execDivn f s
  | .rem f => Sys2Proof.Machine.execRem f s
  | .remn f => Sys2Proof.Machine.execRemn f s
  | .and_ f => Sys2Proof.Machine.execAnd f s
  | .or_ f => Sys2Proof.Machine.execOr f s
  | .xor_ f => Sys2Proof.Machine.execXor f s
  | .andn f => Sys2Proof.Machine.execAndn f s
  | .andi f => Sys2Proof.Machine.execAndi f s
  | .ori f => Sys2Proof.Machine.execOri f s
  | .xori f => Sys2Proof.Machine.execXori f s
  | .sll f => Sys2Proof.Machine.execSll f s
  | .srl f => Sys2Proof.Machine.execSrl f s
  | .sra f => Sys2Proof.Machine.execSra f s
  | .slli f => Sys2Proof.Machine.execSlli f s
  | .srli f => Sys2Proof.Machine.execSrli f s
  | .srai f => Sys2Proof.Machine.execSrai f s
  | .rotr f => Sys2Proof.Machine.execRotr f s
  | .min f => Sys2Proof.Machine.execMin f s
  | .max f => Sys2Proof.Machine.execMax f s
  | .minn f => Sys2Proof.Machine.execMinn f s
  | .maxn f => Sys2Proof.Machine.execMaxn f s
  | .slt f => Sys2Proof.Machine.execSlt f s
  | .sltn f => Sys2Proof.Machine.execSltn f s
  | .seq f => Sys2Proof.Machine.execSeq f s
  | .slti f => Sys2Proof.Machine.execSlti f s
  | .li f => Sys2Proof.Machine.execLi f s
  | .lih f => Sys2Proof.Machine.execLih f s
  | .sel f => Sys2Proof.Machine.execSel f s
  | .clz f => Sys2Proof.Machine.execClz f s
  | .ctz f => Sys2Proof.Machine.execCtz f s
  | .popc f => Sys2Proof.Machine.execPopc f s
  | .bswap f => Sys2Proof.Machine.execBswap f s
  | .extr f => Sys2Proof.Machine.execExtr f s
  | .insr f => Sys2Proof.Machine.execInsr f s
  | .addr f => Sys2Proof.Machine.execAddr f s
  | .br f => Sys2Proof.Machine.execBr f s
  | .bri f => Sys2Proof.Machine.execBri f s
  | .call f => Sys2Proof.Machine.execCall f s
  | .callInd f => Sys2Proof.Machine.execCallInd f s
  | .ret => Sys2Proof.Machine.execRet s
  | .beq f => Sys2Proof.Machine.execBeq f s
  | .bne f => Sys2Proof.Machine.execBne f s
  | .blt f => Sys2Proof.Machine.execBlt f s
  | .bge f => Sys2Proof.Machine.execBge f s
  | .bltn f => Sys2Proof.Machine.execBltn f s
  | .bgen f => Sys2Proof.Machine.execBgen f s
  | .bz f => Sys2Proof.Machine.execBz f s
  | .bnz f => Sys2Proof.Machine.execBnz f s
  | .loop f => Sys2Proof.Machine.execLoop f s
  | .loopi f => Sys2Proof.Machine.execLoopi f s
  | .setfmt f => Sys2Proof.Machine.execSetfmt f s
  | .waitk f => Sys2Proof.Machine.execWaitk f s
  | .tokrd f => Sys2Proof.Machine.execTokrd f s
  | .sysrd f => Sys2Proof.Machine.execSysrd f s
  | .syswr f => Sys2Proof.Machine.execSyswr f s
  | .trap f => Sys2Proof.Machine.execTrap f s
  | .rte => Sys2Proof.Machine.execRte s
  | .brk f => Sys2Proof.Machine.execBrk f s
  | .karv f => Sys2Proof.Machine.execKarv f s
  | .kwait f => Sys2Proof.Machine.execKwait f s
  | .kpoll f => Sys2Proof.Machine.execKpoll f s
  | .kinit f => Sys2Proof.Machine.execKinit f s
  | .gjoin f => Sys2Proof.Machine.execGjoin f s
  | .gleave f => Sys2Proof.Machine.execGleave f s
  | .fence f => Sys2Proof.Machine.execFence f s
  | .drain => Sys2Proof.Machine.execDrain s
  | .aliasf f => Sys2Proof.Machine.execAliasf f s
  | .tlbinv f => Sys2Proof.Machine.execTlbinv f s
  | .ribn f => Sys2Proof.Machine.execRibn f s
  | .tget f => Sys2Proof.Machine.execTget f s
  | .tspawn f => Sys2Proof.Machine.execTspawn f s
  | .tawait f => Sys2Proof.Machine.execTawait f s
  | .tcancel f => Sys2Proof.Machine.execTcancel f s
  | .exit_ => Sys2Proof.Machine.execExit s
  | .yield f => Sys2Proof.Machine.execYield f s
  | .vadd f => Sys2Proof.Machine.execVadd f s
  | .vsub f => Sys2Proof.Machine.execVsub f s
  | .vmul f => Sys2Proof.Machine.execVmul f s
  | .vmulh f => Sys2Proof.Machine.execVmulh f s
  | .vmac f => Sys2Proof.Machine.execVmac f s
  | .vadds f => Sys2Proof.Machine.execVadds f s
  | .vsubs f => Sys2Proof.Machine.execVsubs f s
  | .vand f => Sys2Proof.Machine.execVand f s
  | .vor f => Sys2Proof.Machine.execVor f s
  | .vxor f => Sys2Proof.Machine.execVxor f s
  | .vandn f => Sys2Proof.Machine.execVandn f s
  | .vsll f => Sys2Proof.Machine.execVsll f s
  | .vsrl f => Sys2Proof.Machine.execVsrl f s
  | .vsra f => Sys2Proof.Machine.execVsra f s
  | .vmin f => Sys2Proof.Machine.execVmin f s
  | .vmax f => Sys2Proof.Machine.execVmax f s
  | .vabs f => Sys2Proof.Machine.execVabs f s
  | .vcmpeq f => Sys2Proof.Machine.execVcmpeq f s
  | .vcmplt f => Sys2Proof.Machine.execVcmplt f s
  | .vcmple f => Sys2Proof.Machine.execVcmple f s
  | .vfadd f => Sys2Proof.Machine.execVfadd f s
  | .vfsub f => Sys2Proof.Machine.execVfsub f s
  | .vfmul f => Sys2Proof.Machine.execVfmul f s
  | .vfma f => Sys2Proof.Machine.execVfma f s
  | .vfmin f => Sys2Proof.Machine.execVfmin f s
  | .vfmax f => Sys2Proof.Machine.execVfmax f s
  | .vfabs f => Sys2Proof.Machine.execVfabs f s
  | .vfneg f => Sys2Proof.Machine.execVfneg f s
  | .vfcmpeq f => Sys2Proof.Machine.execVfcmpeq f s
  | .vfcmplt f => Sys2Proof.Machine.execVfcmplt f s
  | .vfcmple f => Sys2Proof.Machine.execVfcmple f s
  | .vfrcp f => Sys2Proof.Machine.execVfrcp f s
  | .vfrsq f => Sys2Proof.Machine.execVfrsq f s
  | .vfexp2 f => Sys2Proof.Machine.execVfexp2 f s
  | .vi2f f => Sys2Proof.Machine.execVi2f f s
  | .vf2i f => Sys2Proof.Machine.execVf2i f s
  | .vmov f => Sys2Proof.Machine.execVmov f s
  | .vdup f => Sys2Proof.Machine.execVdup f s
  | .vext f => Sys2Proof.Machine.execVext f s
  | .vins f => Sys2Proof.Machine.execVins f s
  | .vsel f => Sys2Proof.Machine.execVsel f s
  | .vperm f => Sys2Proof.Machine.execVperm f s
  | .vshl f => Sys2Proof.Machine.execVshl f s
  | .vrot f => Sys2Proof.Machine.execVrot f s
  | .vradd f => Sys2Proof.Machine.execVradd f s
  | .vrmax f => Sys2Proof.Machine.execVrmax f s
  | .vrmaxi f => Sys2Proof.Machine.execVrmaxi f s
  | .mand f => Sys2Proof.Machine.execMand f s
  | .mor f => Sys2Proof.Machine.execMor f s
  | .mxor f => Sys2Proof.Machine.execMxor f s
  | .mnot f => Sys2Proof.Machine.execMnot f s
  | .mpopc f => Sys2Proof.Machine.execMpopc f s
  | .mfirst f => Sys2Proof.Machine.execMfirst f s
  | .vsign f => Sys2Proof.Machine.execVsign f s
  | .vpopc f => Sys2Proof.Machine.execVpopc f s
  | .pld f => Sys2Proof.Machine.execPld f s
  | .pst f => Sys2Proof.Machine.execPst f s
  | .pldv f => Sys2Proof.Machine.execPldv f s
  | .pstv f => Sys2Proof.Machine.execPstv f s
  | .pldvs f => Sys2Proof.Machine.execPldvs f s
  | .pgth f => Sys2Proof.Machine.execPgth f s
  | .psct f => Sys2Proof.Machine.execPsct f s
  | .pldh f => Sys2Proof.Machine.execPldh f s
  | .pldhV f => Sys2Proof.Machine.execPldhV f s
  | .gld f => Sys2Proof.Machine.execGld f s
  | .gst f => Sys2Proof.Machine.execGst f s
  | .gldv f => Sys2Proof.Machine.execGldv f s
  | .gstv f => Sys2Proof.Machine.execGstv f s
  | .gpf f => Sys2Proof.Machine.execGpf f s
  | .aadd f => Sys2Proof.Machine.execAadd f s
  | .afadd f => Sys2Proof.Machine.execAfadd f s
  | .amin f => Sys2Proof.Machine.execAmin f s
  | .amax f => Sys2Proof.Machine.execAmax f s
  | .aand f => Sys2Proof.Machine.execAand f s
  | .aor f => Sys2Proof.Machine.execAor f s
  | .axor f => Sys2Proof.Machine.execAxor f s
  | .aswp f => Sys2Proof.Machine.execAswp f s
  | .acas f => Sys2Proof.Machine.execAcas f s
  | .ainc f => Sys2Proof.Machine.execAinc f s
  | .mma f => Sys2Proof.Machine.execMma f s
  | .mmaz f => Sys2Proof.Machine.execMmaz f s
  | .accz f => Sys2Proof.Machine.execAccz f s
  | .accrd f => Sys2Proof.Machine.execAccrd f s
  | .accwr f => Sys2Proof.Machine.execAccwr f s
  | .epi f => Sys2Proof.Machine.execEpi f s
  | .qcfg f => Sys2Proof.Machine.execQcfg f s
  | .qput f => Sys2Proof.Machine.execQput f s
  | .qget f => Sys2Proof.Machine.execQget f s
  | .qstat f => Sys2Proof.Machine.execQstat f s
  | .feedset f => Sys2Proof.Machine.execFeedset f s
  | .sewcfg f => Sys2Proof.Machine.execSewcfg f s
  | .bondset f => Sys2Proof.Machine.execBondset f s
  | .sew f => Sys2Proof.Machine.execSew f s
  | .sewrun f => Sys2Proof.Machine.execSewrun f s
  | .sewst f => Sys2Proof.Machine.execSewst f s
  | .shcfg f => Sys2Proof.Machine.execShcfg f s
  | .sins f => Sys2Proof.Machine.execSins f s
  | .sage f => Sys2Proof.Machine.execSage f s
  | .sdel f => Sys2Proof.Machine.execSdel f s
  | .ssel f => Sys2Proof.Machine.execSsel f s
  | .srdr f => Sys2Proof.Machine.execSrdr f s
  | .shstat f => Sys2Proof.Machine.execShstat f s
  | .xcvt f => Sys2Proof.Machine.execXcvt f s
  | .xpack f => Sys2Proof.Machine.execXpack f s
  | .xunpk f => Sys2Proof.Machine.execXunpk f s
  | .xexp f => Sys2Proof.Machine.execXexp f s
  | .xtrn f => Sys2Proof.Machine.execXtrn f s
  | .copy f => Sys2Proof.Machine.execCopy f s
  | .copy2 f => Sys2Proof.Machine.execCopy2 f s
  | .copyq f => Sys2Proof.Machine.execCopyq f s
  | .copyh f => Sys2Proof.Machine.execCopyh f s
  | .copyout f => Sys2Proof.Machine.execCopyout f s
  | .pub f => Sys2Proof.Machine.execPub f s
  | .hrel f => Sys2Proof.Machine.execHrel f s
  | .hstat f => Sys2Proof.Machine.execHstat f s
  | .hcfg f => Sys2Proof.Machine.execHcfg f s
  | .ccancel f => Sys2Proof.Machine.execCcancel f s
  | .blockedBundleResume g => Sys2Proof.Machine.execBlockedBundleResume g s
  | .loadDataArrival g id => Sys2Proof.Machine.execLoadDataArrival g id s
  | .freezeLimitPark q => Sys2Proof.Machine.execFreezeLimitPark q s
  | .gsyncLineAssert c => Sys2Proof.Machine.execGsyncLineAssert c s
  | .selectorBundleLimit q => Sys2Proof.Machine.execSelectorBundleLimit q s
  | .trapEntry g => Sys2Proof.Machine.execTrapEntry g s
  | .sheetRefill g sheet => Sys2Proof.Machine.execSheetRefill g sheet s
  | .walkComplete g id useTlb => Sys2Proof.Machine.execWalkComplete g id useTlb s
  | .logEntryPerform g id => Sys2Proof.Machine.execLogEntryPerform g id s
  | .copyRelease q id => Sys2Proof.Machine.execCopyRelease q id s
  | .copyBlock q id w => Sys2Proof.Machine.execCopyBlock q id w s
  | .copyPerform q id => Sys2Proof.Machine.execCopyPerform q id s
  | .operationFire g id => Sys2Proof.Machine.execOperationFire g id s
  | .pressPass g id => Sys2Proof.Machine.execPressPass g id s
  | .operationComplete g id => Sys2Proof.Machine.execOperationComplete g id s
  | .epiStage g id => Sys2Proof.Machine.execEpiStage g id s
  | .epiSegmentStore g id useTlb => Sys2Proof.Machine.execEpiSegmentStore g id useTlb s
  | .sewStepPass g => Sys2Proof.Machine.execSewStepPass g s
  | .foldColumnRead g useTlb => Sys2Proof.Machine.execFoldColumnRead g useTlb s
  | .sewstSegmentStore g useTlb => Sys2Proof.Machine.execSewstSegmentStore g useTlb s
  | .sewingOpComplete g => Sys2Proof.Machine.execSewingOpComplete g s
  | .signatureOpComplete g trapQ => Sys2Proof.Machine.execSignatureOpComplete g trapQ s
  | .spillTransitComplete q id => Sys2Proof.Machine.execSpillTransitComplete q id s
  | .kettleReleaseAck c k g => Sys2Proof.Machine.execKettleReleaseAck c k g s
  | .kettleUpwardArrival id => Sys2Proof.Machine.execKettleUpwardArrival id s
  | .kettleFlip c k => Sys2Proof.Machine.execKettleFlip c k s
  | .preemptRequest run c => Sys2Proof.Machine.execPreemptRequest run c s
  | .gangSwitch run c => Sys2Proof.Machine.execGangSwitch run c s
  | .gangRestore run clusters => Sys2Proof.Machine.execGangRestore run clusters s
  | .segmentLoad g => Sys2Proof.Machine.execSegmentLoad g s
  | .faultServiceResponse r => Sys2Proof.Machine.execFaultServiceResponse r s
  | .packageReset stage => Sys2Proof.Machine.execPackageReset stage s
  | .launchQueueConfigWrite n val => Sys2Proof.Machine.execLaunchQueueConfigWrite n val s
  | .launchTailWrite n hart val => Sys2Proof.Machine.execLaunchTailWrite n hart val s
  | .queueReset n => Sys2Proof.Machine.execQueueReset n s
  | .killGo val => Sys2Proof.Machine.execKillGo val s
  | .queueSwitch n => Sys2Proof.Machine.execQueueSwitch n s
  | .packetParse n => Sys2Proof.Machine.execPacketParse n s
  | .runReady run => Sys2Proof.Machine.execRunReady run s
  | .runPlace run => Sys2Proof.Machine.execRunPlace run s
  | .runRetire run => Sys2Proof.Machine.execRunRetire run s
  | .invalQueueConfigWrite val => Sys2Proof.Machine.execInvalQueueConfigWrite val s
  | .invalTailWrite hart val => Sys2Proof.Machine.execInvalTailWrite hart val s
  | .invalCut => Sys2Proof.Machine.execInvalCut s
  | .invalCompletion => Sys2Proof.Machine.execInvalCompletion s
  | .keyEntryWrite n word val => Sys2Proof.Machine.execKeyEntryWrite n word val s
  | .featuresGo val => Sys2Proof.Machine.execFeaturesGo val s
  | .fwTrial val => Sys2Proof.Machine.execFwTrial val s
  | .fwImageVerified good version => Sys2Proof.Machine.execFwImageVerified good version s
  | .fwCommit val => Sys2Proof.Machine.execFwCommit val s
  | .commitWatchdogExpiry => Sys2Proof.Machine.execCommitWatchdogExpiry s
  | .spineMismatch incomplete => Sys2Proof.Machine.execSpineMismatch incomplete s
  | .recoveryEnd => Sys2Proof.Machine.execRecoveryEnd s
  | .powerGovernorEvaluate power tj clock vcore => Sys2Proof.Machine.execPowerGovernorEvaluate power tj clock vcore s
  | .rootLinkUp n => Sys2Proof.Machine.execRootLinkUp n s
  | .rootLinkDown n => Sys2Proof.Machine.execRootLinkDown n s
  | .dmaRequest port acc => Sys2Proof.Machine.execDmaRequest port acc s
  | .atsTranslationRequest port va write => Sys2Proof.Machine.execAtsTranslationRequest port va write s
  | .atsInvalidationCompletion port cut => Sys2Proof.Machine.execAtsInvalidationCompletion port cut s
  | .headbandPortFailure port lost => Sys2Proof.Machine.execHeadbandPortFailure port lost s
  | .i3cEntdaa addr => Sys2Proof.Machine.execI3cEntdaa addr s
  | .registerWrite agent pa size val => Sys2Proof.Machine.execRegisterWrite agent pa size val s
  | .dtcTick => Sys2Proof.Machine.execDtcTick s
  | .refreshPeriodChange period => Sys2Proof.Machine.execRefreshPeriodChange period s
  | .headbandDomainFormed domain => Sys2Proof.Machine.execHeadbandDomainFormed domain s
  | .headbandRequestArrival pkg acc => Sys2Proof.Machine.execHeadbandRequestArrival pkg acc s
  | .applicationCoreAccess hart acc => Sys2Proof.Machine.execApplicationCoreAccess hart acc s

end Sys2Proof.Machine
end

