-- ==== Sys2Proof/Machine/Step.lean ====
section
/-! DEFINITION. One step: the first choice of the agenda is made; an empty agenda is filled with the next round. -/

namespace Sys2Proof.Machine

/-- A choice: one event, or one issue cycle of a quire, whose operations mean what `exec` says. -/
def choose (c : Choice) (s : State) : Host.Outcome State Fault Refusal :=
  match c with
  | .event i => exec i s
  | .issue q => issueQuire exec q s

/-- One step of the package. DESIGN CHOICE: log entry 3. -/
def step (s : State) : Host.Outcome State Fault Refusal :=
  match s.agenda with
  | [] => .next { s with agenda := cycle s }
  | c :: r => choose c { s with agenda := r }

/-- The state in which the next step issues the bundle of bits `w`, its bits from `nbits` up zero. DESIGN CHOICE: log entry 4. -/
def State.withFetchWord (s : State) (nbits w : Nat) : State := placeBundle s (BitVec.ofNat 512 (w % 2 ^ nbits))

end Sys2Proof.Machine
end

