-- ==== Sys2Proof/Safety.lean ====
section
/-! DEFINITION. The terms in which the statements speak: what a result's entry into the pipelines leaves, when an
operation may run, and which memories, registers and steps are the ones the spec allows. -/

namespace Sys2Proof.Machine

/-! ### Results -/

/-- The state in which one more result is in the acting leaf's pipelines and nothing else has changed (R37). -/
def resultEnters (s : State) (dist : Nat) (dest : Dest) (value mask : Vec) (latch : Option Nat) (rank : Nat)
    (flags : Flags) : State :=
  s.upd fun l => { l with inflight := l.inflight ++ [⟨dist, dest, value, mask, latch, l.seq, rank, flags, none⟩] }

/-- A result of the S slot: 64 bits, a bypass latch, no flag (R34, R103). -/
def scalarEnters (s : State) (dist latch : Nat) (sd : BitVec 6) (nowb : Bool) (v : Word) : State :=
  resultEnters s dist (if nowb then .none else .s sd.toNat) (v.setWidth 16384) (onesBelow 64) (some latch) 8 0

/-- A 64-bit result of another slot, of rank `rank` in R40; it enters no latch. -/
def registerEnters (s : State) (dist : Nat) (sd : BitVec 6) (v : Word) (rank : Nat) : State :=
  resultEnters s dist (.s sd.toNat) (v.setWidth 16384) (onesBelow 64) none rank 0

/-- Element `j` of `e` bits (R120). -/
def elem (e : Nat) (v : Vec) (j : Nat) : Nat := v.toNat / 2 ^ (e * j) % 2 ^ e

/-- The acting leaf's lane `k` is enabled under the mask field `m` (R124). -/
def laneOn (s : State) (m : BitVec 3) (k : Nat) : Bool := decide (m = 0) || (readM s.leaf m).getLsbD k

/-- The instruction completes, and a vector result whose enabled elements are `el` and whose others are not written enters
the pipelines (R124). -/
def VecGives (i : Instr) (s : State) (dist latch : Nat) (u : VUnit) (nowb : Bool) (vd : BitVec 9) (m : BitVec 3) (e : Nat)
    (el : Nat → Nat) (fl : Flags) : Prop :=
  ∃ value mask : Vec,
    exec i s = .next (resultEnters s dist (if nowb then .none else .v vd.toNat) value mask (some latch) (slotRank u.slot) fl)
    ∧ (∀ k, k < 16384 → mask.getLsbD k = laneOn s m (k / 32))
    ∧ ∀ j, e * j < 16384 → elem e value j = if laneOn s m (e * j / 32) then el j % 2 ^ e else 0

/-- As `VecGives`, with the flags of the enabled elements (R127). -/
def FloatGives (i : Instr) (s : State) (dist latch : Nat) (u : VUnit) (nowb : Bool) (vd : BitVec 9) (m : BitVec 3) (e : Nat)
    (el : Nat → Nat × Flags) : Prop :=
  ∃ fl, VecGives i s dist latch u nowb vd m e (fun j => (el j).1) fl
    ∧ ∀ b, b < 5 → (fl.getLsbD b = true ↔ ∃ j, e * j < 16384 ∧ laneOn s m (e * j / 32) = true ∧ (el j).2.getLsbD b = true)

/-- The instruction completes, and a mask result with these bits, every one written, enters the pipelines (R124). -/
def MaskGives (i : Instr) (s : State) (dist : Nat) (u : VUnit) (md : BitVec 3) (bit : Nat → Bool) : Prop :=
  ∃ value : Vec, exec i s = .next (resultEnters s dist (.m md.toNat) value (onesBelow 512) none (slotRank u.slot) 0)
    ∧ ∀ k, k < 512 → value.getLsbD k = bit k

/-- Predicates of a lane's elements joined by AND, or by OR for ANY (R130). -/
def laneJoin (any : Bool) (e : Nat) (p : Nat → Bool) (k : Nat) : Bool :=
  let l := (List.range (32 / e)).map fun i => p (k * (32 / e) + i)
  if any then l.any id else l.all id

/-! ### When an operation may run -/

/-- Decode accepts the operation where the leaf stands, or its bundle's checks have passed (R12, R17, R53). -/
def Legal (i : Instr) (s : State) : Prop := s.phase = .effect ∨ i.ctxIllegal (decodeCtx s) = false

/-- The operation's effect takes place: its bundle's checks have passed, or decode accepts it, it raises no cause at issue,
what it enters has room, and it waits for nothing (R47, R323). -/
def Issues (i : Instr) (s : State) : Prop :=
  s.phase = .effect
    ∨ (i.ctxIllegal (decodeCtx s) = false ∧ issueCause i s = none ∧ issueFull i s = false ∧ issueWaits i s = false)

/-- A kettle as its owner's cluster and number, for "every other kettle". -/
def KettlesKept (s t : State) (c k : Nat) : Prop :=
  ∀ d j, (d, j) ≠ (c, k) → getKettle t d j = getKettle s d j

/-- A kettle's parent lies in the run's placement, or in a package that can be reached, and within its extent (R235, R238). -/
def ParentReached (s : State) (c : Nat) (run : Run) (x : Kettle) : Prop :=
  let home := s.node.package.toNat
  let dst := parentNo x.parent
  (if kettlePkg dst = home then inPlacement run (kettleCluster dst) else remoteReachable s (kettlePkg dst)) = true
    ∧ outsideExtent home s.node.domain.toNat c x.extent x.parent = false

/-- A kettle's upward arrival is sent where `up` holds, and nothing is sent otherwise (R228, R237). -/
def SendsUpward (s t : State) (c k : Nat) (run : Run) (x : Kettle) (up : Prop) : Prop :=
  (up → (getKettle t c k).sent = true
      ∧ ∃ id, t.arrivals = s.arrivals ++ [⟨id, run.id, kettleNo s.node.package.toNat c k, parentNo x.parent, x.rel⟩])
    ∧ (¬up → (getKettle t c k).sent = x.sent ∧ t.arrivals = s.arrivals)

/-- The run has ended with a kettle-tree error (R238). -/
def TreeErrorEnds (t : State) (run : Run) : Prop :=
  ∃ y e, findRun t run.id = some y ∧ y.ending = some e ∧ e.status = 1 ∧ e.gleaf = 0xFFFF ∧ e.cause = 0x16

/-- Every leaf but the acting one is as it was. -/
def OthersKept (s t : State) : Prop := ∀ g, g ≠ s.cur → getLeaf t g = getLeaf s g

/-- Only leaf `g` changes: memory, quires, kettles, runs and every other leaf are as they were. -/
def LeafOnly (s t : State) (g : Nat) : Prop :=
  t.mem = s.mem ∧ t.quires = s.quires ∧ t.kfiles = s.kfiles ∧ t.runs = s.runs ∧ ∀ d, d ≠ g → getLeaf t d = getLeaf s d

/-- The token counter `tok` names can count one more (R271). -/
def RoomFor (s : State) (g : Nat) (tok : Option Nat) : Prop := ∀ k, tok = some k → (readTok (getLeaf s g) k).toNat < 0xFFFF

/-- Leaf `g` has one more token in the counter `tok` names, and as many as before in every other (R271). -/
def Posted (s t : State) (g : Nat) (tok : Option Nat) : Prop :=
  ∀ k, readTok (getLeaf t g) k = if tok = some k then readTok (getLeaf s g) k + 1 else readTok (getLeaf s g) k

/-- The operation at the head of the ordinary signature queue has faulted: it is held, its cause waits for the leaf's boundary,
and its shelf, the tokens and sheet space are as they were (R314). -/
def SigHeld (s t : State) (g : Nat) (o : SigOp) (detail : Nat) (fva : Word) : Prop :=
  let l := getLeaf s g
  let u := getLeaf t g
  t.mem = s.mem ∧ sigHead u false = some { o with held := true }
    ∧ u.asyncPend = l.asyncPend ++ [{ cause := .shelf, detail := detail, unit := 3, obj := o.sh, async := true, fva := fva, op := o.id }]
    ∧ getShelf u o.sh = getShelf l o.sh ∧ u.toks = l.toks ∧ u.sheet = l.sheet

/-- Memory holds the byte `v i` at the `i`th of `n` bytes from a physical address of a package, and every other byte is as it
was. -/
def Stored (s t : State) (pkg pa n : Nat) (v : Nat → Byte) : Prop :=
  (∀ i, i < n → memGet t.mem (memKey pkg (canonAddr (pa + i))) = v i)
    ∧ ∀ k, (∀ i, i < n → k ≠ memKey pkg (canonAddr (pa + i))) → memGet t.mem k = memGet s.mem k

/-- An entry that stands last in the acting leaf's log, at the leaf's next place in program order, and waits for its
translation (R176). -/
def EntersLog (s : State) (t : Leaf) (op : LogOp) (va : Word) (size : Nat) (data : Vec) (cmp : Word) : Prop :=
  ∃ e, logOf t = logOf s.leaf ++ [e] ∧ e.op = op ∧ e.va = va ∧ e.size = size ∧ e.data = data ∧ e.cmp = cmp
    ∧ e.stage = .walk ∧ e.po = s.leaf.po ∧ e.id = s.nextId

/-- A byte of the leaf's sheet space (R160). -/
def sheetByte (l : Leaf) (x : Nat) : Byte := memGet l.sheet x

/-- No engine operation whose completion the leaf has not observed has written a byte of the ranges (R187, R218, R309). -/
def Settled (s : State) (rs : Ranges) : Prop :=
  ∀ x ∈ rs, ∀ w ∈ s.leaf.wet, w.unseen s.leaf s.cur = true → overlap w.off w.old.length x.1 x.2 = false

/-- Bit `k` of a little-endian value that starts at sheet offset `a`. -/
def sheetBit (l : Leaf) (a k : Nat) : Bool := (sheetByte l (a + k / 8)).getLsbD (k % 8)

/-- The instruction completes: a sheet load's result enters the pipelines with the data there at issue (R167); with
`handle` it may add to what the leaf has acquired. Where an engine may still be writing one of the bytes, the data are open. -/
def LoadGives (i : Instr) (s : State) (land : Nat) (dest : Dest) (mask : Vec) (ranges : Ranges) (handle : Bool)
    (val : Nat → Bool) : Prop :=
  ∃ t r, exec i s = .next t ∧ t.mem = s.mem ∧ OthersKept s t ∧ t.leaf.inflight = s.leaf.inflight ++ [r]
    ∧ r.dist = land ∧ r.dest = dest ∧ r.mask = mask ∧ r.latch = some 6 ∧ r.seq = s.leaf.seq ∧ r.rank = 5
    ∧ r.flags = 0 ∧ r.waiting = none
    ∧ (∃ po acqs, t.leaf = { s.leaf with inflight := t.leaf.inflight, po := po, acqs := acqs })
    ∧ (handle = false → t.leaf.po = s.leaf.po ∧ t.leaf.acqs = s.leaf.acqs)
    ∧ (Settled s ranges → ∀ k, k < 16384 → mask.getLsbD k = true → r.value.getLsbD k = val k)

/-- The instruction completes: a sheet store leaves `byte x` at each offset it covers where no engine operation that the leaf
has not observed has written, and every other byte of the leaf's sheet space, and its registers, as they were; what engines
hold of the stored bytes may become open (R163, R187). -/
def StoreGives (i : Instr) (s : State) (byte : Nat → Option Byte) : Prop :=
  ∃ t, exec i s = .next t ∧ t.mem = s.mem ∧ OthersKept s t
    ∧ (∀ x, byte x = none → sheetByte t.leaf x = sheetByte s.leaf x)
    ∧ (∀ x v, byte x = some v → Settled s [(x, 1)] → sheetByte t.leaf x = v)
    ∧ ∃ a b c d e f g h i,
        t.leaf = { s.leaf with sheet := a, bufs := b, handles := c, pq := d, tq := e, sewq := f, sigq := g, sigtq := h, wet := i }

/-- The instruction completes: an access enters the log, and with `res` a result that waits for it enters the pipelines. -/
def LogGives (i : Instr) (s : State) (op : LogOp) (va : Word) (size : Nat) (data : Vec) (cmp : Word)
    (res : Option (Nat × Dest × Vec)) : Prop :=
  ∃ t o u, exec i s = .next t ∧ EntersLog s t.leaf op va size data cmp ∧ OthersKept s t ∧ t.mem = s.mem
    ∧ t.nextId = s.nextId + 1
    ∧ t.leaf = { s.leaf with olog := o, tlog := u, po := s.leaf.po + 1, inflight := match res with
        | some (d, dest, mask) => s.leaf.inflight ++ [⟨d, dest, 0, mask, some 7, s.leaf.seq, 4, 0, some s.nextId⟩]
        | none => s.leaf.inflight }

/-- The instruction completes: a press operation of `n` passes stands last in its level's queue with what it captured, each
feed it names has walked `n` chunks, and nothing else of the leaf's registers has changed (R255, R256). -/
def PressGives (i : Instr) (s : State) (form : PressForm) (n : Nat) (tok : Option Nat) (a b : Option (BitVec 4)) : Prop :=
  ∃ t o, exec i s = .next t ∧ pressQueue t.leaf = pressQueue s.leaf ++ [o] ∧ o.id = s.nextId ∧ o.form = form ∧ o.n = n
    ∧ o.fmt = s.leaf.fmt ∧ o.tok = tok ∧ o.stage = .queued ∧ o.pass = 0
    ∧ (∀ f, a = some f → o.feedA = ((getFeed s.leaf f.toNat).offset.toNat, (getFeed s.leaf f.toNat).stride.toInt))
    ∧ (∀ f, b = some f → o.feedB = ((getFeed s.leaf f.toNat).offset.toNat, (getFeed s.leaf f.toNat).stride.toInt))
    ∧ (∀ f : BitVec 4, getFeed t.leaf f.toNat =
        if a = some f ∨ b = some f then
          { getFeed s.leaf f.toNat with
            offset := BitVec.ofInt 22 ((getFeed s.leaf f.toNat).offset.toNat + n * (getFeed s.leaf f.toNat).stride.toInt) }
        else getFeed s.leaf f.toNat)
    ∧ (∃ pq tq feeds hist, t.leaf = { s.leaf with pq := pq, tq := tq, feeds := feeds, tileHist := hist, po := s.leaf.po + 1 })
    ∧ OthersKept s t ∧ t.mem = s.mem ∧ t.quires = s.quires

/-- The feed that an operand names. -/
def feedName : PressSrc → Option (BitVec 4)
  | .feed f => some f
  | .buf _ => none

/-- The instruction completes: a sewing operation stands last in the leaf's queue with what it captured, and the
issue-side shape is `shape` (R285, R286). -/
def SewGives (i : Instr) (s : State) (form : SewForm) (tok : Option Nat) (shape : Word) : Prop :=
  ∃ t o, exec i s = .next t ∧ t.leaf.sewq = s.leaf.sewq ++ [o] ∧ o.id = s.nextId ∧ o.form = form ∧ o.fmt = s.leaf.fmt
    ∧ o.tok = tok ∧ o.r0 = s.leaf.sewCfg.r0 ∧ o.r1 = s.leaf.sewCfg.r1 ∧ o.cap = s.leaf.sewCfg.cap
    ∧ o.shape = s.leaf.sewShape ∧ o.step = 0 ∧ o.col = 0 ∧ o.seg = 0 ∧ o.held = false
    ∧ t.leaf = { s.leaf with sewq := t.leaf.sewq, sewShape := shape, po := s.leaf.po + 1 }
    ∧ OthersKept s t ∧ t.mem = s.mem

/-- The instruction completes: a signature operation stands last in its level's queue, and `handles` are the leaf's
handles (R302). -/
def SigGives (i : Instr) (s : State) (sh : Nat) (form : SigForm) (tok : Option Nat) (handles : Map Handle) : Prop :=
  ∃ t o a b, exec i s = .next t ∧ sigQueue t.leaf = sigQueue s.leaf ++ [o] ∧ o.id = s.nextId ∧ o.sh = sh ∧ o.form = form
    ∧ o.tok = tok ∧ o.held = false
    ∧ t.leaf = { s.leaf with sigq := a, sigtq := b, handles := handles, po := s.leaf.po + 1 }
    ∧ OthersKept s t ∧ t.mem = s.mem

/-- The instruction completes: a copy stands last in the time-sorted buffer of the leaf's quire with what it captured at
issue, released at once where its stamp is reached; the leaf is `leaf`, one place further in program order (R185, R191). -/
def CopyGives (i : Instr) (s : State) (form : CopyForm) (region : Nat) (stamp : Word) (tok : Option Nat)
    (publ imp trapf : Bool) (leaf : Leaf) : Prop :=
  ∃ t c, exec i s = .next t
    ∧ getQuire t (quireOf s.cur)
        = { getQuire s (quireOf s.cur) with copies := (getQuire s (quireOf s.cur)).copies ++ [c] }
    ∧ c.id = s.nextId ∧ c.leaf = s.cur ∧ c.form = form ∧ c.region = region ∧ c.stamp = stamp ∧ c.tok = tok
    ∧ c.publ = publ ∧ c.imp = imp ∧ c.trapf = trapf ∧ c.impose = s.leaf.impose ∧ c.po = s.leaf.po
    ∧ c.released = decide (stamp.toNat ≤ s.dtc.toNat) ∧ c.started = false ∧ c.done = 0 ∧ c.fault = none
    ∧ t.leaf = { leaf with po := s.leaf.po + 1 } ∧ OthersKept s t ∧ t.mem = s.mem

/-! ### Positions -/

/-- One issue position of a leaf that issues a bundle without effects: what is due lands, then the distances shrink. -/
def quietPosition (l : Leaf) : Leaf := tickPosition (landDue l)

/-- Several positions in a row. -/
def quietPositions : Nat → Leaf → Leaf
  | 0, l => l
  | n + 1, l => quietPositions n (quietPosition l)

/-- Several bundles in a row that neither transfer nor open a loop. -/
def straightBundles : Nat → Leaf → Leaf
  | 0, l => l
  | n + 1, l => straightBundles n (finishLeaf l false)

/-! ### Control transfers -/

/-- The level `w` as a taken transfer from `n` to `t` leaves it: closed where its body holds `n` and not `t` (R117). -/
def afterTransfer (w : Word) (n t : Nat) : Word :=
  let body := fun i => decide (loopStart w ≤ i) && decide (i ≤ loopEnd w)
  if w.getLsbD 31 && body n && !body t then w &&& 0xFFFFFFFF7FFFFFFF else w

/-- A transfer taken to `t`: its delay bundle comes first (R53, R110). -/
def transferTo (l : Leaf) (t : Word) : Leaf :=
  { l with xfer := .taken t, loopOuter := afterTransfer l.loopOuter l.pc.toNat t.toNat,
           loopInner := afterTransfer l.loopInner l.pc.toNat t.toNat }

/-- A branch: taken to `t`, or not taken, with its delay bundle either way. -/
def branched (s : State) (taken : Bool) (t : Word) : State :=
  s.upd fun l => if taken then transferTo l t else { l with xfer := .notTaken }

/-- The label of a transfer at the leaf's index (R110). -/
def labelOf (l : Leaf) (off : BitVec 28) : Word := BitVec.ofInt 64 (l.pc.toInt + off.toInt)

/-- A loop level: count, start and end index, ACTIVE (R114). -/
def levelOf (w : Word) : Nat × Nat × Nat × Bool := (loopCount w, loopStart w, loopEnd w, w.getLsbD 31)

end Sys2Proof.Machine
end

