-- ==== Sys2Proof/Certificates/Slice0/Obligations.lean ====
section
/-! DEFINITION. The statements for the provers: what each instruction and each event of the package does, how results land,
how traps are taken and left, and what every step keeps. -/

open Sys2Proof Sys2Proof.Machine

/-- R103, R104, R107: the sums and products of the S slot. R105: the quotients and remainders, with their corners. -/
def Obligations.ScalarSumsProductsQuotients : Prop :=
  (-- ScalarSumsAndProducts
    ∀ (s : State) (f : SRR) (g : SRI) (j : SLi) (x : SAddr),
      let a := readSrc s.leaf f.sa
      let b := readSrc s.leaf f.sb
      let c := readSrc s.leaf g.sa
      exec (.add f) s = .next (scalarEnters s 1 0 f.sd f.nowb (BitVec.ofNat 64 (a.toNat + b.toNat)))
      ∧ exec (.sub f) s = .next (scalarEnters s 1 0 f.sd f.nowb (BitVec.ofInt 64 (a.toInt - b.toInt)))
      ∧ exec (.addi g) s = .next (scalarEnters s 1 0 g.sd g.nowb (BitVec.ofInt 64 (c.toInt + g.imm.toInt)))
      ∧ exec (.mul f) s = .next (scalarEnters s 3 1 f.sd f.nowb (BitVec.ofInt 64 (a.toInt * b.toInt)))
      ∧ exec (.mulh f) s = .next (scalarEnters s 3 1 f.sd f.nowb (BitVec.ofInt 64 (a.toInt * b.toInt / 2 ^ 64)))
      ∧ exec (.mulhn f) s = .next (scalarEnters s 3 1 f.sd f.nowb (BitVec.ofNat 64 (a.toNat * b.toNat / 2 ^ 64)))
      ∧ exec (.li j) s = .next (scalarEnters s 1 0 j.sd j.nowb (BitVec.ofInt 64 j.imm.toInt))
      ∧ exec (.lih g) s = .next (scalarEnters s 1 0 g.sd g.nowb (BitVec.ofNat 64 (g.imm.toNat * 2 ^ 32 + c.toNat % 2 ^ 32)))
      ∧ exec (.addr x) s = .next (scalarEnters s 1 0 x.sd x.nowb
          (BitVec.ofInt 64 ((readSrc s.leaf x.sa).toInt + (readSrc s.leaf x.sb).toInt * 2 ^ x.sh.toNat + x.disp.toInt))))
  ∧ (-- ScalarDivision
    ∀ (s : State) (f : SRR),
      let a := readSrc s.leaf f.sa
      let b := readSrc s.leaf f.sb
      ∃ q r u v : Word,
        exec (.div f) s = .next (scalarEnters s 18 1 f.sd f.nowb q)
        ∧ exec (.rem f) s = .next (scalarEnters s 18 1 f.sd f.nowb r)
        ∧ exec (.divn f) s = .next (scalarEnters s 18 1 f.sd f.nowb u)
        ∧ exec (.remn f) s = .next (scalarEnters s 18 1 f.sd f.nowb v)
        ∧ (b = 0 → q = BitVec.allOnes 64 ∧ u = BitVec.allOnes 64 ∧ r = a ∧ v = a)
        ∧ (a.toInt = -2 ^ 63 → b.toInt = -1 → q = a ∧ r = 0)
        ∧ (b ≠ 0 → ¬(a.toInt = -2 ^ 63 ∧ b.toInt = -1) →
            a.toInt = q.toInt * b.toInt + r.toInt ∧ r.toInt.natAbs < b.toInt.natAbs ∧ (r = 0 ∨ r.toInt.sign = a.toInt.sign))
        ∧ (b ≠ 0 → a.toNat = u.toNat * b.toNat + v.toNat ∧ v.toNat < b.toNat))

/-- R104: logic, bit by bit; the immediate is sign-extended. R104: shifts and rotation by the low six bits of the count. -/
def Obligations.ScalarLogicAndShifts : Prop :=
  (-- ScalarLogic
    ∀ (s : State) (f : SRR) (g : SRI),
      let a := readSrc s.leaf f.sa
      let b := readSrc s.leaf f.sb
      let c := readSrc s.leaf g.sa
      let m : Nat → Bool := fun k => if k < 32 then g.imm.getLsbD k else g.imm.getLsbD 31
      ∃ n o x d p q y : Word,
        exec (.and_ f) s = .next (scalarEnters s 1 0 f.sd f.nowb n)
        ∧ exec (.or_ f) s = .next (scalarEnters s 1 0 f.sd f.nowb o)
        ∧ exec (.xor_ f) s = .next (scalarEnters s 1 0 f.sd f.nowb x)
        ∧ exec (.andn f) s = .next (scalarEnters s 1 0 f.sd f.nowb d)
        ∧ exec (.andi g) s = .next (scalarEnters s 1 0 g.sd g.nowb p)
        ∧ exec (.ori g) s = .next (scalarEnters s 1 0 g.sd g.nowb q)
        ∧ exec (.xori g) s = .next (scalarEnters s 1 0 g.sd g.nowb y)
        ∧ ∀ k, k < 64 →
            n.getLsbD k = (a.getLsbD k && b.getLsbD k) ∧ o.getLsbD k = (a.getLsbD k || b.getLsbD k)
            ∧ x.getLsbD k = (a.getLsbD k != b.getLsbD k) ∧ d.getLsbD k = (a.getLsbD k && !b.getLsbD k)
            ∧ p.getLsbD k = (c.getLsbD k && m k) ∧ q.getLsbD k = (c.getLsbD k || m k) ∧ y.getLsbD k = (c.getLsbD k != m k))
  ∧ (-- ScalarShifts
    ∀ (s : State) (f : SRR) (g : SSh),
      let a := readSrc s.leaf f.sa
      let n := (readSrc s.leaf f.sb).toNat % 64
      let c := readSrc s.leaf g.sa
      let k := g.sh.toNat
      exec (.sll f) s = .next (scalarEnters s 1 0 f.sd f.nowb (BitVec.ofNat 64 (a.toNat * 2 ^ n)))
      ∧ exec (.srl f) s = .next (scalarEnters s 1 0 f.sd f.nowb (BitVec.ofNat 64 (a.toNat / 2 ^ n)))
      ∧ exec (.sra f) s = .next (scalarEnters s 1 0 f.sd f.nowb (BitVec.ofInt 64 (a.toInt / 2 ^ n)))
      ∧ exec (.slli g) s = .next (scalarEnters s 1 0 g.sd g.nowb (BitVec.ofNat 64 (c.toNat * 2 ^ k)))
      ∧ exec (.srli g) s = .next (scalarEnters s 1 0 g.sd g.nowb (BitVec.ofNat 64 (c.toNat / 2 ^ k)))
      ∧ exec (.srai g) s = .next (scalarEnters s 1 0 g.sd g.nowb (BitVec.ofInt 64 (c.toInt / 2 ^ k)))
      ∧ ∃ r : Word, exec (.rotr f) s = .next (scalarEnters s 1 0 f.sd f.nowb r)
          ∧ ∀ j, j < 64 → r.getLsbD j = a.getLsbD ((j + n) % 64))

/-- R104: minima, maxima, comparisons and the select. R104, R106: counts, byte order, bit fields. -/
def Obligations.ScalarComparisonsAndFields : Prop :=
  (-- ScalarComparisons
    ∀ (s : State) (f : SRR) (g : SRI) (c : SSel),
      let a := readSrc s.leaf f.sa
      let b := readSrc s.leaf f.sb
      let r := fun v => Host.Outcome.next (scalarEnters s 1 0 f.sd f.nowb v)
      exec (.min f) s = r (BitVec.ofInt 64 (min a.toInt b.toInt))
      ∧ exec (.max f) s = r (BitVec.ofInt 64 (max a.toInt b.toInt))
      ∧ exec (.minn f) s = r (BitVec.ofNat 64 (min a.toNat b.toNat))
      ∧ exec (.maxn f) s = r (BitVec.ofNat 64 (max a.toNat b.toNat))
      ∧ exec (.slt f) s = r (if a.toInt < b.toInt then 1 else 0)
      ∧ exec (.sltn f) s = r (if a.toNat < b.toNat then 1 else 0)
      ∧ exec (.seq f) s = r (if a.toNat = b.toNat then 1 else 0)
      ∧ exec (.slti g) s = .next (scalarEnters s 1 0 g.sd g.nowb
          (if (readSrc s.leaf g.sa).toInt < g.imm.toInt then 1 else 0))
      ∧ exec (.sel c) s = .next (scalarEnters s 1 0 c.sd c.nowb
          (if (readSrc s.leaf c.sc).toNat = 0 then readSrc s.leaf c.sb else readSrc s.leaf c.sa)))
  ∧ (-- ScalarBitFields
    ∀ (s : State) (f : SR) (x : SExtr) (y : SInsr),
      1 ≤ x.len.toNat → x.pos.toNat + x.len.toNat ≤ 64 → 1 ≤ y.len.toNat → y.pos.toNat + y.len.toNat ≤ 64 →
      let a := readSrc s.leaf f.sa
      let fld := (readSrc s.leaf x.sa).toNat / 2 ^ x.pos.toNat % 2 ^ x.len.toNat
      ∃ lz tz : Nat, ∃ bs ins : Word,
        exec (.clz f) s = .next (scalarEnters s 1 0 f.sd f.nowb (BitVec.ofNat 64 lz))
        ∧ lz ≤ 64 ∧ (∀ k, k < 64 → 63 - lz < k ∨ lz = 64 → a.getLsbD k = false) ∧ (lz < 64 → a.getLsbD (63 - lz) = true)
        ∧ exec (.ctz f) s = .next (scalarEnters s 1 0 f.sd f.nowb (BitVec.ofNat 64 tz))
        ∧ tz ≤ 64 ∧ (∀ k, k < tz → a.getLsbD k = false) ∧ (tz < 64 → a.getLsbD tz = true)
        ∧ exec (.popc f) s = .next (scalarEnters s 1 0 f.sd f.nowb
            (BitVec.ofNat 64 ((List.range 64).filter fun k => a.getLsbD k).length))
        ∧ exec (.bswap f) s = .next (scalarEnters s 1 0 f.sd f.nowb bs)
        ∧ (∀ k, k < 8 → bs.extractLsb' (8 * k) 8 = a.extractLsb' (8 * (7 - k)) 8)
        ∧ exec (.extr x) s = .next (scalarEnters s 1 0 x.sd x.nowb (BitVec.ofInt 64
            (if x.sx = true ∧ 2 ^ (x.len.toNat - 1) ≤ fld then (fld : Int) - 2 ^ x.len.toNat else fld)))
        ∧ exec (.insr y) s = .next (scalarEnters s 1 0 y.sd y.nowb ins)
        ∧ ∀ k, k < 64 → ins.getLsbD k =
            if y.pos.toNat ≤ k ∧ k < y.pos.toNat + y.len.toNat then (readSrc s.leaf y.sa).getLsbD (k - y.pos.toNat)
            else (readSrc s.leaf y.sb).getLsbD k)

/-- R37, R40: what a landing position does to a scalar register. Of several results for one register the one issued last is
written, and of one bundle's the one of the first slot in the order of R40; s0 always reads zero. R37, R124: a landing vector
result changes the bits its mask names and leaves the others. R37: a result of latency d is readable d positions after its
own bundle and not before. What a landing position leaves alone: every register no due result names, memory held by the leaf,
and the pc. -/
def Obligations.ResultsLand : Prop :=
  (-- LandingWritesScalarRegister
    ∀ (l : Leaf) (n : BitVec 6),
      let due := l.inflight.filter fun r => r.dist == 0 && r.dest == .s n.toNat
      readS (landDue l) 0 = 0
      ∧ (due = [] → readS (landDue l) n = readS l n)
      ∧ ∀ r ∈ due, (∀ o ∈ due, o = r ∨ o.seq < r.seq ∨ (o.seq = r.seq ∧ r.rank < o.rank)) → n ≠ 0 →
          readS (landDue l) n = r.value.setWidth 64)
  ∧ (-- LandingWritesVectorRegister
    ∀ (l : Leaf) (n : BitVec 9),
      let due := l.inflight.filter fun r => r.dist == 0 && r.dest == .v n.toNat
      (due = [] → readV (landDue l) n = readV l n)
      ∧ ∀ r, due = [r] → readV (landDue l) n = (readV l n &&& ~~~r.mask) ||| r.value)
  ∧ (-- ResultWaitsForItsPosition
    ∀ (l : Leaf) (r : Result) (k : Nat), r ∈ l.inflight → k ≤ r.dist →
      { r with dist := r.dist - k } ∈ (quietPositions k l).inflight)
  ∧ (-- LandingFrame
    ∀ (l : Leaf), ∃ s v m la fs,
      landDue l = { l with sregs := s, vregs := v, mregs := m, latches := la, fstat := fs,
                           inflight := l.inflight.filter fun r => r.dist != 0 }
      ∧ (∀ n, (∀ r ∈ l.inflight, r.dist = 0 → r.dest ≠ .s n) → mapGet s n 0 = mapGet l.sregs n 0)
      ∧ (∀ n, (∀ r ∈ l.inflight, r.dist = 0 → r.dest ≠ .v n) → mapGet v n 0 = mapGet l.vregs n 0)
      ∧ (∀ n, (∀ r ∈ l.inflight, r.dist = 0 → r.dest ≠ .m n) → mapGet m n 0 = mapGet l.mregs n 0)
      ∧ ∀ b, b < 64 → fs.getLsbD b = (l.fstat.getLsbD b
          || (decide (b < 5) && l.inflight.any fun r => r.dist == 0 && r.flags.getLsbD b)))

/-- R110, R117: the transfers, their conditions, targets and links, outside the END of an active loop. R53, R110: a
taken transfer goes on at the bundle after it, its delay bundle, and then at its target; one not taken goes on in line.
R116: a transfer at the END of an active level, RTE at trap level among them, is illegal, and changes nothing but by the
trap it takes. R112: a leaf that has come to a target above 4,095 takes ACCESS with that target at its boundary, before
a bundle issues. -/
def Obligations.ControlTransfers : Prop :=
  (-- ControlTransfers
    ∀ (s : State) (f : KBr) (g : KBri) (c : KBcc) (z : KBz), atActiveEnd s.leaf = false →
      let a := readS s.leaf c.sa
      let b := readS s.leaf c.sb
      let r : Word := BitVec.ofInt 64 ((readS s.leaf g.sa).toInt + g.off.toInt)
      let br := fun (taken : Bool) (off : BitVec 28) => Host.Outcome.next (branched s taken (labelOf s.leaf off))
      (Legal (.br f) s → exec (.br f) s = br true f.off)
      ∧ (Legal (.bri g) s → exec (.bri g) s = .next (branched s true r))
      ∧ (Legal .ret s → exec .ret s = .next (branched s true (readS s.leaf 63)))
      ∧ (Legal (.call f) s → exec (.call f) s = .next (registerEnters
          (s.upd fun l => { l with xfer := .taken (labelOf l f.off) }) 1 63 (s.leaf.pc + 2) 0))
      ∧ (Legal (.callInd g) s → exec (.callInd g) s = .next (registerEnters
          (s.upd fun l => { l with xfer := .taken r }) 1 63 (s.leaf.pc + 2) 0))
      ∧ (Legal (.beq c) s → exec (.beq c) s = br (decide (a.toNat = b.toNat)) c.off)
      ∧ (Legal (.bne c) s → exec (.bne c) s = br (decide (a.toNat ≠ b.toNat)) c.off)
      ∧ (Legal (.blt c) s → exec (.blt c) s = br (decide (a.toInt < b.toInt)) c.off)
      ∧ (Legal (.bge c) s → exec (.bge c) s = br (decide (b.toInt ≤ a.toInt)) c.off)
      ∧ (Legal (.bltn c) s → exec (.bltn c) s = br (decide (a.toNat < b.toNat)) c.off)
      ∧ (Legal (.bgen c) s → exec (.bgen c) s = br (decide (b.toNat ≤ a.toNat)) c.off)
      ∧ (Legal (.bz z) s → exec (.bz z) s = br (decide ((readS s.leaf z.sa).toNat = 0)) z.off)
      ∧ (Legal (.bnz z) s → exec (.bnz z) s = br (decide ((readS s.leaf z.sa).toNat ≠ 0)) z.off))
  ∧ (-- DelayBundleThenTarget
    ∀ (l : Leaf) (t : Word) (b c : Bool), l.delay = .none →
      (finishLeaf { l with xfer := .taken t } b).pc = l.pc + 1
      ∧ (finishLeaf { l with xfer := .taken t } b).delay = .taken t
      ∧ (finishLeaf (finishLeaf { l with xfer := .taken t } b) c).pc = t
      ∧ (finishLeaf (finishLeaf { l with xfer := .taken t } b) c).delay = .none
      ∧ (finishLeaf { l with xfer := .notTaken } b).pc = l.pc + 1
      ∧ (finishLeaf { l with xfer := .notTaken } b).delay = .notTaken
      ∧ (atActiveEnd l = false → l.xfer = .none → (finishLeaf l b).pc = l.pc + 1))
  ∧ (-- TransferAtLoopEndTraps
    ∀ (s : State) (i : Instr), i.isTransfer = true → (i = .rte → s.leaf.level = .trap) → s.phase = .alone →
      i.ctxIllegal (decodeCtx s) = false → atActiveEnd s.leaf = true →
      exec i s = .next (takeTrap s { cause := .illegalOp, slot := 9 }))
  ∧ (-- TargetOutsideTraps
    ∀ (s : State) (q g : Nat) (r : List Choice), s.agenda = .issue q :: r →
      aheadOf { s with agenda := r } q = false → chooseLeaf { s with agenda := r } q = some g →
      let s0 := selectLeaf { s with agenda := r } g
      let l := s0.leaf
      dueHere l (drainAhead s0) = none → l.rteDue = false → l.blocked = false → l.wait = .none → stopping s0 g = false →
      dueArrived l = true → 4095 < l.pc.toNat →
      step s = .next (outOfStep (trapHere s0 { cause := .access, fva := l.pc }) q))

/-- R113, R115: LOOP and LOOPI open the free level with body [n + 1, n + off], or pass the body when the count is 0. R115, R116:
from the first bundle of a loop of count c with n straight bundles in its body, c × n bundles issue before the leaf stands
behind the body with the level closed, and it stands inside the body until then. -/
def Obligations.HardwareLoops : Prop :=
  (-- LoopsOpenLevels
    ∀ (s : State) (f : KLoop) (g : KLoopi),
      let l := s.leaf
      let n := l.pc.toNat
      let opened := fun (c off : Nat) (t : Leaf) =>
        ∃ w, levelOf w = (c, n + 1, n + off, true)
          ∧ t = if l.loopOuter.getLsbD 31 || l.loopInner.getLsbD 31 then { l with loopInner := w } else { l with loopOuter := w }
      let does := fun (i : Instr) (c off : Nat) =>
        Legal i s → 1 ≤ off → n + off ≤ 4095 → loopCause off s = none →
          (c = 0 → exec i s = .next (s.upd fun l => { l with xfer := .skip (BitVec.ofNat 64 (n + off + 1)) }))
          ∧ (c ≠ 0 → ∃ t, exec i s = .next (setLeaf s s.cur t) ∧ opened c off t)
      does (.loop f) ((readS l f.sa).toNat % 2 ^ 32) f.off.toNat
      ∧ does (.loopi g) g.count.toNat g.off.toNat)
  ∧ (-- LoopBodyIssuesCountTimes
    ∀ (l : Leaf) (i n c k : Nat), 1 ≤ n → 1 ≤ c → i + n ≤ 4095 → c < 2 ^ 32 → k ≤ c * n →
      l.pc = BitVec.ofNat 64 (i + 1) → l.xfer = .none → l.delay = .none → l.loopInner.getLsbD 31 = false →
      levelOf l.loopOuter = (c, i + 1, i + n, true) →
      let t := straightBundles k l
      t.pc = BitVec.ofNat 64 (if k = c * n then i + n + 1 else i + 1 + k % n)
      ∧ levelOf t.loopOuter = (c - k / n, i + 1, i + n, decide (k < c * n)))

/-- R54, R97: SETFMT enters its shadow, and holds from the fourth position on. R271 to R274: WAITK takes its count of tokens when
there are as many and otherwise waits with every counter kept; TOKRD reports a counter and takes none. -/
def Obligations.FormatShadowAndTokens : Prop :=
  (-- SetfmtTakesEffectAfterItsShadow
    ∀ (s : State) (f : KSetfmt) (l : Leaf) (v : BitVec 32),
      exec (.setfmt f) s = .next (s.upd fun l =>
        { l with fmtPend := l.fmtPend ++ [⟨(if f.reg then (readS l f.sa).setWidth 22 else f.imm).setWidth 32, 4⟩] })
      ∧ (∀ k, k < 4 → (landFmt (quietPositions k { l with fmtPend := [⟨v, 4⟩] })).fmt = l.fmt)
      ∧ (landFmt (quietPositions 4 { l with fmtPend := [⟨v, 4⟩] })).fmt = v)
  ∧ (-- TokenInstructions
    ∀ (s : State) (f : KWaitk) (r : KTokrd),
      let m := if f.reg then (readS s.leaf f.sa).toNat % 65536 else f.imm.toNat
      let k := f.kn.toNat
      (s.phase = .effect → m ≤ (readTok s.leaf k).toNat →
        ∃ t, exec (.waitk f) s = .next (setLeaf s s.cur t) ∧ (readTok t k).toNat = (readTok s.leaf k).toNat - m
          ∧ (∀ j, j ≠ k → readTok t j = readTok s.leaf j)
          ∧ ∃ toks po acqs, t = { s.leaf with toks := toks, po := po, acqs := acqs })
      ∧ (s.phase = .effect → (readTok s.leaf k).toNat < m →
          exec (.waitk f) s = .next (s.upd fun l => { l with wait := .tokens k m }))
      ∧ (Legal (.tokrd r) s → ∃ po acqs, exec (.tokrd r) s = .next
          ((registerEnters s 1 r.sd ((readTok s.leaf r.kn.toNat).setWidth 64) 0).upd fun l => { l with po := po, acqs := acqs })))

/-- R341, R342: SYSRD delivers the register at latency 1; a level the table does not permit takes PRIVILEGE. R341, R342: what
SYSWR leaves in each register that SYSRD reads back; a level the table does not permit takes PRIVILEGE. -/
def Obligations.SystemRegisters : Prop :=
  (-- SystemRegisterReads
    ∀ (s : State) (f : KSys), sysReadable f.num = true →
      (Legal (.sysrd f) s → s.phase = .effect ∨ s.leaf.level = .trap ∨ f.num.toNat < 16 →
        exec (.sysrd f) s = .next (registerEnters s 1 f.r (readSys s f.num.toNat) 0))
      ∧ (s.phase = .alone → (Instr.sysrd f).ctxIllegal (decodeCtx s) = false → s.leaf.level = .ordinary → 16 ≤ f.num.toNat →
        exec (.sysrd f) s = .next (takeTrap s { cause := .privilege, slot := 9 })))
  ∧ (-- SystemRegisterWrites
    ∀ (s : State) (f : KSys), sysWritable f.num = true →
      let n := f.num.toNat
      let v := readS s.leaf f.r
      (s.phase = .alone → (Instr.syswr f).ctxIllegal (decodeCtx s) = false → s.leaf.level = .ordinary →
          n = 0x002 ∨ n = 0x003 ∨ n = 0x004 ∨ n = 0x009 ∨ 0x010 ≤ n →
        exec (.syswr f) s = .next (takeTrap s { cause := .privilege, slot := 9 }))
      ∧ (s.phase = .effect → ∃ t, exec (.syswr f) s = .next t ∧ t.mem = s.mem ∧ t.leaf.sregs = s.leaf.sregs
        ∧ t.leaf.vregs = s.leaf.vregs ∧ t.leaf.sheet = s.leaf.sheet ∧ t.leaf.pc = s.leaf.pc ∧ OthersKept s t
        ∧ (∀ m, m ≠ n → readSys t m = readSys s m)
        ∧ (n = 0x001 → readSys t n = readSys s n &&& ~~~v)
        ∧ (n = 0x002 → readSys t n = v &&& 0xFFFF)
        ∧ (n = 0x005 ∨ n = 0x006 ∨ n = 0x008 ∨ n = 0x00B ∨ n = 0x011 ∨ n = 0x012 ∨ n = 0x013 ∨ 0x018 ≤ n → readSys t n = v)
        ∧ (n = 0x00C → readSys t n = v &&& 0xFF)
        ∧ (n = 0x014 → readSys t n = v &&& 7)
        ∧ (n = 0x010 → readSys t n = v &&& 0x3FFFFFFF)
        ∧ (n = 0x009 → readSys t n = v &&& 0xFFFFFFFFFFFFFFF3)
        ∧ (n = 0x003 ∨ n = 0x004 → s.leaf.frame ≠ none → readSys t n = v &&& 0xFFFFFFFF80FFFFFF)
        ∧ (n = 0x000 → s.leaf.level = .trap → s.leaf.frame ≠ none → readSys t n = v &&& 0x3FFFFF)
        ∧ (n = 0x000 → s.leaf.level = .ordinary →
            t.leaf = { s.leaf with fmtPend := s.leaf.fmtPend ++ [⟨(v.setWidth 22).setWidth 32, 4⟩] })))

/-- R331, R323: TRAP and BRK leave SOFTWARE and BREAK with their immediate pending for the boundary after the bundle, and an
ordinary leaf with nothing due before it takes that trap there. R332: RTE sets its delay bundle going at trap level; at
ordinary level it takes PRIVILEGE. At the END of an active loop level the model's choice stands (log entry 19), and nothing
is stated. -/
def Obligations.SoftwareTrapsAndReturn : Prop :=
  (-- SoftwareTrapsPend
    ∀ (s : State) (f : KImm),
      let pend := fun (c : Cause) => s.upd fun l => { l with swPend := some { cause := c, fva := f.imm.setWidth 64 } }
      (Legal (.trap f) s → exec (.trap f) s = .next (pend .software))
      ∧ (Legal (.brk f) s → exec (.brk f) s = .next (pend .break_))
      ∧ ∀ (l : Leaf) (t : Trap), l.level = .ordinary → lateStore l.olog = none → lateLoad l.inflight false l.olog = none →
          l.swPend = some t → dueCause l false = some (t, { l with swPend := none }))
  ∧ (-- RteNeedsTrapLevel
    ∀ (s : State),
      (Legal .rte s → s.leaf.level = .trap → atActiveEnd s.leaf = false →
        exec .rte s = .next (s.upd fun l => { l with xfer := .rte }))
      ∧ (s.phase = .alone → Instr.rte.ctxIllegal (decodeCtx s) = false → s.leaf.level = .ordinary →
          atActiveEnd s.leaf = false →
        exec .rte s = .next (takeTrap s { cause := .privilege, slot := 9 })))

/-- R319, R320, R324 to R329: what taking a trap saves, and where the handler starts. R320, R339: a trap with no vector enabled
ends the run with status FAULT, naming the leaf and its cause. R337: a cause at trap level is a DOUBLE, which ends the run
and names the cause in DETAIL. -/
def Obligations.TrapEntry : Prop :=
  (-- TrapEntrySavesAndVectors
    ∀ (s : State) (t : Trap) (v : Word), s.leaf.level = .ordinary → t.fvaOpen = false → t.cause ≠ .boundaryOverflow →
      v = (if t.cause = .formatEmul ∧ s.leaf.emulVec.getLsbD 12 = true then s.leaf.emulVec else s.leaf.trapVec) →
      v.getLsbD 12 = true →
      let l := s.leaf
      let u := (takeTrap s t).leaf
      u.level = .trap ∧ u.pc = v &&& 0xFFF ∧ u.trapPc = l.pc ∧ u.trapFva = t.fva ∧ u.trapCause = t.word
      ∧ u.trapNpc = (match l.delay with | .taken n => n | _ => l.pc + 1)
      ∧ u.trapCtl = (match l.delay with | .taken _ => 4 | _ => 0)
      ∧ u.frame = some (captureFrame l)
      ∧ u.inflight = [] ∧ u.latches = [] ∧ u.fmt = 0 ∧ u.loopOuter = 0 ∧ u.loopInner = 0 ∧ u.wait = .none ∧ u.delay = .none
      ∧ u.sregs = l.sregs ∧ u.vregs = l.vregs ∧ u.mregs = l.mregs ∧ u.fstat = l.fstat ∧ u.sheet = l.sheet ∧ u.toks = l.toks
      ∧ u.bufs = l.bufs ∧ u.handles = l.handles ∧ u.tiles = l.tiles ∧ u.feeds = l.feeds ∧ u.bonds = l.bonds
      ∧ u.shelves = l.shelves ∧ u.pq = l.pq ∧ u.sewq = l.sewq ∧ u.sigq = l.sigq ∧ u.tlog = l.tlog ∧ u.scratch = l.scratch
      ∧ (takeTrap s t).mem = s.mem ∧ (takeTrap s t).quires = s.quires
      ∧ ∀ g, g ≠ s.cur → getLeaf (takeTrap s t) g = getLeaf s g)
  ∧ (-- TrapWithoutVectorEndsRun
    ∀ (s : State) (t : Trap) (r : Run) (n : Nat), s.leaf.level = .ordinary → t.fvaOpen = false → t.cause ≠ .boundaryOverflow →
      (t.cause = .formatEmul → s.leaf.emulVec.getLsbD 12 = false) → s.leaf.trapVec.getLsbD 12 = false →
      s.leaf.run = some n → findRun s n = some r → r.ending = none →
      ∃ x, findRun (takeTrap s t) n = some x ∧ x.stage = .ended
        ∧ x.ending = some ⟨1, s.cur, t.word.setWidth 32, s.leaf.pc, t.fva, none⟩
        ∧ (takeTrap s t).leaf.exited = true ∧ (takeTrap s t).mem = s.mem)
  ∧ (-- TrapAtTrapLevelIsDouble
    ∀ (s : State) (t : Trap) (r : Run) (n : Nat), s.leaf.level = .trap → t.fvaOpen = false → t.cause ≠ .boundaryOverflow →
      s.leaf.run = some n → findRun s n = some r → r.ending = none →
      ∃ x e, findRun (takeTrap s t) n = some x ∧ x.ending = some e ∧ e.status = 1 ∧ e.gleaf = s.cur
        ∧ e.cause.toNat % 256 = 0x1B ∧ e.cause.toNat / 256 % 32 = t.cause.code ∧ e.pc = s.leaf.trapPc)

/-- R324, R327, R332: a trap and a handler that changes nothing give the interrupted leaf back: its registers, format, loops,
latches, results in flight and place are those of the boundary it was interrupted at. -/
def Obligations.TrapThenReturnRestoresLeaf : Prop :=
  ∀ (s : State) (t : Trap) (v : Word), s.leaf.level = .ordinary → t.fvaOpen = false → t.async = false →
    t.cause ≠ .boundaryOverflow → t.cause ≠ .formatEmul → s.leaf.trapVec = v → v.getLsbD 12 = true →
    (∀ x, s.leaf.delay ≠ .skip x) → s.leaf.delay ≠ .rte → s.leaf.xfer = .none → s.leaf.rteDue = false →
    s.leaf.wait = .none → s.leaf.skipSlot = 0 → s.leaf.slotCause = false → s.leaf.handling = none → s.leaf.olog = [] → s.leaf.frame = none →
    let l := s.leaf
    let u := (takeTrap s t).leaf
    (rteReturn (takeTrap s t) s.cur).leaf =
      { l with trapCause := u.trapCause, trapPc := u.trapPc, trapNpc := u.trapNpc, trapFva := u.trapFva, trapCtl := u.trapCtl }

/-- R228, R230, R231: KARV on an OPEN kettle counts the arrival, delivers the phase it counts for, and closes the kettle
when that arrival completes it. R237, R238: a kettle with a parent that so closes with nothing left to acknowledge sends
its upward arrival, or ends the run where its parent cannot be reached. R231, R232: KARV at a kettle that is not OPEN
raises KETTLE; at a gathering that is not OPEN, or whose member the leaf is not, or where it has arrived already,
GATHERING. -/
def Obligations.KettleArrivals : Prop :=
  (-- KettleArrival
    ∀ (s : State) (f : KKet),
      let c := clusterOf s.cur
      let k := f.ket.toNat
      let x := getKettle s c k
      let bit : BitVec 32 := 1#32 <<< (s.cur % 32)
      let full := x.carr.length = x.child.toNat
        ∧ (if k < 64 then (x.arrived ||| bit) = x.member ∧ (x.member ≠ 0 ∨ x.child ≠ 0) else x.arr + 1 = x.count)
      let up := full ∧ x.hasParent = true ∧ x.acks = [] ∧ f.sync = false ∧ x.sent = false
      Issues (.karv f) s → x.state = .open_ →
      (∀ run, (up → runOfCluster s c = some run ∧ ParentReached s c run x) → ∃ t, exec (.karv f) s = .next t
        ∧ t.leaf = (registerEnters (s.upd fun l => { l with po := l.po + 1 }) 1 f.sa (x.phase.setWidth 64) 0).leaf
        ∧ (let y := getKettle t c k
           y.phase = x.phase ∧ y.member = x.member ∧ y.next = x.next ∧ y.count = x.count ∧ y.child = x.child ∧ y.carr = x.carr
           ∧ y.arrived = (if k < 64 then x.arrived ||| bit else x.arrived)
           ∧ y.arr = (if k < 64 then x.arr else x.arr + 1) ∧ (full → y.state = .closed) ∧ (¬full → y.state = .open_)
           ∧ y.acks = if f.sync then x.acks ++ [(s.cur, s.leaf.po, decide (s.leaf.level = .trap))] else x.acks)
        ∧ SendsUpward s t c k run x up ∧ KettlesKept s t c k ∧ OthersKept s t ∧ t.mem = s.mem ∧ t.runs = s.runs)
      ∧ (∀ run, up → runOfCluster s c = some run → ¬ParentReached s c run x → findRun s run.id = some run → run.ending = none →
          ∃ t, exec (.karv f) s = .next t ∧ TreeErrorEnds t run))
  ∧ (-- KettleArrivalTraps
    ∀ (s : State) (f : KKet),
      let x := getKettle s (clusterOf s.cur) f.ket.toNat
      let j := s.cur % 32
      s.phase = .alone → (Instr.karv f).ctxIllegal (decodeCtx s) = false →
      (64 ≤ f.ket.toNat → x.state ≠ .open_ → exec (.karv f) s = .next (takeTrap s { cause := .kettle, slot := 9 }))
      ∧ (f.ket.toNat < 64 → x.state ≠ .open_ ∨ x.member.getLsbD j = false ∨ x.arrived.getLsbD j = true →
          exec (.karv f) s = .next (takeTrap s { cause := .gathering, slot := 9 })))

/-- R229, R233: KWAIT goes on when the phase it names is past, within half the phase numbers, and otherwise waits for
it; without ACQ it changes nothing, with ACQ it may only add to what the leaf has acquired. R234: the three words of
KPOLL. R235: KINIT sets count, children, extent and parent and opens the kettle; a count of 0 makes a kettle from 64 on
IDLE with its configuration cleared. What counts arrivals, phases and members stays. R233, R235, R240: a KWAIT on an
IDLE kettle, and a KINIT that meets one of R235's conditions, raise KETTLE. -/
def Obligations.KettleWaitPollInit : Prop :=
  (-- KettleWait
    ∀ (s : State) (f : KKet), s.phase = .effect →
      let x := getKettle s (clusterOf s.cur) f.ket.toNat
      let p : BitVec 32 := (readS s.leaf f.sa).setWidth 32
      let past := 1 ≤ (x.phase - p).toNat ∧ (x.phase - p).toNat < 2 ^ 31
      (past → f.sync = false → exec (.kwait f) s = .next s)
      ∧ (past → f.sync = true → ∃ po acqs, exec (.kwait f) s = .next (s.upd fun l => { l with po := po, acqs := acqs }))
      ∧ (¬past → exec (.kwait f) s = .next (s.upd fun l => { l with wait := .phase f.ket.toNat p f.sync })))
  ∧ (-- KettlePoll
    ∀ (s : State) (f : KPoll), Issues (.kpoll f) s →
      let k := f.ket.toNat
      let x := getKettle s (clusterOf s.cur) k
      x.carr.length ≤ x.child.toNat →
      ∃ w : Word, exec (.kpoll f) s = .next (registerEnters s 1 f.sd w 0)
        ∧ (f.mode = 0 → w.extractLsb' 32 32 = x.phase ∧ w.extractLsb' 30 2 = (match x.state with | .idle => 0 | .open_ => 1 | .closed => 2)
            ∧ w.extractLsb' 27 3 = x.extent ∧ w.getLsbD 26 = x.hasParent ∧ w.extractLsb' 20 6 = x.child
            ∧ (w.extractLsb' 14 6).toNat = x.carr.length
            ∧ (w.extractLsb' 0 14).toNat =
                if k < 64 then ((List.range 32).filter fun i => x.arrived.getLsbD i).length else x.arr.toNat)
        ∧ (f.mode = 1 → w = if k < 64 then x.member ++ x.arrived else x.count.setWidth 64)
        ∧ (f.mode = 2 → w = x.parent ++ (if k < 64 then x.next else 0#32)))
  ∧ (-- KettleInit
    ∀ (s : State) (f : KInit), Issues (.kinit f) s →
      let c := clusterOf s.cur
      let k := f.ket.toNat
      let x := getKettle s c k
      let cfg := readS s.leaf f.sa
      let y := { x with count := cfg.extractLsb' 0 14, child := cfg.extractLsb' 16 6, extent := cfg.extractLsb' 24 3,
                        parent := (readS s.leaf f.sb).setWidth 32 &&& 0xFF1F00FF#32, state := .open_ }
      ∃ t, exec (.kinit f) s = .next t ∧ KettlesKept s t c k ∧ t.leaves = s.leaves ∧ t.mem = s.mem
        ∧ (k < 64 ∨ cfg.extractLsb' 0 14 ≠ 0#14 → getKettle t c k = y)
        ∧ (64 ≤ k → cfg.extractLsb' 0 14 = 0#14 →
            getKettle t c k = { x with state := .idle, count := 0, child := 0, parent := 0, extent := 2 }))
  ∧ (-- KettleTraps
    ∀ (s : State) (w : KKet) (f : KInit), s.phase = .alone → s.cur < 768 →
      let c := clusterOf s.cur
      let s0 := s.upd landAll
      (allArrived s.leaf = true → (Instr.kwait w).ctxIllegal (decodeCtx s0) = false → (getKettle s c w.ket.toNat).state = .idle →
        exec (.kwait w) s = .next (takeTrap s0 { cause := .kettle, slot := 9 }))
      ∧ ((Instr.kinit f).ctxIllegal (decodeCtx s) = false →
        let x := getKettle s c f.ket.toNat
        let cfg := readS s.leaf f.sa
        let ext := (cfg.extractLsb' 24 3).toNat
        let link := readS s.leaf f.sb
        let home := s.node.package.toNat
        let pkg := (link.extractLsb' 24 7).toNat
        let pc := (link.extractLsb' 16 5).toNat
        (x.state = .closed ∨ x.arr ≠ 0 ∨ x.arrived ≠ 0 ∨ x.carr ≠ []
          ∨ ext < 2 ∨ 5 < ext ∨ (f.ket.toNat < 64 ∧ cfg.extractLsb' 0 14 ≠ 0#14)
          ∨ (link.getLsbD 31 = true ∧ (23 < pc ∨ (pkg = home ∧ pc = c ∧ (link.extractLsb' 0 8).toNat = f.ket.toNat)
              ∨ (ext < 5 ∧ pkg ≠ home) ∨ (ext = 2 ∧ pc ≠ c) ∨ (ext = 3 ∧ pc / 12 ≠ c / 12)
              ∨ (ext = 5 ∧ pkg ≠ home ∧ s.node.domain.toNat ≤ pkg)))) →
        exec (.kinit f) s = .next (takeTrap s { cause := .kettle, slot := 9 })))

/-- R236: GJOIN makes the leaf a member from the next phase on, at once where the gathering is OPEN and the leaf has not
arrived, and delivers PHASE or, taken exactly, PHASE + 1 (R10; log entry 95, DEDUCED); GLEAVE undoes it, and may so
complete the phase for the members that have arrived, with the upward arrival of R237 or the error of R238; both touch
one gathering. A GJOIN by a member of the next phase, and a GLEAVE by none, raise GATHERING. -/
def Obligations.GatheringMembership : Prop :=
  ∀ (s : State) (f : KJoin) (g : KLeave),
    let c := clusterOf s.cur
    let bit : BitVec 32 := 1#32 <<< (s.cur % 32)
    let now := fun (x : Kettle) => x.state = .open_ ∧ x.arrived.getLsbD (s.cur % 32) = false
    (Issues (.gjoin f) s →
      let x := getKettle s c f.ket.toNat
      ∃ t p, exec (.gjoin f) s = .next t ∧ t.leaf = (registerEnters s 1 f.sd p 0).leaf
        ∧ (now x → p = x.phase.setWidth 64 ∧ getKettle t c f.ket.toNat = { x with next := x.next ||| bit, member := x.member ||| bit })
        ∧ (¬now x → p = x.phase.setWidth 64 + 1 ∧ getKettle t c f.ket.toNat = { x with next := x.next ||| bit })
        ∧ KettlesKept s t c f.ket.toNat ∧ OthersKept s t ∧ t.mem = s.mem)
    ∧ (Issues (.gleave g) s →
      let k := g.ket.toNat
      let x := getKettle s c k
      let rest := x.member &&& ~~~bit
      let full := now x ∧ x.carr.length = x.child.toNat ∧ x.arrived = rest ∧ (rest ≠ 0 ∨ x.child ≠ 0)
      let up := full ∧ x.hasParent = true ∧ x.acks = [] ∧ x.sent = false
      (∀ run, (up → runOfCluster s c = some run ∧ ParentReached s c run x) →
        ∃ t, exec (.gleave g) s = .next t ∧ t.leaves = s.leaves ∧ KettlesKept s t c k ∧ t.mem = s.mem ∧ t.runs = s.runs
          ∧ (let y := getKettle t c k
             y.next = x.next &&& ~~~bit ∧ (now x → y.member = rest) ∧ (¬now x → y.member = x.member)
             ∧ (full → y.state = .closed) ∧ (¬full → y.state = x.state) ∧ y.phase = x.phase ∧ y.arrived = x.arrived ∧ y.acks = x.acks)
          ∧ SendsUpward s t c k run x up)
      ∧ (∀ run, up → runOfCluster s c = some run → ¬ParentReached s c run x → findRun s run.id = some run → run.ending = none →
          ∃ t, exec (.gleave g) s = .next t ∧ TreeErrorEnds t run))
    ∧ (s.phase = .alone →
      ((Instr.gjoin f).ctxIllegal (decodeCtx s) = false → (getKettle s c f.ket.toNat).next.getLsbD (s.cur % 32) = true →
        exec (.gjoin f) s = .next (takeTrap s { cause := .gathering, slot := 9 }))
      ∧ ((Instr.gleave g).ctxIllegal (decodeCtx s) = false → (getKettle s c g.ket.toNat).next.getLsbD (s.cur % 32) = false →
        exec (.gleave g) s = .next (takeTrap s { cause := .gathering, slot := 9 })))

/-- R216, R217: FENCE and DRAIN order what is before and after them, note what they order, and change nothing else.
A FENCE stands in a log that is not empty as a mark of its scope and kind, of kind ACQ at LEAF scope, where one of
releases alone leaves no mark; a FENCE.AR notes besides the leaf's stores before it, and whether they have all
performed. That they act by such marks and notes, and what FENCE does at LEAF scope, is log entry 26 (DEDUCED). R222,
R360: ALIASF and TLBINV enter the log with their address and length; an address that is not a multiple of 64 (a page for
TLBINV), or an ALIASF length that is not one of 64, raises ALIGN with the address in TRAP_FVA; that it is the base where
only LENGTH is misaligned is log entry 44 (DEDUCED). -/
def Obligations.FencesAndInvalidations : Prop :=
  (-- FencesMarkProgramOrder
    ∀ (s : State) (f : KFence),
      let l := s.leaf
      let rel := f.kind = 1 ∨ f.kind = 3
      let acq := f.kind = 2 ∨ f.kind = 3
      (∃ t, exec (.fence f) s = .next t
        ∧ (∃ o u, t.leaf = { l with olog := o, tlog := u, po := l.po + 1,
                                    relFences := if rel then l.relFences ++ [(l.po, f.scope.toNat)] else l.relFences,
                                    acqFences := if acq then l.acqFences ++ [l.po] else l.acqFences })
        ∧ (logOf l ≠ [] → (f.scope ≠ 0 ∨ acq) →
            EntersLog s t.leaf (.fence f.scope.toNat (if f.scope = 0 then 2 else f.kind.toNat)) 0 0 0 0)
        ∧ (logOf l = [] ∨ (f.scope = 0 ∧ ¬acq) → logOf t.leaf = logOf l)
        ∧ (l.level = .trap → t.leaf.olog = l.olog) ∧ (l.level = .ordinary → t.leaf.tlog = l.tlog)
        ∧ (f.kind ≠ 3 → t.arFences = s.arFences)
        ∧ (f.kind = 3 → ∃ x, t.arFences.length = s.arFences.length + 1 ∧ t.arFences.getLast? = some x
            ∧ x.leaf = s.cur ∧ x.run = l.run ∧ x.po = l.po ∧ x.scope = f.scope.toNat ∧ x.trapLog = decide (l.level = .trap)
            ∧ x.covers = clockJoin l.places [(s.cur, l.po - 1)] ∧ x.here = true
            ∧ (x.done.isSome = true ↔ ∀ e ∈ logOf l, e.po < l.po → e.op.isStore = true → e.maybeLocal s.node.package.toNat = false))
        ∧ OthersKept s t ∧ t.mem = s.mem ∧ t.quires = s.quires)
      ∧ ∃ t, exec .drain s = .next t
        ∧ (∃ o u, t.leaf = { l with olog := o, tlog := u, po := l.po + 1, drains := l.drains ++ [l.po] })
        ∧ (logOf l ≠ [] → EntersLog s t.leaf .drain 0 0 0 0) ∧ (logOf l = [] → logOf t.leaf = [])
        ∧ (l.level = .trap → t.leaf.olog = l.olog) ∧ (l.level = .ordinary → t.leaf.tlog = l.tlog)
        ∧ OthersKept s t ∧ t.mem = s.mem ∧ t.quires = s.quires)
  ∧ (-- AliasAndTlbFences
    ∀ (s : State) (f : KAliasf) (g : KTlbinv),
      let a := readS s.leaf f.sa
      let n := (readS s.leaf f.sb).toNat % 2 ^ 32
      let v := readS s.leaf g.sa
      (Issues (.aliasf f) s → ∃ t, exec (.aliasf f) s = .next t ∧ EntersLog s t.leaf (.aliasf f.scope.toNat) a n 0 0
        ∧ (∃ o u, t.leaf = { s.leaf with olog := o, tlog := u, po := s.leaf.po + 1 }) ∧ OthersKept s t ∧ t.mem = s.mem)
      ∧ (Issues (.tlbinv g) s → ∃ t, exec (.tlbinv g) s = .next t
        ∧ EntersLog s t.leaf .tlbinv v ((readS s.leaf g.sb).toNat % 2 ^ 32) 0 0
        ∧ (∃ o u, t.leaf = { s.leaf with olog := o, tlog := u, po := s.leaf.po + 1 }) ∧ OthersKept s t ∧ t.mem = s.mem)
      ∧ (s.phase = .alone → (Instr.aliasf f).ctxIllegal (decodeCtx s) = false → a.toNat % 64 ≠ 0 ∨ n % 64 ≠ 0 →
          exec (.aliasf f) s = .next (takeTrap s { cause := .align, slot := 9, fva := a }))
      ∧ (s.phase = .alone → (Instr.tlbinv g).ctxIllegal (decodeCtx s) = false → v.toNat % 4096 ≠ 0 →
          exec (.tlbinv g) s = .next (takeTrap s { cause := .align, slot := 9, fva := v })))

/-- R174, R177, R216, R217, R221, R222, R225, R360: what an older access, DRAIN, TLBINV, ALIASF and FENCE of its log hold back:
bytes in common (R177), an acquire before and a release behind everything, UNCACHED accesses among themselves, a DRAIN behind
something that may be remote, a FENCE by what stands before it and on no known remote access; and that an entry held by one
older entry of its log is held. That acquires, releases, FENCEs and DRAINs act by holding entries back is the model's choice
(log entries 26 and 27). -/
def Obligations.OlderEntriesHoldBack : Prop :=
  ∀ (home : Nat) (before : List LogEntry) (o e : LogEntry), e.op.isAccess = true →
    let held := heldBy home before o e = true
    let earlier := fun (p : LogEntry → Prop) => ∃ b ∈ before, p b
    (o.op.isAccess = true → (held ↔
        (e.va.toNat < o.va.toNat + o.size ∧ o.va.toNat < e.va.toNat + e.size)
        ∨ o.op.acquires = true ∨ e.op.releases = true ∨ (e.uncached = true ∧ o.maybeUncached = true)))
    ∧ (o.op = .drain → (held ↔ earlier fun b => b.maybeRemote home = true))
    ∧ (o.op = .tlbinv → held)
    ∧ (∀ sc, o.op = .aliasf sc → held)
    ∧ (∀ sc kind, o.op = .fence sc kind → (held ↔ e.remote home = false
        ∧ (((kind = 1 ∨ kind = 3) ∧ (e.op.isStore = true ∨ e.op.isAtom = true)
              ∧ earlier fun b => b.maybeLocal home = true ∨ b.op.isAliasf = true)
          ∨ ((kind = 2 ∨ kind = 3)
              ∧ earlier fun b => (b.op.isLoad = true ∨ b.op.isAtom = true) ∧ b.maybeLocal home = true)
          ∨ (kind = 3 ∧ e.op.isLoad = true ∧ earlier fun b => b.op.isStore = true ∧ b.maybeLocal home = true))))
    ∧ ∀ mid post : List LogEntry, (∀ b ∈ before.reverse ++ o :: mid, b.id ≠ e.id) → held →
        entryHeld home (before.reverse ++ o :: mid ++ e :: post) e = true

/-- R375 to R377: TSPAWN queues the lowest FREE record of the leaf's slice, sends PAYLOAD and then STATE 1 to memory as
releases through its log, and delivers the handle; TCANCEL takes a QUEUED task back; both deliver 0 where there is none.
R376, R377: TGET completes the leaf's task first (its record goes to DONE, an initial one on to FREE); then it takes the
oldest task of its half's queue, whose release has come, gives 0 twice where no task of the run is QUEUED or TAKEN and
the STATE that says so has been written for every record, each read of which acquires, and otherwise waits. That it
waits while a release has not come is log entry 66 (DEDUCED), as is that it gives 0 twice. R377: TAWAIT gives 0 for a
task that is DONE and 3 for one that is CANCELLED, and reaps its record, gives 0xFF for a handle that names no task, and
otherwise waits; while the record's release has not come it waits as well. That the writes of STATE and PAYLOAD enter
the leaf's log, and come when it lets them, is log entry 67 (DEDUCED). -/
def Obligations.TaskInstructions : Prop :=
  (-- TaskSpawnAndCancel
    ∀ (s : State) (f : KTask) (run : Run), s.cur < 768 → leafRun s s.cur = some run →
      let h := readS s.leaf f.x
      let at_ := fun (j off : Nat) => BitVec.ofNat 64 (run.pkt.tasks.toNat + 64 * j + off)
      let written := fun (e : LogEntry) (va : Word) (n : Nat) (v : Vec) =>
        e.op = .task ∧ e.va = va ∧ e.size = n ∧ e.data = v ∧ e.stage = .walk
      let gives := fun (t : State) (v : Nat) => ∃ x, t.leaf.inflight = s.leaf.inflight ++ [x] ∧ x.dist = 1
        ∧ x.dest = .s f.sd.toNat ∧ x.value = BitVec.ofNat 16384 v ∧ x.waiting = none
      let u := (spawnReads s run s.cur).foldl (fun x j => readTask x s.cur run j) s
      (Issues (.tspawn f) s → ∃ t v, exec (.tspawn f) s = .next t ∧ gives t v ∧ t.mem = s.mem ∧ OthersKept s t)
      ∧ (Issues (.tspawn f) s → freeTask s run s.cur = none → exec (.tspawn f) s = .next (registerEnters u 1 f.sd 0 0))
      ∧ (∀ j, Issues (.tspawn f) s → freeTask s run s.cur = some j →
          ∃ t r e₁ e₂, exec (.tspawn f) s = .next t ∧ leafRun t s.cur = some r ∧ taskState r j = 1
            ∧ halfQueue r (halfOf s.cur)
                = halfQueue run (halfOf s.cur) ++ [⟨j, some ⟨s.cur, u.leaf.po + 2, decide (s.leaf.level = .trap)⟩⟩]
            ∧ (∀ i, i ≠ j → taskState r i = taskState run i)
            ∧ logOf t.leaf = logOf s.leaf ++ [e₁, e₂] ∧ written e₁ (at_ j 0) 8 (h.setWidth 16384) ∧ written e₂ (at_ j 8) 1 1
            ∧ e₁.po = u.leaf.po ∧ e₂.po = u.leaf.po + 1 ∧ gives t ((j + 1) % 2 ^ 64) ∧ t.mem = s.mem ∧ OthersKept s t)
      ∧ (Issues (.tcancel f) s → ∃ t v, exec (.tcancel f) s = .next t ∧ gives t v ∧ t.mem = s.mem ∧ OthersKept s t)
      ∧ (Issues (.tcancel f) s → handleRec run h = none → exec (.tcancel f) s = .next (registerEnters s 1 f.sd 0 0))
      ∧ (∀ j, Issues (.tcancel f) s → handleRec run h = some j → (taskState run j ≠ 1 ∨ queuedSeen s run s.cur j = false) →
          exec (.tcancel f) s = .next (registerEnters (readTask s s.cur run j) 1 f.sd 0 0))
      ∧ (∀ j, Issues (.tcancel f) s → handleRec run h = some j → taskState run j = 1 → queuedSeen s run s.cur j = true →
          ∃ t r e, exec (.tcancel f) s = .next t ∧ leafRun t s.cur = some r ∧ taskState r j = 4
            ∧ (∀ q ∈ r.taskQ, ∀ x ∈ q, x.rec_ ≠ j) ∧ (∀ i, i ≠ j → taskState r i = taskState run i)
            ∧ logOf t.leaf = logOf s.leaf ++ [e] ∧ written e (at_ j 8) 1 4 ∧ gives t 1 ∧ t.mem = s.mem ∧ OthersKept s t))
  ∧ (-- TaskGet
    ∀ (s : State) (f : KTask) (run : Run), s.phase = .effect → s.cur < 768 → leafRun s s.cur = some run →
      let q := halfQueue run (halfOf s.cur)
      let result := fun (d : BitVec 6) (v : Word) =>
        ({ dist := 1, dest := .s d.toNat, value := v.setWidth 16384, mask := onesBelow 64, latch := none,
           seq := s.leaf.seq, rank := 0, flags := 0, waiting := none } : Result)
      let read := run.taskRels.foldl (fun x p => readTask x s.cur run p.1) s
      (s.leaf.task ≠ 0 →
        let j := s.leaf.task.toNat - 1
        let u := completeTask s s.cur
        exec (.tget f) s = exec (.tget f) u ∧ u.leaf.task = 0 ∧ u.leaf.inflight = s.leaf.inflight ∧ u.mem = s.mem
        ∧ OthersKept s u
        ∧ ∃ r, leafRun u s.cur = some r ∧ taskState r j = (if j < run.pkt.taskCount then 5 else 3)
            ∧ (∀ i, i ≠ j → taskState r i = taskState run i) ∧ r.taskQ = run.taskQ)
      ∧ (s.leaf.task = 0 → noTasksSeen s run s.cur = true → exec (.tget f) s = .next
          (read.upd fun l => { l with inflight := l.inflight ++ [result f.sd 0, result f.x 0] }))
      ∧ (s.leaf.task = 0 → (q = [] ∧ noTasksSeen s run s.cur = false) ∨ (∃ k rest, q = k :: rest ∧ relDone s run k.rel = false) →
          exec (.tget f) s = .next (s.upd fun l => { l with wait := .task f.sd.toNat f.x.toNat }))
      ∧ ∀ k rest, s.leaf.task = 0 → q = k :: rest → relDone s run k.rel = true →
          ∃ t r p, exec (.tget f) s = .next t ∧ leafRun t s.cur = some r ∧ taskState r k.rec_ = 2
            ∧ (∀ i, i ≠ k.rec_ → taskState r i = taskState run i)
            ∧ t.leaf.task = BitVec.ofNat 64 (k.rec_ + 1) ∧ halfQueue r (halfOf s.cur) = q.filter (fun x => x.rec_ != k.rec_)
            ∧ t.leaf.inflight = s.leaf.inflight ++ [result f.sd p, result f.x (BitVec.ofNat 64 (k.rec_ + 1))]
            ∧ (∀ rd tr u, rd.core = none → s.hist = [] → s.freeMem = [] → recordVa run k.rec_ % 8 = 0 →
                translate s rd run.asid run.root false (recordVa run k.rec_) .r = (.ok tr, u) →
                p = BitVec.ofNat 64 (bytesNat (memRead s.mem (memKey tr.pkg (canonAddr tr.pa)) 8)))
            ∧ t.mem = s.mem ∧ OthersKept s t)
  ∧ (-- TaskAwait
    ∀ (s : State) (f : KTask) (run : Run), s.phase = .effect → leafRun s s.cur = some run →
      let h := readS s.leaf f.x
      let gives := fun (t : State) (v : Nat) => ∃ x, t.leaf.inflight = s.leaf.inflight ++ [x] ∧ x.dist = 1
        ∧ x.dest = .s f.sd.toNat ∧ x.value = BitVec.ofNat 16384 v ∧ x.waiting = none
      (tawaitReady s s.cur h false = true → ∃ t v, exec (.tawait f) s = .next t ∧ gives t v ∧ t.mem = s.mem ∧ OthersKept s t)
      ∧ (handleRec run h = none → ∃ t, exec (.tawait f) s = .next t ∧ gives t 0xFF ∧ t.runs = s.runs ∧ t.mem = s.mem)
      ∧ ∀ j, handleRec run h = some j →
          (taskState run j = 3 ∨ taskState run j = 4 → relDone s run (mapFind run.taskRels j) = true →
            ∃ t r, exec (.tawait f) s = .next t ∧ gives t (if taskState run j = 3 then 0 else 3) ∧ leafRun t s.cur = some r
              ∧ taskState r j = 0 ∧ ∀ i, i ≠ j → taskState r i = taskState run i)
          ∧ (taskState run j = 0 ∨ taskState run j = 5 → ∃ t, exec (.tawait f) s = .next t ∧ gives t 0xFF ∧ t.runs = s.runs ∧ t.mem = s.mem)
          ∧ (taskState run j = 1 ∨ taskState run j = 2
                ∨ ((taskState run j = 3 ∨ taskState run j = 4) ∧ relDone s run (mapFind run.taskRels j) = false) →
              exec (.tawait f) s = .next (s.upd fun l => { l with wait := .taskDone f.sd.toNat h })))

/-- R374: RIBN takes the next word of the quire's ribbon, or all ones when none is left; RIBN.REM counts what is left.
R236, R378, R379: EXIT completes the leaf's task, stops the leaf and takes it out of every gathering; at trap level it
ends the run. R29, R380, R381: YIELD puts the leaf at the back of the selector's order and, with SEL, selects a segment;
NOP does nothing in any slot. -/
def Obligations.RibbonExitYieldNop : Prop :=
  (-- RibbonWords
    ∀ (s : State) (f : KRibn), Issues (.ribn f) s →
      let q := getQuire s (quireOf s.cur)
      (f.rem = true → exec (.ribn f) s = .next (registerEnters s 1 f.sd (BitVec.ofNat 64 (q.ribbon.length - q.cursor)) 0))
      ∧ (f.rem = false → q.ribbon.length ≤ q.cursor → exec (.ribn f) s = .next (registerEnters s 1 f.sd (BitVec.allOnes 64) 0))
      ∧ ∀ w, f.rem = false → q.ribbon[q.cursor]? = some w → exec (.ribn f) s = .next
          (registerEnters (setQuire s (quireOf s.cur) { q with cursor := q.cursor + 1 }) 1 f.sd w 0))
  ∧ (-- ExitStopsLeaf
    ∀ (s : State), Issues .exit_ s →
      (s.leaf.level = .ordinary → ∃ t, exec .exit_ s = .next t ∧ t.leaf.exited = true ∧ t.leaf.inflight = []
        ∧ (∀ k, k < 64 → (getKettle t (clusterOf s.cur) k).next.getLsbD (s.cur % 32) = false)
        ∧ ∀ run, leafRun s s.cur = some run → s.leaf.task ≠ 0 →
            let j := s.leaf.task.toNat - 1
            t.leaf.task = 0 ∧ ∃ r, leafRun t s.cur = some r ∧ taskState r j = (if j < run.pkt.taskCount then 5 else 3))
      ∧ ∀ (r : Run) (n : Nat), s.leaf.level = .trap → s.leaf.run = some n → findRun s n = some r → r.ending = none →
          ∃ t x, exec .exit_ s = .next t ∧ findRun t n = some x ∧ t.leaf.exited = true ∧ t.mem = s.mem
            ∧ x.ending = some ⟨1, s.cur, s.leaf.trapCause.setWidth 32, s.leaf.trapPc, s.leaf.trapFva, none⟩)
  ∧ (-- YieldAndNop
    ∀ (s : State) (f : KYield) (sl : Slot),
      exec (.nop sl) s = .next s
      ∧ (s.phase = .effect → ∃ t, exec (.yield f) s = .next t
          ∧ t.leaf = (if f.sel then { s.leaf with selSeg := if f.segno = 0xFFFF then none else some f.segno.toNat } else s.leaf)
          ∧ (getQuire t (quireOf s.cur)) = { getQuire s (quireOf s.cur) with sel := (s.cur % 4 + 1) % 4 }
          ∧ OthersKept s t ∧ t.mem = s.mem))

/-- R33, R122, R123: what each view makes of a lane. R128: the integer arithmetic of VA and VB, element by element, on the
integers the type reads. -/
def Obligations.VectorIntegers : Prop :=
  (-- ViewsOfALane
    ∀ (l : Leaf) (v : VecSrc) (w : Widen) (k : Nat), k < 512 →
      let x := elem 32 (readBase l v.base) k
      let lo := x % 2 ^ 16
      let hi := x / 2 ^ 16
      let n := v.view.toNat
      let wide := fun h => match w with
        | .sign => if 2 ^ 15 ≤ h then h + 0xFFFF0000 else h
        | .float => h * 2 ^ 16
        | .zero => h
      (n = 0 → elem 32 (readVec l v 32 w) k = x)
      ∧ (n = 1 → elem 32 (readVec l v 32 w) k = wide lo ∧ elem 32 (readVec l v 16 w) k = lo * 2 ^ 16 + lo)
      ∧ (n = 2 → elem 32 (readVec l v 32 w) k = wide hi ∧ elem 32 (readVec l v 16 w) k = hi * 2 ^ 16 + hi)
      ∧ (n = 3 → elem 32 (readVec l v 32 w) k = lo * 2 ^ 16 + hi)
      ∧ (4 ≤ n → n < 8 → elem 32 (readVec l v 32 w) k = x / 2 ^ (8 * (n - 4)) % 2 ^ 8 * 0x01010101)
      ∧ (8 ≤ n → elem 32 (readVec l v 32 w) k = x / 2 ^ (4 * (n - 8)) % 2 ^ 4 * 0x11111111))
  ∧ (-- VectorIntegerArithmetic
    ∀ (s : State) (f : V2 ITy) (g : V3 ITy) (h : V1 STy),
      let e := f.ty.width
      let M : Int := 2 ^ e
      let rd := fun (t : ITy) (v : VecSrc) (j : Nat) =>
        readElem (isSigned t) t.width (elem t.width (readVec s.leaf v t.width (itemWiden t)) j)
      let x := rd f.ty f.a
      let y := rd f.ty f.b
      let lo : Int := if isSigned f.ty then -(2 ^ (e - 1)) else 0
      let hi : Int := if isSigned f.ty then 2 ^ (e - 1) - 1 else 2 ^ e - 1
      let gives := fun i dist (el : Nat → Int) =>
        VecGives i s dist (intLatch f.u) f.u f.nowb f.vd f.mask e (fun j => (el j % M).toNat) 0
      gives (.vadd f) 2 (fun j => x j + y j)
      ∧ gives (.vsub f) 2 (fun j => x j - y j)
      ∧ gives (.vmul f) 4 (fun j => x j * y j)
      ∧ gives (.vmulh f) 4 (fun j => x j * y j / M)
      ∧ gives (.vadds f) 2 (fun j => max lo (min hi (x j + y j)))
      ∧ gives (.vsubs f) 2 (fun j => max lo (min hi (x j - y j)))
      ∧ gives (.vmin f) 2 (fun j => min (x j) (y j))
      ∧ gives (.vmax f) 2 (fun j => max (x j) (y j))
      ∧ VecGives (.vmac g) s 4 (intLatch g.u) g.u g.nowb g.vd g.mask g.ty.width
          (fun j => ((rd g.ty g.a j * rd g.ty g.b j + rd g.ty g.c j) % 2 ^ g.ty.width).toNat) 0
      ∧ VecGives (.vabs h) s 2 (intLatch h.u) h.u h.nowb h.vd h.mask h.ty.width
          (fun j => (readElem true h.ty.width (elem h.ty.width (readVec s.leaf h.a h.ty.width .sign) j)).natAbs) 0)

/-- R129, R145: logic, shifts and counts of VA and VB. R142, R143: operations on masks, and a mask's count and first bit. -/
def Obligations.VectorLogicShiftsMasks : Prop :=
  (-- VectorLogicAndShifts
    ∀ (s : State) (f : V2 UTy) (g : V2 STy) (h : V1 STy),
      let a := fun k => elem 32 (readVec s.leaf f.a 32 .zero) k
      let b := fun k => elem 32 (readVec s.leaf f.b 32 .zero) k
      let e := g.ty.width
      let z := fun j => elem e (readVec s.leaf g.a e .zero) j
      let n := fun j => elem e (readVec s.leaf g.b e .zero) j % e
      let u := fun i (el : Nat → Nat) => VecGives i s 2 (intLatch f.u) f.u f.nowb f.vd f.mask 32 el 0
      let sh := fun i (el : Nat → Nat) => VecGives i s 2 (intLatch g.u) g.u g.nowb g.vd g.mask e el 0
      u (.vand f) (fun k => a k &&& b k)
      ∧ u (.vor f) (fun k => a k ||| b k)
      ∧ u (.vxor f) (fun k => a k ^^^ b k)
      ∧ u (.vandn f) (fun k => a k &&& (2 ^ 32 - 1 - b k))
      ∧ sh (.vsll g) (fun j => z j * 2 ^ n j)
      ∧ sh (.vsrl g) (fun j => z j / 2 ^ n j)
      ∧ sh (.vsra g) (fun j => (readElem true e (elem e (readVec s.leaf g.a e .sign) j) / 2 ^ n j % 2 ^ e).toNat)
      ∧ VecGives (.vpopc h) s 2 (intLatch h.u) h.u h.nowb h.vd h.mask h.ty.width
          (fun j => ((List.range h.ty.width).filter fun i =>
            (elem h.ty.width (readVec s.leaf h.a h.ty.width .zero) j).testBit i).length) 0)
  ∧ (-- MaskOperations
    ∀ (s : State) (f : VM2) (g : VM1) (h : VMS),
      let a := readM s.leaf f.ma
      let b := readM s.leaf f.mb
      let x := readM s.leaf h.ma
      MaskGives (.mand f) s 1 f.u f.md (fun k => a.getLsbD k && b.getLsbD k)
      ∧ MaskGives (.mor f) s 1 f.u f.md (fun k => a.getLsbD k || b.getLsbD k)
      ∧ MaskGives (.mxor f) s 1 f.u f.md (fun k => a.getLsbD k != b.getLsbD k)
      ∧ MaskGives (.mnot g) s 1 g.u g.md (fun k => !(readM s.leaf g.ma).getLsbD k)
      ∧ exec (.mpopc h) s = .next (registerEnters s 2 h.sd
          (BitVec.ofNat 64 ((List.range 512).filter fun k => x.getLsbD k).length) 7)
      ∧ ∃ n, exec (.mfirst h) s = .next (registerEnters s 2 h.sd (BitVec.ofNat 64 n) 7)
          ∧ n ≤ 512 ∧ (∀ k, k < n → x.getLsbD k = false) ∧ (n < 512 → x.getLsbD n = true))

/-- R130: compares give a mask bit a lane, joined by AND or, with ANY, by OR; a disabled lane gives 0. R133: floating-point
compares; a NaN compares false with everything. -/
def Obligations.VectorComparisons : Prop :=
  (-- VectorCompares
    ∀ (s : State) (f : VC STy) (g : VC ITy),
      let x := fun (v : VecSrc) j => elem f.ty.width (readVec s.leaf v f.ty.width .sign) j
      let rd := fun (v : VecSrc) j =>
        readElem (isSigned g.ty) g.ty.width (elem g.ty.width (readVec s.leaf v g.ty.width (itemWiden g.ty)) j)
      MaskGives (.vcmpeq f) s 2 f.u f.md (fun k => laneOn s f.mask k
        && laneJoin f.any f.ty.width (fun j => decide (x f.a j = x f.b j)) k)
      ∧ MaskGives (.vcmplt g) s 2 g.u g.md (fun k => laneOn s g.mask k
        && laneJoin g.any g.ty.width (fun j => decide (rd g.a j < rd g.b j)) k)
      ∧ MaskGives (.vcmple g) s 2 g.u g.md (fun k => laneOn s g.mask k
        && laneJoin g.any g.ty.width (fun j => decide (rd g.a j ≤ rd g.b j)) k))
  ∧ (-- VectorFloatCompares
    ∀ (s : State) (f : VC FTy),
      let c := leafCtx s.leaf
      let nums := fun (v : VecSrc) (j : Nat) =>
        readFloat (ftyFmt f.ty) c (elem f.ty.width (readVec s.leaf v f.ty.width .float) j)
      let gives := fun i (p : Int → Bool) => MaskGives i s 4 f.u f.md (fun k => laneOn s f.mask k
        && laneJoin f.any f.ty.width
            (fun j => !(nums f.a j).isNan && !(nums f.b j).isNan && p (cmpNum (nums f.a j) (nums f.b j))) k)
      gives (.vfcmpeq f) (fun d => decide (d = 0))
      ∧ gives (.vfcmplt f) (fun d => decide (d < 0))
      ∧ gives (.vfcmple f) (fun d => decide (d ≤ 0)))

/-- R136 to R140, R144: moves, insertion, extraction, selection, permutation, shifts across elements, signs. -/
def Obligations.VectorMovesAndPermutes : Prop :=
  ∀ (s : State) (m : V1 UTy) (d : VDup) (i : VIns) (x : VExt) (c : V2 UTy) (p : V2 STy) (h : VShl) (r : VRot) (g : V1 STy),
    (Instr.vins i).wf = true → (Instr.vext x).wf = true → (Instr.vshl h).wf = true → (Instr.vrot r).wf = true →
    let l := s.leaf
    VecGives (.vmov m) s 2 (intLatch m.u) m.u m.nowb m.vd m.mask 32 (elem 32 (readVec l m.a 32 .zero)) 0
    ∧ VecGives (.vdup d) s 2 (intLatch d.u) d.u d.nowb d.vd d.mask d.ty.width (fun _ => (readS l d.sa).toNat) 0
    ∧ (∃ value mask : Vec, exec (.vins i) s = .next (resultEnters s 2 (if i.nowb then .none else .v i.vd.toNat) value mask
          (some (intLatch i.u)) (slotRank i.u.slot) 0)
        ∧ (∀ k, k < 16384 → mask.getLsbD k = decide (k / i.ty.width = i.idx.toNat))
        ∧ ∀ j, i.ty.width * j < 16384 → elem i.ty.width value j
            = if j = i.idx.toNat then (readS l i.sa).toNat % 2 ^ i.ty.width else 0)
    ∧ exec (.vext x) s = .next (registerEnters s 3 x.sd (BitVec.ofInt 64
        (readElem (isSigned x.ty) x.ty.width (elem x.ty.width (readVec l x.a x.ty.width (itemWiden x.ty)) x.idx.toNat))) 7)
    ∧ (∃ value, exec (.vsel c) s = .next (resultEnters s 2 (if c.nowb then .none else .v c.vd.toNat) value
          (BitVec.allOnes 16384) (some (intLatch c.u)) (slotRank c.u.slot) 0)
        ∧ ∀ k, k < 512 → elem 32 value k
            = if laneOn s c.mask k then elem 32 (readVec l c.a 32 .zero) k else elem 32 (readVec l c.b 32 .zero) k)
    ∧ (let e := p.ty.width
       let idx := fun j => elem e (readVec l p.b e .zero) j
       VecGives (.vperm p) s 3 (intLatch p.u) p.u p.nowb p.vd p.mask e (fun j => elem e (readVec l p.a e .zero)
         (if e = 8 then 256 * (j / 256) + idx j else idx j % (16384 / e))) 0)
    ∧ (let e := h.ty.width
       VecGives (.vshl h) s 3 (intLatch h.u) h.u h.nowb h.vd h.mask e (fun j =>
         if j < h.n.toNat then elem e (readVec l h.b e .zero) (16384 / e - h.n.toNat + j)
         else elem e (readVec l h.a e .zero) (j - h.n.toNat)) 0)
    ∧ (let e := r.ty.width
       VecGives (.vrot r) s 3 (intLatch r.u) r.u r.nowb r.vd r.mask e (fun j =>
         elem e (readVec l r.a e .zero) ((j + (16384 / e - r.n.toNat)) % (16384 / e))) 0)
    ∧ ∃ value, exec (.vsign g) s = .next (resultEnters s 3 (if g.nowb then .none else .v g.vd.toNat) value
          (BitVec.allOnes 16384) (some (intLatch g.u)) (slotRank g.u.slot) 0)
        ∧ ∀ j, j < 16384 → value.getLsbD j = (decide (g.ty.width * j < 16384) && laneOn s g.mask (g.ty.width * j / 32)
            && decide (2 ^ (g.ty.width - 1) ≤ elem g.ty.width (readVec l g.a g.ty.width .sign) j))

/-- R131, R132, R134, R135: sums, products, minima, maxima, signs and conversions of floating-point elements are the
rounded exact values of their operands after the view and FTZ, and only enabled elements raise flags. The reciprocal and
the reciprocal root are R134's estimates: in FP32 the exact value is first rounded, ties to even, to r · 2^k with a
significand r of 13 bits, then by Round, with INEXACT where that step was not exact; in FP16 and BF16 it goes to Round
at once, as a quotient or root of at least 62 bits whose last bit says whether something was cut off. The special cases
are those of R134's table, and VFEXP2 of an integer p is Round of 2^p (beyond 10,000, where every format over- or
underflows, of that power); of another operand it is the model's series (log entry 23, DEDUCED). -/
def Obligations.VectorFloatArithmetic : Prop :=
  ∀ (s : State) (f : V2 FTy) (g : V3 FTy) (h : V1 FTy),
    let c := leafCtx s.leaf
    let nums := fun (t : FTy) (v : VecSrc) (j : Nat) => readFloat (ftyFmt t) c (elem t.width (readVec s.leaf v t.width .float) j)
    let x := nums f.ty f.a
    let y := nums f.ty f.b
    let F := ftyFmt f.ty
    let z := nums h.ty h.a
    let H := ftyFmt h.ty
    let round := fun (F : FloatFmt) (r : Machine.Num × Flags) => ((roundFloat F c r.1).1, (roundFloat F c r.1).2 ||| r.2)
    let two := fun i dist el => FloatGives i s dist (floatLatch f.u) f.u f.nowb f.vd f.mask f.ty.width el
    let one := fun i dist el => FloatGives i s dist (floatLatch h.u) h.u h.nowb h.vd h.mask h.ty.width el
    two (.vfadd f) 4 (fun j => round F (addNum c.rm (x j) (y j)))
    ∧ two (.vfsub f) 4 (fun j => round F (addNum c.rm (x j) (y j).neg))
    ∧ two (.vfmul f) 5 (fun j => round F (mulNum (x j) (y j)))
    ∧ two (.vfmin f) 4 (fun j => if (x j).isNan || (y j).isNan then (codeNan F, 0)
        else (exactCode F (if lessNum (y j) (x j) then y j else x j), 0))
    ∧ two (.vfmax f) 4 (fun j => if (x j).isNan || (y j).isNan then (codeNan F, 0)
        else (exactCode F (if lessNum (x j) (y j) then y j else x j), 0))
    ∧ FloatGives (.vfma g) s 5 (floatLatch g.u) g.u g.nowb g.vd g.mask g.ty.width (fun j =>
        let p := mulNum (nums g.ty g.a j) (nums g.ty g.b j)
        let r := addNum c.rm p.1 (nums g.ty g.c j)
        round (ftyFmt g.ty) (r.1, p.2 ||| r.2))
    ∧ one (.vfabs h) 4 (fun j => (exactCode H (z j).abs, 0))
    ∧ one (.vfneg h) 4 (fun j => (exactCode H (z j).neg, 0))
    ∧ one (.vfrcp h) 7 (fun j => rcpFloat H c (z j))
    ∧ one (.vfrsq h) 7 (fun j => rsqFloat H c (z j))
    ∧ one (.vfexp2 h) 7 (fun j => exp2Float H c (z j))
    ∧ one (.vi2f h) 4 (fun j => roundFloat H c (numOfInt (readElem true h.ty.width
        (elem h.ty.width (readVec s.leaf h.a h.ty.width .sign) j))))
    ∧ one (.vf2i h) 4 (fun j => floatToInt ⟨h.ty.width, true⟩ c (z j))
    ∧ (H = fp32 → ∀ (n : Bool) (m : Nat) (e : Int), m ≠ 0 →
        let est := fun (r : Nat) (k : Int) (neg exact : Bool) =>
          ((roundFloat H c (.fin neg r k)).1, (roundFloat H c (.fin neg r k)).2 ||| if exact then 0 else fInexact)
        (∃ r T : Nat, 2 ^ 12 ≤ r ∧ r ≤ 2 ^ 13 ∧ 2 * r * m ≤ 2 ^ (T + 1) + m ∧ 2 ^ (T + 1) ≤ 2 * r * m + m
          ∧ (2 * r * m = 2 ^ (T + 1) + m ∨ 2 ^ (T + 1) = 2 * r * m + m → r % 2 = 0)
          ∧ rcpFloat H c (.fin n m e) = est r (-(T : Int) - e) n (decide (r * m = 2 ^ T)))
        ∧ ∃ (r T : Nat) (k : Int), 2 ^ 12 ≤ r ∧ r ≤ 2 ^ 13 ∧ 2 * k + e = -(T : Int)
          ∧ (2 * r - 1) ^ 2 * m ≤ 2 ^ (T + 2) ∧ 2 ^ (T + 2) ≤ (2 * r + 1) ^ 2 * m
          ∧ rsqFloat H c (.fin false m e) = est r k false (decide (r ^ 2 * m = 2 ^ T)))
    ∧ (H = fp16 ∨ H = bf16 → ∀ (n : Bool) (m : Nat) (e : Int), m ≠ 0 →
        let cut := fun (neg : Bool) (q : Nat) (k : Int) (exact : Bool) => roundFloat H c (.fin neg (2 * q + if exact then 0 else 1) (k - 1))
        (∃ q T : Nat, 2 ^ 62 ≤ q ∧ q * m ≤ 2 ^ T ∧ 2 ^ T < (q + 1) * m
          ∧ rcpFloat H c (.fin n m e) = cut n q (-(T : Int) - e) (decide (q * m = 2 ^ T)))
        ∧ ∃ (q T : Nat) (k : Int), 2 ^ 62 ≤ q ∧ 2 * k + e = -(T : Int) ∧ q ^ 2 * m ≤ 2 ^ T ∧ 2 ^ T < (q + 1) ^ 2 * m
          ∧ rsqFloat H c (.fin false m e) = cut false q k (decide (q ^ 2 * m = 2 ^ T)))
    ∧ (∀ n : Bool, rcpFloat H c .nan = (codeNan H, 0) ∧ rcpFloat H c (.zero n) = (codeInf H n, fDivZero)
        ∧ rcpFloat H c (.inf n) = (signBit H n, 0)
        ∧ rsqFloat H c .nan = (codeNan H, 0) ∧ rsqFloat H c (.zero n) = (codeInf H n, fDivZero)
        ∧ rsqFloat H c (.inf false) = (0, 0) ∧ rsqFloat H c (.inf true) = (codeNan H, fInvalid)
        ∧ (∀ m e, rsqFloat H c (.fin true m e) = (codeNan H, fInvalid))
        ∧ exp2Float H c .nan = (codeNan H, 0) ∧ exp2Float H c (.zero n) = roundFloat H c (.fin false 1 0)
        ∧ exp2Float H c (.inf false) = (codeInf H false, 0) ∧ exp2Float H c (.inf true) = (0, 0))
    ∧ ∀ (n : Bool) (m p : Nat) (e : Int), m ≠ 0 → -400 ≤ e → (0 ≤ e ∧ p = m * 2 ^ e.toNat ∨ e < 0 ∧ m = p * 2 ^ (-e).toNat) →
        ∃ i : Nat, exp2Float H c (.fin n m e)
          = roundFloat H c (.fin false (2 ^ i) ((if n then -((min p 10000 : Nat) : Int) else (min p 10000 : Nat)) - i))

/-- R141: the reductions write one element (and, for VRMAXI, the index of the maximum in lane 1) with zeros above; the maximum is
one of the enabled elements, none of them exceeds it, and none before it equals it. -/
def Obligations.VectorReductions : Prop :=
  ∀ (s : State) (f : VRed),
    let c := leafCtx s.leaf
    let e := f.ty.width
    let F := ftyFmt f.ty
    let src := fun j => elem e (readVec s.leaf f.a e .float) j
    let x := fun j => readFloat F c (src j)
    let on := fun j => laneOn s f.mask (e * j / 32)
    let enters := fun (v : Nat) (fl : Flags) => Host.Outcome.next (resultEnters s 9
      (if f.nowb then .none else .v f.vd.toNat) (BitVec.ofNat 16384 v) (BitVec.allOnes 16384) (some 4) 6 fl)
    (let r := redSum F c 11 ((List.range (16384 / e)).map fun j => if on j then src j else signBit F true)
     exec (.vradd f) s = enters r.1 r.2)
    ∧ ∃ v k, exec (.vrmax f) s = enters v 0 ∧ exec (.vrmaxi f) s = enters (v + k * 2 ^ 32) 0
        ∧ ((∀ j, e * j < 16384 → on j = false) → v = codeInf F true ∧ k = 0xFFFFFFFF)
        ∧ ((∃ j, e * j < 16384 ∧ on j = true) → e * k < 16384 ∧ on k = true ∧ v = exactCode F (x k)
            ∧ ∀ j, e * j < 16384 → on j = true →
                ((x k).isNan = false → (x j).isNan = false ∧ lessNum (x k) (x j) = false ∧ (j < k → lessNum (x j) (x k) = true))
                ∧ ((x k).isNan = true → (x j).isNan = true → k ≤ j))

/-- R76, R83: rounding a value that the format holds gives its own code back, and no flag. -/
def Obligations.RoundingKeepsRepresentableValues : Prop :=
  ∀ (F : FloatFmt) (x rm : Nat), F = fp32 ∨ F = fp16 ∨ F = bf16 ∨ F = e5m2 → x < 2 ^ F.width →
    (decodeFloat F x).isNan = false → roundFloat F ⟨rm, false, false, 0⟩ (decodeFloat F x) = (x, 0)

/-- R165 to R167: what each sheet load reads: its address, its bytes in little-endian order, its extension, its lanes. What is
added to the address of the form is added exactly (R10). R166 to R168, R219: PLDH reads the handle's recto at a byte offset;
a FREE or ERROR handle, or an offset past its length, raises HANDLE_STATE. -/
def Obligations.SheetAndRectoLoads : Prop :=
  (-- SheetLoads
    ∀ (s : State) (f : PLd) (g : PLdv) (d : PLdvs) (h : PGth),
      let l := s.leaf
      let at_ := fun (b : ScalarSrc) (off : Int) => (BitVec.ofInt 64 ((readSrc l b).toInt + off)).toNat
      (let a := at_ f.base f.off.toInt
       let n := 2 ^ f.size.toNat
       Issues (.pld f) s → LoadGives (.pld f) s f.land.toNat (.s f.sd.toNat) (onesBelow 64) [(a, n)] false
         (fun k => if k < 8 * n then sheetBit l a k else f.ext && sheetBit l a (8 * n - 1)))
      ∧ (let a := at_ g.base g.off.toInt
         Issues (.pldv g) s → LoadGives (.pldv g) s g.land.toNat (.v g.vd.toNat) (BitVec.allOnes 16384) [(a, 2048)] false
           (sheetBit l a))
      ∧ (let n := 2 ^ d.size.toNat
         let a := fun j : Nat => ((at_ d.base d.off.toInt : Int) + j * (readS l d.str).toInt).toNat
         d.size ≠ 3 → (∀ j : Nat, j < 2048 / n → 0 ≤ (at_ d.base d.off.toInt : Int) + j * (readS l d.str).toInt) →
           Issues (.pldvs d) s → LoadGives (.pldvs d) s d.land.toNat (.v d.vd.toNat) (BitVec.allOnes 16384)
           ((List.range (2048 / n)).map fun j => (a j, n)) false (fun k => sheetBit l (a (k / (8 * n))) (k % (8 * n))))
      ∧ (let a := fun k => at_ h.base h.off.toInt + 4 * elem 32 (readV l h.idx) k
         Issues (.pgth h) s → ∃ m : Vec, (∀ k, k < 16384 → m.getLsbD k = laneOn s h.mask (k / 32))
           ∧ LoadGives (.pgth h) s h.land.toNat (.v h.vd.toNat) m
               (((List.range 512).filter fun k => laneOn s h.mask k).map fun k => (a k, 4)) false
               (fun k => sheetBit l (a (k / 32)) (k % 32))))
  ∧ (-- RectoLoads
    ∀ (s : State) (f : PLdh) (g : PLdhv),
      let l := s.leaf
      let hf := getHandle l f.h.toNat
      let hg := getHandle l g.h.toNat
      let of_ := (readSrc l f.base + f.off.setWidth 64).toNat
      let og := (readSrc l g.base + g.off.setWidth 64).toNat
      let n := 2 ^ f.size.toNat
      (Issues (.pldh f) s → LoadGives (.pldh f) s f.land.toNat (.s f.sd.toNat) (onesBelow 64) [(hf.recto + of_, n)] true
        (fun k => if k < 8 * n then sheetBit l (hf.recto + of_) k else f.ext && sheetBit l (hf.recto + of_) (8 * n - 1)))
      ∧ (Issues (.pldhV g) s → LoadGives (.pldhV g) s g.land.toNat (.v g.vd.toNat) (BitVec.allOnes 16384)
          [(hg.recto + og, 2048)] true (sheetBit l (hg.recto + og)))
      ∧ (s.phase = .alone → (Instr.pldh f).ctxIllegal (decodeCtx s) = false →
          hf.cfg = false ∨ hf.ecause ≠ 0 ∨ hf.len < of_ + n →
          exec (.pldh f) s = .next (takeTrap s { cause := .handleState, slot := 4 }))
      ∧ (s.phase = .alone → (Instr.pldhV g).ctxIllegal (decodeCtx s) = false →
          hg.cfg = false ∨ hg.ecause ≠ 0 ∨ hg.len < og + 2048 →
          exec (.pldhV g) s = .next (takeTrap s { cause := .handleState, slot := 4 })))

/-- R165 to R167, R169: where each sheet store goes and what it leaves there where no unobserved engine operation has
written. Of two lanes of PSCT that name one word the higher one is left. R168: of every form, an access of which an
enabled byte lies outside sheet space raises SHEET_BOUNDS, and one inside it that is not aligned ALIGN; what TRAP_FVA
then holds is free, log entry 44 (DEDUCED), and that a form with no lane enabled checks no lane's address log entry 55
(DESIGN CHOICE). -/
def Obligations.SheetStoresAndTraps : Prop :=
  (-- SheetStores
    ∀ (s : State) (f : PSt) (g : PStv) (h : PSct),
      let l := s.leaf
      let at_ := fun (b : ScalarSrc) (off : Int) => (BitVec.ofInt 64 ((readSrc l b).toInt + off)).toNat
      (let a := at_ f.base f.off.toInt
       Issues (.pst f) s → StoreGives (.pst f) s (fun x =>
         if a ≤ x ∧ x < a + 2 ^ f.size.toNat then some ((readS l f.ss).extractLsb' (8 * (x - a)) 8) else none))
      ∧ (let a := fun k => at_ g.base g.off.toInt + 4 * k
         Issues (.pstv g) s → ∃ w : Nat → Option Byte, StoreGives (.pstv g) s w
           ∧ (∀ k b, k < 512 → b < 4 → laneOn s g.mask k = true →
               w (a k + b) = some ((readV l g.vs).extractLsb' (32 * k + 8 * b) 8))
           ∧ ∀ x, (∀ k, k < 512 → laneOn s g.mask k = true → x < a k ∨ a k + 4 ≤ x) → w x = none)
      ∧ (let a := fun k => at_ h.base h.off.toInt + 4 * elem 32 (readV l h.idx) k
         Issues (.psct h) s → ∃ w : Nat → Option Byte, StoreGives (.psct h) s w
           ∧ (∀ k b, k < 512 → b < 4 → laneOn s h.mask k = true →
               (∀ j, k < j → j < 512 → laneOn s h.mask j = true → a j ≠ a k) →
               w (a k + b) = some ((readV l h.vs).extractLsb' (32 * k + 8 * b) 8))
           ∧ ∀ x, (∀ k, k < 512 → laneOn s h.mask k = true → x < a k ∨ a k + 4 ≤ x) → w x = none))
  ∧ (-- SheetAccessTraps
    ∀ (s : State) (f : PLd) (g : PSt) (v : PLdv) (w : PStv) (d : PLdvs) (x : PGth) (y : PSct) (h : PLdh) (k : PLdhv), s.phase = .alone →
      let l := s.leaf
      let at_ := fun (b : ScalarSrc) (off : Int) => (BitVec.ofInt 64 ((readSrc l b).toInt + off)).toNat
      let traps := fun (i : Instr) (outside odd : Prop) => i.ctxIllegal (decodeCtx s) = false →
        (outside → exec i s = .next (takeTrap s { cause := .sheetBounds, slot := 4 }))
        ∧ (¬outside → odd → exec i s = .next (takeTrap s { cause := .align, slot := 4, fvaOpen := true }))
      let whole := fun (i : Instr) (a n al : Nat) => traps i (0x400000 < a + n) (a % al ≠ 0)
      let each := fun (i : Instr) (on : Nat → Prop) (n : Nat) (a : Nat → Int) =>
        traps i (∃ j, on j ∧ (a j < 0 ∨ 0x400000 < a j + n)) (∃ j, on j ∧ a j % n ≠ 0)
      let indexed := fun (a : Nat) (idx : Vec) (j : Nat) => (a : Int) + 4 * elem 32 idx j
      let recto := fun (h : Handle) (o n al : Nat) (i : Instr) =>
        h.cfg = true → h.ecause = 0 → o + n ≤ h.len → whole i (h.recto + o) n al
      whole (.pld f) (at_ f.base f.off.toInt) (2 ^ f.size.toNat) (2 ^ f.size.toNat)
      ∧ whole (.pst g) (at_ g.base g.off.toInt) (2 ^ g.size.toNat) (2 ^ g.size.toNat)
      ∧ whole (.pldv v) (at_ v.base v.off.toInt) 2048 64
      ∧ traps (.pstv w) (∃ j, j < 512 ∧ laneOn s w.mask j = true ∧ 0x400000 < at_ w.base w.off.toInt + 4 * j + 4)
          (at_ w.base w.off.toInt % 64 ≠ 0)
      ∧ each (.pldvs d) (fun j => j < 2048 / 2 ^ d.size.toNat) (2 ^ d.size.toNat)
          (fun j => (at_ d.base d.off.toInt : Int) + j * (readS l d.str).toInt)
      ∧ each (.pgth x) (fun j => j < 512 ∧ laneOn s x.mask j = true) 4 (indexed (at_ x.base x.off.toInt) (readV l x.idx))
      ∧ each (.psct y) (fun j => j < 512 ∧ laneOn s y.mask j = true) 4 (indexed (at_ y.base y.off.toInt) (readV l y.idx))
      ∧ recto (getHandle l h.h.toNat) (readSrc l h.base + h.off.setWidth 64).toNat (2 ^ h.size.toNat) (2 ^ h.size.toNat) (.pldh h)
      ∧ recto (getHandle l k.h.toNat) (readSrc l k.base + k.off.setWidth 64).toNat 2048 64 (.pldhV k))

/-- R171, R173, R176: loads and stores enter the leaf's log with their address, which scales the offset by the size; a
load's result waits for its data. GPF changes nothing. R243 to R246: an atomic enters the log with its operation,
operands and, for the returning form, a result. R172, R176, R246: a G-slot address that is not aligned raises ALIGN with
the address in TRAP_FVA before anything is written; with no log entry free, or for a vector store no data slot, the
quire freezes for a cycle and the leaf is as before. -/
def Obligations.GlobalAccessesEnterLog : Prop :=
  (-- GlobalLoadsAndStores
    ∀ (s : State) (f : GLd) (g : GSt) (h : GLdv) (k : GStv) (p : GPf),
      let l := s.leaf
      let at_ := fun (b : ScalarSrc) (off : BitVec 14) (n : Nat) => BitVec.ofInt 64 ((readSrc l b).toInt + off.toInt * n)
      (Issues (.gld f) s → LogGives (.gld f) s (.load false f.ext f.acq) (at_ f.base f.off (2 ^ f.size.toNat)) (2 ^ f.size.toNat)
        0 0 (some (f.land.toNat, .s f.sd.toNat, onesBelow 64)))
      ∧ (Issues (.gst g) s → LogGives (.gst g) s (.store false g.rel) (at_ g.base g.off (2 ^ g.size.toNat)) (2 ^ g.size.toNat)
          ((readS l g.ss).setWidth 16384) 0 none)
      ∧ (Issues (.gldv h) s → LogGives (.gldv h) s (.load true false false) (at_ h.base h.off 64) 2048 0 0
          (some (h.land.toNat, .v h.vd.toNat, onesBelow 16384)))
      ∧ (Issues (.gstv k) s → LogGives (.gstv k) s (.store true false) (at_ k.base k.off 64) 2048 (readV l k.vs) 0 none)
      ∧ exec (.gpf p) s = .next s)
  ∧ (-- AtomicsEnterLog
    ∀ (s : State) (f : GAtom) (c : GCas),
      let l := s.leaf
      let rm := (l.fmt.extractLsb' 15 2).toNat
      let n := fun (w : Bool) => if w then 8 else 4
      let res := fun (land sd : BitVec 6) => if land = 0 then none else some (land.toNat, Dest.s sd.toNat, onesBelow 64)
      let gives := fun (i : Instr) (op : Nat) => Issues i s → LogGives i s
        (.atom op (decide (f.land ≠ 0)) f.ext f.ar rm) (readSrc l f.base) (n f.wide) ((readSrc l f.data).setWidth 16384) 0
        (res f.land f.sd)
      gives (.aadd f) 0 ∧ gives (.afadd f) 1 ∧ gives (.amin f) 2 ∧ gives (.amax f) 3 ∧ gives (.aand f) 4 ∧ gives (.aor f) 5
      ∧ gives (.axor f) 6 ∧ gives (.aswp f) 7 ∧ gives (.ainc f) 9
      ∧ (Issues (.acas c) s → LogGives (.acas c) s (.atom 8 (decide (c.land ≠ 0)) c.ext c.ar rm) (readSrc l c.base) (n c.wide)
          ((readSrc l c.data).setWidth 16384) (readSrc l c.cmp) (res c.land c.sd)))
  ∧ (-- GlobalAccessesTrapOrFreeze
    ∀ (s : State) (f : GLd) (g : GSt) (h : GLdv) (k : GStv) (p : GAtom) (c : GCas), s.phase = .alone →
      let l := s.leaf
      let at_ := fun (b : ScalarSrc) (off : BitVec 14) (n : Nat) => BitVec.ofInt 64 ((readSrc l b).toInt + off.toInt * n)
      let q := getQuire s (quireOf s.cur)
      let full := (if l.level = .ordinary then 32 else 8) ≤ ((logOf l).filter fun e => !e.op.noEntry).length
      let stops := fun (i : Instr) (a : Word) (n : Nat) (noRoom : Prop) => i.ctxIllegal (decodeCtx s) = false →
        (a.toNat % n ≠ 0 → exec i s = .next (takeTrap s { cause := .align, slot := 5, fva := a }))
        ∧ (a.toNat % n = 0 → noRoom → exec i s = .next (setQuire s (quireOf s.cur) { q with freeze := q.freeze + 1 }))
      stops (.gld f) (at_ f.base f.off (2 ^ f.size.toNat)) (2 ^ f.size.toNat) full
      ∧ stops (.gst g) (at_ g.base g.off (2 ^ g.size.toNat)) (2 ^ g.size.toNat) full
      ∧ stops (.gldv h) (at_ h.base h.off 64) 64 full
      ∧ stops (.gstv k) (at_ k.base k.off 64) 64
          (full ∨ 8 ≤ ((l.olog ++ l.tlog).filter fun e => e.op.isVecStore).length)
      ∧ (∀ i ∈ [Instr.aadd p, .afadd p, .amin p, .amax p, .aand p, .aor p, .axor p, .aswp p, .ainc p],
          stops i (readSrc l p.base) (if p.wide then 8 else 4) full)
      ∧ stops (.acas c) (readSrc l c.base) (if c.wide then 8 else 4) full)

/-- R244: what each atomic leaves in memory from the old value m, the operand d and the comparand c, of n bytes, and the
flags it raises: those of the sum and of its rounding in an AFADD, none in the others. O44 states that they enter the E_
bits of FSTAT (R88). -/
def Obligations.AtomicResults : Prop :=
  ∀ (n rm m d c : Nat) (ext : Bool), n = 4 ∨ n = 8 → m < 2 ^ (8 * n) → d < 2 ^ (8 * n) → c < 2 ^ (8 * n) →
    let M := 2 ^ (8 * n)
    let si := fun (x : Nat) => if 2 ^ (8 * n - 1) ≤ x then (x : Int) - M else x
    (atomValue 0 n ext rm m d c).1 = (m + d) % M
    ∧ (atomValue 2 n true rm m d c).1 = (if si d < si m then d else m)
    ∧ (atomValue 2 n false rm m d c).1 = min m d
    ∧ (atomValue 3 n true rm m d c).1 = (if si m < si d then d else m)
    ∧ (atomValue 3 n false rm m d c).1 = max m d
    ∧ (atomValue 4 n ext rm m d c).1 = m &&& d
    ∧ (atomValue 5 n ext rm m d c).1 = m ||| d
    ∧ (atomValue 6 n ext rm m d c).1 = m ^^^ d
    ∧ (atomValue 7 n ext rm m d c).1 = d
    ∧ (atomValue 8 n ext rm m d c).1 = (if m = c then d else m)
    ∧ (atomValue 9 n ext rm m d c).1 = (if d ≤ m then 0 else m + 1)
    ∧ (∀ op ∈ [0, 2, 3, 4, 5, 6, 7, 8, 9], (atomValue op n ext rm m d c).2 = 0)
    ∧ (n = 4 →
        let sum := addNum rm (decodeFloat fp32 m) (decodeFloat fp32 d)
        let rounded := roundFloat fp32 ⟨rm, false, false, 0⟩ sum.1
        (atomValue 1 n ext rm m d c).1 = rounded.1
        ∧ ∀ b, (atomValue 1 n ext rm m d c).2.getLsbD b = (sum.2.getLsbD b || rounded.2.getLsbD b))

/-- R147 to R150, R158: conversion and transposition, element by element. R151, R152: packing blocks of 32 elements with
their scales, and unpacking them. R88, R152: the flags that enter with each are those of its elements or blocks
together. -/
def Obligations.ConvertTransposePack : Prop :=
  (-- ConvertAndTranspose
    ∀ (s : State) (f : XCvt) (g : XTrn), (Instr.xcvt f).wf = true → (Instr.xtrn g).wf = true →
      let ws := fmtWidth f.src.toNat
      let wd := fmtWidth f.dst.toNat
      let n := 16384 / max ws wd
      let p := f.part.toNat * n
      let si := fun i => if ws < wd then p + i else i
      let di := fun i => if wd < ws then p + i else i
      let el := fun i => convertCode f.src.toNat f.dst.toNat (leafCtx s.leaf) (elem ws (readV s.leaf f.vs) (si i))
      (∃ value mask : Vec, ∃ fl, exec (.xcvt f) s = .next
          (resultEnters s 3 (if f.nowb then .none else .v f.vd.toNat) value mask (some 8) 2 fl)
        ∧ (∀ k, k < 16384 → mask.getLsbD k = (decide (di 0 * wd ≤ k) && decide (k < di n * wd)))
        ∧ (∀ i, i < n → elem wd value (di i) = (el i).1 % 2 ^ wd)
        ∧ ∀ b, b < 5 → (fl.getLsbD b = true ↔ ∃ i, i < n ∧ (el i).2.getLsbD b = true))
      ∧ (let w := 32 / 2 ^ g.esz.toNat
         let r := 2 ^ g.rlog.toNat
         let c := 16384 / w / r
         ∃ value : Vec, exec (.xtrn g) s = .next
            (resultEnters s 8 (if g.nowb then .none else .v g.vd.toNat) value (BitVec.allOnes 16384) (some 10) 2 0)
          ∧ ∀ i j, i < r → j < c → elem w value (j * r + i) = elem w (readV s.leaf g.vs) (i * c + j)))
  ∧ (-- PackAndUnpack
    ∀ (s : State) (f g : XCvt), (Instr.xpack f).wf = true → (Instr.xunpk g).wf = true →
      let c := leafCtx s.leaf
      let F := floatOf f.src.toNat
      let bx := decide (f.dst.toNat = 5)
      let n := 16384 / F.width
      let num := fun i => readFloat F c (elem F.width (readV s.leaf f.vs) i)
      let blk := fun b => encodeBlk bx c ((List.range 32).map fun i => num (32 * b + i))
      let w := if bx then 8 else 4
      let p := f.part.toNat * n
      let G := floatOf g.dst.toNat
      let gb := decide (g.src.toNat = 5)
      let m := 16384 / G.width
      (∃ value mask : Vec, ∃ fl, exec (.xpack f) s = .next
          (resultEnters s 5 (if f.nowb then .none else .v f.vd.toNat) value mask (some 8) 2 fl)
        ∧ (∀ b i, b < n / 32 → i < 32 → elem w value (p + 32 * b + i) = (blk b).2.1.getD i 0 % 2 ^ w)
        ∧ (∀ b, b < n / 32 → elem 16 value (512 + p / 32 + b) = (blk b).1 % 2 ^ 16)
        ∧ ∀ k, k < 16384 → mask.getLsbD k = ((decide (w * p ≤ k) && decide (k < w * (p + n)))
            || (decide (8192 + 16 * (p / 32) ≤ k) && decide (k < 8192 + 16 * ((p + n) / 32))))
        ∧ ∀ b, b < 5 → (fl.getLsbD b = true ↔ ∃ j, j < n / 32 ∧ (blk j).2.2.getLsbD b = true))
      ∧ ∃ value fl, exec (.xunpk g) s = .next
          (resultEnters s 3 (if g.nowb then .none else .v g.vd.toNat) value (BitVec.allOnes 16384) (some 8) 2 fl)
        ∧ (let el := fun i => roundFloat G c (decodeBlk gb
             (elem 16 (readV s.leaf g.vs) (512 + (g.part.toNat * m + i) / 32))
             (elem (if gb then 8 else 4) (readV s.leaf g.vs) (g.part.toNat * m + i)))
           (∀ i, i < m → elem G.width value i = (el i).1 % 2 ^ G.width)
           ∧ ∀ b, b < 5 → (fl.getLsbD b = true ↔ ∃ i, i < m ∧ (el i).2.getLsbD b = true)))

/-- R153 to R157: XEXP looks each 3-bit index up in the table of its 128 elements in the handle's recto, once the wanted
generation is there; a FREE or ERROR handle, and one too short for its tables, raises HANDLE_STATE. -/
def Obligations.ExpandFromTables : Prop :=
  ∀ (s : State) (f : XExp), (Instr.xexp f).wf = true →
    let l := s.leaf
    let h := getHandle l f.h.toNat
    let w := if f.fmt = 0 then 32 else 16
    let n := if f.fmt = 0 then 512 else 1024
    let want : BitVec 32 := (readS l f.sg).setWidth 32
    let need := ((f.part.toNat * n + n - 1) / 128 + 1) * w
    (Issues (.xexp f) s → ∃ t r, exec (.xexp f) s = .next t ∧ t.mem = s.mem ∧ OthersKept s t
      ∧ t.leaf.inflight = s.leaf.inflight ++ [r] ∧ r.dist = 3 ∧ r.dest = (if f.nowb then .none else .v f.vd.toNat)
      ∧ r.mask = BitVec.allOnes 16384 ∧ r.latch = some 9
      ∧ (∃ po acqs, t.leaf = { l with inflight := t.leaf.inflight, po := po, acqs := acqs })
      ∧ (xexpOthers h want = [] → h.taint = [] → ∀ i, i < n →
          let g := f.part.toNat * n + i
          elem w r.value i
            = bytesNat (sheetRead l (h.recto + (g / 128 * 8 + elem 3 (readV l f.vs) g) * (w / 8)) (w / 8))))
    ∧ (s.phase = .alone → (Instr.xexp f).ctxIllegal (decodeCtx s) = false →
        h.cfg = false ∨ h.ecause ≠ 0 ∨ ((h.gen - want).toNat < 2 ^ 31 ∧ h.len < need) →
        exec (.xexp f) s = .next (takeTrap s { cause := .handleState, slot := 7 }))

/-- R255, R256, R262: the press instructions enter their queue with what they capture at issue. A feed that both operands name
moves on once, log entry 58 (DEDUCED). R249, R266: ACCRD delivers half of an idle tile's 1,024 elements, or all of them
rounded to BF16 or FP16, at latency 6. R94, R98, R270: what MMA refuses at issue, in this order: an emulated code, a pair
without a row, a buffer that is unconfigured, FAULTED, in leaf mode, of the wrong entry size or too small; EPI: an address
that is not a multiple of 16. -/
def Obligations.PressInstructions : Prop :=
  (-- PressOperationsEnqueue
    ∀ (s : State) (f : MMma) (g : MMmaz) (z : MAccz) (w : MAccwr) (e : MEpi),
      let l := s.leaf
      let tok := fun (kt : BitVec 4) (tk : Bool) => if tk then some kt.toNat else none
      (Issues (.mma f) s → PressGives (.mma f) s (.mma f.zd.toNat f.cell.toNat f.a f.b f.acc) (f.n.toNat + 1) (tok f.kt f.tk)
        (feedName f.a) (feedName f.b))
      ∧ (Issues (.mmaz g) s → PressGives (.mmaz g) s (.mmaz g.zd.toNat g.zs.toNat g.b g.acc) (g.n.toNat + 1) (tok g.kt g.tk)
        none (feedName g.b))
      ∧ (Issues (.accz z) s → PressGives (.accz z) s (.accz z.zd.toNat) 1 (tok z.kt z.tk) none none)
      ∧ (Issues (.accwr w) s → PressGives (.accwr w) s (.accwr w.zd.toNat w.half (readV l w.vs)) 1 (tok w.kt w.tk) none none)
      ∧ (Issues (.epi e) s → PressGives (.epi e) s (.epi e.zs.toNat e.ti (readS l e.sa) (readS l e.sb)) 1 (tok e.kt e.tk)
        none none))
  ∧ (-- TileReads
    ∀ (s : State) (f : MAccrd), Issues (.accrd f) s → tileBusy s.leaf f.zs.toNat = false → f.cvt ≠ 3 →
      let x := fun i => (tileAt (getTile s.leaf f.zs.toNat) i).toNat
      ∃ v fl, exec (.accrd f) s = .next (resultEnters s 6 (.v f.vd.toNat) v (BitVec.allOnes 16384) (some 11) 3 fl)
        ∧ (f.cvt = 0 → fl = 0 ∧ ∀ k, k < 512 → elem 32 v k = x ((if f.half then 512 else 0) + k))
        ∧ (f.cvt ≠ 0 → ∀ k, k < 1024 → elem 16 v k
            = (roundFloat (if f.cvt = 1 then bf16 else fp16) plainCtx (decodeFloat fp32 (x k))).1 % 2 ^ 16))
  ∧ (-- PressChecks
    ∀ (s : State) (f : MMma) (e : MEpi), s.phase = .alone →
      let l := s.leaf
      let a := (l.fmt.extractLsb' 0 5).toNat
      let b := (l.fmt.extractLsb' 5 5).toNat
      let o := (l.fmt.extractLsb' 10 5).toNat
      let emul := fun c => c = 10 ∨ c = 11
      let bad := fun (x : PressSrc) (size : Nat) => ∃ q, x = .buf q ∧ ((getBuf l q.toNat).cap = 0 ∨ (getBuf l q.toNat).faulted = true
        ∨ (getBuf l q.toNat).leafMode = true ∨ (getBuf l q.toNat).e ≠ size ∨ (getBuf l q.toNat).cap < f.n.toNat + 1)
      let size := fun c => 2048 + (if c = 5 then 128 else if c = 6 then 256 else 0)
      ((Instr.mma f).ctxIllegal (decodeCtx s) = false →
        (f.cell ≠ 3 → emul a ∨ emul b → exec (.mma f) s = .next (takeTrap s { cause := .formatEmul, slot := 6 }))
        ∧ (f.cell ≠ 3 → ¬emul a → ¬emul b → pairOk a b = false →
            exec (.mma f) s = .next (takeTrap s { cause := .illegalFmt, slot := 6 }))
        ∧ (f.cell ≠ 3 → ¬emul a → ¬emul b → pairOk a b = true → bad f.a (size a) ∨ bad f.b (size b) →
            exec (.mma f) s = .next (takeTrap s { cause := .queueConfig, slot := 6 }))
        ∧ (f.cell = 3 → bad f.a 2048 ∨ bad f.b 2048 →
            exec (.mma f) s = .next (takeTrap s { cause := .queueConfig, slot := 6 })))
      ∧ ((Instr.epi e).ctxIllegal (decodeCtx s) = false →
        (emul o → exec (.epi e) s = .next (takeTrap s { cause := .formatEmul, slot := 6 }))
        ∧ (¬emul o → (readS l e.sa).toNat % 16 ≠ 0 →
            exec (.epi e) s = .next (takeTrap s { cause := .align, slot := 6, fva := readS l e.sa }))))

/-- R250 to R254: QCFG sets a buffer up empty, or away with a capacity of 0; QPUT writes the entry at the fill point and
moves it on, and what stands there becomes Filled, with the Written entries before it, as far as no earlier entry is
Reserved; QGET passes over the Void entries at the drain point, delivers the Filled one behind them, and frees them all.
R252, R255: the word of QSTAT, and FEEDSET. -/
def Obligations.BufferInstructions : Prop :=
  (-- BufferInstructions
    ∀ (s : State) (c : MQcfg) (p g : MQv),
      let l := s.leaf
      let word := readS l c.sb
      let e := (word.extractLsb' 0 16).toNat * 64
      let cap := (word.extractLsb' 16 16).toNat
      let x := getBuf l p.q.toNat
      let y := getBuf l g.q.toNat
      let a := x.base + x.fill * x.e
      (Issues (.qcfg c) s → ∃ t lap, exec (.qcfg c) s = .next t ∧ t.mem = s.mem ∧ t.leaf.sheet = l.sheet
        ∧ t.leaf.sregs = l.sregs ∧ t.leaf.vregs = l.vregs ∧ t.leaf.pc = l.pc
        ∧ getBuf t.leaf c.q.toNat = if cap = 0 then ⟨0, 0, 0, false, false, 0, 0, [], [], [], []⟩
            else ⟨(readS l c.sa).toNat, e, cap, word.getLsbD 32, false, 0, 0, [], [], [], lap⟩)
      ∧ (Issues (.qput p) s → x.fill < x.cap → ∃ t sh bufs hs, exec (.qput p) s = .next t
          ∧ t.leaf = { l with sheet := sh, bufs := bufs, handles := hs } ∧ t.mem = s.mem ∧ OthersKept s t
          ∧ (∀ n, n ≠ p.q.toNat → ∃ w, getBuf t.leaf n = { getBuf l n with lapped := w })
          ∧ (∀ n, ∃ w, getHandle t.leaf n = { getHandle l n with taint := w })
        ∧ (∀ k, sheetByte t.leaf k = if a ≤ k ∧ k < a + x.e then (readV l p.v).extractLsb' (8 * (k - a)) 8 else sheetByte l k)
        ∧ (let z := getBuf t.leaf p.q.toNat
           z.fill = (x.fill + 1) % x.cap ∧ z.drain = x.drain ∧ z.base = x.base ∧ z.cap = x.cap
           ∧ (x.faulted = true → z.ent x.fill = .written)
           ∧ (x.faulted = false → x.drain < x.cap →
               let before := fun (k : Nat) => x.ent ((x.drain + k) % x.cap)
               let far := (x.fill + x.cap - x.drain) % x.cap
               let ready := fun (k : Nat) => before k = .written ∨ before k = .filled ∨ before k = .void
               ((∀ k, k < far → ready k) → z.ent x.fill = .filled)
               ∧ ((∃ k, k < far ∧ ¬ready k) → z.ent x.fill = .written)
               ∧ ∀ k, k < far → (∀ j, j ≤ k → ready j) → before k = .written → z.ent ((x.drain + k) % x.cap) = .filled)))
      ∧ (∀ n, Issues (.qget g) s → y.drain < y.cap → n < y.cap → y.taint = [] → y.lapped = [] →
        let at_ := fun (k : Nat) => (y.drain + k) % y.cap
        (∀ k, k < n → y.ent (at_ k) = .void) → y.ent (at_ n) = .filled →
        ∃ (t : State) (v : Vec) (z : Buf), exec (.qget g) s = .next t ∧ t.mem = s.mem ∧ OthersKept s t
          ∧ t.leaf = (resultEnters (s.upd fun l => setBuf l g.q.toNat { y with ents := z.ents, drain := at_ (n + 1) })
              6 (.v g.v.toNat) v (BitVec.allOnes 16384) none 3 0).leaf
          ∧ (∀ k, k ≤ n → z.ent (at_ k) = .free) ∧ (∀ i, (∀ k, k ≤ n → i ≠ at_ k) → z.ent i = y.ent i)
          ∧ ∀ k, k < 16384 → v.getLsbD k = (decide (k < 8 * y.e) && sheetBit l (y.base + at_ n * y.e) k)))
  ∧ (-- BufferStatusAndFeeds
    ∀ (s : State) (f : MQs) (g : MFeed),
      let b := getBuf s.leaf f.q.toNat
      let n := fun e => (b.ents.filter fun p => p.2 == e).length
      (Issues (.qstat f) s → b.cap < 4096 → b.ents.length ≤ b.cap → b.drain < 4096 →
        ∃ w : Word, exec (.qstat f) s = .next (registerEnters s 2 f.sd w 3)
          ∧ (w.extractLsb' 52 12).toNat = b.cap ∧ (w.extractLsb' 40 12).toNat = n .filled
          ∧ (w.extractLsb' 28 12).toNat = n .reserved + n .written + n .void ∧ (w.extractLsb' 16 12).toNat = n .claimed
          ∧ (w.extractLsb' 4 12).toNat = b.drain ∧ w.getLsbD 3 = false ∧ w.getLsbD 2 = b.leafMode ∧ w.getLsbD 1 = b.faulted
          ∧ w.getLsbD 0 = decide (b.cap ≠ 0))
      ∧ (Issues (.feedset g) s → exec (.feedset g) s = .next (s.upd fun l => { l with
          feeds := mapSet l.feeds g.f.toNat .reset ⟨(readS l g.sa).setWidth 22, (readS l g.sb).setWidth 24⟩ })))

/-- R282, R285, R286, R291: sewing operations enter their queue, SEW and SEWRUN moving the issue-side shape to what
their steps leave; SEWRUN reads its program as a P-slot load does (R290). R284: the first condition a step fails names
the reason, and with reason 1 the bytes that it needs; SEW then raises BOUNDARY_OVERFLOW at issue. R281, R289: SEWCFG
sets the regions and the shape, with region 0 current, and queued operations keep what they captured, or it takes the
configuration away with a capacity of 0; BONDSET sets one bond. -/
def Obligations.SewingInstructions : Prop :=
  (-- SewingOperationsEnqueue
    ∀ (s : State) (f : MSew) (g : MSew2),
      let l := s.leaf
      let x := shapeOf l.sewShape
      let tok := fun (kt : BitVec 4) (tk : Bool) => if tk then some kt.toNat else none
      let bl := (readBond l f.bl.toNat).toNat
      let br := (readBond l f.br.toNat).toNat
      let st : SewStep := ⟨readS l f.sa, f.m.toNat + 1, f.n.toNat + 1, if f.dir then br else bl, if f.dir then bl else br, f.dir⟩
      (Issues (.sew f) s → stepFails x st l.sewCfg.cap = none → SewGives (.sew f) s (.steps [st]) (tok f.kt f.tk)
        (SewShape.word ⟨x.nb, x.p * st.n, x.u / st.m, st.dn, isIntCode (l.fmt.extractLsb' 0 5).toNat, !x.cur⟩))
      ∧ (let off := (readS l g.sa).toNat
         let cnt := (readS l g.sb).toNat % 2 ^ 32
         let int := isIntCode (l.fmt.extractLsb' 0 5).toNat
         Issues (.sewrun g) s → off + 16 * cnt ≤ 0x400000 → (∀ p, s.prog = some p → p.length = 16 * cnt) →
         ∃ (sts : List SewStep) (b : List Byte),
           SewGives (.sewrun g) s (.steps sts) (tok g.kt g.tk)
             (SewShape.word (sts.foldl (fun z y => ⟨z.nb, z.p * y.n, z.u / y.m, y.dn, int, !z.cur⟩) x))
           ∧ sts.length = cnt ∧ b.length = 16 * cnt ∧ (∀ p, s.prog = some p → b = p)
           ∧ (s.prog = none → Settled s [(off, 16 * cnt)] → b = sheetRead l off (16 * cnt))
           ∧ ∀ k y, sts[k]? = some y →
               let byte := fun i => (b.getD (16 * k + i) 0).toNat
               let left := (readBond l (byte 10 % 16)).toNat
               let right := (readBond l (byte 10 / 16)).toNat
               y.fold = BitVec.ofNat 64 (bytesNat ((b.drop (16 * k)).take 8)) ∧ y.m = byte 8 % 32 + 1 ∧ y.n = byte 9 % 32 + 1
               ∧ y.back = decide (byte 11 % 2 = 1) ∧ y.dc = (if y.back then right else left)
               ∧ y.dn = if y.back then left else right)
      ∧ (Issues (.sewst g) s → SewGives (.sewst g) s (.store (readS l g.sa) (readS l g.sb)) (tok g.kt g.tk) l.sewShape))
  ∧ (-- SewingPreCheckTraps
    ∀ (s : State) (f : MSew), s.phase = .alone → (Instr.sew f).ctxIllegal (decodeCtx s) = false →
      let l := s.leaf
      let x := shapeOf l.sewShape
      let bl := (readBond l f.bl.toNat).toNat
      let br := (readBond l f.br.toNat).toNat
      let m := f.m.toNat + 1
      let n := f.n.toNat + 1
      let dc := if f.dir then br else bl
      let dn := if f.dir then bl else br
      let need := 4 * x.nb * (x.p * n) * (x.u / m) * dn
      let traps := fun (reason size : Nat) => exec (.sew f) s = .next (takeTrap s
        { cause := .boundaryOverflow, slot := 6, sewFault := BitVec.ofNat 64 (reason * 2 ^ 40 + size) })
      sewPairCause l.fmt = none → l.sewCfg.cap ≠ 0 → (readS l f.sa).toNat % 64 = 0 →
        (dc ≠ x.d → traps 2 0)
        ∧ (dc = x.d → x.u % m ≠ 0 → traps 3 0)
        ∧ (dc = x.d → x.u % m = 0 → 32768 < x.p * n → traps 4 0)
        ∧ (dc = x.d → x.u % m = 0 → x.p * n ≤ 32768 → l.sewCfg.cap < need → traps 1 (min need 0xFFFFFFFF)))
  ∧ (-- SewingConfiguration
    ∀ (s : State) (f : MSewcfg) (b : MBond),
      let l := s.leaf
      let cap := (readS l f.sc).toNat % 2 ^ 32
      let w := readS l f.sd
      let v := if b.reg then (readS l b.sa).toNat % 65536 else b.imm.toNat
      (Issues (.sewcfg f) s → cap = 0 → exec (.sewcfg f) s = .next (s.upd fun l => { l with sewCfg := ⟨0, 0, 0⟩ }))
      ∧ (Issues (.sewcfg f) s → cap ≠ 0 → ∃ t q, exec (.sewcfg f) s = .next t
        ∧ t.leaf = { l with sewCfg := ⟨(readS l f.sa).toNat, (readS l f.sb).toNat, cap⟩
                            sewShape := w &&& 0xFFFFFFFFFFFFFFF2
                            sewq := q }
        ∧ q.length = l.sewq.length ∧ (∀ (k : Nat) (o : SewOp), l.sewq[k]? = some o → ∃ m, q[k]? = some { o with lap := m })
        ∧ OthersKept s t ∧ t.mem = s.mem)
      ∧ (Issues (.bondset b) s → 1 ≤ v → v ≤ 4095 → ∃ t, exec (.bondset b) s = .next t
        ∧ (∃ x, t.leaf = { l with bonds := x }) ∧ (readBond t.leaf b.bn.toNat).toNat = v
        ∧ (∀ k, k ≠ b.bn.toNat → readBond t.leaf k = readBond l k) ∧ OthersKept s t ∧ t.mem = s.mem))

/-- R299 to R303: signature operations enter their queue with what they capture; an SSEL counts as a fill of its handle. R310:
the words of SHSTAT. -/
def Obligations.SignatureInstructions : Prop :=
  (-- SignatureOperationsEnqueue
    ∀ (s : State) (c : MShcfg) (i : MSins) (a : MSage) (d : MSdel) (q : MSsel) (r : MSrdr),
      let l := s.leaf
      let tok := fun (kt : BitVec 4) (tk : Bool) => if tk then some kt.toNat else none
      let h := getHandle l q.h.toNat
      (Issues (.shcfg c) s → (∀ p, s.prog = some p → p.length = 64) →
        ∃ (x : ShelfCfg) (b : List Byte), SigGives (.shcfg c) s c.sh.toNat (.shcfg x) (tok c.kt c.tk) l.handles
          ∧ b.length = 64 ∧ (∀ p, s.prog = some p → b = p)
          ∧ (s.prog = none → Settled s [((readS l c.sa).toNat, 64)] → b = sheetRead l (readS l c.sa).toNat 64)
          ∧ (let field := fun i n => bytesNat ((b.drop i).take n)
             x.mask = BitVec.ofNat 256 (field 0 32) ∧ x.spillVa = BitVec.ofNat 64 (field 32 8) ∧ x.spillRows = field 40 4
             ∧ x.rowBase = field 44 2 ∧ x.rowCount = field 46 2 ∧ x.k = field 48 2 ∧ x.s = field 50 1 ∧ x.w = field 52 2))
      ∧ (Issues (.sins i) s → SigGives (.sins i) s i.sh.toNat (.sins ((readV l i.vs).setWidth 256) ((readS l i.sa).setWidth 32))
        (tok i.kt i.tk) l.handles)
      ∧ (Issues (.sage a) s → SigGives (.sage a) s a.sh.toNat .sage (tok a.kt a.tk) l.handles)
      ∧ (Issues (.sdel d) s → SigGives (.sdel d) s d.sh.toNat (.sdel ((readS l d.sa).setWidth 32)) (tok d.kt d.tk) l.handles)
      ∧ (Issues (.ssel q) s → SigGives (.ssel q) s q.sh.toNat (.ssel ((readV l q.vs).setWidth 256) q.h.toNat) (tok q.kt q.tk)
        (mapSet l.handles q.h.toNat .reset { h with fill := h.fill + 1 }))
      ∧ (Issues (.srdr r) s → SigGives (.srdr r) s r.sh.toNat (.srdr (readS l r.sa).toNat ((readS l r.sb).setWidth 32))
        (tok r.kt r.tk) l.handles))
  ∧ (-- ShelfStatus
    ∀ (s : State) (f : MShstat), Issues (.shstat f) s →
      let l := s.leaf
      let x := getShelf l f.sh.toNat
      let n := fun (p : Row → Bool) => (x.rows.filter p).length
      let queued := ((l.sigq ++ l.sigtq).filter fun o => o.sh == f.sh.toNat).length
      x.taint = [] → n Row.inSpill < 2 ^ 25 → n Row.inArray < 2 ^ 14 → n Row.inTransit < 32 → queued < 32 →
      ∃ w : Word, exec (.shstat f) s = .next (registerEnters s 2 f.sd w 3)
        ∧ (f.new = true → (∀ t, x.newest = some t → w = BitVec.ofNat 64 (2 ^ 32 + t.toNat)) ∧ (x.newest = none → w = 0))
        ∧ (f.new = false → (w.extractLsb' 39 25).toNat = n Row.inSpill ∧ (w.extractLsb' 25 14).toNat = n Row.inArray
            ∧ (w.extractLsb' 20 5).toNat = n Row.inTransit ∧ (w.extractLsb' 15 5).toNat = queued
            ∧ w.getLsbD 2 = x.broken ∧ w.getLsbD 0 = (issueCfg l f.sh.toNat).isSome))

/-- R305, R306: what SSEL selects: every row whose TAG is below S (a sink) or within W of NEWEST (recent), and of the
others the K best by the number of bits under MASK in which their signature agrees with the query, and then by TAG; its
list holds exactly those tags in ascending order. -/
def Obligations.SelectionListsTags : Prop :=
  ∀ (c : ShelfCfg) (x : Shelf) (q : BitVec 256), (x.rows.map fun r => r.tag).Nodup →
    let tags := selectTags c x q
    let chosen := fun (r : Row) => r.tag.toNat ∈ tags
    let sink := fun (r : Row) => decide (r.tag.toNat < c.s)
    let recent := fun (r : Row) => x.newest.any fun n => decide (n.toNat < r.tag.toNat + c.w)
    let ranked := fun (r : Row) => !sink r && !recent r
    let agree := fun (r : Row) => ((List.range 256).filter fun i => c.mask.getLsbD i && (q.getLsbD i == r.sig.getLsbD i)).length
    tags.Pairwise (· < ·)
    ∧ (∀ t ∈ tags, ∃ r ∈ x.rows, r.tag.toNat = t)
    ∧ (∀ r ∈ x.rows, sink r = true ∨ recent r = true → chosen r)
    ∧ (x.rows.filter fun r => ranked r && tags.contains r.tag.toNat).length = min c.k (x.rows.filter ranked).length
    ∧ (∀ a ∈ x.rows, ∀ b ∈ x.rows, ranked a = true → ranked b = true → chosen b → ¬chosen a →
        agree a < agree b ∨ (agree a = agree b ∧ a.tag.toNat < b.tag.toNat))
    ∧ ∀ r ∈ x.rows, eligible c x.newest r = ranked r ∧ score c q r = agree r

/-- R185, R189, R191, R192: the copy forms enter the time-sorted buffer with their operands and count in their handle;
COPYQ reserves the next entries of its buffer, as many as bits 31:0 of its count register say (log entry 85). R206:
CCANCEL removes the leaf's copies that it names and that are neither released nor begun, and their counts; every other
copy and memory stay, and no token is posted. A deferred publish may follow where a count reaches 0. -/
def Obligations.CopyInstructions : Prop :=
  (-- CopiesEnterTheBuffer
    ∀ (s : State) (f : CCopy) (g : CCopyh) (x : CCopyq),
      let l := s.leaf
      let tok := fun (kt : BitVec 4) (tk : Bool) => if tk then some kt.toNat else none
      let len := fun (w : Word) => (w.extractLsb' 0 32).toNat
      let fill := fun (h : BitVec 6) => setHandle l h.toNat { getHandle l h.toNat with fill := (getHandle l h.toNat).fill + 1 }
      let drain := fun (h : BitVec 6) => setHandle l h.toNat { getHandle l h.toNat with drain := (getHandle l h.toNat).drain + 1 }
      let b := getBuf l x.q.toNat
      let n := len (readS l x.sb)
      (Issues (.copy f) s → CopyGives (.copy f) s (.copy f.h.toNat (readS l f.sa) (readS l f.sb).toNat (len (readS l f.sc)))
        (getHandle l f.h.toNat).verso (readS l f.st) (tok f.kt f.tk) f.publ f.imp f.trapf (fill f.h))
      ∧ (Issues (.copy2 f) s → CopyGives (.copy2 f) s (.copy2 f.h.toNat (readS l f.sa) (len (readS l f.sb))
          ((readS l f.sb).extractLsb' 32 24).toNat (readS l f.sc))
        (getHandle l f.h.toNat).verso (readS l f.st) (tok f.kt f.tk) f.publ f.imp f.trapf (fill f.h))
      ∧ (Issues (.copyh g) s → CopyGives (.copyh g) s (.copyh g.h.toNat (readS l g.sa) (readS l g.sb) (len (readS l g.sc)))
        0 (readS l g.st) (tok g.kt g.tk) false g.imp g.trapf (fill g.h))
      ∧ (Issues (.copyout g) s → CopyGives (.copyout g) s (.copyout g.h.toNat (readS l g.sa) (readS l g.sb).toNat
          (len (readS l g.sc)))
        (getHandle l g.h.toNat).recto (readS l g.st) (tok g.kt g.tk) false g.imp g.trapf (drain g.h))
      ∧ (Issues (.copyq x) s → b.cap ≠ 0 → n ≤ b.cap → b.fill < b.cap → ∃ is y,
        CopyGives (.copyq x) s (.copyq x.q.toNat (readS l x.sa) is b.e b.base
            (if readS l x.sc = 0 then BitVec.ofNat 64 b.e else readS l x.sc)) 0 (readS l x.st) (tok x.kt x.tk) false x.imp true
            (setBuf l x.q.toNat y)
        ∧ is.length = n ∧ y = { b with fill := (b.fill + n) % b.cap, ents := y.ents }
        ∧ (∀ j, j < n → is[j]? = some ((b.fill + j) % b.cap) ∧ y.ent ((b.fill + j) % b.cap) = .reserved)
        ∧ ∀ i, i ∉ is → y.ent i = b.ent i))
  ∧ (-- CancelledCopies
    ∀ (s : State) (f : CCancel), Issues (.ccancel f) s →
      let q := getQuire s (quireOf s.cur)
      (q.copies.map fun c => c.id).Nodup →
      let named := fun (c : Copy) => match f.what, c.form with
        | .all, _ => true
        | .handle h, form => form.handle == some h.toNat
        | .buffer b, .copyq n _ _ _ _ _ => n == b.toNat
        | .buffer _, _ => false
      let gone := fun (c : Copy) => c.leaf == s.cur && !c.released && !c.started && decide (s.dtc.toNat ≤ c.stamp.toNat)
          && named c
      let count := fun n (out : Bool) => (q.copies.filter fun c => gone c && c.form.handle == some n
        && (match c.form with | .copyout _ _ _ _ => out | _ => !out)).length
      ∃ t, exec (.ccancel f) s = .next t ∧ getQuire t (quireOf s.cur) = { q with copies := q.copies.filter fun c => !gone c }
        ∧ t.leaf = { s.leaf with handles := t.leaf.handles, bufs := t.leaf.bufs } ∧ OthersKept s t ∧ t.mem = s.mem
        ∧ (∀ n, (getHandle s.leaf n).deferred = false →
            getHandle t.leaf n = { getHandle s.leaf n with fill := (getHandle s.leaf n).fill - count n false,
                                                           drain := (getHandle s.leaf n).drain - count n true })
        ∧ ∀ n, (q.copies.any fun c => gone c && (match c.form with | .copyq b _ _ _ _ _ => b == n | _ => false)) = false →
            getBuf t.leaf n = getBuf s.leaf n)

/-- R193: the checks of the five copy forms at issue, in the order of its table, each where the ones before it pass: the
handle and the range its operands name (row bytes times rows for COPY2, none for COPYH), or the circular buffer of a
COPYQ; then ALIGN of the virtual addresses, of the other operands, and of the imposition record; then the stamp. R186:
while the buffer, or the leaf's share of it, is full the bundle waits and nothing is checked; R192: and so does a COPYQ
that passes every check while the entries at the fill point are not free. An offset, length, row length or stride that
is not aligned leaves TRAP_FVA free, log entry 44 (DEDUCED); that an address is reported before the rest is log entry
55; that the entry count of COPYQ is bits 31:0 is log entry 85. -/
def Obligations.CopyChecks : Prop :=
  ∀ (s : State) (f : CCopy) (g : CCopyq) (k : CCopyh), s.phase = .alone →
    let l := s.leaf
    let low := fun (w : Word) => (w.extractLsb' 0 32).toNat
    let odd := fun (x : Word) => decide (x.toNat % 64 ≠ 0)
    let unfit := fun (n : BitVec 6) (reach : Nat) =>
      (getHandle l n.toNat).cfg = false ∨ (getHandle l n.toNat).ecause ≠ 0 ∨ (getHandle l n.toNat).len < reach
    let checks := fun (i : Instr) (bad : Prop) (cause : Cause) (vas others : List Word) (imp : Bool) (stamp : Word) =>
      i.ctxIllegal (decodeCtx s) = false →
      (copiesFull s = true → exec i s = .next (waitAtIssue s))
      ∧ (copiesFull s = false →
        (bad → exec i s = .next (takeTrap s { cause := cause, slot := 8 }))
        ∧ (∀ v, ¬bad → vas.find? odd = some v → exec i s = .next (takeTrap s { cause := .align, slot := 8, fva := v }))
        ∧ (¬bad → (∀ v ∈ vas, odd v = false) → (∃ v ∈ others, odd v = true) →
            exec i s = .next (takeTrap s { cause := .align, slot := 8, fvaOpen := true }))
        ∧ (¬bad → (∀ v ∈ vas ++ others, odd v = false) → imp = true → odd l.impose = true →
            exec i s = .next (takeTrap s { cause := .align, slot := 8, fva := l.impose }))
        ∧ (¬bad → (∀ v ∈ vas ++ others, odd v = false) → (imp = true → odd l.impose = false) → s.dtc.toNat + 2 ^ 32 < stamp.toNat →
            exec i s = .next (takeTrap s { cause := .timeRange, slot := 8 })))
    let row := low (readS l f.sb)
    let rows := ((readS l f.sb).extractLsb' 32 24).toNat
    let b := getBuf l g.q.toNat
    checks (.copy f) (unfit f.h ((readS l f.sb).toNat + low (readS l f.sc))) .handleState
      [readS l f.sa] [readS l f.sb, readS l f.sc] f.imp (readS l f.st)
    ∧ checks (.copy2 f) (unfit f.h (row * rows)) .handleState
      [readS l f.sa] [BitVec.ofNat 64 row, readS l f.sc] f.imp (readS l f.st)
    ∧ checks (.copyq g) (b.cap = 0 ∨ b.cap < low (readS l g.sb)) .queueConfig [readS l g.sa] [readS l g.sc] g.imp (readS l g.st)
    ∧ checks (.copyh k) (unfit k.h 0) .handleState [readS l k.sa, readS l k.sb] [readS l k.sc] k.imp (readS l k.st)
    ∧ checks (.copyout k) (unfit k.h ((readS l k.sb).toNat + low (readS l k.sc))) .handleState
      [readS l k.sa] [readS l k.sb, readS l k.sc] k.imp (readS l k.st)
    ∧ (-- the wait of a COPYQ that passes its checks for entries of the circular buffer
      (Instr.copyq g).ctxIllegal (decodeCtx s) = false → b.cap ≠ 0 → low (readS l g.sb) ≤ b.cap → odd (readS l g.sa) = false →
        odd (readS l g.sc) = false → (g.imp = true → odd l.impose = false) → (readS l g.st).toNat ≤ s.dtc.toNat + 2 ^ 32 →
        (∃ n, n < low (readS l g.sb) ∧ b.ent ((b.fill + n) % b.cap) ≠ .free) → exec (.copyq g) s = .next (waitAtIssue s))

/-- R189, R190, R203 to R205: PUB exchanges the regions and counts a generation, HREL frees the handle, whose GEN is 0
from then on, HCFG configures it and keeps GEN, which is 0 where the handle was FREE, and HSTAT delivers the status word
or the fault address at latency 2. -/
def Obligations.HandleInstructions : Prop :=
  ∀ (s : State) (p r : CH) (c : CHcfg) (t : CHstat),
    let l := s.leaf
    let h := getHandle l p.h.toNat
    let g := getHandle l c.h.toNat
    let x := getHandle l t.h.toNat
    let report := fun w => ∃ po acqs, exec (.hstat t) s
      = .next ((registerEnters s 2 t.sd w 1).upd fun l => { l with po := po, acqs := acqs })
    (s.phase = .effect → h.ecause = 0 → ∃ clk, exec (.pub p) s = .next (s.upd fun l => setHandle l p.h.toNat
      { h with recto := h.verso, verso := h.recto, gen := h.gen + 1, rectos := h.formerRectos l,
               deferred := false, clock := clk }))
    ∧ (Issues (.hrel r) s → ∃ u, exec (.hrel r) s = .next u
      ∧ (let y := getHandle u.leaf r.h.toNat
         y.cfg = false ∧ y.gen = 0 ∧ y.fill = 0 ∧ y.drain = 0 ∧ y.ecause = 0)
      ∧ (∀ n, n ≠ r.h.toNat → getHandle u.leaf n = getHandle l n) ∧ u.leaf = { l with handles := u.leaf.handles }
      ∧ OthersKept s u ∧ u.mem = s.mem)
    ∧ (Issues (.hcfg c) s → ∃ u lap, exec (.hcfg c) s = .next u
      ∧ getHandle u.leaf c.h.toNat = { (if g.cfg then g else Handle.reset) with
          cfg := true, recto := (readS l c.sa).toNat, verso := (readS l c.sb).toNat,
          len := ((readS l c.sc).extractLsb' 0 32).toNat, taint := [], lap := lap }
      ∧ (getHandle u.leaf c.h.toNat).gen = (if g.cfg then g.gen else 0)
      ∧ (∀ n, n ≠ c.h.toNat → getHandle u.leaf n = getHandle l n)
      ∧ u.leaf = { l with handles := u.leaf.handles, bufs := u.leaf.bufs } ∧ OthersKept s u ∧ u.mem = s.mem)
    ∧ (Issues (.hstat t) s → t.fa = true → report (if x.ecause = 0 then 0 else x.fva))
    ∧ (Issues (.hstat t) s → t.fa = false → x.ecause < 256 → x.detail < 32 → x.drain < 128 → x.fill < 128 → ∃ w : Word,
      report w ∧ w.extractLsb' 32 32 = x.gen ∧ (w.extractLsb' 24 8).toNat = x.ecause
      ∧ (w.extractLsb' 19 5).toNat = x.detail ∧ w.getLsbD 18 = false ∧ (w.extractLsb' 11 7).toNat = x.drain
      ∧ (w.extractLsb' 4 7).toNat = x.fill ∧ w.getLsbD 3 = false
      ∧ (w.extractLsb' 0 3).toNat =
          if x.cfg = false then 0 else if x.ecause ≠ 0 then 4 else if 0 < x.drain then 3 else if 0 < x.fill then 1 else 2)

/-- R45, R49, R233, R272: what a parked leaf waits for ends its wait, takes the tokens, and changes nothing else of the package;
where it has not come about, nothing changes. R44, R45, R241, R381: a freeze that has lasted LIMIT cycles parks the leaf and
passes the selector on, but never with LIMIT 0 or at trap level; the GSYNC line goes to all eight quires of a cluster at once
when all are stalled and ready, and the next eight issue cycles are theirs; after 65,536 bundles, outside a freeze or stall
(log entry 22), the selector moves on. R322, R323, R335: an asynchronous cause that a leaf holds is taken at its boundary,
the oldest first, and the handler may choose what becomes of the operation; a leaf that does not issue takes none. -/
def Obligations.WaitsFreezesAndSelector : Prop :=
  (-- ParkedLeavesResume
    ∀ (s : State) (g : Nat), issuing (getLeaf s g) = true → stopping s g = false →
      let l := getLeaf s g
      let i := Instr.blockedBundleResume g
      (∀ k m, l.wait = .tokens k m →
        (m ≤ (readTok l k).toNat → ∃ t, exec i s = .next t ∧ LeafOnly s t g ∧ (getLeaf t g).wait = .none
          ∧ (readTok (getLeaf t g) k).toNat = (readTok l k).toNat - m
          ∧ ∀ j, j ≠ k → readTok (getLeaf t g) j = readTok l j)
        ∧ ((readTok l k).toNat < m → exec i s = .next s))
      ∧ (∀ k p acq, l.wait = .phase k p acq →
          let d := ((getKettle s (clusterOf g) k).phase - p).toNat
          (1 ≤ d ∧ d < 2 ^ 31 → ∃ t po acqs, exec i s = .next t ∧ LeafOnly s t g
            ∧ getLeaf t g = { l with wait := .none, po := po, acqs := acqs })
          ∧ (d = 0 ∨ 2 ^ 31 ≤ d → exec i s = .next s))
      ∧ (l.wait = .atIssue →
          (issueClear s g = true → ∃ t, exec i s = .next t ∧ LeafOnly s t g ∧ getLeaf t g = { l with wait := .none })
          ∧ (issueClear s g = false → exec i s = .next s))
      ∧ (∀ d, l.wait = .late d →
          (freezeClear s g = true → ∃ t, exec i s = .next t ∧ LeafOnly s t g ∧ getLeaf t g = { l with wait := .none })
          ∧ (freezeClear s g = false → exec i s = .next s)))
  ∧ (-- FreezesStallsAndSelector
    ∀ (s : State) (q c : Nat),
      let x := getQuire s q
      let g := 4 * q + x.sel
      let limit := (getLeaf s g).freezeLimit.toNat % 65536
      let next := 4 * q + (x.sel + 1) % 4
      (x.sel < 4 → limit ≠ 0 → (getLeaf s g).level = .ordinary → leafReady s g = true → max 64 limit ≤ x.freeze →
        ∃ t d, exec (.freezeLimitPark q) s = .next t ∧ getLeaf t g = { getLeaf s g with wait := .late d }
          ∧ (d = true ↔ (getLeaf s g).blocked = true ∨ drainAhead { s with cur := g } = true)
          ∧ getQuire t q = { x with sel := (x.sel + 1) % 4, freeze := 0, gsync := .idle } ∧ t.mem = s.mem ∧ ∀ d, d ≠ g → getLeaf t d = getLeaf s d)
      ∧ (limit = 0 ∨ (getLeaf s g).level = .trap ∨ x.freeze < max 64 limit → exec (.freezeLimitPark q) s = .next s)
      ∧ ((∀ j, j < 8 → (getQuire s (8 * c + j)).gsync = .stalled ∧ gsyncIssues s (8 * c + j) = true) →
          ∃ t, exec (.gsyncLineAssert c) s = .next t ∧ t.leaves = s.leaves ∧ t.mem = s.mem
            ∧ t.agenda = (List.range 8).map (fun j => Choice.issue (8 * c + j)) ++ s.agenda
            ∧ (∀ j, j < 8 → getQuire t (8 * c + j) = { getQuire s (8 * c + j) with gsync := .go, step := some 0 })
            ∧ ∀ k, k < 8 * c ∨ 8 * c + 8 ≤ k → getQuire t k = getQuire s k)
      ∧ ((∃ j, j < 8 ∧ ((getQuire s (8 * c + j)).gsync ≠ .stalled ∨ gsyncIssues s (8 * c + j) = false)) → exec (.gsyncLineAssert c) s = .next s)
      ∧ (x.sel < 4 → 65536 ≤ x.selCount → x.last = x.sel → (getLeaf s g).level = .ordinary → x.freeze = 0 → x.gsync = .idle → leafReady s next = true →
          exec (.selectorBundleLimit q) s = .next (setQuire s q { x with sel := (x.sel + 1) % 4, freeze := 0 }))
      ∧ (x.selCount < 65536 ∨ x.last ≠ x.sel ∨ (getLeaf s g).level = .trap ∨ x.freeze ≠ 0 ∨ x.gsync ≠ .idle → exec (.selectorBundleLimit q) s = .next s))
  ∧ (-- AsynchronousCausesAreTaken
    ∀ (s : State) (g : Nat) (t : Trap) (r : List Trap),
      let l := getLeaf s g
      let x := Instr.trapEntry g
      (l.run = none ∨ l.exited = true → exec x s = .next s)
      ∧ (l.run ≠ none → l.exited = false → l.level = .ordinary → l.rteDue = false → l.wait = .none → l.blocked = false →
          lateStore l.olog = none → (∀ d, lateLoad l.inflight d l.olog = none) → l.swPend = none →
          (l.asyncPend = [] → exec x s = .next s)
          ∧ (l.asyncPend = t :: r → t.fvaOpen = false → t.cause ≠ .formatEmul → t.cause ≠ .boundaryOverflow →
              l.trapVec.getLsbD 12 = true →
              ∃ u, exec x s = .next u ∧ u.mem = s.mem
                ∧ (let v := getLeaf u g
                   v.level = .trap ∧ v.pc = l.trapVec &&& 0xFFF ∧ v.trapPc = l.pc ∧ v.trapCause = t.word ∧ v.trapFva = t.fva
                   ∧ v.handling = (if t.async then some t else none) ∧ v.asyncPend = r ∧ v.sregs = l.sregs
                   ∧ v.frame = some (captureFrame l))
                ∧ ∀ d, d ≠ g → getLeaf u d = getLeaf s d)))

/-- R161, R164: a sheet that an access waits for becomes resident, a bundle's in ascending order, and no byte of sheet space or
memory changes. R382: the spine loads the segment a leaf waits for: its bundles stand at its indices, the rest of the
instruction memory stays, and the leaf goes on; a load that faults leaves the fault for the leaf, where the policy is FATAL,
with the address that the spine read, log entry 44 (DEDUCED). -/
def Obligations.SheetsAndSegmentsLoad : Prop :=
  (-- SheetsBecomeResident
    ∀ (s : State) (g n : Nat),
      let here := resident (getQuire s (quireOf g)) g
      let need := here n = false ∧ ((bundleNeeds s g).find? (fun k => !here k) = some n ∨ (engineNeeds (getLeaf s g)).contains n = true)
      (need → ∃ t, exec (.sheetRefill g n) s = .next t ∧ resident (getQuire t (quireOf g)) g n = true
        ∧ t.leaves = s.leaves ∧ t.mem = s.mem ∧ (getQuire t (quireOf g)).imem = (getQuire s (quireOf g)).imem)
      ∧ (¬need → exec (.sheetRefill g n) s = .next s))
  ∧ (-- SegmentsLoad
    ∀ (s : State) (g n : Nat) (run : Run) (x : Segment), (getLeaf s g).wait = .segment n → leafRun s g = some run →
      run.segs[n]? = some x → stopping s g = false → segmentHeld s g run.segs n = false →
      (getQuire s (quireOf g)).segs.contains n = false →
      let rd := readVirt s (spineReader s) run.asid run.root false .x x.va.toNat (64 * x.count)
      (∀ b rels u, rd = (.ok (b, rels), u) → ∃ t, exec (.segmentLoad g) s = .next t ∧ t.mem = s.mem
        ∧ (getLeaf t g).wait = .none ∧ (getQuire t (quireOf g)).segs.contains n = true
        ∧ (∀ k, k < x.count → mapGet (getQuire t (quireOf g)).imem (x.first + k) 0
            = BitVec.ofNat 512 (bytesNat ((b.drop (64 * k)).take 64)))
        ∧ ∀ k, k < x.first ∨ x.first + x.count ≤ k →
            mapGet (getQuire t (quireOf g)).imem k 0 = mapGet (getQuire s (quireOf g)).imem k 0)
      ∧ ∀ c va u, rd = (.error (c, va), u) → run.pkt.service = false →
          ∃ t, exec (.segmentLoad g) s = .next t ∧ t.mem = s.mem ∧ t.quires = s.quires
            ∧ (getLeaf t g).wait = .segFault c (BitVec.ofNat 64 va))

/-- R348 to R351: a walk goes from the root through a pointer at each level to the entry of level 0; where that is a leaf that
permits a read, the address is its frame and the offset, and where it is not valid the walk faults. -/
def Obligations.WalkReachesTheFrame : Prop :=
  ∀ (s : State) (r : Reader) (asid : BitVec 16) (va : Nat) (T : Nat → Nat) (e : Nat → Word),
    va < 2 ^ 64 → s.hist = [] → s.freeMem = [] → r.core = none →
    let home := s.node.package.toNat
    let ppn := fun (w : Word) => (w.extractLsb' 16 36).toNat
    let at_ := fun k => T k + 8 * (va / 2 ^ (12 + 9 * k) % 512)
    (∀ k, k ≤ 5 → T k < 0x00C0_0000_0000 ∧ T k % 4096 = 0
      ∧ memRead s.mem (memKey home (canonAddr (at_ k))) 8 = natBytes (e k).toNat 8) →
    (∀ k, k < 5 → (e (k + 1)).getLsbD 0 = true ∧ (e (k + 1)).extractLsb' 1 3 = 0 ∧ (e (k + 1)).extractLsb' 5 9 = 0
      ∧ (e (k + 1)).extractLsb' 52 8 = 0 ∧ T k = ppn (e (k + 1)) * 4096) →
    let w := e 0
    (w.getLsbD 0 = true → w.getLsbD 1 = true → w.getLsbD 5 = true → w.extractLsb' 7 2 = 0 → w.extractLsb' 10 2 = 0 →
      w.getLsbD 59 = false → ppn w * 4096 < 0x00C0_0000_0000 →
      ∃ t u, translate s r asid (T 5) false va .r = (.ok t, u) ∧ u.mem = s.mem ∧ t.pa = ppn w * 4096 + va % 4096
        ∧ t.pkg = home ∧ t.keyed = w.getLsbD 13 ∧ t.priv = w.getLsbD 12 ∧ t.ms = w.getLsbD 9 ∧ t.cache = 0)
    ∧ (w.getLsbD 0 = false ∨ w.extractLsb' 1 3 = 0 ∨ (w.getLsbD 5 = false ∧ w.extractLsb' 7 2 = 0) →
      ∃ u, translate s r asid (T 5) false va .r = (.error .pageFaultR, u) ∧ u.mem = s.mem)

/-- R176, R178, R340, R353: a walk leaves an entry with its translations, or with the fault held for its boundary where
the policy is FATAL; a watched access of the ordinary log raises WATCH instead. A fault found through a cached
translation counts for nothing: a fresh walk decides. While an older store to bytes in common has not been translated,
no fault of a load is detected: a choice of the model, log entry 90 (DEDUCED), where R176 has a fault detected when the
walk ends. R361, R362: a response of 1 has the access that waits translated afresh, one of 2 delivers its fault to the
leaf, and the record is done with; any other value leaves it waiting, and so does any while the access is one of a saved
cluster. -/
def Obligations.WalksAndServiceSettleEntries : Prop :=
  (-- WalksSettleLogEntries
    ∀ (s : State) (g id : Nat) (trapLog : Bool) (log : List LogEntry) (e : LogEntry) (run : Run),
      let l := getLeaf s g
      findEntry l id = some (trapLog, log, e) → leafRun s g = some run → e.stage = .walk → e.op.isMark = false →
      e.op ≠ .tlbinv → e.op ≠ .task → behindTlbinv log e = false → l.exited = false → run.pkt.service = false →
      (∀ d, ∀ x ∈ (getLeaf s d).olog ++ (getLeaf s d).tlog, x.stage.waitsFor id = false) →
      let ps := pageSplit e.va.toNat e.size
      let tr := fun (useTlb : Bool) => translateKinds s (entryReader l g e) run useTlb ps (entryKinds e.op)
      let ends := fun (useTlb : Bool) (st : LogStage) => ∃ t log', exec (.walkComplete g id useTlb) s = .next t ∧ t.mem = s.mem
        ∧ findEntry (getLeaf t g) id = some (trapLog, log', { e with stage := st })
        ∧ (getLeaf t g).inflight = l.inflight ∧ ∀ d, d ≠ g → getLeaf t d = getLeaf s d
      let faults := fun (useTlb : Bool) (c : Cause) (va : Nat) =>
        ends useTlb (if waitsForBytes log e = true then .walk else .faulted c (BitVec.ofNat 64 va))
      (∀ useTlb ts u, tr useTlb = (.ok ts, u) → writeRefused e.op (ps.zip ts) = none →
        (trapLog = true ∨ e.watchOff = true ∨ watched l e = false → ends useTlb (.ready ts))
        ∧ (trapLog = false → e.watchOff = false → watched l e = true → faults useTlb .watch e.va.toNat))
      ∧ (∀ c va u, tr false = (.error (c, va), u) → faults false c va)
      ∧ (∀ ts u c va, tr false = (.ok ts, u) → writeRefused e.op (ps.zip ts) = some (c, va) → faults false c va)
      ∧ ((∃ c va u, tr true = (.error (c, va), u)) ∨ (∃ ts u, tr true = (.ok ts, u) ∧ writeRefused e.op (ps.zip ts) ≠ none) →
          exec (.walkComplete g id true) s = exec (.walkComplete g id false) s))
  ∧ (-- FaultServiceResponds
    ∀ (s : State) (idx g id w : Nat) (v : Service) (run : Run) (u : State) (c : Cause) (fva : Word) (trapLog : Bool)
      (log : List LogEntry) (e : LogEntry), s.node.spine = true → (s.services.find? fun v => v.idx == idx) = some v →
      findRun s v.run = some run → recordWord s run (v.ring.toNat + 24) 4 = (w, u) →
      findEntry (getLeaf s g) id = some (trapLog, log, e) → e.stage = .service idx c fva →
      (((getLeaf s g).olog ++ (getLeaf s g).tlog).map fun x => x.id).Nodup →
      let i := Instr.faultServiceResponse (.device idx)
      let becomes := fun (st : LogStage) => ∃ t log', exec i s = .next t ∧ t.mem = s.mem
        ∧ findEntry (getLeaf t g) id = some (trapLog, log', { e with stage := st }) ∧ ∀ x ∈ t.services, x.idx ≠ idx
      (serviceSaved run idx = true → exec i s = .next s)
      ∧ (w = 1 → serviceSaved run idx = false → becomes .walk)
      ∧ (w = 2 → serviceSaved run idx = false → (∀ d, (getLeaf s d).exited = false) → (∀ d, (getLeaf s d).tq = []) → becomes (.faulted c fva))
      ∧ (w ≠ 1 → w ≠ 2 → ∃ t, exec i s = .next t ∧ t.mem = s.mem ∧ t.services = s.services ∧ t.leaves = s.leaves))

/-- R171, R173, R213, R244: a translated access that nothing older holds back performs and leaves the log. A load's
value is the bytes there, extended, and goes to the results that wait for it; a store writes its bytes and no other; of
a vector access that lies in two pages, each byte is that of its own page's frame; an atomic does both, each at one
moment. No register, no sheet byte and no other leaf changes, but for what shelves know of their spill regions. R43,
R360: the data of a performed load reach its result; TLBINV's cut leaves no cached translation of the addresses it names
for its ASID, but for global ones, and TLBINV stays in the log while what was translated before has not all performed.
That a TLBINV cuts once nothing older is left and then waits for those accesses alone is the model's choice (log entry
39). R170: the two windows onto HBM4E name the same bytes one for one. An interleaved address lies in the stack its
256-byte granule names, and every bank-linear address is that of exactly one interleaved one. -/
def Obligations.AccessesPerform : Prop :=
  (-- AccessesPerform
    ∀ (s : State) (g id n : Nat) (trapLog : Bool) (log : List LogEntry) (e : LogEntry) (tr : Trans),
      let l := getLeaf s g
      findEntry l id = some (trapLog, log, e) → entryHeld s.node.package.toNat log e = false → aliasHeld s g log e = false →
      e.stage = .ready [tr] → e.size = n → n = 1 ∨ n = 2 ∨ n = 4 ∨ n = 8 → e.va.toNat % n = 0 → tr.pa % n = 0 →
      let key := memKey tr.pkg (canonAddr tr.pa)
      let m := bytesNat (memRead s.mem key n)
      let value := fun (ext : Bool) => (BitVec.ofInt 64 (if ext && decide (2 ^ (8 * n - 1) ≤ m) then (m : Int) - 2 ^ (8 * n) else m)).setWidth 16384
      let gone := fun (t : State) => (∀ x ∈ (getLeaf t g).olog ++ (getLeaf t g).tlog, x.id ≠ id)
        ∧ t.quires = s.quires ∧ t.kfiles = s.kfiles
        ∧ ∀ d, d ≠ g → ∃ x, getLeaf t d = { getLeaf s d with shelves := x }
      let fixed := fun (t : State) (v : Vec) => (getLeaf t g).inflight
        = l.inflight.map fun r => if r.waiting = some id then { r with value := v &&& r.mask } else r
      let wrote := fun (t : State) (v : Nat) => ∀ k, memGet t.mem k
        = if key ≤ k ∧ k < key + n then BitVec.ofNat 8 (v / 256 ^ (k - key)) else memGet s.mem k
      (∀ ext acq, e.op = .load false ext acq → s.hist = [] → s.freeMem = [] →
        ∃ t, exec (.logEntryPerform g id) s = .next t ∧ gone t ∧ fixed t (value ext) ∧ t.mem = s.mem
          ∧ ∃ o u i f d h, getLeaf t g = { l with olog := o, tlog := u, inflight := i, frame := f, doubts := d, held := h })
      ∧ (∀ vec rel, e.op = .store vec rel → (∀ w ∈ s.hist, unobserved l g e.po w = false) →
        ∃ t, exec (.logEntryPerform g id) s = .next t ∧ gone t ∧ wrote t e.data.toNat
          ∧ ∃ o u x, getLeaf t g = { l with olog := o, tlog := u, shelves := x })
      ∧ ∀ op ret ext ar rm, e.op = .atom op ret ext ar rm → s.hist = [] → s.freeMem = [] →
        ∃ t, exec (.logEntryPerform g id) s = .next t ∧ gone t ∧ fixed t (value ext)
          ∧ (let r := atomValue op n ext rm m (e.data.toNat % 2 ^ (8 * n)) (e.cmp.toNat % 2 ^ (8 * n))
             wrote t r.1
             ∧ ∃ o u i f d h x, getLeaf t g = { { l with fstat := l.fstat ||| (r.2.setWidth 64 <<< 8) } with
                 olog := o, tlog := u, inflight := i, frame := f, doubts := d, held := h, shelves := x }))
  ∧ (-- VectorAccessesPerform
    ∀ (s : State) (g id : Nat) (trapLog : Bool) (log : List LogEntry) (e : LogEntry) (ts : List Trans),
      let l := getLeaf s g
      let cells := ((pageSplit e.va.toNat e.size).zip ts).flatMap fun x =>
        (List.range x.1.2).map fun i => memKey x.2.pkg (canonAddr (x.2.pa + i))
      findEntry l id = some (trapLog, log, e) → entryHeld s.node.package.toNat log e = false → aliasHeld s g log e = false →
      e.stage = .ready ts → cells.length = e.size → e.size ≤ 2048 → cells.Nodup →
      (∀ ext acq, e.op = .load true ext acq → s.hist = [] → s.freeMem = [] →
        ∃ (t : State) (v : Vec), exec (.logEntryPerform g id) s = .next t ∧ t.mem = s.mem
          ∧ (∀ (i k : Nat), cells[i]? = some k → v.extractLsb' (8 * i) 8 = memGet s.mem k)
          ∧ (getLeaf t g).inflight = (l.inflight.map fun r => if r.waiting = some id then { r with value := v &&& r.mask } else r)
          ∧ ∀ x ∈ (getLeaf t g).olog ++ (getLeaf t g).tlog, x.id ≠ id)
      ∧ ∀ rel, e.op = .store true rel → (∀ w ∈ s.hist, unobserved l g e.po w = false) →
        ∃ t : State, exec (.logEntryPerform g id) s = .next t
          ∧ (∀ (i k : Nat), cells[i]? = some k → memGet t.mem k = e.data.extractLsb' (8 * i) 8)
          ∧ (∀ k, k ∉ cells → memGet t.mem k = memGet s.mem k)
          ∧ (∀ x ∈ (getLeaf t g).olog ++ (getLeaf t g).tlog, x.id ≠ id)
          ∧ ∃ o u x, getLeaf t g = { l with olog := o, tlog := u, shelves := x })
  ∧ (-- ArrivalsAndCuts
    ∀ (s : State) (g id : Nat) (run : Run) (trapLog : Bool) (log : List LogEntry) (e : LogEntry),
      let l := getLeaf s g
      let cut := tlbinvCut e run.asid
      (awaits l id = true → findEntry l id = none → ∃ t, exec (.loadDataArrival g id) s = .next t ∧ LeafOnly s t g
        ∧ (getLeaf t g).inflight = (l.inflight.map fun r => if r.waiting = some id then { r with waiting := none } else r)
        ∧ ∃ i f w, getLeaf t g = { l with inflight := i, frame := f, wait := w })
      ∧ (awaits l id = false ∨ findEntry l id ≠ none → exec (.loadDataArrival g id) s = .next s)
      ∧ (findEntry l id = some (trapLog, log, e) → leafRun s g = some run → entryHeld s.node.package.toNat log e = false →
          e.op = .tlbinv → e.id = id →
          (e.stage = .walk → ∃ t log', exec (.logEntryPerform g id) s = .next t ∧ t.mem = s.mem ∧ t.quires = s.quires
            ∧ findEntry (getLeaf t g) id = some (trapLog, log', { e with stage := .cutting (cutUsers s cut) })
            ∧ (getLeaf t g).inflight = l.inflight ∧ (getLeaf t g).sregs = l.sregs ∧ (getLeaf t g).sheet = l.sheet
            ∧ (∀ d, d ≠ g → ∃ x, getLeaf t d = { getLeaf s d with shelves := x })
            ∧ (∀ x ∈ t.tlb, x ∈ s.tlb) ∧ (∀ x ∈ s.tlb, x.global = true ∨ x.asid ≠ run.asid → x ∈ t.tlb)
            ∧ ∀ x ∈ t.tlb, x.asid = run.asid → x.global = false → e.size ≠ 0 ∧
                (e.va.toNat + 4096 * e.size ≤ x.base ∨ x.base + x.size ≤ e.va.toNat ∨ 2 ^ 64 ≤ x.base))
          ∧ ∀ us, e.stage = .cutting us →
              (cutBusy s cut id us = true → exec (.logEntryPerform g id) s = .next s)
              ∧ (cutBusy s cut id us = false → ∃ t, exec (.logEntryPerform g id) s = .next t ∧ t.mem = s.mem
                ∧ (∃ o u, getLeaf t g = { l with olog := o, tlog := u }) ∧ (∀ d, d ≠ g → getLeaf t d = getLeaf s d)
                ∧ ∀ x ∈ (getLeaf t g).olog ++ (getLeaf t g).tlog, x.id ≠ id)))
  ∧ (-- HbmWindows
    (∀ a, a < 0x00C0_0000_0000 → region (bankLinear a) = .hbm true ∧ stackOf (bankLinear a) = a / 256 % 12
      ∧ bankLinear a % 256 = a % 256)
    ∧ (∀ a b, a < 0x00C0_0000_0000 → b < 0x00C0_0000_0000 → bankLinear a = bankLinear b → a = b)
    ∧ ∀ x, region x = .hbm true → ∃ a, a < 0x00C0_0000_0000 ∧ bankLinear a = x)

/-- R185, R192, R196, R197: a copy is released once its stamp is reached; a block of COPY moves the bytes of its page into the
verso and no other byte, where no other engine operation and no store of the leaf races with it; one that faults writes
nothing and ends the copy. R190, R194, R197: when a copy that names a handle performs, the handle's count falls, a fault is
recorded where none was, a publish that falls due takes place, the token is posted and the entry is freed, all in one act. -/
def Obligations.CopiesMoveAndPerform : Prop :=
  (-- CopiesMoveBlocks
    ∀ (s : State) (q id : Nat) (w : BlockOpt) (c : Copy) (run : Run) (h off len : Nat) (src : Word),
      findCopy s q id = some c →
      (c.imp = false → c.released = true ∨ c.stamp.toNat ≤ s.dtc.toNat → ∃ t, exec (.copyRelease q id) s = .next t
        ∧ findCopy t q id = some { c with released := true } ∧ t.leaves = s.leaves ∧ t.mem = s.mem)
      ∧ (c.released = false → s.dtc.toNat < c.stamp.toNat → exec (.copyRelease q id) s = .next s)
      ∧ (c.form = .copy h src off len → leafRun s c.leaf = some run → copyMoves s q c = true → runOver run = false →
          c.imp = false → w.guardOk = true → (∀ x ∈ (getLeaf s c.leaf).wet, c.races x.obs = false) → c.wild = [] → s.hist = [] → s.freeMem = [] →
          let a := src + BitVec.ofNat 64 c.done
          let n := min (len - c.done) (4096 - a.toNat % 4096)
          let lo := c.region + off + c.done
          let tr := translateSure s (copyReader s c) run.asid run.root w.useTlb a.toNat .r fun x => x.keyed
          (∀ x u, tr = (.ok x, u) → ∃ t, exec (.copyBlock q id w) s = .next t ∧ t.mem = s.mem
            ∧ findCopy t q id = some { c with started := true, done := c.done + n }
            ∧ (∀ k, sheetByte (getLeaf t c.leaf) k = if lo ≤ k ∧ k < lo + n
                then memGet s.mem (memKey x.pkg (canonAddr (x.pa - x.pa % 4096 + a.toNat % 4096 + (k - lo)))) else sheetByte (getLeaf s c.leaf) k)
            ∧ ∀ g, g ≠ c.leaf → getLeaf t g = getLeaf s g)
          ∧ ∀ e u, tr = (.error e, u) → run.pkt.service = false → ∃ t, exec (.copyBlock q id w) s = .next t
            ∧ t.mem = s.mem ∧ t.leaves = s.leaves
            ∧ findCopy t q id = some { c with started := true, fault := some (e, BitVec.ofNat 64 a.toNat) }))
  ∧ (-- CopiesPerform
    ∀ (s : State) (q id n : Nat) (c : Copy), findCopy s q id = some c → c.form.handle = some n →
      (copyDone s q c = false → exec (.copyPerform q id) s = .next s)
      ∧ (copyDone s q c = true → c.atTrap = false → (getLeaf s c.leaf).exited = false →
          (∀ k, c.tok = some k → (readTok (getLeaf s c.leaf) k).toNat < 0xFFFF) →
          ∃ t, exec (.copyPerform q id) s = .next t ∧ t.mem = s.mem ∧ (∀ x ∈ (getQuire t q).copies, x.id ≠ id)
            ∧ (let h := getHandle (getLeaf s c.leaf) n
               let y := getHandle (getLeaf t c.leaf) n
               let out := match c.form with | .copyout _ _ _ _ => true | _ => false
               let due := h.deferred || c.publ
               let publishes := y.ecause = 0 ∧ due = true ∧ y.fill = 0 ∧ y.drain = 0
               y.fill = (if out then h.fill else h.fill - 1) ∧ y.drain = (if out then h.drain - 1 else h.drain)
               ∧ (c.fault = none ∨ h.ecause ≠ 0 → y.ecause = h.ecause ∧ y.detail = h.detail ∧ y.fva = h.fva)
               ∧ (∀ e va, c.fault = some (e, va) → h.ecause = 0 → y.fva = va
                   ∧ (if e = .key ∨ e = .guard then y.ecause = e.code ∧ y.detail = 0 else y.ecause = 0x18 ∧ y.detail = e.code))
               ∧ (publishes → y.recto = h.verso ∧ y.verso = h.recto ∧ y.gen = h.gen + 1 ∧ y.deferred = false)
               ∧ (¬publishes → y.recto = h.recto ∧ y.verso = h.verso ∧ y.gen = h.gen
                   ∧ y.deferred = (due && decide (y.ecause = 0))))
            ∧ (∀ k, readTok (getLeaf t c.leaf) k = if c.tok = some k then readTok (getLeaf s c.leaf) k + 1
                else readTok (getLeaf s c.leaf) k)
            ∧ (getLeaf t c.leaf).asyncPend.length = (getLeaf s c.leaf).asyncPend.length
                + (if c.fault ≠ none ∧ c.trapf = true then 1 else 0)
            ∧ ∀ g, g ≠ c.leaf → getLeaf t g = getLeaf s g))

/-- R257, R258, R263, R265: an operation fires when every earlier one has, and none once the cluster is asked to stop
(log entry 84, DEDUCED: R276 speaks of passes); with ACC = 1 its tile, here a 32-bit MAC tile that nothing holds, is
zero from then on; a pass of an INT8 MAC adds the products of the pass's chunks to each tile element and wraps it; ACCZ
clears; an operation that has made its last write leaves the queue and posts its token after the earlier ones of its
tile. R267, R268: an EPI converts its tile into its staging slot, here 32-bit integers to INT8, and its segments are
then stored to the memory their pages name, and nothing else is, after every older access of the leaf has performed and
where no later write of the leaf has come before them; a page it may not write holds the EPI with EPI_STORE. -/
def Obligations.PressEngineRuns : Prop :=
  (-- PressOperationsRun
    ∀ (s : State) (g id : Nat) (trapQ : Bool) (o : PressOp), findPress (getLeaf s g) id = some (trapQ, o) →
      let l := getLeaf s g
      let earlier := (earlierOps (queueOf l trapQ) id).any fun e => e.stage == .queued
      (o.stage = .queued → earlier = true ∨ stopping s g = true → exec (.operationFire g id) s = .next s)
      ∧ (∀ z a b acc, stopping s g = false → o.stage = .queued → earlier = false → o.form = .mma z 0 (.feed a) (.feed b) acc ∨ o.form = .accz z →
          ∃ t, exec (.operationFire g id) s = .next t ∧ LeafOnly s t g
            ∧ findPress (getLeaf t g) id = some (trapQ, { o with stage := .fired, claimA := [], claimB := [] })
            ∧ (l.pq = [o] → l.tq = [] → o.form = .mma z 0 (.feed a) (.feed b) true → fmtA o.fmt = 7 → o.pass = 0 →
                ∀ i, i < 1024 → tileAt (getTile (getLeaf t g) z) i = 0))
      ∧ (∀ z, stopping s g = false → o.writes = some z → o.stage = .fired → o.pass < o.n → tileOrder (queueOf l trapQ) o = true →
          o.formers l = [] →
          (∀ e ∈ l.pq ++ l.tq, e.id ≠ id → e.stage = .fired → e.pass = 0 → e.initial = none) →
          ∃ t, exec (.pressPass g id) s = .next t ∧ t.mem = s.mem ∧ (getLeaf t g).sheet = l.sheet
            ∧ findPress (getLeaf t g) id = some (trapQ, { o with pass := o.pass + 1 })
            ∧ (∀ y, y ≠ z → getTile (getLeaf t g) y = getTile l y)
            ∧ (o.form = .accz z → ∀ i, i < 1024 → tileAt (getTile (getLeaf t g) z) i = 0)
            ∧ ∀ a b acc, o.form = .mma z 0 (.feed a) (.feed b) acc → fmtA o.fmt = 7 → fmtB o.fmt = 7 → o.fmt.getLsbD 17 = false →
                ∀ r c, r < 32 → c < 32 →
                  let x := fun k => (sheetByte l ((o.feedA.1 + o.pass * o.feedA.2 : Int).toNat + 64 * r + k)).toInt
                  let y := fun k => (sheetByte l ((o.feedB.1 + o.pass * o.feedB.2 : Int).toNat + 64 * c + k)).toInt
                  let start := if acc && o.pass == 0 then 0 else (tileAt (getTile l z) (32 * r + c)).toInt
                  tileAt (getTile (getLeaf t g) z) (32 * r + c)
                    = BitVec.ofInt 32 ((List.range 64).foldl (fun t k => t + x k * y k) start))
      ∧ (o.finished = true → completesLater l o = false → RoomFor s g o.tok → ∃ t, exec (.operationComplete g id) s = .next t ∧ t.mem = s.mem
          ∧ (∀ x ∈ (getLeaf t g).pq ++ (getLeaf t g).tq, x.id ≠ id) ∧ Posted s t g o.tok
          ∧ (getLeaf t g).tiles = l.tiles ∧ (getLeaf t g).sheet = l.sheet)
      ∧ (o.finished = false ∨ completesLater l o = true → (∀ zs ti a b, o.form ≠ .epi zs ti a b) → exec (.operationComplete g id) s = .next s))
  ∧ (-- EpiloguesStageAndStore
    ∀ (s : State) (g id zs : Nat) (useTlb trapQ ti : Bool) (addr stride : Word) (o : PressOp) (run : Run),
      findPress (getLeaf s g) id = some (trapQ, o) → o.form = .epi zs ti addr stride →
      let l := getLeaf s g
      (o.stage = .fired → tileOrder (queueOf l trapQ) o = true →
        (∀ e ∈ l.pq ++ l.tq, e.id ≠ id → e.stage = .fired → e.pass = 0 → e.initial = none) →
        ∃ t st, exec (.epiStage g id) s = .next t ∧ t.mem = s.mem ∧ (getLeaf t g).tiles = l.tiles
          ∧ findPress (getLeaf t g) id = some (trapQ, { o with stage := .storing })
          ∧ mapFind (getQuire t (quireOf g)).staging o.slot = some st ∧ st.leaf = g ∧ st.op = id
          ∧ (ti = true → fmtOut o.fmt = 7 → ∀ i, i < 1024 →
              let x := (tileAt (getTile l zs) i).toInt
              st.bytes[i]? = some (BitVec.ofInt 8 (if o.fmt.getLsbD 17 then max (-128) (min 127 x) else x))))
      ∧ (∀ va off n st, leafRun s g = some run → o.stage = .storing → olderAccess l trapQ o.po = false →
          (epiSegments o)[o.seg]? = some (va, off, n) → mapFind (getQuire s (quireOf g)).staging o.slot = some st →
          off + n ≤ st.bytes.length → n ≤ 4096 →
          let tr := translateSure s (engineReader s id g o.po 1) run.asid run.root useTlb va .w storeBars
          (∀ x u, tr = (.ok x, u) → x.cache ≠ 3 → x.keyed = false → x.pa % 4096 + n ≤ 4096 →
            (∀ w ∈ u.hist, storeRaces g id o.po w = false) →
            ∃ t, exec (.epiSegmentStore g id useTlb) s = .next t
              ∧ Stored s t x.pkg x.pa n (fun i => st.bytes.getD (off + i) 0)
              ∧ findPress (getLeaf t g) id = some (trapQ, { o with seg := o.seg + 1 }))
          ∧ ∀ x u, tr = (.ok x, u) → x.keyed = true → x.cache ≠ 3 → run.pkt.service = false → trapQ = false →
              l.exited = false → ∃ t, exec (.epiSegmentStore g id useTlb) s = .next t ∧ t.mem = s.mem
                ∧ findPress (getLeaf t g) id = some (false, { o with stage := .held })
                ∧ ∃ p, (getLeaf t g).asyncPend = l.asyncPend ++ [p] ∧ p.cause = .epiStore ∧ p.detail = 0x0F
                    ∧ p.fva = BitVec.ofNat 64 va ∧ p.async = true))

/-- R282: a forward step of an INT8 pair, where no store and no later configuration has reached the operation's regions. When
column j × Dn + γ of the fold has been read, the new elements (a, p × n + j, u, γ) of the other region are the wrapped sums,
over the bond and the first remaining digit, of the boundary's low bytes times the column's elements, and the step goes on to
its next column. R174, R277, R287, R291: a fold column is read from weight-store pages at the fold's address and the column's
size; SEWST stores its next segment and nothing else, after every older access of the leaf; an operation with nothing left
leaves the queue and posts its token. -/
def Obligations.SewingEngineRuns : Prop :=
  (-- SewingStepContracts
    ∀ (s : State) (g : Nat) (o : SewOp) (rest : List SewOp) (st : SewStep) (b : List Byte),
      let l := getLeaf s g
      let X := shapeOf o.shape
      l.sewq = o :: rest → o.held = false → o.service = none → o.current = some st → st.back = false → stopping s g = false →
      o.taint = [] → o.lap = [] →
      fmtA o.fmt = 7 → fmtB o.fmt = 7 → o.fmt.getLsbD 17 = false → o.fold = some b → b.length = st.dc * st.m → 0 < b.length →
      st.dc = X.d → 0 < st.m → 0 < st.dn → X.u % st.m = 0 → o.col < st.n * st.dn → X.bad = false →
      let U := X.u / st.m
      let P := X.p * st.n
      let j := o.col / st.dn
      let γ := o.col % st.dn
      let old := fun off => ((BitVec.ofNat 32 (bytesNat (sheetRead l ((if X.cur then o.r1 else o.r0) + 4 * off) 4))).setWidth 8).toInt
      let new := fun (t : Leaf) off => BitVec.ofNat 32 (bytesNat (sheetRead t ((if X.cur then o.r0 else o.r1) + 4 * off) 4))
      ∃ t, exec (.sewStepPass g) s = .next t ∧ t.mem = s.mem
        ∧ (∀ a p u, a < X.nb → p < X.p → u < U →
            new (getLeaf t g) (((a * P + (p * st.n + j)) * U + u) * st.dn + γ)
              = BitVec.ofInt 32 ((List.range (st.dc * st.m)).foldl (fun acc k =>
                  acc + old (((a * X.p + p) * X.u + (k % st.m * U + u)) * X.d + k / st.m) * (b.getD k 0).toInt) 0))
        ∧ ∃ y, (getLeaf t g).sewq = y :: rest ∧ y.id = o.id
            ∧ (o.col + 1 < st.n * st.dn → y = { o with col := o.col + 1, fold := none })
            ∧ (o.col + 1 = st.n * st.dn → y.step = o.step + 1 ∧ y.col = 0 ∧ y.fold = none
                ∧ y.shape = SewShape.word ⟨X.nb, P, U, st.dn, true, !X.cur⟩))
  ∧ (-- FoldsAndBoundariesMove
    ∀ (s : State) (g : Nat) (useTlb : Bool) (o : SewOp) (rest : List SewOp) (run : Run),
      let l := getLeaf s g
      l.sewq = o :: rest → o.held = false → o.service = none → leafRun s g = some run →
      (∀ st ts u, stopping s g = false → o.current = some st → readColumns o st < groupSize st → sewReadsNow l o = true → s.hist = [] → s.freeMem = [] →
        let va := st.fold + BitVec.ofNat 64 ((o.col + readColumns o st) * columnSize o.fmt st)
        let ps := pageSplit va.toNat (columnBytes o.fmt st)
        translateAll s (engineReader s o.id g o.po 1) run.asid run.root useTlb .r ps = (.ok ts, u) → (∀ x ∈ ts, x.cache = 3) →
        ∃ t, exec (.foldColumnRead g useTlb) s = .next t ∧ t.mem = s.mem
          ∧ (getLeaf t g).sewq = { o with fold := some (o.fold.getD [] ++ (ps.zip ts).flatMap fun x =>
              (List.range x.1.2).map fun i => memGet s.mem (memKey x.2.pkg (canonAddr (x.2.pa + i)))) } :: rest)
      ∧ (∀ r off va n x u, stopping s g = false → (sewSegments o)[o.seg]? = some (r, off, va, n) →
          olderAccess l false o.po = false → o.taint = [] →
          translateSure s (engineReader s o.id g o.po 1) run.asid run.root useTlb va .w storeBars = (.ok x, u) → x.cache ≠ 3 →
          (∀ w ∈ u.hist, storeRaces g o.id o.po w = false) → x.keyed = false → x.pa % 4096 + n ≤ 4096 → off + n ≤ (sewRow l o r).1.length →
          ∃ t, exec (.sewstSegmentStore g useTlb) s = .next t
            ∧ Stored s t x.pkg x.pa n (fun i => (sewRow l o r).1.getD (off + i) 0)
            ∧ (getLeaf t g).sewq = { o with seg := o.seg + 1 } :: rest)
      ∧ (o.made = true → o.taint = [] → RoomFor s g o.tok → ∃ t, exec (.sewingOpComplete g) s = .next t ∧ t.mem = s.mem
          ∧ (∀ x ∈ (getLeaf t g).sewq, x.id ≠ o.id) ∧ Posted s t g o.tok ∧ (getLeaf t g).sheet = l.sheet)
      ∧ (o.made = false → exec (.sewingOpComplete g) s = .next s))

/-- R302, R306 to R309, R311: what the operation at the head of a signature queue does to its shelf, to sheet space and
to the handle it names; it then leaves the queue and posts its token. SSEL sets the heat of the rows it selects to 15
and of no other. A SINS into a full array sends the coldest row on its way to the lowest free record, the one with the
lowest tag among equals, and waits while the quire has no transit slot (log entry 81, DESIGN CHOICE); with no record
free, SHELF 1. A row in transit reaches its record. R300, R301, R314: SHCFG gives the shelf its configuration and no
row, once every page of the region meets its conditions, and SHELF 5 with the failing page otherwise (log entry 96,
DESIGN CHOICE, which of several); with no rows it takes the configuration away. Any other operation on a BROKEN shelf is
held with SHELF 6. -/
def Obligations.SignatureOperationsTakeEffect : Prop :=
  (-- OperationsOnRows
  ∀ (s : State) (g : Nat) (trapQ : Bool) (o : SigOp) (c : ShelfCfg),
    let l := getLeaf s g
    let x := getShelf l o.sh
    sigHead l trapQ = some o → o.held = false → stopping s g = false → x.cfg = some c → x.broken = false → x.taint = [] → o.taint = [] →
    RoomFor s g o.tok →
    let done := fun (t : State) => exec (.signatureOpComplete g trapQ) s = .next t ∧ t.mem = s.mem ∧ Posted s t g o.tok
      ∧ (∀ y ∈ (getLeaf t g).sigq ++ (getLeaf t g).sigtq, y.id ≠ o.id)
      ∧ ∀ n, n ≠ o.sh → getShelf (getLeaf t g) n = getShelf l n
    let leaves := fun (y : Shelf) => ∃ t, done t ∧ getShelf (getLeaf t g) o.sh = y ∧ (getLeaf t g).sheet = l.sheet
    let old := fun (t : BitVec 32) => x.rows.any fun r => r.tag == t
    (o.form = .sage → leaves { x with rows := x.rows.map fun r => { r with heat := r.heat - 1 } })
    ∧ (∀ t, o.form = .sdel t → leaves { x with rows := x.rows.filter fun r => r.tag != t })
    ∧ (∀ sig t, o.form = .sins sig t → old t = true →
        leaves { x with rows := x.rows.map fun r => if r.tag = t then { r with sig := sig, heat := 15 } else r })
    ∧ (∀ sig t a, o.form = .sins sig t → old t = false → freeArrayRow c x = some a →
        leaves { x with newest := some (match x.newest with | none => t | some m => if m.toNat < t.toNat then t else m),
                        rows := x.rows ++ [⟨t, sig, 15, .array a⟩] })
    ∧ (∀ sig t, o.form = .sins sig t → old t = false → freeArrayRow c x = none → (x.rows.map fun r => r.tag).Nodup →
        let n := match x.newest with | none => t | some m => if m.toNat < t.toNat then t else m
        let new : Row := ⟨t, sig, 15, .array 0⟩
        let cand := fun (r : Row) => (r ∈ x.rows ∧ r.inArray = true ∨ r = new) ∧ eligible c (some n) r = true
        (∀ v b, cand v → (∀ r, cand r → v.heat < r.heat ∨ v.heat = r.heat ∧ v.tag.toNat ≤ r.tag.toNat) →
          freeRecord c x = some b →
          (16 ≤ inTransit s (quireOf g) → exec (.signatureOpComplete g trapQ) s = .next s)
          ∧ (inTransit s (quireOf g) < 16 → leaves { x with
              newest := some n
              rows := if v.tag = t then x.rows ++ [{ new with loc := .transit b }]
                else (x.rows.map fun y => if y.tag = v.tag then { y with loc := .transit b } else y) ++ [{ new with loc := v.loc }] }))
        ∧ (freeRecord c x = none → trapQ = false → l.exited = false →
            ∃ u, exec (.signatureOpComplete g trapQ) s = .next u ∧ SigHeld s u g o 1 0))
    ∧ (∀ q h, o.form = .ssel q h →
        let y := getHandle l h
        let tags := selectTags c x q
        let heated := fun (r : Row) => if tags.contains r.tag.toNat && eligible c x.newest r then { r with heat := 15 } else r
        ∃ t, done t ∧ getShelf (getLeaf t g) o.sh = { x with rows := x.rows.map heated }
          ∧ sheetRead (getLeaf t g) y.verso (4 * (1 + tags.length)) = (tags.length :: tags).flatMap (fun n => natBytes n 4)
          ∧ (∀ k, k < y.verso ∨ y.verso + 4 * (1 + tags.length) ≤ k → sheetByte (getLeaf t g) k = sheetByte l k)
          ∧ (getHandle (getLeaf t g) h).fill = y.fill - 1
          ∧ (y.ecause = 0 → y.fill = 1 → y.drain = 0 → (getHandle (getLeaf t g) h).recto = y.verso
              ∧ (getHandle (getLeaf t g) h).gen = y.gen + 1))
    ∧ (∀ off t, o.form = .srdr off t → ∃ u, done u ∧ getShelf (getLeaf u g) o.sh = x
        ∧ sheetRead (getLeaf u g) off 64 = rowRecord x t
        ∧ ∀ k, k < off ∨ off + 64 ≤ k → sheetByte (getLeaf u g) k = sheetByte l k)
    ∧ ∀ q id, q = quireOf g → id = g % 4 * 2 ^ 28 + o.sh * 2 ^ 24 + id % 2 ^ 24 → o.sh < 16 →
        (x.rows.any fun r => r.loc == .transit (id % 2 ^ 24)) = true →
        ∃ t, exec (.spillTransitComplete q id) s = .next t ∧ LeafOnly s t g ∧ getShelf (getLeaf t g) o.sh
          = { x with rows := x.rows.map fun r => if r.loc = .transit (id % 2 ^ 24) then { r with loc := .spill (id % 2 ^ 24) } else r })
  ∧ (-- ShelvesAreConfigured
    ∀ (s : State) (g : Nat) (trapQ : Bool) (o : SigOp) (d : ShelfCfg) (run : Run),
      let l := getLeaf s g
      let x := getShelf l o.sh
      let v := (foundShelf x s).2
      let frames := spillFrames v (engineReader v o.id g o.po 1) run (spillPages d)
      let runs := exec (.signatureOpComplete g trapQ) s
      sigHead l trapQ = some o → o.held = false → stopping s g = false →
      (o.form = .shcfg d → tlbinvBefore l trapQ o.po = false → leafRun s g = some run →
        let done := fun (y : Shelf) => ∃ t, runs = .next t ∧ t.mem = s.mem ∧ Posted s t g o.tok
          ∧ (∀ z ∈ (getLeaf t g).sigq ++ (getLeaf t g).sigtq, z.id ≠ o.id) ∧ getShelf (getLeaf t g) o.sh = y
          ∧ (∀ n, n ≠ o.sh → getShelf (getLeaf t g) n = getShelf l n) ∧ (getLeaf t g).sheet = l.sheet
        let fails := fun (va : Nat) => trapQ = false → l.exited = false →
          ∃ t, runs = .next t ∧ SigHeld s t g o 5 (BitVec.ofNat 64 va)
        (RoomFor s g o.tok → d.rowCount = 0 → done .reset)
        ∧ (∀ ts u, d.rowCount ≠ 0 → frames = (.ok ts, u) →
            (∀ y ∈ ts, y.keyed = false ∧ y.cache = 2 ∧ y.pkg = u.node.package.toNat ∧ region y.pa = .hbm true)
            ∧ (RoomFor s g o.tok → strayPage (spillPages d) ts = none → done ⟨some d, none, [], ts, false, []⟩)
            ∧ ∀ va, strayPage (spillPages d) ts = some va → fails va)
        ∧ ∀ va u, d.rowCount ≠ 0 → frames = (.error va, u) → fails va)
      ∧ ((∀ e, o.form ≠ .shcfg e) → x.cfg = some d → x.broken = true → x.taint = [] → trapQ = false → l.exited = false →
          ∃ t, runs = .next t ∧ SigHeld s t g o 6 0))

/-- R226, R228, R237, R238: a release that has been performed is acknowledged; an upward arrival counts at its parent, or ends
the run where the parent cannot take it; a closed kettle without parent flips once every release is acknowledged, opens its
next phase for the members it then has, and sends a flip to each child; a flip to a package that is not there any more ends
the run. -/
def Obligations.KettleTreesAdvance : Prop :=
  ∀ (s : State) (c k : Nat), c < 24 → k < 256 →
    let x := getKettle s c k
    let home := s.node.package.toNat
    (∀ g a, x.state = .closed → x.hasParent = false → (x.acks.find? fun a => a.1 == g && ackDue (getLeaf s g) a) = some a →
        exec (.kettleReleaseAck c k g) s = .next (setKettle s c k { x with
          acks := x.acks.erase a, rel := x.rel ++ [⟨x.extent.toNat, g, leafClock (getLeaf s g) g a.2.1, (getLeaf s g).run⟩] }))
    ∧ (∀ g, (∀ a ∈ x.acks, a.1 = g → ackDue (getLeaf s g) a = false) → exec (.kettleReleaseAck c k g) s = .next s)
    ∧ (∀ id a run, (s.arrivals.find? fun a => a.id == id) = some a → kettlePkg a.dst = home → kettleCluster a.dst = c →
        kettleIndex a.dst = k → findRun s a.run = some run → run.places.contains (some c) = true →
        (x.state = .open_ → x.carr.length < x.child.toNat → x.hasParent = false →
          ∃ t, exec (.kettleUpwardArrival id) s = .next t ∧ KettlesKept s t c k ∧ t.leaves = s.leaves ∧ t.mem = s.mem
            ∧ (∀ b ∈ t.arrivals, b.id ≠ id) ∧ (getKettle t c k).carr = x.carr ++ [a.src]
            ∧ (getKettle t c k).phase = x.phase ∧ (getKettle t c k).arrived = x.arrived ∧ (getKettle t c k).member = x.member)
        ∧ (x.state ≠ .open_ ∨ x.carr.length = x.child.toNat → run.ending = none → run.id = a.run →
          ∃ t, exec (.kettleUpwardArrival id) s = .next t ∧ TreeErrorEnds t run))
    ∧ (flipFor s c k = none → flipAway s c k = none → x.state = .closed → x.hasParent = false → x.acks = [] →
        (∀ d ∈ x.carr, kettlePkg d = home ∨ remoteReachable s (kettlePkg d) = true) → k < 64 ∨ x.count ≠ 0 →
        ∃ t rel, exec (.kettleFlip c k) s = .next t ∧ KettlesKept s t c k ∧ t.leaves = s.leaves ∧ t.mem = s.mem
          ∧ getKettle t c k = { x with phase := x.phase + 1, arr := 0, carr := [], arrived := 0, member := x.next,
                                       state := .open_, acks := [], sent := false, rel := [], flips := rel }
          ∧ ∃ run, t.flips = s.flips ++ x.carr.map fun d => ⟨run, d, kettleNo home c k, x.rel⟩)
    ∧ (∀ f, flipFor s c k = some f → (∀ d ∈ x.carr, kettlePkg d = home ∨ remoteReachable s (kettlePkg d) = true) →
        k < 64 ∨ x.count ≠ 0 →
        ∃ t, exec (.kettleFlip c k) s = .next t ∧ (getKettle t c k).phase = x.phase + 1
          ∧ (getKettle t c k).state = .open_ ∧ (getKettle t c k).member = x.next ∧ t.leaves = s.leaves)
    ∧ (∀ f, flipFor s c k = none → flipAway s c k = some f →
        (remoteReachable s (kettlePkg f.dst) = true → ∃ t, exec (.kettleFlip c k) s = .next t
            ∧ t.flips = s.flips.erase f ∧ t.kfiles = s.kfiles ∧ t.leaves = s.leaves ∧ t.quires = s.quires ∧ t.mem = s.mem
            ∧ t.arrivals = s.arrivals ∧ ∀ r ∈ t.runs, ∃ r0 ∈ s.runs, ∃ ws, r = { r0 with abroad := r0.abroad ++ ws })
        ∧ ∀ run, remoteReachable s (kettlePkg f.dst) = false → findRun s f.run = some run → run.ending = none → run.id = f.run →
          ∃ t, exec (.kettleFlip c k) s = .next t ∧ TreeErrorEnds t run)
    ∧ (flipFor s c k = none → flipAway s c k = none → x.state ≠ .closed → exec (.kettleFlip c k) s = .next s)

/-- R344, R345, R372: the spine asks only clusters of a run of lower priority than the one it serves; a cluster that has
come to rest is saved with every leaf's registers and leaves the device, while the spine runs. R346: a restored run has
every saved leaf's registers, sheet space and engines at its new place, whichever clusters those are, where only the
spine has written its save area. How a save area stands for what was saved is log entry 73 (DEDUCED), what a restored
leaf's order is log entry 72 (DEDUCED), and that a switch leaves the run in the journal log entry 74 (DESIGN CHOICE). -/
def Obligations.ClustersSavedAndRestored : Prop :=
  (-- ClustersAreSaved
    ∀ (s : State) (run c : Nat),
      (∀ t, exec (.preemptRequest run c) s = .next t → t ≠ s →
        ∃ w v x, served s = some (w, false) ∧ v ∈ s.runs ∧ v.id = run ∧ v.pkt.prio < w.pkt.prio ∧ v.stage = .placed
          ∧ findRun t run = some x ∧ (x.stage = .placed → c ∈ x.preempt))
      ∧ (∀ w v, spineRuns s = true → served s = some (w, false) → victim s w.pkt.prio = some v → v.id = run →
          v.held.contains c = true → v.preempt = [] →
          (freeClusters s).length + stoppingCount s w.pkt.prio < w.needs.getD 0 →
          (∀ j, j < 32 → takeDueAt s (32 * c + j) = s) → exec (.preemptRequest run c) s = .next { s with
            runs := s.runs.map fun x =>
              if x.id == run && x.stage == .placed then { x with preempt := x.preempt ++ [c] } else x })
      ∧ (∀ r, spineRuns s = true → findRun s run = some r → r.preempt.contains c = true → clusterStill s r c = true →
          ∃ t x sv, exec (.gangSwitch run c) s = .next t ∧ findRun t run = some x
            ∧ x.saved.map (fun y => y.from_) = r.saved.map (fun y => y.from_) ++ [c] ∧ x.saved.getLast? = some sv
            ∧ x.preempt = r.preempt.filter (fun d => d != c) ∧ x.held = r.held.filter (fun d => d != c) ∧ run ∈ t.journal
            ∧ (∀ j, j < 32 → (getLeaf s (32 * c + j)).run = some run → (getLeaf t (32 * c + j)).run = none
                ∧ ∃ y, sv.leaves[j]? = some y
                  ∧ (let l := getLeaf s (32 * c + j)
                     y.run = some run ∧ y.pc = l.pc ∧ y.sregs = l.sregs ∧ y.vregs = l.vregs ∧ y.mregs = l.mregs ∧ y.fmt = l.fmt
                     ∧ y.toks = l.toks ∧ y.bonds = l.bonds ∧ y.feeds = l.feeds ∧ y.sheet = l.sheet ∧ y.tiles = l.tiles
                     ∧ y.bufs = l.bufs ∧ y.handles = l.handles ∧ y.shelves = l.shelves ∧ y.level = l.level
                     ∧ y.exited = l.exited))
            ∧ ∀ g, clusterOf g ≠ c → (getLeaf t g).run = (getLeaf s g).run ∧ (getLeaf t g).pc = (getLeaf s g).pc
                ∧ (getLeaf t g).sregs = (getLeaf s g).sregs ∧ (getLeaf t g).sheet = (getLeaf s g).sheet)
      ∧ ∀ r, findRun s run = some r → (spineRuns s = false ∨ r.preempt.contains c = false ∨ clusterStill s r c = false) →
          exec (.gangSwitch run c) s = .next s)
  ∧ (-- SavedClustersAreRestored
    ∀ (s : State) (run : Nat) (cs : List Nat) (r : Run), spineRuns s = true → served s = some (r, true) → r.id = run →
      r.stage = .placed → restorable s r cs = true → (∀ sv ∈ r.saved, sv.leaves.length = 32 ∧ areaWritten s r sv = false) →
      slotWritten s r = false → findRun s run = some r →
      ∃ t x, exec (.gangRestore run cs) s = .next t ∧ findRun t run = some x ∧ x.saved = [] ∧ t.mem = s.mem
        ∧ (∀ sv c j l n, (sv, c) ∈ r.saved.zip cs → sv.leaves[j]? = some l → l.run = some n →
            let y := getLeaf t (32 * c + j)
            y.run = l.run ∧ y.pc = l.pc ∧ y.sregs = l.sregs ∧ y.vregs = l.vregs ∧ y.mregs = l.mregs ∧ y.fmt = l.fmt
            ∧ y.toks = l.toks ∧ y.bonds = l.bonds ∧ y.feeds = l.feeds ∧ y.sheet = l.sheet ∧ y.tiles = l.tiles
            ∧ y.bufs = l.bufs ∧ y.handles = l.handles ∧ y.shelves = l.shelves ∧ y.level = l.level ∧ y.exited = l.exited
            ∧ y.inflight = l.inflight ∧ y.frame = l.frame ∧ y.wait = l.wait)
        ∧ ∀ g, clusterOf g ∉ cs → getLeaf t g = getLeaf s g)

/-- R364, R366, R367: DESC is written only while EN is 0; a queue that is enabled reads its descriptor and becomes IDLE
or eligible, or is disabled again with BADDESC; a TAIL write lands in the descriptor and nowhere else. R384, R385: a
reset ends every run of the queue that is not over with status 2, a kill every run of the ASID with status 5, and both
stay in progress while such a run has not retired; a kill without runs or queues writes its completion word. That a kill
reaches runs whose queue has been disabled is log entry 70 (DEDUCED). R366, R367, R370: an eligible queue becomes
resident in its turn, a resident one that has parsed up to TAIL is switched out; parsing reads the packet at HEAD, where
TAIL has run no further ahead than the ring holds, moves HEAD on, and makes a run, which has ended with ILLEGAL_OP where
the packet is malformed. The order in which queues take their turns is log entry 71 (DEDUCED), and that a parse leaves
the run in the journal log entry 74 (DESIGN CHOICE). -/
def Obligations.QueuesActAndEnd : Prop :=
  (-- QueueRegistersAct
    ∀ (s : State) (n hart : Nat) (val : Word), s.node.launch = true → n < 256 →
      let q := getQueue s n
      let i := Instr.launchQueueConfigWrite n val
      (q.en = false → val.getLsbD 0 = false →
          ∃ t, exec i s = .next t ∧ getQueue t n = { q with desc := val &&& 0x0000FFFFFFFFFFC0 } ∧ t.mem = s.mem)
      ∧ (q.en = true → val.getLsbD 0 = true → ∃ t, exec i s = .next t ∧ getQueue t n = q ∧ t.mem = s.mem)
      ∧ (q.en = true → val.getLsbD 0 = false → q.state ≠ .resetting →
          ∃ t, exec i s = .next t ∧ (getQueue t n).state = .disabled ∧ (getQueue t n).en = false ∧ (getQueue t n).desc = q.desc)
      ∧ (q.en = false → val.getLsbD 0 = true → q.state ≠ .resetting →
          ∃ t, exec i s = .next t ∧ t.mem = s.mem ∧ t.leaves = s.leaves ∧ (getQueue t n).desc = val &&& 0x0000FFFFFFFFFFC0
            ∧ (let x := getQueue t n
               (x.en = true ∧ (x.state = .idle ∨ x.state = .switchedOut) ∧ x.badDesc = q.badDesc)
                 ∨ (x.en = false ∧ x.state = .disabled ∧ x.badDesc = true))
            ∧ (isHbm (val &&& 0x0000FFFFFFFFFFC0#64).toNat = false → (getQueue t n).badDesc = true))
      ∧ (q.state ≠ .resetting → isHbm q.desc.toNat = true → q.desc.toNat % 64 = 0 →
          ∃ t, exec (.launchTailWrite n hart val) s = .next t
            ∧ Stored s t s.node.package.toNat (q.desc.toNat + 16) 4 (fun k => val.extractLsb' (8 * k) 8)
            ∧ (getQueue t n).state = (if q.state = .idle ∧ q.head ≠ val.setWidth 32 then .switchedOut else q.state))
      ∧ (q.state = .resetting → exec (.launchTailWrite n hart val) s = .next s))
  ∧ (-- ResetAndKillEndRuns
    ∀ (s : State) (n : Nat) (val : Word), s.node.launch = true → (s.runs.map fun r => r.id).Nodup →
      let ended := fun (t : State) (r : Run) (status : Nat) =>
        ∃ x, findRun t r.id = some x ∧ x.stage = .ended ∧ x.ending = some ⟨status, 0xFFFF, 0, 0, 0, none⟩
      let a := s.kill.asid
      (n < 256 → (getQueue s n).state ≠ .resetting → (getQueue s n).state ≠ .disabled → (∃ r ∈ s.runs, r.queue = n) →
        ∃ t, exec (.queueReset n) s = .next t ∧ (getQueue t n).state = .resetting
          ∧ (∀ r ∈ s.runs, r.queue = n → r.ending = none → ended t r 2)
          ∧ ∀ r ∈ s.runs, r.queue ≠ n → ∃ y, findRun t r.id = some { r with saved := y })
      ∧ (n < 256 → (getQueue s n).state = .disabled → exec (.queueReset n) s = .next s)
      ∧ (s.kill.active = none → val.getLsbD 0 = true → (∃ r ∈ s.runs, r.asid = a) →
          ∃ t, exec (.killGo val) s = .next t ∧ t.kill.active = some (a, s.kill.cpa)
            ∧ ∀ r ∈ s.runs, r.asid = a → r.ending = none → ended t r 5)
      ∧ (s.kill.active = none → val.getLsbD 0 = true → s.runs = [] → s.queues = [] → isHbm s.kill.cpa.toNat = true →
          s.kill.cpa.toNat % 8 = 0 → ∃ t, exec (.killGo val) s = .next t ∧ t.kill.active = none
            ∧ Stored s t s.node.package.toNat s.kill.cpa.toNat 8 (fun k => if k = 0 then 1 else 0))
      ∧ (s.kill.active ≠ none ∨ val.getLsbD 0 = false → exec (.killGo val) s = .next s))
  ∧ (-- QueuesSwitchAndParse
    ∀ (s : State) (n : Nat), spineRuns s = true →
      let q := getQueue s n
      (q.state = .switchedOut → nextEligible s = some n → residentCount s < 32 →
        (∀ q1 u, readDescriptor s q = (some q1, u) → ∃ t, exec (.queueSwitch n) s = .next t
          ∧ getQueue t n = { q1 with state := .resident, parses := 0 } ∧ t.lastQueue = n ∧ t.mem = s.mem ∧ t.runs = u.runs)
        ∧ ∀ u, readDescriptor s q = (none, u) → ∃ t, exec (.queueSwitch n) s = .next t ∧ (getQueue t n).state = .disabled
            ∧ (getQueue t n).badDesc = true ∧ (getQueue t n).en = false)
      ∧ (q.state = .resident → (queueTail s q).1 = q.head →
          ∃ t, exec (.queueSwitch n) s = .next t ∧ getQueue t n = { q with state := .idle } ∧ t.runs = s.runs)
      ∧ (q.state = .disabled ∨ q.state = .idle ∨ q.state = .resetting → exec (.queueSwitch n) s = .next s)
      ∧ (q.state = .resident → (queueTail s q).1 ≠ q.head → (q.head - q.progress).toNat < 2 ^ q.log2n →
            ((queueTail s q).1 - q.progress).toNat ≤ 2 ^ q.log2n →
            ∀ c u b v, readContext (acquirePacketTails (queueTail s q).2 n) q.ctx = (some c, u) →
            spineVirt u c.asid c.root (q.ring.toNat + 128 * (q.head.toNat % 2 ^ q.log2n)) 128 = (.ok b, v) →
            writtenSince v c.asid c.root .r (slotSince s q) q.slotVa 128 = false →
            ∃ t r, exec (.packetParse n) s = .next t ∧ t.runs = u.runs ++ [r] ∧ r.id ∈ t.journal ∧ t.mem = s.mem ∧ t.leaves = s.leaves
              ∧ getQueue t n = { q with head := q.head + 1, parses := q.parses + 1, tails := (getQueue t n).tails, tailAt := (getQueue t n).tailAt }
              ∧ r.wild = false
              ∧ r.queue = n ∧ r.index = q.head ∧ r.asid = c.asid ∧ r.root = c.root ∧ r.pkt = packetOf b
              ∧ (packetBad b = true → r.stage = .ended ∧ r.ending = some ⟨1, 0xFFFF, 0x02, 0, 0, none⟩)
              ∧ (packetBad b = false → r.ending = none → r.stage = .parsed))
      ∧ (q.state ≠ .resident → exec (.packetParse n) s = .next s))

/-- R371 to R375: a run without dependences or barrier is ready; one whose dependence failed is skipped where its packet
says so; a placed run, whose packet the ring held, starts its leaves at the image's entry with their numbers, arguments
and sheet image, on the lowest free clusters. R378, R383: a run whose leaves, engines and copies have nothing left
retires: its leaves are free and it is gone; one that has work left stays. The colophon holds RUNID, the status, the
leaf, its trap registers and the times at its offsets. -/
def Obligations.RunsStartAndRetire : Prop :=
  (-- RunsStart
    ∀ (s : State) (id : Nat) (r : Run), spineRuns s = true → findRun s id = some r →
      let i := Instr.runReady id
      (r.stage = .parsed → (∀ a ∈ r.pkt.deps, a = 0) → r.pkt.barrier = false →
        ∃ t, exec i s = .next t ∧ findRun t id = some { r with stage := .ready } ∧ t.leaves = s.leaves ∧ t.mem = s.mem)
      ∧ (∀ ws u, r.stage = .parsed → readDeps s r r.pkt.deps = (.ok ws, u) → (∀ w ∈ ws, 2 ^ 63 ≤ w ∧ w < 2 ^ 64) →
          r.pkt.barrier = false → r.pkt.depfail = true → (∃ w ∈ ws, w % 65536 ≠ 0) → r.ending = none →
          ∃ t x, exec i s = .next t ∧ findRun t id = some x ∧ x.ending = some ⟨4, 0xFFFF, 0, 0, 0, none⟩ ∧ x.stage = .ended)
      ∧ (∀ ws u, r.stage = .parsed → readDeps s r r.pkt.deps = (.ok ws, u) → (∃ w ∈ ws, w < 2 ^ 63) →
          exec i s = .next s)
      ∧ (r.stage ≠ .parsed → exec i s = .next s)
      ∧ (∀ c u r1 ld v, served s = some (r, true) → r.stage = .ready → readContext s r.ctx = (some c, u) →
          r1 = { r with asid := c.asid, root := c.root, fring := c.fring, fringRecords := c.records, fringTail := c.tail } →
          loadRun (updRun (journaled id u) id fun _ => r1) r1 = (.ok ld, v) → r.wild = false → slotWritten u r = false → r.pkt.clusters ≤ (freeClusters s).length →
          ∃ t x, exec (.runPlace id) s = .next t ∧ findRun t id = some x ∧ x.stage = .placed ∧ x.startDtc = s.dtc
            ∧ x.places = ((freeClusters s).take r.pkt.clusters).map some
            ∧ ∀ k c j, ((freeClusters s).take r.pkt.clusters)[k]? = some c → j < 32 → r.pkt.leafMask.getLsbD (j % 4) = true →
                let l := getLeaf t (32 * c + j)
                l.run = some id ∧ l.exited = false ∧ l.level = .ordinary ∧ l.pc = BitVec.ofNat 64 ld.entry
                ∧ readS l 1 = BitVec.ofNat 64 (32 * k + j) ∧ readS l 3 = BitVec.ofNat 64 (8 * k + j / 4)
                ∧ (∀ a : Nat, a < 16 → readS l (BitVec.ofNat 6 (4 + a)) = BitVec.ofNat 64 (fieldOf ld.args (8 * a) 8))
                ∧ readS l 20 = r.pkt.data ∧ l.vregs = [] ∧ l.mregs = [] ∧ l.toks = [] ∧ l.fmt = 0 ∧ l.inflight = []
                ∧ (∀ a, a < ld.sheet.length → sheetByte l a = ld.sheet.getD a 0)
                ∧ (∀ a, ld.sheet.length ≤ a → sheetByte l a = 0)
                ∧ l.trapVec = r.pkt.trapv.setWidth 64 ∧ l.emulVec = r.pkt.emulv.setWidth 64))
  ∧ (-- RunsRetire
    ∀ (s : State) (id : Nat) (r : Run) (e : Ending) (d : Word), s.node.spine = true → findRun s id = some r →
      (retireEnding s r = some e → ∃ t, exec (.runRetire id) s = .next t ∧ findRun t id = none
        ∧ ∀ g, (getLeaf t g).run ≠ some id)
      ∧ (runQuiet s r = false → exec (.runRetire id) s = .next s)
      ∧ (runQuiet s r = true → r.stage = .placed → r.ending = none →
          retireEnding s r = some ⟨0, 0xFFFF, 0, 0, 0, none⟩)
      ∧ (∀ x, runQuiet s r = true → r.ending = some x → retireEnding s r = some x)
      ∧ (e.status < 65536 → e.gleaf < 65536 →
          let b := colophonBytes r e d
          b.length = 63 ∧ fieldOf b 0 8 = r.pkt.runId.toNat ∧ fieldOf b 8 2 = e.status ∧ fieldOf b 10 2 = e.gleaf
          ∧ fieldOf b 12 4 = e.cause.toNat ∧ fieldOf b 16 8 = e.pc.toNat ∧ fieldOf b 24 8 = e.fva.toNat
          ∧ fieldOf b 40 8 = r.startDtc.toNat ∧ fieldOf b 48 8 = d.toNat))

/-- R355 to R358: ADDR is written only between descriptors, TAIL only within the ring; a cut removes exactly the cached
translations that its descriptor names; its completion writes CVAL and moves HEAD on, once what it cut off has
performed. That a further cut may be made before an earlier one has completed is log entry 39 (DEDUCED). R390, R391: a
root port that is down asks for nothing; one without an enabled context is told Unsupported Request; DMA and translation
requests go through the port's context, and what an endpoint writes to an interrupt file is pending there. That an
atomic of a device is not supported is log entry 35 (DEDUCED), and that an ATS completion names one cut log entry 40
(DEDUCED). -/
def Obligations.InvalidationAndRootPorts : Prop :=
  (-- InvalidationQueueCuts
    ∀ (s : State) (hart : Nat) (val : Word),
      let v := s.inval
      let home := s.node.package.toNat
      let t16 : BitVec 16 := val.setWidth 16
      let fits := (v.tail - v.head).toNat ≤ (t16 - v.head).toNat ∧ (t16 - v.head).toNat ≤ 2 ^ v.log2n
      let i := v.head + BitVec.ofNat 16 v.cuts.length
      let at_ := v.addr + 32 * (i.toNat % 2 ^ v.log2n)
      let b := memRead s.mem (memKey home (canonAddr at_)) 32
      let fl := fieldOf b 14 1
      let va := fieldOf b 0 8
      let pages := fieldOf b 8 4
      (v.head ≠ v.tail → exec (.invalQueueConfigWrite val) s = .next s)
      ∧ (s.node.invalq = true → v.log2n ≠ 0 → fits → ∃ t, exec (.invalTailWrite hart val) s = .next t ∧ t.inval.tail = t16
          ∧ t.inval.head = v.head ∧ t.inval.overrun = v.overrun ∧ t.mem = s.mem)
      ∧ (s.node.invalq = true → v.log2n ≠ 0 → ¬fits → ∃ t, exec (.invalTailWrite hart val) s = .next t ∧ t.inval.tail = v.tail
          ∧ t.inval.overrun = true ∧ t.mem = s.mem)
      ∧ (s.node.invalq = true → v.log2n ≠ 0 → i ≠ v.tail → s.hist = [] → s.freeMem = [] → v.addr % 4096 = 0 →
          va % 4096 = 0 → fieldOf b 16 8 % 8 = 0 → isHbm (fieldOf b 16 8) = true → fieldOf b 15 1 ≤ 23 → fl < 8 →
          ∃ t, exec .invalCut s = .next t ∧ t.mem = s.mem ∧ t.inval.head = v.head ∧ t.inval.cuts.length = v.cuts.length + 1
            ∧ (∀ x ∈ t.tlb, x ∈ s.tlb)
            ∧ ∀ x ∈ s.tlb, x ∉ t.tlb ↔ ((pages = 0 ∨ (x.base < va + 4096 * pages ∧ va < x.base + x.size))
                ∧ (fl % 2 = 0 ∨ x.asid = BitVec.ofNat 16 (fieldOf b 12 2) ∨ x.global = true) ∧ (x.global = true → fl / 2 % 2 = 1)))
      ∧ (i = v.tail → exec .invalCut s = .next s)
      ∧ (∀ c r, v.cuts = c :: r → c.cpa % 8 = 0 → isHbm c.cpa = true →
          (c.bad = false → cutBusy s c.cut c.id c.users = false → ∃ t, exec .invalCompletion s = .next t
            ∧ Stored s t home c.cpa 8 (fun k => c.cval.extractLsb' (8 * k) 8) ∧ t.inval.head = v.head + 1 ∧ t.inval.cuts = r)
          ∧ (c.bad = true → ∃ t, exec .invalCompletion s = .next t ∧ Stored s t home c.cpa 8 (fun _ => 0xFF)
            ∧ t.inval.head = v.head + 1 ∧ t.inval.cuts = r)
          ∧ (c.bad = false → cutBusy s c.cut c.id c.users = true → exec .invalCompletion s = .next s))
      ∧ (v.cuts = [] → exec .invalCompletion s = .next s)
      ∧ (s.node.invalq = true → v.head = v.tail → ringInWindow (val &&& 0x0000_FFFF_FFFF_F000#64).toNat (val.extractLsb' 0 4).toNat
          = true → 4 ≤ (val.extractLsb' 0 4).toNat → (val.extractLsb' 0 4).toNat ≤ 12 →
          exec (.invalQueueConfigWrite val) s = .next { s with inval := { v with
            addr := (val &&& 0x0000_FFFF_FFFF_F000#64).toNat, log2n := (val.extractLsb' 0 4).toNat } }))
  ∧ (-- RootPortsTranslate
    ∀ (s : State) (port cut : Nat) (va : Word) (write : Bool) (acc : BusAccess),
      let up := port < 4 ∧ s.node.root.getLsbD port = true
      let told := fun (t : State) (ok : Bool) (w : Word) => t.reply.ok = ok ∧ t.reply.value = w
      (¬up → exec (.dmaRequest port acc) s = .next s ∧ exec (.atsTranslationRequest port va write) s = .next s)
      ∧ (up → s.node.ctxEn.getLsbD port = false → ∃ t u, exec (.dmaRequest port acc) s = .next t ∧ told t false 0 ∧ t.mem = s.mem
          ∧ exec (.atsTranslationRequest port va write) s = .next u ∧ told u false 0 ∧ u.mem = s.mem)
      ∧ (∀ c u, up → portContext s port = (some c, u) →
          let rd := agentReader u (portObs port) 1
          let kind : Kind := if write then .w else .r
          (∀ x w, translate u rd c.asid c.root false va.toNat kind = (.ok x, w) →
            ∃ t, exec (.atsTranslationRequest port va write) s = .next t ∧ told t true (BitVec.ofNat 64 x.pa) ∧ t.mem = s.mem)
          ∧ (∀ n b rels w, readVirt u rd c.asid c.root false .r va.toNat n = (.ok (b, rels), w) →
            ∃ t, exec (.dmaRequest port (.load va n)) s = .next t ∧ told t true (BitVec.ofNat 64 (bytesNat b)) ∧ t.mem = s.mem)
          ∧ (∀ b rel x w, b.length ≤ 4096 - va.toNat % 4096 → b ≠ [] → x.pa % 4096 = va.toNat % 4096 →
            translateAll u rd c.asid c.root false .w (pageSplit va.toNat b.length) = (.ok [x], w) → x.cache ≠ 3 →
            ∃ t, exec (.dmaRequest port (.store va b rel)) s = .next t ∧ told t true 0
              ∧ Stored s t x.pkg x.pa b.length (fun k => b.getD k 0))
          ∧ (∀ hart level identity, hart < 24 → identity ≠ 0 → ∃ t m, exec (.dmaRequest port (.msi hart level identity)) s = .next t
              ∧ told t true 0 ∧ m ∈ t.msis ∧ m.hart = hart ∧ m.level = level ∧ m.identity = identity ∧ t.mem = s.mem)
          ∧ ∀ op ext rm n d e ar, ∃ t, exec (.dmaRequest port (.atom op ext rm va n d e ar)) s = .next t ∧ told t false 0
              ∧ t.mem = s.mem)
      ∧ ∃ t, exec (.atsInvalidationCompletion port cut) s = .next t ∧ t.mem = s.mem ∧ (port, cut) ∉ t.atsReqs
          ∧ (∀ r ∈ s.atsReqs, r ≠ (port, cut) → r ∈ t.atsReqs))

/-- R386 to R389: a package reset leaves no run, leaf, queue or cached translation; the functions come up in their
order, each group after the ones before it; GO fixes ACCEPT and takes KEYTAB and FABRIC away where they were not
accepted. That a reset keeps the straps and the images in flash is log entry 11 (DEDUCED), the grouping of the stages
log entry 12 (DESIGN CHOICE), and that ACCEPT is 1 after it log entry 42 (DEDUCED: R386's table gives 0, R389 has bit 0
read 1). R395, R396: TRIAL starts a verification; a good image becomes the active one of the two slots, on trial under
the watchdog, and the spine restarts; COMMIT ends the trial, and an expired watchdog goes back to the slot before. What
an expiry finds is log entry 76 (DEDUCED); which journal records a mismatch may find open is log entry 74 (DESIGN
CHOICE). -/
def Obligations.BootAndFirmware : Prop :=
  (-- ResetBootAndFeatures
    ∀ (s : State) (k : Nat) (val : Word),
      let n := s.node
      let up := fun (m : Node) => (Host.Outcome.next { s with node := m } : Out)
      let boot := fun j => exec (.packageReset j) s
      (∃ t, boot 0 = .next t ∧ t.runs = [] ∧ t.leaves = [] ∧ t.quires = [] ∧ t.queues = [] ∧ t.tlb = [] ∧ t.ptrs = [] ∧ t.keys = []
        ∧ t.dtc = 0 ∧ t.node.package = n.package ∧ t.node.offer = n.offer ∧ t.node.app = false ∧ t.node.done = false
        ∧ t.node.accept = 1 ∧ t.node.hbm = 0 ∧ t.node.half = 0 ∧ t.node.spine = false)
      ∧ (1 ≤ k → k ≤ 12 → boot k = up { n with hbm := n.hbm ||| (1#12 <<< (k - 1)) })
      ∧ (n.hbm = 0xFFF → boot 13 = up { n with half := n.half ||| 1 } ∧ boot 14 = up { n with half := n.half ||| 2 })
      ∧ (n.hbm ≠ 0xFFF → ∀ j, 13 ≤ j → j ≤ 19 → boot j = .next s)
      ∧ (n.hbm = 0xFFF → n.half = 3 → s.fw.recovering = false → s.fw.stopped = false → boot 15 = up { n with spine := true }
          ∧ boot 16 = up { n with launch := true } ∧ boot 17 = up { n with invalq := true })
      ∧ (n.hbm = 0xFFF → n.half = 3 → boot 18 = up { n with keytab := !n.done || n.accept.getLsbD 7 })
      ∧ (n.half ≠ 3 → ∀ j, 15 ≤ j → j ≤ 19 → boot j = .next s)
      ∧ (n.hbm = 0xFFF → n.half = 3 → n.spine = true → n.launch = true → n.invalq = true → n.keytab = true →
          boot 19 = up { n with app := true })
      ∧ (val.getLsbD 0 = true → n.done = false → exec (.featuresGo val) s = up { n with
          done := true, keytab := n.keytab && n.accept.getLsbD 7, fabric := n.fabric && n.accept.getLsbD 8 })
      ∧ (val.getLsbD 0 = false ∨ n.done = true → exec (.featuresGo val) s = .next s))
  ∧ (-- FirmwareTrials
    ∀ (s : State) (val : Word) (version : BitVec 32) (incomplete : List Nat),
      let f := s.fw
      (val.getLsbD 1 = true → f.trialActive = false → f.recovering = false → f.verifying = false → s.node.spine = true →
          exec (.fwTrial val) s = .next { s with fw := { f with verifying := true } })
      ∧ (val.getLsbD 1 = false ∨ f.trialActive = true → exec (.fwTrial val) s = .next s)
      ∧ (f.verifying = true → s.node.spine = true → ∃ t, exec (.fwImageVerified true version) s = .next t
          ∧ t.fw = { f with verifying := false, slot := !f.slot, version := version, standbyValid := true,
                            standbyVersion := f.version, trialActive := true, watchdogLeft := f.watchdog.toNat * 1000000,
                            recovering := true }
          ∧ t.node = { s.node with spine := false } ∧ t.mem = s.mem ∧ t.runs = s.runs)
      ∧ (f.verifying = true → s.node.spine = true → ∃ t, exec (.fwImageVerified false version) s = .next t
          ∧ t.fw = { f with verifying := false, badImg := true } ∧ t.node = s.node ∧ t.mem = s.mem)
      ∧ (val.getLsbD 2 = true → f.trialActive = true → f.reverting = false → f.watchdogLeft ≠ 0 →
          ∃ t, exec (.fwCommit val) s = .next t ∧ t.fw = { f with trialActive := false } ∧ t.node = s.node ∧ t.mem = s.mem)
      ∧ (f.trialActive = false ∨ f.watchdogLeft = 0 → exec (.fwCommit val) s = .next s)
      ∧ (f.trialActive = true → f.reverting = false → f.watchdogLeft = 0 → f.stopped = false →
          ∃ t, exec .commitWatchdogExpiry s = .next t ∧ t.fw = { f with
            slot := !f.slot, version := f.standbyVersion, standbyVersion := f.version, reverting := true, reverted := true,
            recovering := true }
          ∧ t.node = { s.node with spine := false })
      ∧ (f.trialActive = false ∨ f.watchdogLeft ≠ 0 → exec .commitWatchdogExpiry s = .next s)
      ∧ (f.recovering = true → exec (.spineMismatch incomplete) s = .next
          { s with fw := { f with recovering := false, stopped := true } })
      ∧ (f.recovering = false → s.node.spine = true → (s.runs.map fun r => r.id).Nodup →
          ∃ t, exec (.spineMismatch incomplete) s = .next t ∧ t.fw.recovering = true ∧ t.node.spine = false ∧ t.mem = s.mem
            ∧ t.journal = []
            ∧ ∀ r ∈ s.runs, ∃ x, findRun t r.id = some x
                ∧ x.ending = (if r.id ∈ incomplete ∧ recordOpen s r = true then some ⟨6, 0xFFFF, 0, 0, 0, none⟩ else r.ending)
                ∧ (¬(r.id ∈ incomplete ∧ recordOpen s r = true) → x = r)
                ∧ (r.id ∈ incomplete → recordOpen s r = true → r.ending = none → x.stage = .ended ∧ x.saved = []))
      ∧ (f.recovering = true → ∃ t, exec .recoveryEnd s = .next t ∧ t.node = { s.node with spine := true } ∧ t.mem = s.mem
          ∧ t.fw = { f with recovering := false, reverting := false, trialActive := f.trialActive && !f.reverting })
      ∧ (f.recovering = false → exec .recoveryEnd s = .next s))

/-- R20, R181, R201, R390, R393, R397, R398, R418: ticks, refresh, power, links, the domain, the key table, and which
register writes have an effect. Which reports of power and temperature may come is log entry 77 (DEDUCED), that a write
of ACCEPT keeps bit 0 log entry 42 (DEDUCED), and that CTX takes no write while ROOT is 0 log entry 41 (DEDUCED). R22,
R215, R223, R246, R352, R388: what an application core's and another package's accesses do to memory that is ready; a
core's access outside the map is told its access fault, one behind the root complex is refused, and hgatp takes no MODE
15. The codes a core is told are log entry 31 (PRESUMED), what LR and SC do log entry 29 (DESIGN CHOICE), and the
refusal `pcieDevice` log entry 33 (DEDUCED). -/
def Obligations.NodeAndOutsideAgents : Prop :=
  (-- NodeEventsAct
    ∀ (s : State) (k w : Nat) (val : Word) (power tj clock vcore : BitVec 16) (period : BitVec 20) (agent : RegAgent),
      let n := s.node
      let e := mapGet s.keys k .reset
      (∃ t, exec .dtcTick s = .next t ∧ t.dtc = s.dtc + 1 ∧ t.mem = s.mem ∧ t.leaves = s.leaves
        ∧ (s.wsNext = none → t.wsPeriod = s.wsPeriod))
      ∧ (0 < period.toNat → period.toNat < s.wsPeriod.toNat →
          exec (.refreshPeriodChange period) s = .next { s with wsNext := some period })
      ∧ (s.wsPeriod.toNat ≤ period.toNat → exec (.refreshPeriodChange period) s = .next s)
      ∧ (power.toNat ≤ min 3200 (max 1200 n.limit.toNat) → tj.toNat ≤ 105 → exec (.powerGovernorEvaluate power tj clock vcore) s
          = .next { s with node := { n with power := power, tj := tj, clock := clock, vcore := vcore } })
      ∧ (k < 4 → n.app = true → ∃ t u, exec (.rootLinkUp k) s = .next t ∧ t = { s with node := { n with root := t.node.root } }
          ∧ (∀ j, t.node.root.getLsbD j = (n.root.getLsbD j || decide (j = k)))
          ∧ exec (.rootLinkDown k) s = .next u ∧ u = { s with node := { n with root := u.node.root } }
          ∧ ∀ j, u.node.root.getLsbD j = (n.root.getLsbD j && decide (j ≠ k)))
      ∧ (n.fabric = false → n.app = true → n.done = false → n.package.toNat < k → k ≤ 128 → exec (.headbandDomainFormed k) s
          = .next { s with node := { n with domain := BitVec.ofNat 8 k, fabric := true }, lostPkgs := [] })
      ∧ (n.fabric = true ∨ n.app = false → exec (.headbandDomainFormed k) s = .next s)
      ∧ (∀ addr, exec (.i3cEntdaa addr) s = .next { s with i3cAddr := some addr })
      ∧ (s.leaves = [] → s.arrivals = [] → s.flips = [] → k < 64 → ∃ t, exec (.headbandPortFailure k [w]) s = .next t ∧ k ∈ t.lostPorts
          ∧ (w ≠ n.package.toNat → w ∈ t.lostPkgs) ∧ t.mem = s.mem)
      ∧ (n.keytab = true → k < 4096 → w < 8 → ∃ t x, exec (.keyEntryWrite k w val) s = .next t ∧ mapGet t.keys k .reset = x
          ∧ (∀ j, j < 8 → x.key.extractLsb' (64 * j) 64 = if j = w then val else e.key.extractLsb' (64 * j) 64)
          ∧ x.valid = e.valid ∧ x.asid = e.asid ∧ x.version = e.version
          ∧ ∀ j, j ≠ k → mapGet t.keys j .reset = mapGet s.keys j .reset)
      ∧ (n.keytab = true → k < 4096 → ∃ t, exec (.keyEntryWrite k 8 val) s = .next t ∧ mapGet t.keys k .reset
          = { e with valid := val.getLsbD 63, asid := val.extractLsb' 32 16, version := val.extractLsb' 0 32 })
      ∧ (n.keytab = false → exec (.keyEntryWrite k w val) s = .next s)
      ∧ ((w ≠ 8 ∨ k % 8 ≠ 0) → exec (.registerWrite agent k w val) s = .next s)
      ∧ (exec (.registerWrite (.core w) 0x3000_0000_0000 8 val) s = .next s)
      ∧ (exec (.registerWrite (.core w) 0x3000_0000_00C0 8 val) s = .next { s with node := { n with limit := val.setWidth 16 } })
      ∧ (n.done = false → exec (.registerWrite (.core w) 0x3000_0000_0040 8 val) s = .next { s with node := { n with
          accept := (((n.accept &&& ~~~0xFFFFFFFFFFFFFFFF#256) ||| val.setWidth 256) &&& n.offer) ||| 1 } })
      ∧ (n.done = true → exec (.registerWrite (.core w) 0x3000_0000_0040 8 val) s = .next s)
      ∧ (∀ j, j < 4 → n.root.getLsbD j = false → exec (.registerWrite (.core w) (0x3000_0000_0100 + 8 * j) 8 val) s = .next s)
      ∧ (s.i3cAddr = none → exec (.registerWrite .i3c k w val) s = .next s))
  ∧ (-- OutsideAgentsAccessMemory
    ∀ (s : State) (hart pkg pa n : Nat) (io aq rl : Bool) (b : List Byte) (d : Word) (deps : List Nat),
      s.hist = [] → s.freeMem = [] → (getCore s hart).pending = [] → s.privLines = [] → (∀ r ∈ s.runs, r.stage ≠ .placed) →
      n = 1 ∨ n = 2 ∨ n = 4 ∨ n = 8 → pa % n = 0 → b.length = n →
      let home := s.node.package.toNat
      let key := memKey home (canonAddr pa)
      let m := bytesNat (memRead s.mem key n)
      let core := fun (a : CoreAccess) => exec (.applicationCoreAccess hart a) s
      let told := fun (t : State) (w : Nat) => t.reply.ok = true ∧ t.reply.value = BitVec.ofNat 64 w
      let at_ : CoreAddr := .phys pa io
      (s.node.app = false ∨ 24 ≤ hart → ∀ a, core a = .next s)
      ∧ (s.node.app = true → hart < 24 → region pa = .none → isPcie pa = false →
          core (.load at_ n deps) = .next { s with reply := ⟨false, 5⟩ }
          ∧ ∀ held, core (.store at_ b held deps) = .next { s with reply := ⟨false, 7⟩ })
      ∧ (s.node.app = true → hart < 24 → 0x3000_1000_0000 ≤ pa → pa < 0x3000_2000_0000 →
          core (.load at_ n deps) = .refused .pcieDevice)
      ∧ (s.node.app = true → hart < 24 → ∃ t, core .dtc = .next t ∧ told t s.dtc.toNat ∧ t.mem = s.mem)
      ∧ (s.node.app = true → hart < 24 → ∃ t, core (.csr .hgatp d) = .next t ∧ told t 0 ∧ t.mem = s.mem
          ∧ getCore t hart = { getCore s hart with hgatp := if d.extractLsb' 60 4 = 15 then (getCore s hart).hgatp else d })
      ∧ (s.node.app = true → hart < 24 → hbmReady s pa = true →
          (∃ t, core (.load at_ n deps) = .next t ∧ told t m ∧ t.mem = s.mem ∧ t.leaves = s.leaves)
          ∧ (∃ t, core (.store at_ b false deps) = .next t ∧ told t 0 ∧ Stored s t home pa n (fun i => b.getD i 0))
          ∧ (io = false → ∃ t u v, core (.store at_ b true deps) = .next t ∧ told t 0 ∧ t.mem = s.mem
              ∧ exec (.applicationCoreAccess hart (.load at_ n [])) t = .next u ∧ told u (bytesNat b) ∧ u.mem = s.mem
              ∧ exec (.applicationCoreAccess hart (.drain 0)) t = .next v ∧ Stored s v home pa n (fun i => b.getD i 0))
          ∧ (∃ t, core (.amo .add at_ n d aq rl) = .next t ∧ told t m
              ∧ Stored s t home pa n (fun i => BitVec.ofNat 8 ((m + d.toNat) / 256 ^ i)))
          ∧ (∃ t, core (.lr at_ n aq) = .next t ∧ told t m ∧ t.mem = s.mem
              ∧ (io = false → mapFind t.resv hart = some (key, n)))
          ∧ (mapFind s.resv hart = some (key, n) → io = false → ∃ t, core (.sc at_ n d rl) = .next t
                ∧ (told t 0 ∧ Stored s t home pa n (fun i => d.extractLsb' (8 * i) 8) ∨ told t 1 ∧ t.mem = s.mem ∧ mapFind t.resv hart = none))
          ∧ (mapFind s.resv hart ≠ some (key, n) ∨ io = true → ∃ t, core (.sc at_ n d rl) = .next t ∧ told t 1
              ∧ t.mem = s.mem ∧ mapFind t.resv hart = none))
      ∧ (s.node.fabric = true → pkg ≠ home → remoteReachable s pkg = true → hbmReady s pa = true →
          (∃ t, exec (.headbandRequestArrival pkg (.load (BitVec.ofNat 64 pa) n)) s = .next t ∧ told t m ∧ t.mem = s.mem)
          ∧ ∃ t, exec (.headbandRequestArrival pkg (.store (BitVec.ofNat 64 pa) b rl)) s = .next t ∧ told t 0
              ∧ Stored s t home pa n (fun i => b.getD i 0))
      ∧ (s.node.fabric = false ∨ pkg = home → ∀ a, exec (.headbandRequestArrival pkg a) s = .next s))

/-- R26 to R32, R57 to R63: what the encoder writes for a well-formed instruction the decoder reads back, operand for
operand; what the decoder accepts is well formed and is written back bit for bit, so no word has two meanings; the
encoder answers for every instruction of a slot (the ones it does not are the package's own events, which no word
encodes); and a bundle that holds one operation reads as that operation. -/
def Obligations.DecodeInvertsEncode : Prop :=
  (∀ (i : Instr) (sl : Slot) (w : Word), i.wf = true → encodeSlot i = some (sl, w) → decodeSlot sl w = .ok i)
  ∧ (∀ (sl : Slot) (w : Word) (i : Instr), decodeSlot sl w = .ok i → i.wf = true ∧ encodeSlot i = some (sl, w))
  ∧ (∀ i : Instr, (encodeSlot i).isSome = (match i with
      | .blockedBundleResume _ | .loadDataArrival _ _ | .freezeLimitPark _ | .gsyncLineAssert _ |
      .selectorBundleLimit _ | .trapEntry _ | .sheetRefill _ _ | .walkComplete _ _ _ | .logEntryPerform _ _ |
      .copyRelease _ _ | .copyBlock _ _ _ | .copyPerform _ _ | .operationFire _ _ | .pressPass _ _ |
      .operationComplete _ _ | .epiStage _ _ | .epiSegmentStore _ _ _ | .sewStepPass _ | .foldColumnRead _ _ |
      .sewstSegmentStore _ _ | .sewingOpComplete _ | .signatureOpComplete _ _ | .spillTransitComplete _ _ |
      .kettleReleaseAck _ _ _ | .kettleUpwardArrival _ | .kettleFlip _ _ | .preemptRequest _ _ | .gangSwitch _ _ |
      .gangRestore _ _ | .segmentLoad _ | .packageReset _ | .launchQueueConfigWrite _ _ | .launchTailWrite _ _ _ |
      .queueReset _ | .killGo _ | .queueSwitch _ | .packetParse _ | .runReady _ | .runPlace _ | .runRetire _ |
      .invalQueueConfigWrite _ | .invalTailWrite _ _ | .invalCut | .invalCompletion | .keyEntryWrite _ _ _ |
      .featuresGo _ | .fwTrial _ | .fwImageVerified _ _ | .fwCommit _ | .commitWatchdogExpiry | .spineMismatch _ |
      .recoveryEnd | .powerGovernorEvaluate _ _ _ _ | .rootLinkUp _ | .rootLinkDown _ | .dmaRequest _ _ |
      .atsTranslationRequest _ _ _ | .atsInvalidationCompletion _ _ | .headbandPortFailure _ _ |
      .faultServiceResponse _ | .i3cEntdaa _ | .registerWrite _ _ _ _ | .dtcTick | .refreshPeriodChange _ |
      .headbandDomainFormed _ | .headbandRequestArrival _ _ | .applicationCoreAccess _ _ => false
      | _ => true))
  ∧ ∀ (i : Instr) (b : Bundle), i.wf = true → encode i = some b →
      decodeTableWord 512 b.toNat = some (if i.isNop then .nop .s else i)

/-- Slot values that the spec writes out in its worked examples decode to the instructions they stand for, and words it calls
reserved or illegal are refused by name. -/
def Obligations.SampleWordsDecode : Prop :=
  decodeSlot .s 0x030C_0800_0000_0010 = .ok (.addi ⟨3, false, .reg 2, 16⟩)
  ∧ decodeSlot .va 0x5401_4001_C006_0000 = .ok (.vfadd ⟨.a, .f, 5, false, ⟨.reg 3, 0⟩, ⟨.latch 3, 0⟩, 0⟩)
  ∧ decodeSlot .vb 0xB405_0004_0000_0000 = .ok (.vradd ⟨.f, 20, false, ⟨.reg 8, 0⟩, 0⟩)
  ∧ decodeSlot .k 0x0E00_4000_0004 = .ok (.loopi ⟨4, 4⟩)
  ∧ decodeSlot .k 0x0504_3000_0004 = .ok (.beq ⟨1, 3, 4⟩)
  ∧ decodeSlot .k 0x1710_0034_0000 = .ok (.karv ⟨4, 3, true⟩)
  ∧ decodeSlot .x 0x0408_0110_6000 = .ok (.xcvt ⟨4, false, 2, 4, 3, 0⟩)
  ∧ decodeSlot .g 0x0207_1064_0002 = .ok (.gld ⟨7, .reg 8, 12, 2, false, false, 2⟩)
  ∧ decodeSlot .p 0x0C28_064C_14A0_0100 = .ok (.pgth ⟨40, .reg 3, 9, 41, 2, 0x100⟩)
  ∧ decodeSlot .c 0x0540_1558_80C3 = .ok (.copy ⟨3, 20, 0, 21, 22, 2, true, true, false, false⟩)
  ∧ decodeSlot .m 0x0C65_1600_3800 = .ok (.epi ⟨3, 10, 11, false, 3, true⟩)
  ∧ decodeSlot .s 0x2B00_0000_0000_0000 = .error .illegalOp
  ∧ decodeSlot .s 0x030C_0801_0000_0010 = .error .illegalOp
  ∧ decodeSlot .s 0x030E_0800_0000_0010 = .error .illegalOp
  ∧ decodeSlot .va 0xB405_0004_0000_0000 = .error .illegalOp
  ∧ decodeSlot .x 0x0408_0128_6000 = .error .formatEmul
  ∧ decodeSlot .x 0x0408_0130_6000 = .error .illegalFmt
  ∧ ∀ b : Bundle, b.extractLsb' 14 2 ≠ 2#2 ∨ b.extractLsb' 0 12 ≠ 0#12 → decodeBundle b = .error (.illegalBundle, none)

/-- R18, R21, R30, R323: the step that gives a quire its issue cycle runs the operations that the bundle at its leaf's
index decodes to, each as `exec` says, and then passes the boundary, and the leaf selector goes on where the leaf has
parked; for a bundle of one operation that is `exec` of it. An always-blocking bundle has every result landed first.
`openReads` settles the reads that R50 leaves open, of which there are none but after a conditionally blocking bundle.
Other steps are one event each; an empty agenda is refilled. That one step is one choice of an agenda, and what refills
it, is log entry 3 (DESIGN CHOICE); the order of a bundle's effects is log entry 13 (DEDUCED). A SEWRUN's program and
an SHCFG's descriptor, which the checks read, are the ones that the effect takes. -/
def Obligations.StepIssuesTheBundle : Prop :=
  (∀ (s : State) (i : Instr) (r : List Choice), s.agenda = .event i :: r → step s = exec i { s with agenda := r })
  ∧ (∀ s : State, s.agenda = [] → step s = .next { s with agenda := cycle s })
  ∧ ∀ (s : State) (q g : Nat) (r : List Choice) (is : List Instr), s.agenda = .issue q :: r →
    aheadOf { s with agenda := r } q = false → chooseLeaf { s with agenda := r } q = some g →
    let s0 := selectLeaf { s with agenda := r } g
    let l := s0.leaf
    let sd := s0.upd fun l => landFmt (landDue l)
    let blocks := is.any Instr.alwaysBlocks
    let s1 := if blocks then s0.upd fun l => landFmt (drained l) else sd
    let s2 := openReads s1
    let s3 := readsProgram is s2
    let after := fun (o : Out) => match o with
      | .next t =>
        .next (passQuire (finishBundle { t with phase := .alone } g (passSegment s1) blocks (mayBlock is (fetchBundle s1)) s1.leaf) g blocks)
      | o => o
    dueHere l (drainAhead s0) = none → l.rteDue = false → l.blocked = false → l.wait = .none → stopping s0 g = false → dueArrived l = true →
    l.pc.toNat ≤ 4095 → headerSeg (fetchBundle s0) = false → headerGsync (fetchBundle s0) = false →
    fmtBad sd.leaf.fmt = false → (∀ sl ∈ Slot.all, slotCode sl ≠ l.skipSlot) → decodeBundle (fetchBundle s0) = .ok is →
    (∀ i ∈ is, i.ctxIllegal (decodeCtx sd) = false) →
    (blocks = true → allArrived l = true) → copyBlocked is s2 = false → bundleFull is s2 = false →
    firstIssueCause is s2 = none →
    (∀ i ∈ is, issueWaits i s2 = false
      ∧ ∀ n ∈ issueTouches i s2, resident (getQuire s2 (quireOf g)) g n = true) →
    step s = after (runEffects exec (effectOrder is) (countIssue s3))
    ∧ (∀ i, (is.filter fun j => !j.isNop) = [i] → step s = after (exec i { countIssue s3 with phase := .effect }))
    ∧ ((∀ f, .sewrun f ∉ is) → (∀ f, .shcfg f ∉ is) → s3 = s2)
    ∧ (s1.leaf.doubts = .none → s2 = s1)

/-- The model's memory has one form: addresses rise and no listed byte is zero (log entry on memory). Every step of the package
keeps it, whatever the state. -/
def Obligations.StepsKeepMemoryCanonical : Prop :=
  ∀ s t : State, Memory.wf s.mem = true → step s = .next t → Memory.wf t.mem = true

/-- R7, R20, R44, R96, R114, R162, R181, R182, R227, R281, R326 to R328, R364, R385, R386, R397: every register whose
reset value the spec gives holds it, read as the register page, SYSRD and the operand reads give it, HBM_POLICY and the
other pages of functions that are not ready as they read once READY shows them; nothing runs, and memory lists nothing.
A leaf's registers, latches, sheet space, tiles and queues are as R373 gives them for the start of a run; that they are
so already at package reset, and the pc 0, is log entry 9 (DESIGN CHOICE), that kettles are as R227 sets them likewise.
That bit 0 of ACCEPT is 1 is log entry 42 (DEDUCED: R386's table gives 0), and what memory holds is log entry 8 (DESIGN
CHOICE). -/
def Obligations.ResetState : Prop :=
  let s := State.reset
  let up := { s with node := { s.node with launch := true, invalq := true, keytab := true } }
  let load := fun (a : Nat) => regLoad up a 8
  Memory.wf s.mem = true ∧ s.mem = [] ∧ s.dtc = 0 ∧ s.runs = [] ∧ s.tlb = [] ∧ s.msis = [] ∧ s.arrivals = [] ∧ s.flips = []
  ∧ s.services = [] ∧ s.node.domain = 1
  ∧ (∀ o ∈ [0x048, 0x050, 0x058, 0x060, 0x0B0, 0x0C8, 0x100, 0x108, 0x110, 0x118], load (0x3000_0000_0000 + o) = 0)
  ∧ regLoad s 0x3000_0000_0000 8 = 0 ∧ load 0x3000_0000_0040 = 1 ∧ load 0x3000_0000_0080 = 0x100
  ∧ load 0x3000_0000_00A0 = 0x0000_2710_0000_0000 ∧ (load 0x3000_0000_00A8).extractLsb' 2 4 = 0 ∧ load 0x3000_0000_00C0 = 0x0C80
  ∧ (∀ k, k < 12 → load (0x3000_0002_0000 + 8 * k) = 0x0040)
  ∧ (∀ n, n < 256 → load (0x3000_0001_0000 + 0x40 * n) = 0 ∧ load (0x3000_0001_0018 + 0x40 * n) = 0)
  ∧ (∀ o ∈ [0x00, 0x08, 0x10], load (0x3000_0001_4000 + o) = 0)
  ∧ (∀ o ∈ [0x00, 0x08, 0x10, 0x18], load (0x3000_0004_0000 + o) = 0)
  ∧ (∀ n, n < 4096 → load (0x3000_0010_0040 + 128 * n) = 0)
  ∧ (∀ c k, let x := getKettle s c k
      x.phase = 0 ∧ x.arr = 0 ∧ x.child = 0 ∧ x.carr = [] ∧ x.hasParent = false
      ∧ (k < 64 → x.state = .open_ ∧ x.extent = 2 ∧ x.member = 0 ∧ x.arrived = 0 ∧ x.next = 0) ∧ (64 ≤ k → x.state = .idle))
  ∧ (∀ q, let y := getQuire s q
      y.segs = [] ∧ y.frames = [] ∧ y.copies = [] ∧ y.staging = [] ∧ y.ribbon = [] ∧ y.gsync = .idle ∧ y.freeze = 0)
  ∧ ∀ g, let l := getLeaf s g
      let sys := readSys { s with cur := g }
      l.run = none ∧ l.exited = false ∧ l.level = .ordinary ∧ l.pc = 0
      ∧ (∀ r, readS l r = 0) ∧ (∀ r, readV l r = 0) ∧ (∀ r, readM l r = 0) ∧ (∀ r, readLatch l r = 0)
      ∧ (∀ r, readTok l r = 0) ∧ (∀ r, readBond l r = 1) ∧ (∀ r, getFeed l r = ⟨0, 0⟩) ∧ (∀ a, sheetByte l a = 0)
      ∧ l.fmt = 0 ∧ l.inflight = [] ∧ l.olog = [] ∧ l.tlog = [] ∧ l.skipSlot = 0 ∧ l.task = 0 ∧ l.selSeg = none ∧ l.curSeg = none
      ∧ sys 2 = 0x0800 ∧ sys 7 = BitVec.ofNat 64 (0x07A12 * 2 ^ 20 + 0x140 * 2 ^ 8)
      ∧ (∀ n, n ≠ 2 → n ≠ 7 → n ≠ 14 → sys n = 0)
      ∧ (∀ h, (getHandle l h).cfg = false ∧ (getHandle l h).gen = 0 ∧ (getHandle l h).word = 0)
      ∧ (∀ q, (getBuf l q).cap = 0 ∧ (getBuf l q).faulted = false) ∧ (∀ z k, k < 1024 → (tileList (getTile l z)).getD k 0 = 0)
      ∧ (∀ x, (getShelf l x).cfg = none ∧ (getShelf l x).newest = none)
      ∧ l.pq = [] ∧ l.tq = [] ∧ l.sewCfg.cap = 0 ∧ l.sewq = [] ∧ l.sigq = [] ∧ l.sigtq = []
end

