-- ==== Sys2Proof/Laws/Maps.lean ====
section
/-! SUPPORT. Reading a sparse map after a write: the written key reads as what was written, every other key as before. -/

namespace Sys2Proof.Machine

theorem mapFind_mapPut_same {α : Type} (m : Map α) (k : Nat) (v : α) : mapFind (mapPut m k v) k = some v := by
  induction m with
  | nil => simp [mapPut, mapFind]
  | cons p r ih =>
    obtain ⟨j, a⟩ := p
    unfold mapPut
    split
    · simp [mapFind]
    · split
      · simp [mapFind]
      · simp [mapFind, ih]; omega

theorem mapFind_mapPut_ne {α : Type} (m : Map α) {k j : Nat} (v : α) (h : j ≠ k) :
    mapFind (mapPut m k v) j = mapFind m j := by
  induction m with
  | nil => simp [mapPut, mapFind, Ne.symm h]
  | cons p r ih =>
    obtain ⟨i, a⟩ := p
    unfold mapPut
    split
    · rw [mapFind, if_neg (Ne.symm h)]
    · split
      · next hi => subst hi; rw [mapFind, if_neg (Ne.symm h), mapFind, if_neg (Ne.symm h)]
      · simp only [mapFind, ih]

theorem mapFind_mapDel_same {α : Type} (m : Map α) (k : Nat) : mapFind (mapDel m k) k = none := by
  induction m with
  | nil => rfl
  | cons p r ih =>
    obtain ⟨i, a⟩ := p
    by_cases h : i = k
    · simpa [mapDel, h] using ih
    · simp only [mapDel, List.filter, show (i != k) = true by simpa using h, mapFind, h, if_false] at ih ⊢
      exact ih

theorem mapFind_mapDel_ne {α : Type} (m : Map α) {k j : Nat} (h : j ≠ k) : mapFind (mapDel m k) j = mapFind m j := by
  induction m with
  | nil => rfl
  | cons p r ih =>
    obtain ⟨i, a⟩ := p
    unfold mapDel at ih ⊢
    by_cases hi : i = k
    · subst hi
      simp only [List.filter, bne_self_eq_false, mapFind, if_neg (Ne.symm h)]
      exact ih
    · simp only [List.filter, show (i != k) = true by simpa using hi, mapFind, ih]

@[simp] theorem mapGet_mapPut_same {α : Type} (m : Map α) (k : Nat) (v d : α) : mapGet (mapPut m k v) k d = v := by
  simp [mapGet, mapFind_mapPut_same]

theorem mapGet_mapPut_ne {α : Type} (m : Map α) {k j : Nat} (v d : α) (h : j ≠ k) :
    mapGet (mapPut m k v) j d = mapGet m j d := by
  simp [mapGet, mapFind_mapPut_ne m v h]

@[simp] theorem mapGet_mapSet_same {α : Type} [DecidableEq α] (m : Map α) (k : Nat) (d v : α) :
    mapGet (mapSet m k d v) k d = v := by
  unfold mapSet
  split
  · next h => simp [mapGet, mapFind_mapDel_same, h]
  · simp

theorem mapGet_mapSet_ne {α : Type} [DecidableEq α] (m : Map α) {k j : Nat} (d v e : α) (h : j ≠ k) :
    mapGet (mapSet m k d v) j e = mapGet m j e := by
  unfold mapSet
  split
  · simp [mapGet, mapFind_mapDel_ne m h]
  · exact mapGet_mapPut_ne m v e h

/-! ### Leaves and quires -/

@[simp] theorem getLeaf_setLeaf_same (s : State) (g : Nat) (l : Leaf) : getLeaf (setLeaf s g l) g = l := by
  simp [getLeaf, setLeaf]

theorem getLeaf_setLeaf_ne (s : State) {g h : Nat} (l : Leaf) (hn : h ≠ g) : getLeaf (setLeaf s g l) h = getLeaf s h := by
  simp [getLeaf, setLeaf, mapGet_mapPut_ne _ _ _ hn]

@[simp] theorem getLeaf_updLeaf_same (s : State) (g : Nat) (f : Leaf → Leaf) :
    getLeaf (updLeaf s g f) g = f (getLeaf s g) := by
  simp [updLeaf]

theorem getLeaf_updLeaf_ne (s : State) {g h : Nat} (f : Leaf → Leaf) (hn : h ≠ g) :
    getLeaf (updLeaf s g f) h = getLeaf s h := by
  simp [updLeaf, getLeaf_setLeaf_ne s _ hn]

@[simp] theorem leaf_upd (s : State) (f : Leaf → Leaf) : (s.upd f).leaf = f s.leaf := by
  show getLeaf (updLeaf s s.cur f) s.cur = f (getLeaf s s.cur)
  simp

theorem getLeaf_upd_ne (s : State) {h : Nat} (f : Leaf → Leaf) (hn : h ≠ s.cur) : getLeaf (s.upd f) h = getLeaf s h :=
  getLeaf_updLeaf_ne s f hn

@[simp] theorem getQuire_setQuire_same (s : State) (q : Nat) (x : Quire) : getQuire (setQuire s q x) q = x := by
  simp [getQuire, setQuire]

theorem getQuire_setQuire_ne (s : State) {q r : Nat} (x : Quire) (hn : r ≠ q) :
    getQuire (setQuire s q x) r = getQuire s r := by
  simp [getQuire, setQuire, mapGet_mapPut_ne _ _ _ hn]

@[simp] theorem getQuire_updQuire_same (s : State) (q : Nat) (f : Quire → Quire) :
    getQuire (updQuire s q f) q = f (getQuire s q) := by
  simp [updQuire]

theorem getQuire_updQuire_ne (s : State) {q r : Nat} (f : Quire → Quire) (hn : r ≠ q) :
    getQuire (updQuire s q f) r = getQuire s r := by
  simp [updQuire, getQuire_setQuire_ne s _ hn]

/-! ### Register banks -/

/-- s0 reads zero and a write to it is discarded; every other register reads as written. -/
theorem readS_writeS (l : Leaf) (n m : BitVec 6) (v : Word) :
    readS (writeS l n.toNat v) m = if m = n then (if n = 0 then 0 else v) else readS l m := by
  by_cases hn : n = 0
  · subst hn
    by_cases hm : m = 0
    · simp [readS, hm]
    · rw [if_neg hm]; rfl
  · have hn' : n.toNat ≠ 0 := by
      intro h; exact hn (BitVec.eq_of_toNat_eq (by simpa using h))
    by_cases hm : m = n
    · subst hm; simp [readS, writeS, hn']
    · have : m.toNat ≠ n.toNat := fun h => hm (BitVec.eq_of_toNat_eq h)
      simp [readS, writeS, hm, hn', mapGet_mapSet_ne _ _ _ _ this]

theorem readV_writeV (l : Leaf) (n m : BitVec 9) (v : Vec) :
    readV (writeV l n.toNat v) m = if m = n then v else readV l m := by
  by_cases hm : m = n
  · subst hm; simp [readV, writeV]
  · have : m.toNat ≠ n.toNat := fun h => hm (BitVec.eq_of_toNat_eq h)
    simp [readV, writeV, hm, mapGet_mapSet_ne _ _ _ _ this]

theorem readM_writeM (l : Leaf) (n m : BitVec 3) (v : Mask) :
    readM (writeM l n.toNat v) m = if m = n then v else readM l m := by
  by_cases hm : m = n
  · subst hm; simp [readM, writeM]
  · have : m.toNat ≠ n.toNat := fun h => hm (BitVec.eq_of_toNat_eq h)
    simp [readM, writeM, hm, mapGet_mapSet_ne _ _ _ _ this]

end Sys2Proof.Machine
end

