-- ==== Sys2Proof/Laws/Memory.lean ====
section
/-! SUPPORT. Memory: reading after writing, and that every memory operation keeps the canonical form. -/

namespace Sys2Proof.Machine

@[simp] theorem memGet_memSet_same (m : Memory) (k : Nat) (v : Byte) : memGet (memSet m k v) k = v := by
  simp [memGet, memSet]

theorem memGet_memSet_ne (m : Memory) {k j : Nat} (v : Byte) (h : j ≠ k) : memGet (memSet m k v) j = memGet m j := by
  simp [memGet, memSet, mapGet_mapSet_ne _ _ _ _ h]

/-- A write leaves every byte outside its range alone. -/
theorem memGet_memWrite_out (b : List Byte) (m : Memory) (k j : Nat) (h : j < k ∨ k + b.length ≤ j) :
    memGet (memWrite m k b) j = memGet m j := by
  induction b generalizing m k with
  | nil => rfl
  | cons x r ih =>
    simp only [List.length_cons] at h
    rw [memWrite, ih _ _ (by omega), memGet_memSet_ne _ _ (by omega)]

/-- A written byte reads as written. -/
theorem memGet_memWrite_in (b : List Byte) (m : Memory) (k i : Nat) (h : i < b.length) :
    memGet (memWrite m k b) (k + i) = b[i] := by
  induction b generalizing m k i with
  | nil => simp at h
  | cons x r ih =>
    cases i with
    | zero => simp [memWrite, memGet_memWrite_out r _ (k + 1) k (by omega)]
    | succ i =>
      have := ih (memSet m k x) (k + 1) i (by simpa using h)
      rw [memWrite, show k + (i + 1) = k + 1 + i by omega, this]
      rfl

theorem memRead_memWrite (m : Memory) (k : Nat) (b : List Byte) : memRead (memWrite m k b) k b.length = b := by
  apply List.ext_getElem
  · simp [memRead]
  · intro i h1 h2
    simp [memRead, memGet_memWrite_in b m k i h2]

/-! ### The canonical form -/

theorem Memory.wf_cons (c : Host.Cell) (r : Memory) :
    Memory.wf (c :: r) = true ↔ c.2 ≠ 0 ∧ (∀ d ∈ r.head?, c.1 < d.1) ∧ Memory.wf r = true := by
  cases r with
  | nil => simp [Memory.wf]
  | cons d r => simp [Memory.wf, and_assoc]

/-- Keys of a canonical memory after its first rise above it. -/
theorem Memory.wf_lt {c : Host.Cell} {r : Memory} (h : Memory.wf (c :: r) = true) : ∀ d ∈ r, c.1 < d.1 := by
  induction r generalizing c with
  | nil => simp
  | cons e r ih =>
    obtain ⟨_, h2, h3⟩ := (Memory.wf_cons c (e :: r)).1 h
    have he : c.1 < e.1 := h2 e (by simp)
    intro d hd
    rcases List.mem_cons.1 hd with rfl | hd
    · exact he
    · exact Nat.lt_trans he (ih h3 d hd)

theorem Memory.wf_of_forall {c : Host.Cell} {r : Memory} (h1 : c.2 ≠ 0) (h2 : ∀ d ∈ r, c.1 < d.1)
    (h3 : Memory.wf r = true) : Memory.wf (c :: r) = true :=
  (Memory.wf_cons c r).2 ⟨h1, fun d hd => h2 d (List.mem_of_mem_head? hd), h3⟩

theorem mem_mapPut {α : Type} {m : Map α} {k : Nat} {v : α} {p : Nat × α} (h : p ∈ mapPut m k v) :
    p = (k, v) ∨ p ∈ m := by
  induction m with
  | nil => simp [mapPut] at h; exact .inl h
  | cons q r ih =>
    obtain ⟨j, a⟩ := q
    unfold mapPut at h
    split at h
    · rcases List.mem_cons.1 h with rfl | h
      · exact .inl rfl
      · exact .inr h
    · split at h
      · rcases List.mem_cons.1 h with rfl | h
        · exact .inl rfl
        · exact .inr (List.mem_cons_of_mem _ h)
      · rcases List.mem_cons.1 h with rfl | h
        · exact .inr (List.mem_cons_self ..)
        · rcases ih h with h | h
          · exact .inl h
          · exact .inr (List.mem_cons_of_mem _ h)

theorem Memory.wf_mapPut {m : Memory} (h : m.wf = true) (k : Nat) {v : Byte} (hv : v ≠ 0) :
    Memory.wf (mapPut m k v) = true := by
  induction m with
  | nil => simpa [mapPut, Memory.wf] using hv
  | cons q r ih =>
    obtain ⟨j, a⟩ := q
    obtain ⟨ha, _, hr⟩ := (Memory.wf_cons (j, a) r).1 h
    have hlt := Memory.wf_lt h
    unfold mapPut
    split
    · next hk =>
      refine Memory.wf_of_forall hv ?_ h
      intro d hd
      rcases List.mem_cons.1 hd with rfl | hd
      · exact hk
      · exact Nat.lt_trans hk (hlt d hd)
    · split
      · next hj => subst hj; exact Memory.wf_of_forall hv hlt hr
      · refine Memory.wf_of_forall ha ?_ (ih hr)
        intro d hd
        rcases mem_mapPut hd with rfl | hd
        · show j < k; omega
        · exact hlt d hd

theorem Memory.wf_filter {m : Memory} (h : m.wf = true) (p : Host.Cell → Bool) : Memory.wf (m.filter p) = true := by
  induction m with
  | nil => rfl
  | cons q r ih =>
    obtain ⟨ha, _, hr⟩ := (Memory.wf_cons q r).1 h
    rw [List.filter_cons]
    split
    · exact Memory.wf_of_forall ha (fun d hd => Memory.wf_lt h d ((List.mem_filter.1 hd).1)) (ih hr)
    · exact ih hr

theorem memSet_wf {m : Memory} (h : m.wf = true) (k : Nat) (v : Byte) : (memSet m k v).wf = true := by
  unfold memSet mapSet
  split
  · exact Memory.wf_filter h _
  · next hv => exact Memory.wf_mapPut h k hv

theorem memWrite_wf {m : Memory} (h : m.wf = true) (k : Nat) (b : List Byte) : (memWrite m k b).wf = true := by
  induction b generalizing m k with
  | nil => exact h
  | cons x r ih => exact ih (memSet_wf h k x) (k + 1)

end Sys2Proof.Machine
end

