-- ==== Sys2Proof/Laws/State.lean ====
section
/-! SUPPORT. One equation for each field that a named update of the state, of a leaf or of a quire leaves alone, or
writes. Each conjunction is one simp lemma a field. -/

namespace Sys2Proof.Machine

@[simp] theorem setLeaf_keeps (s : State) (g : Nat) (l : Leaf) :
    (setLeaf s g l).dtc = s.dtc ∧ (setLeaf s g l).quires = s.quires ∧ (setLeaf s g l).kfiles = s.kfiles ∧
      (setLeaf s g l).arrivals = s.arrivals ∧ (setLeaf s g l).flips = s.flips ∧ (setLeaf s g l).mem = s.mem ∧
      (setLeaf s g l).hist = s.hist ∧ (setLeaf s g l).seen = s.seen ∧ (setLeaf s g l).arFences = s.arFences ∧
      (setLeaf s g l).agentClock = s.agentClock ∧ (setLeaf s g l).agentPo = s.agentPo ∧
      (setLeaf s g l).freeMem = s.freeMem ∧ (setLeaf s g l).privLines = s.privLines ∧
      (setLeaf s g l).cores = s.cores ∧ (setLeaf s g l).resv = s.resv ∧ (setLeaf s g l).tlb = s.tlb ∧
      (setLeaf s g l).ptrs = s.ptrs ∧ (setLeaf s g l).inval = s.inval ∧ (setLeaf s g l).atsReqs = s.atsReqs ∧
      (setLeaf s g l).queues = s.queues ∧ (setLeaf s g l).runs = s.runs ∧ (setLeaf s g l).kill = s.kill ∧
      (setLeaf s g l).keys = s.keys ∧ (setLeaf s g l).hbmPolicy = s.hbmPolicy ∧
      (setLeaf s g l).wsPeriod = s.wsPeriod ∧ (setLeaf s g l).wsLength = s.wsLength ∧
      (setLeaf s g l).wsNext = s.wsNext ∧ (setLeaf s g l).services = s.services ∧
      (setLeaf s g l).lastQueue = s.lastQueue ∧ (setLeaf s g l).node = s.node ∧ (setLeaf s g l).fw = s.fw ∧
      (setLeaf s g l).journal = s.journal ∧ (setLeaf s g l).i3cAddr = s.i3cAddr ∧
      (setLeaf s g l).lostPorts = s.lostPorts ∧ (setLeaf s g l).lostPkgs = s.lostPkgs ∧
      (setLeaf s g l).remotePkgs = s.remotePkgs ∧ (setLeaf s g l).msis = s.msis ∧ (setLeaf s g l).cur = s.cur ∧
      (setLeaf s g l).phase = s.phase ∧ (setLeaf s g l).agenda = s.agenda ∧ (setLeaf s g l).free = s.free ∧
      (setLeaf s g l).nextId = s.nextId ∧ (setLeaf s g l).reply = s.reply ∧ (setLeaf s g l).prog = s.prog := by
  repeat' constructor
@[simp] theorem setLeaf_leaves (s : State) (g : Nat) (l : Leaf) : (setLeaf s g l).leaves = mapPut s.leaves g l := rfl

@[simp] theorem updLeaf_keeps (s : State) (g : Nat) (f : Leaf → Leaf) :
    (updLeaf s g f).dtc = s.dtc ∧ (updLeaf s g f).quires = s.quires ∧ (updLeaf s g f).kfiles = s.kfiles ∧
      (updLeaf s g f).arrivals = s.arrivals ∧ (updLeaf s g f).flips = s.flips ∧ (updLeaf s g f).mem = s.mem ∧
      (updLeaf s g f).hist = s.hist ∧ (updLeaf s g f).seen = s.seen ∧ (updLeaf s g f).arFences = s.arFences ∧
      (updLeaf s g f).agentClock = s.agentClock ∧ (updLeaf s g f).agentPo = s.agentPo ∧
      (updLeaf s g f).freeMem = s.freeMem ∧ (updLeaf s g f).privLines = s.privLines ∧
      (updLeaf s g f).cores = s.cores ∧ (updLeaf s g f).resv = s.resv ∧ (updLeaf s g f).tlb = s.tlb ∧
      (updLeaf s g f).ptrs = s.ptrs ∧ (updLeaf s g f).inval = s.inval ∧ (updLeaf s g f).atsReqs = s.atsReqs ∧
      (updLeaf s g f).queues = s.queues ∧ (updLeaf s g f).runs = s.runs ∧ (updLeaf s g f).kill = s.kill ∧
      (updLeaf s g f).keys = s.keys ∧ (updLeaf s g f).hbmPolicy = s.hbmPolicy ∧
      (updLeaf s g f).wsPeriod = s.wsPeriod ∧ (updLeaf s g f).wsLength = s.wsLength ∧
      (updLeaf s g f).wsNext = s.wsNext ∧ (updLeaf s g f).services = s.services ∧
      (updLeaf s g f).lastQueue = s.lastQueue ∧ (updLeaf s g f).node = s.node ∧ (updLeaf s g f).fw = s.fw ∧
      (updLeaf s g f).journal = s.journal ∧ (updLeaf s g f).i3cAddr = s.i3cAddr ∧
      (updLeaf s g f).lostPorts = s.lostPorts ∧ (updLeaf s g f).lostPkgs = s.lostPkgs ∧
      (updLeaf s g f).remotePkgs = s.remotePkgs ∧ (updLeaf s g f).msis = s.msis ∧ (updLeaf s g f).cur = s.cur ∧
      (updLeaf s g f).phase = s.phase ∧ (updLeaf s g f).agenda = s.agenda ∧ (updLeaf s g f).free = s.free ∧
      (updLeaf s g f).nextId = s.nextId ∧ (updLeaf s g f).reply = s.reply ∧ (updLeaf s g f).prog = s.prog := by
  repeat' constructor
@[simp] theorem updLeaf_leaves (s : State) (g : Nat) (f : Leaf → Leaf) : (updLeaf s g f).leaves = mapPut s.leaves g (f (getLeaf s g)) := rfl

@[simp] theorem upd_keeps (s : State) (f : Leaf → Leaf) :
    (s.upd f).dtc = s.dtc ∧ (s.upd f).quires = s.quires ∧ (s.upd f).kfiles = s.kfiles ∧
      (s.upd f).arrivals = s.arrivals ∧ (s.upd f).flips = s.flips ∧ (s.upd f).mem = s.mem ∧ (s.upd f).hist = s.hist ∧
      (s.upd f).seen = s.seen ∧ (s.upd f).arFences = s.arFences ∧ (s.upd f).agentClock = s.agentClock ∧
      (s.upd f).agentPo = s.agentPo ∧ (s.upd f).freeMem = s.freeMem ∧ (s.upd f).privLines = s.privLines ∧
      (s.upd f).cores = s.cores ∧ (s.upd f).resv = s.resv ∧ (s.upd f).tlb = s.tlb ∧ (s.upd f).ptrs = s.ptrs ∧
      (s.upd f).inval = s.inval ∧ (s.upd f).atsReqs = s.atsReqs ∧ (s.upd f).queues = s.queues ∧
      (s.upd f).runs = s.runs ∧ (s.upd f).kill = s.kill ∧ (s.upd f).keys = s.keys ∧
      (s.upd f).hbmPolicy = s.hbmPolicy ∧ (s.upd f).wsPeriod = s.wsPeriod ∧ (s.upd f).wsLength = s.wsLength ∧
      (s.upd f).wsNext = s.wsNext ∧ (s.upd f).services = s.services ∧ (s.upd f).lastQueue = s.lastQueue ∧
      (s.upd f).node = s.node ∧ (s.upd f).fw = s.fw ∧ (s.upd f).journal = s.journal ∧ (s.upd f).i3cAddr = s.i3cAddr ∧
      (s.upd f).lostPorts = s.lostPorts ∧ (s.upd f).lostPkgs = s.lostPkgs ∧ (s.upd f).remotePkgs = s.remotePkgs ∧
      (s.upd f).msis = s.msis ∧ (s.upd f).cur = s.cur ∧ (s.upd f).phase = s.phase ∧ (s.upd f).agenda = s.agenda ∧
      (s.upd f).free = s.free ∧ (s.upd f).nextId = s.nextId ∧ (s.upd f).reply = s.reply ∧ (s.upd f).prog = s.prog := by
  repeat' constructor
@[simp] theorem upd_leaves (s : State) (f : Leaf → Leaf) : (s.upd f).leaves = mapPut s.leaves s.cur (f s.leaf) := rfl

@[simp] theorem setQuire_keeps (s : State) (q : Nat) (x : Quire) :
    (setQuire s q x).dtc = s.dtc ∧ (setQuire s q x).leaves = s.leaves ∧ (setQuire s q x).kfiles = s.kfiles ∧
      (setQuire s q x).arrivals = s.arrivals ∧ (setQuire s q x).flips = s.flips ∧ (setQuire s q x).mem = s.mem ∧
      (setQuire s q x).hist = s.hist ∧ (setQuire s q x).seen = s.seen ∧ (setQuire s q x).arFences = s.arFences ∧
      (setQuire s q x).agentClock = s.agentClock ∧ (setQuire s q x).agentPo = s.agentPo ∧
      (setQuire s q x).freeMem = s.freeMem ∧ (setQuire s q x).privLines = s.privLines ∧
      (setQuire s q x).cores = s.cores ∧ (setQuire s q x).resv = s.resv ∧ (setQuire s q x).tlb = s.tlb ∧
      (setQuire s q x).ptrs = s.ptrs ∧ (setQuire s q x).inval = s.inval ∧ (setQuire s q x).atsReqs = s.atsReqs ∧
      (setQuire s q x).queues = s.queues ∧ (setQuire s q x).runs = s.runs ∧ (setQuire s q x).kill = s.kill ∧
      (setQuire s q x).keys = s.keys ∧ (setQuire s q x).hbmPolicy = s.hbmPolicy ∧
      (setQuire s q x).wsPeriod = s.wsPeriod ∧ (setQuire s q x).wsLength = s.wsLength ∧
      (setQuire s q x).wsNext = s.wsNext ∧ (setQuire s q x).services = s.services ∧
      (setQuire s q x).lastQueue = s.lastQueue ∧ (setQuire s q x).node = s.node ∧ (setQuire s q x).fw = s.fw ∧
      (setQuire s q x).journal = s.journal ∧ (setQuire s q x).i3cAddr = s.i3cAddr ∧
      (setQuire s q x).lostPorts = s.lostPorts ∧ (setQuire s q x).lostPkgs = s.lostPkgs ∧
      (setQuire s q x).remotePkgs = s.remotePkgs ∧ (setQuire s q x).msis = s.msis ∧ (setQuire s q x).cur = s.cur ∧
      (setQuire s q x).phase = s.phase ∧ (setQuire s q x).agenda = s.agenda ∧ (setQuire s q x).free = s.free ∧
      (setQuire s q x).nextId = s.nextId ∧ (setQuire s q x).reply = s.reply ∧ (setQuire s q x).prog = s.prog := by
  repeat' constructor
@[simp] theorem setQuire_quires (s : State) (q : Nat) (x : Quire) : (setQuire s q x).quires = mapPut s.quires q x := rfl

@[simp] theorem updQuire_keeps (s : State) (q : Nat) (f : Quire → Quire) :
    (updQuire s q f).dtc = s.dtc ∧ (updQuire s q f).leaves = s.leaves ∧ (updQuire s q f).kfiles = s.kfiles ∧
      (updQuire s q f).arrivals = s.arrivals ∧ (updQuire s q f).flips = s.flips ∧ (updQuire s q f).mem = s.mem ∧
      (updQuire s q f).hist = s.hist ∧ (updQuire s q f).seen = s.seen ∧ (updQuire s q f).arFences = s.arFences ∧
      (updQuire s q f).agentClock = s.agentClock ∧ (updQuire s q f).agentPo = s.agentPo ∧
      (updQuire s q f).freeMem = s.freeMem ∧ (updQuire s q f).privLines = s.privLines ∧
      (updQuire s q f).cores = s.cores ∧ (updQuire s q f).resv = s.resv ∧ (updQuire s q f).tlb = s.tlb ∧
      (updQuire s q f).ptrs = s.ptrs ∧ (updQuire s q f).inval = s.inval ∧ (updQuire s q f).atsReqs = s.atsReqs ∧
      (updQuire s q f).queues = s.queues ∧ (updQuire s q f).runs = s.runs ∧ (updQuire s q f).kill = s.kill ∧
      (updQuire s q f).keys = s.keys ∧ (updQuire s q f).hbmPolicy = s.hbmPolicy ∧
      (updQuire s q f).wsPeriod = s.wsPeriod ∧ (updQuire s q f).wsLength = s.wsLength ∧
      (updQuire s q f).wsNext = s.wsNext ∧ (updQuire s q f).services = s.services ∧
      (updQuire s q f).lastQueue = s.lastQueue ∧ (updQuire s q f).node = s.node ∧ (updQuire s q f).fw = s.fw ∧
      (updQuire s q f).journal = s.journal ∧ (updQuire s q f).i3cAddr = s.i3cAddr ∧
      (updQuire s q f).lostPorts = s.lostPorts ∧ (updQuire s q f).lostPkgs = s.lostPkgs ∧
      (updQuire s q f).remotePkgs = s.remotePkgs ∧ (updQuire s q f).msis = s.msis ∧ (updQuire s q f).cur = s.cur ∧
      (updQuire s q f).phase = s.phase ∧ (updQuire s q f).agenda = s.agenda ∧ (updQuire s q f).free = s.free ∧
      (updQuire s q f).nextId = s.nextId ∧ (updQuire s q f).reply = s.reply ∧ (updQuire s q f).prog = s.prog := by
  repeat' constructor
@[simp] theorem updQuire_quires (s : State) (q : Nat) (f : Quire → Quire) : (updQuire s q f).quires = mapPut s.quires q (f (getQuire s q)) := rfl

@[simp] theorem updRun_keeps (s : State) (r : Nat) (f : Run → Run) :
    (updRun s r f).dtc = s.dtc ∧ (updRun s r f).leaves = s.leaves ∧ (updRun s r f).quires = s.quires ∧
      (updRun s r f).kfiles = s.kfiles ∧ (updRun s r f).arrivals = s.arrivals ∧ (updRun s r f).flips = s.flips ∧
      (updRun s r f).mem = s.mem ∧ (updRun s r f).hist = s.hist ∧ (updRun s r f).seen = s.seen ∧
      (updRun s r f).arFences = s.arFences ∧ (updRun s r f).agentClock = s.agentClock ∧
      (updRun s r f).agentPo = s.agentPo ∧ (updRun s r f).freeMem = s.freeMem ∧
      (updRun s r f).privLines = s.privLines ∧ (updRun s r f).cores = s.cores ∧ (updRun s r f).resv = s.resv ∧
      (updRun s r f).tlb = s.tlb ∧ (updRun s r f).ptrs = s.ptrs ∧ (updRun s r f).inval = s.inval ∧
      (updRun s r f).atsReqs = s.atsReqs ∧ (updRun s r f).queues = s.queues ∧ (updRun s r f).kill = s.kill ∧
      (updRun s r f).keys = s.keys ∧ (updRun s r f).hbmPolicy = s.hbmPolicy ∧ (updRun s r f).wsPeriod = s.wsPeriod ∧
      (updRun s r f).wsLength = s.wsLength ∧ (updRun s r f).wsNext = s.wsNext ∧
      (updRun s r f).services = s.services ∧ (updRun s r f).lastQueue = s.lastQueue ∧ (updRun s r f).node = s.node ∧
      (updRun s r f).fw = s.fw ∧ (updRun s r f).journal = s.journal ∧ (updRun s r f).i3cAddr = s.i3cAddr ∧
      (updRun s r f).lostPorts = s.lostPorts ∧ (updRun s r f).lostPkgs = s.lostPkgs ∧
      (updRun s r f).remotePkgs = s.remotePkgs ∧ (updRun s r f).msis = s.msis ∧ (updRun s r f).cur = s.cur ∧
      (updRun s r f).phase = s.phase ∧ (updRun s r f).agenda = s.agenda ∧ (updRun s r f).free = s.free ∧
      (updRun s r f).nextId = s.nextId ∧ (updRun s r f).reply = s.reply ∧ (updRun s r f).prog = s.prog := by
  repeat' constructor
@[simp] theorem updRun_runs (s : State) (r : Nat) (f : Run → Run) : (updRun s r f).runs = s.runs.map fun x => if x.id == r then f x else x := rfl

@[simp] theorem setKettle_keeps (s : State) (c k : Nat) (x : Kettle) :
    (setKettle s c k x).dtc = s.dtc ∧ (setKettle s c k x).leaves = s.leaves ∧ (setKettle s c k x).quires = s.quires ∧
      (setKettle s c k x).arrivals = s.arrivals ∧ (setKettle s c k x).flips = s.flips ∧
      (setKettle s c k x).mem = s.mem ∧ (setKettle s c k x).hist = s.hist ∧ (setKettle s c k x).seen = s.seen ∧
      (setKettle s c k x).arFences = s.arFences ∧ (setKettle s c k x).agentClock = s.agentClock ∧
      (setKettle s c k x).agentPo = s.agentPo ∧ (setKettle s c k x).freeMem = s.freeMem ∧
      (setKettle s c k x).privLines = s.privLines ∧ (setKettle s c k x).cores = s.cores ∧
      (setKettle s c k x).resv = s.resv ∧ (setKettle s c k x).tlb = s.tlb ∧ (setKettle s c k x).ptrs = s.ptrs ∧
      (setKettle s c k x).inval = s.inval ∧ (setKettle s c k x).atsReqs = s.atsReqs ∧
      (setKettle s c k x).queues = s.queues ∧ (setKettle s c k x).runs = s.runs ∧ (setKettle s c k x).kill = s.kill ∧
      (setKettle s c k x).keys = s.keys ∧ (setKettle s c k x).hbmPolicy = s.hbmPolicy ∧
      (setKettle s c k x).wsPeriod = s.wsPeriod ∧ (setKettle s c k x).wsLength = s.wsLength ∧
      (setKettle s c k x).wsNext = s.wsNext ∧ (setKettle s c k x).services = s.services ∧
      (setKettle s c k x).lastQueue = s.lastQueue ∧ (setKettle s c k x).node = s.node ∧
      (setKettle s c k x).fw = s.fw ∧ (setKettle s c k x).journal = s.journal ∧
      (setKettle s c k x).i3cAddr = s.i3cAddr ∧ (setKettle s c k x).lostPorts = s.lostPorts ∧
      (setKettle s c k x).lostPkgs = s.lostPkgs ∧ (setKettle s c k x).remotePkgs = s.remotePkgs ∧
      (setKettle s c k x).msis = s.msis ∧ (setKettle s c k x).cur = s.cur ∧ (setKettle s c k x).phase = s.phase ∧
      (setKettle s c k x).agenda = s.agenda ∧ (setKettle s c k x).free = s.free ∧
      (setKettle s c k x).nextId = s.nextId ∧ (setKettle s c k x).reply = s.reply ∧ (setKettle s c k x).prog = s.prog := by
  repeat' constructor
@[simp] theorem setKettle_kfiles (s : State) (c k : Nat) (x : Kettle) : (setKettle s c k x).kfiles = mapPut s.kfiles c (mapPut (mapGet s.kfiles c []) k x) := rfl

@[simp] theorem setQueue_keeps (s : State) (n : Nat) (q : Queue) :
    (setQueue s n q).dtc = s.dtc ∧ (setQueue s n q).leaves = s.leaves ∧ (setQueue s n q).quires = s.quires ∧
      (setQueue s n q).kfiles = s.kfiles ∧ (setQueue s n q).arrivals = s.arrivals ∧
      (setQueue s n q).flips = s.flips ∧ (setQueue s n q).mem = s.mem ∧ (setQueue s n q).hist = s.hist ∧
      (setQueue s n q).seen = s.seen ∧ (setQueue s n q).arFences = s.arFences ∧
      (setQueue s n q).agentClock = s.agentClock ∧ (setQueue s n q).agentPo = s.agentPo ∧
      (setQueue s n q).freeMem = s.freeMem ∧ (setQueue s n q).privLines = s.privLines ∧
      (setQueue s n q).cores = s.cores ∧ (setQueue s n q).resv = s.resv ∧ (setQueue s n q).tlb = s.tlb ∧
      (setQueue s n q).ptrs = s.ptrs ∧ (setQueue s n q).inval = s.inval ∧ (setQueue s n q).atsReqs = s.atsReqs ∧
      (setQueue s n q).runs = s.runs ∧ (setQueue s n q).kill = s.kill ∧ (setQueue s n q).keys = s.keys ∧
      (setQueue s n q).hbmPolicy = s.hbmPolicy ∧ (setQueue s n q).wsPeriod = s.wsPeriod ∧
      (setQueue s n q).wsLength = s.wsLength ∧ (setQueue s n q).wsNext = s.wsNext ∧
      (setQueue s n q).services = s.services ∧ (setQueue s n q).lastQueue = s.lastQueue ∧
      (setQueue s n q).node = s.node ∧ (setQueue s n q).fw = s.fw ∧ (setQueue s n q).journal = s.journal ∧
      (setQueue s n q).i3cAddr = s.i3cAddr ∧ (setQueue s n q).lostPorts = s.lostPorts ∧
      (setQueue s n q).lostPkgs = s.lostPkgs ∧ (setQueue s n q).remotePkgs = s.remotePkgs ∧
      (setQueue s n q).msis = s.msis ∧ (setQueue s n q).cur = s.cur ∧ (setQueue s n q).phase = s.phase ∧
      (setQueue s n q).agenda = s.agenda ∧ (setQueue s n q).free = s.free ∧ (setQueue s n q).nextId = s.nextId ∧
      (setQueue s n q).reply = s.reply ∧ (setQueue s n q).prog = s.prog := by
  repeat' constructor
@[simp] theorem setQueue_queues (s : State) (n : Nat) (q : Queue) : (setQueue s n q).queues = mapPut s.queues n q := rfl

@[simp] theorem fresh_keeps (s : State) :
    (fresh s).2.dtc = s.dtc ∧ (fresh s).2.leaves = s.leaves ∧ (fresh s).2.quires = s.quires ∧
      (fresh s).2.kfiles = s.kfiles ∧ (fresh s).2.arrivals = s.arrivals ∧ (fresh s).2.flips = s.flips ∧
      (fresh s).2.mem = s.mem ∧ (fresh s).2.hist = s.hist ∧ (fresh s).2.seen = s.seen ∧
      (fresh s).2.arFences = s.arFences ∧ (fresh s).2.agentClock = s.agentClock ∧ (fresh s).2.agentPo = s.agentPo ∧
      (fresh s).2.freeMem = s.freeMem ∧ (fresh s).2.privLines = s.privLines ∧ (fresh s).2.cores = s.cores ∧
      (fresh s).2.resv = s.resv ∧ (fresh s).2.tlb = s.tlb ∧ (fresh s).2.ptrs = s.ptrs ∧ (fresh s).2.inval = s.inval ∧
      (fresh s).2.atsReqs = s.atsReqs ∧ (fresh s).2.queues = s.queues ∧ (fresh s).2.runs = s.runs ∧
      (fresh s).2.kill = s.kill ∧ (fresh s).2.keys = s.keys ∧ (fresh s).2.hbmPolicy = s.hbmPolicy ∧
      (fresh s).2.wsPeriod = s.wsPeriod ∧ (fresh s).2.wsLength = s.wsLength ∧ (fresh s).2.wsNext = s.wsNext ∧
      (fresh s).2.services = s.services ∧ (fresh s).2.lastQueue = s.lastQueue ∧ (fresh s).2.node = s.node ∧
      (fresh s).2.fw = s.fw ∧ (fresh s).2.journal = s.journal ∧ (fresh s).2.i3cAddr = s.i3cAddr ∧
      (fresh s).2.lostPorts = s.lostPorts ∧ (fresh s).2.lostPkgs = s.lostPkgs ∧
      (fresh s).2.remotePkgs = s.remotePkgs ∧ (fresh s).2.msis = s.msis ∧ (fresh s).2.cur = s.cur ∧
      (fresh s).2.phase = s.phase ∧ (fresh s).2.agenda = s.agenda ∧ (fresh s).2.free = s.free ∧
      (fresh s).2.reply = s.reply ∧ (fresh s).2.prog = s.prog := by
  repeat' constructor
@[simp] theorem fresh_nextId (s : State) : (fresh s).2.nextId = s.nextId + 1 := rfl

@[simp] theorem takeFree_keeps (s : State) :
    (takeFree s).2.dtc = s.dtc ∧ (takeFree s).2.leaves = s.leaves ∧ (takeFree s).2.quires = s.quires ∧
      (takeFree s).2.kfiles = s.kfiles ∧ (takeFree s).2.arrivals = s.arrivals ∧ (takeFree s).2.flips = s.flips ∧
      (takeFree s).2.mem = s.mem ∧ (takeFree s).2.hist = s.hist ∧ (takeFree s).2.seen = s.seen ∧
      (takeFree s).2.arFences = s.arFences ∧ (takeFree s).2.agentClock = s.agentClock ∧
      (takeFree s).2.agentPo = s.agentPo ∧ (takeFree s).2.freeMem = s.freeMem ∧
      (takeFree s).2.privLines = s.privLines ∧ (takeFree s).2.cores = s.cores ∧ (takeFree s).2.resv = s.resv ∧
      (takeFree s).2.tlb = s.tlb ∧ (takeFree s).2.ptrs = s.ptrs ∧ (takeFree s).2.inval = s.inval ∧
      (takeFree s).2.atsReqs = s.atsReqs ∧ (takeFree s).2.queues = s.queues ∧ (takeFree s).2.runs = s.runs ∧
      (takeFree s).2.kill = s.kill ∧ (takeFree s).2.keys = s.keys ∧ (takeFree s).2.hbmPolicy = s.hbmPolicy ∧
      (takeFree s).2.wsPeriod = s.wsPeriod ∧ (takeFree s).2.wsLength = s.wsLength ∧
      (takeFree s).2.wsNext = s.wsNext ∧ (takeFree s).2.services = s.services ∧
      (takeFree s).2.lastQueue = s.lastQueue ∧ (takeFree s).2.node = s.node ∧ (takeFree s).2.fw = s.fw ∧
      (takeFree s).2.journal = s.journal ∧ (takeFree s).2.i3cAddr = s.i3cAddr ∧
      (takeFree s).2.lostPorts = s.lostPorts ∧ (takeFree s).2.lostPkgs = s.lostPkgs ∧
      (takeFree s).2.remotePkgs = s.remotePkgs ∧ (takeFree s).2.msis = s.msis ∧ (takeFree s).2.cur = s.cur ∧
      (takeFree s).2.phase = s.phase ∧ (takeFree s).2.agenda = s.agenda ∧ (takeFree s).2.nextId = s.nextId ∧
      (takeFree s).2.reply = s.reply ∧ (takeFree s).2.prog = s.prog := by
  repeat' constructor
@[simp] theorem takeFree_free (s : State) : (takeFree s).2.free = s.free + 1 := rfl

@[simp] theorem takeChoice_keeps (s : State) (n : Nat) :
    (takeChoice s n).2.dtc = s.dtc ∧ (takeChoice s n).2.leaves = s.leaves ∧ (takeChoice s n).2.quires = s.quires ∧
      (takeChoice s n).2.kfiles = s.kfiles ∧ (takeChoice s n).2.arrivals = s.arrivals ∧
      (takeChoice s n).2.flips = s.flips ∧ (takeChoice s n).2.mem = s.mem ∧ (takeChoice s n).2.hist = s.hist ∧
      (takeChoice s n).2.seen = s.seen ∧ (takeChoice s n).2.arFences = s.arFences ∧
      (takeChoice s n).2.agentClock = s.agentClock ∧ (takeChoice s n).2.agentPo = s.agentPo ∧
      (takeChoice s n).2.freeMem = s.freeMem ∧ (takeChoice s n).2.privLines = s.privLines ∧
      (takeChoice s n).2.cores = s.cores ∧ (takeChoice s n).2.resv = s.resv ∧ (takeChoice s n).2.tlb = s.tlb ∧
      (takeChoice s n).2.ptrs = s.ptrs ∧ (takeChoice s n).2.inval = s.inval ∧
      (takeChoice s n).2.atsReqs = s.atsReqs ∧ (takeChoice s n).2.queues = s.queues ∧
      (takeChoice s n).2.runs = s.runs ∧ (takeChoice s n).2.kill = s.kill ∧ (takeChoice s n).2.keys = s.keys ∧
      (takeChoice s n).2.hbmPolicy = s.hbmPolicy ∧ (takeChoice s n).2.wsPeriod = s.wsPeriod ∧
      (takeChoice s n).2.wsLength = s.wsLength ∧ (takeChoice s n).2.wsNext = s.wsNext ∧
      (takeChoice s n).2.services = s.services ∧ (takeChoice s n).2.lastQueue = s.lastQueue ∧
      (takeChoice s n).2.node = s.node ∧ (takeChoice s n).2.fw = s.fw ∧ (takeChoice s n).2.journal = s.journal ∧
      (takeChoice s n).2.i3cAddr = s.i3cAddr ∧ (takeChoice s n).2.lostPorts = s.lostPorts ∧
      (takeChoice s n).2.lostPkgs = s.lostPkgs ∧ (takeChoice s n).2.remotePkgs = s.remotePkgs ∧
      (takeChoice s n).2.msis = s.msis ∧ (takeChoice s n).2.cur = s.cur ∧ (takeChoice s n).2.phase = s.phase ∧
      (takeChoice s n).2.agenda = s.agenda ∧ (takeChoice s n).2.nextId = s.nextId ∧
      (takeChoice s n).2.reply = s.reply ∧ (takeChoice s n).2.prog = s.prog := by
  repeat' constructor
@[simp] theorem takeChoice_free (s : State) (n : Nat) : (takeChoice s n).2.free = s.free + 1 := rfl

@[simp] theorem addResult_keeps (s : State) (d : Nat) (x : Dest) (v m : Vec) (t : Option Nat) (r : Nat) (f : Flags) :
    (addResult s d x v m t r f).dtc = s.dtc ∧ (addResult s d x v m t r f).quires = s.quires ∧
      (addResult s d x v m t r f).kfiles = s.kfiles ∧ (addResult s d x v m t r f).arrivals = s.arrivals ∧
      (addResult s d x v m t r f).flips = s.flips ∧ (addResult s d x v m t r f).mem = s.mem ∧
      (addResult s d x v m t r f).hist = s.hist ∧ (addResult s d x v m t r f).seen = s.seen ∧
      (addResult s d x v m t r f).arFences = s.arFences ∧ (addResult s d x v m t r f).agentClock = s.agentClock ∧
      (addResult s d x v m t r f).agentPo = s.agentPo ∧ (addResult s d x v m t r f).freeMem = s.freeMem ∧
      (addResult s d x v m t r f).privLines = s.privLines ∧ (addResult s d x v m t r f).cores = s.cores ∧
      (addResult s d x v m t r f).resv = s.resv ∧ (addResult s d x v m t r f).tlb = s.tlb ∧
      (addResult s d x v m t r f).ptrs = s.ptrs ∧ (addResult s d x v m t r f).inval = s.inval ∧
      (addResult s d x v m t r f).atsReqs = s.atsReqs ∧ (addResult s d x v m t r f).queues = s.queues ∧
      (addResult s d x v m t r f).runs = s.runs ∧ (addResult s d x v m t r f).kill = s.kill ∧
      (addResult s d x v m t r f).keys = s.keys ∧ (addResult s d x v m t r f).hbmPolicy = s.hbmPolicy ∧
      (addResult s d x v m t r f).wsPeriod = s.wsPeriod ∧ (addResult s d x v m t r f).wsLength = s.wsLength ∧
      (addResult s d x v m t r f).wsNext = s.wsNext ∧ (addResult s d x v m t r f).services = s.services ∧
      (addResult s d x v m t r f).lastQueue = s.lastQueue ∧ (addResult s d x v m t r f).node = s.node ∧
      (addResult s d x v m t r f).fw = s.fw ∧ (addResult s d x v m t r f).journal = s.journal ∧
      (addResult s d x v m t r f).i3cAddr = s.i3cAddr ∧ (addResult s d x v m t r f).lostPorts = s.lostPorts ∧
      (addResult s d x v m t r f).lostPkgs = s.lostPkgs ∧ (addResult s d x v m t r f).remotePkgs = s.remotePkgs ∧
      (addResult s d x v m t r f).msis = s.msis ∧ (addResult s d x v m t r f).cur = s.cur ∧
      (addResult s d x v m t r f).phase = s.phase ∧ (addResult s d x v m t r f).agenda = s.agenda ∧
      (addResult s d x v m t r f).free = s.free ∧ (addResult s d x v m t r f).nextId = s.nextId ∧
      (addResult s d x v m t r f).reply = s.reply ∧ (addResult s d x v m t r f).prog = s.prog := by
  repeat' constructor

/-! ### Leaves -/

@[simp] theorem setHandle_keeps (l : Leaf) (h : Nat) (x : Handle) :
    (setHandle l h x).run = l.run ∧ (setHandle l h x).exited = l.exited ∧ (setHandle l h x).level = l.level ∧
      (setHandle l h x).pc = l.pc ∧ (setHandle l h x).sregs = l.sregs ∧ (setHandle l h x).vregs = l.vregs ∧
      (setHandle l h x).mregs = l.mregs ∧ (setHandle l h x).feeds = l.feeds ∧ (setHandle l h x).bonds = l.bonds ∧
      (setHandle l h x).toks = l.toks ∧ (setHandle l h x).latches = l.latches ∧
      (setHandle l h x).inflight = l.inflight ∧ (setHandle l h x).seq = l.seq ∧ (setHandle l h x).fmt = l.fmt ∧
      (setHandle l h x).fmtPend = l.fmtPend ∧ (setHandle l h x).fstat = l.fstat ∧
      (setHandle l h x).freezeLimit = l.freezeLimit ∧ (setHandle l h x).loopOuter = l.loopOuter ∧
      (setHandle l h x).loopInner = l.loopInner ∧ (setHandle l h x).xfer = l.xfer ∧
      (setHandle l h x).delay = l.delay ∧ (setHandle l h x).rteDue = l.rteDue ∧
      (setHandle l h x).blocked = l.blocked ∧ (setHandle l h x).waited = l.waited ∧
      (setHandle l h x).doubts = l.doubts ∧ (setHandle l h x).held = l.held ∧ (setHandle l h x).wait = l.wait ∧
      (setHandle l h x).skipSlot = l.skipSlot ∧ (setHandle l h x).sheet = l.sheet ∧ (setHandle l h x).wet = l.wet ∧
      (setHandle l h x).pin0 = l.pin0 ∧ (setHandle l h x).pin1 = l.pin1 ∧ (setHandle l h x).impose = l.impose ∧
      (setHandle l h x).watchAddr = l.watchAddr ∧ (setHandle l h x).watchCtl = l.watchCtl ∧
      (setHandle l h x).trapCause = l.trapCause ∧ (setHandle l h x).trapPc = l.trapPc ∧
      (setHandle l h x).trapNpc = l.trapNpc ∧ (setHandle l h x).trapFva = l.trapFva ∧
      (setHandle l h x).trapCtl = l.trapCtl ∧ (setHandle l h x).trapVec = l.trapVec ∧
      (setHandle l h x).emulVec = l.emulVec ∧ (setHandle l h x).scratch = l.scratch ∧
      (setHandle l h x).frame = l.frame ∧ (setHandle l h x).handling = l.handling ∧
      (setHandle l h x).slotCause = l.slotCause ∧ (setHandle l h x).swPend = l.swPend ∧
      (setHandle l h x).asyncPend = l.asyncPend ∧ (setHandle l h x).olog = l.olog ∧ (setHandle l h x).tlog = l.tlog ∧
      (setHandle l h x).bufs = l.bufs ∧ (setHandle l h x).tiles = l.tiles ∧ (setHandle l h x).tileHist = l.tileHist ∧
      (setHandle l h x).pq = l.pq ∧ (setHandle l h x).tq = l.tq ∧ (setHandle l h x).sewShape = l.sewShape ∧
      (setHandle l h x).sewLast = l.sewLast ∧ (setHandle l h x).sewFault = l.sewFault ∧
      (setHandle l h x).sewCfg = l.sewCfg ∧ (setHandle l h x).sewq = l.sewq ∧ (setHandle l h x).shelves = l.shelves ∧
      (setHandle l h x).sigq = l.sigq ∧ (setHandle l h x).sigtq = l.sigtq ∧
      (setHandle l h x).tokClocks = l.tokClocks ∧ (setHandle l h x).task = l.task ∧
      (setHandle l h x).selSeg = l.selSeg ∧ (setHandle l h x).curSeg = l.curSeg ∧ (setHandle l h x).po = l.po ∧
      (setHandle l h x).acqs = l.acqs ∧ (setHandle l h x).readSync = l.readSync ∧
      (setHandle l h x).acqFences = l.acqFences ∧ (setHandle l h x).relFences = l.relFences ∧
      (setHandle l h x).drains = l.drains ∧ (setHandle l h x).past = l.past ∧ (setHandle l h x).places = l.places := by
  repeat' constructor
@[simp] theorem setHandle_handles (l : Leaf) (h : Nat) (x : Handle) : (setHandle l h x).handles = mapSet l.handles h .reset x := rfl

@[simp] theorem setBuf_keeps (l : Leaf) (q : Nat) (b : Buf) :
    (setBuf l q b).run = l.run ∧ (setBuf l q b).exited = l.exited ∧ (setBuf l q b).level = l.level ∧
      (setBuf l q b).pc = l.pc ∧ (setBuf l q b).sregs = l.sregs ∧ (setBuf l q b).vregs = l.vregs ∧
      (setBuf l q b).mregs = l.mregs ∧ (setBuf l q b).feeds = l.feeds ∧ (setBuf l q b).bonds = l.bonds ∧
      (setBuf l q b).toks = l.toks ∧ (setBuf l q b).latches = l.latches ∧ (setBuf l q b).inflight = l.inflight ∧
      (setBuf l q b).seq = l.seq ∧ (setBuf l q b).fmt = l.fmt ∧ (setBuf l q b).fmtPend = l.fmtPend ∧
      (setBuf l q b).fstat = l.fstat ∧ (setBuf l q b).freezeLimit = l.freezeLimit ∧
      (setBuf l q b).loopOuter = l.loopOuter ∧ (setBuf l q b).loopInner = l.loopInner ∧
      (setBuf l q b).xfer = l.xfer ∧ (setBuf l q b).delay = l.delay ∧ (setBuf l q b).rteDue = l.rteDue ∧
      (setBuf l q b).blocked = l.blocked ∧ (setBuf l q b).waited = l.waited ∧ (setBuf l q b).doubts = l.doubts ∧
      (setBuf l q b).held = l.held ∧ (setBuf l q b).wait = l.wait ∧ (setBuf l q b).skipSlot = l.skipSlot ∧
      (setBuf l q b).sheet = l.sheet ∧ (setBuf l q b).wet = l.wet ∧ (setBuf l q b).pin0 = l.pin0 ∧
      (setBuf l q b).pin1 = l.pin1 ∧ (setBuf l q b).impose = l.impose ∧ (setBuf l q b).watchAddr = l.watchAddr ∧
      (setBuf l q b).watchCtl = l.watchCtl ∧ (setBuf l q b).trapCause = l.trapCause ∧
      (setBuf l q b).trapPc = l.trapPc ∧ (setBuf l q b).trapNpc = l.trapNpc ∧ (setBuf l q b).trapFva = l.trapFva ∧
      (setBuf l q b).trapCtl = l.trapCtl ∧ (setBuf l q b).trapVec = l.trapVec ∧ (setBuf l q b).emulVec = l.emulVec ∧
      (setBuf l q b).scratch = l.scratch ∧ (setBuf l q b).frame = l.frame ∧ (setBuf l q b).handling = l.handling ∧
      (setBuf l q b).slotCause = l.slotCause ∧ (setBuf l q b).swPend = l.swPend ∧
      (setBuf l q b).asyncPend = l.asyncPend ∧ (setBuf l q b).olog = l.olog ∧ (setBuf l q b).tlog = l.tlog ∧
      (setBuf l q b).handles = l.handles ∧ (setBuf l q b).tiles = l.tiles ∧ (setBuf l q b).tileHist = l.tileHist ∧
      (setBuf l q b).pq = l.pq ∧ (setBuf l q b).tq = l.tq ∧ (setBuf l q b).sewShape = l.sewShape ∧
      (setBuf l q b).sewLast = l.sewLast ∧ (setBuf l q b).sewFault = l.sewFault ∧ (setBuf l q b).sewCfg = l.sewCfg ∧
      (setBuf l q b).sewq = l.sewq ∧ (setBuf l q b).shelves = l.shelves ∧ (setBuf l q b).sigq = l.sigq ∧
      (setBuf l q b).sigtq = l.sigtq ∧ (setBuf l q b).tokClocks = l.tokClocks ∧ (setBuf l q b).task = l.task ∧
      (setBuf l q b).selSeg = l.selSeg ∧ (setBuf l q b).curSeg = l.curSeg ∧ (setBuf l q b).po = l.po ∧
      (setBuf l q b).acqs = l.acqs ∧ (setBuf l q b).readSync = l.readSync ∧ (setBuf l q b).acqFences = l.acqFences ∧
      (setBuf l q b).relFences = l.relFences ∧ (setBuf l q b).drains = l.drains ∧ (setBuf l q b).past = l.past ∧
      (setBuf l q b).places = l.places := by
  repeat' constructor
@[simp] theorem setBuf_bufs (l : Leaf) (q : Nat) (b : Buf) : (setBuf l q b).bufs = mapSet l.bufs q .reset b := rfl

@[simp] theorem setShelf_keeps (l : Leaf) (n : Nat) (x : Shelf) :
    (setShelf l n x).run = l.run ∧ (setShelf l n x).exited = l.exited ∧ (setShelf l n x).level = l.level ∧
      (setShelf l n x).pc = l.pc ∧ (setShelf l n x).sregs = l.sregs ∧ (setShelf l n x).vregs = l.vregs ∧
      (setShelf l n x).mregs = l.mregs ∧ (setShelf l n x).feeds = l.feeds ∧ (setShelf l n x).bonds = l.bonds ∧
      (setShelf l n x).toks = l.toks ∧ (setShelf l n x).latches = l.latches ∧
      (setShelf l n x).inflight = l.inflight ∧ (setShelf l n x).seq = l.seq ∧ (setShelf l n x).fmt = l.fmt ∧
      (setShelf l n x).fmtPend = l.fmtPend ∧ (setShelf l n x).fstat = l.fstat ∧
      (setShelf l n x).freezeLimit = l.freezeLimit ∧ (setShelf l n x).loopOuter = l.loopOuter ∧
      (setShelf l n x).loopInner = l.loopInner ∧ (setShelf l n x).xfer = l.xfer ∧ (setShelf l n x).delay = l.delay ∧
      (setShelf l n x).rteDue = l.rteDue ∧ (setShelf l n x).blocked = l.blocked ∧
      (setShelf l n x).waited = l.waited ∧ (setShelf l n x).doubts = l.doubts ∧ (setShelf l n x).held = l.held ∧
      (setShelf l n x).wait = l.wait ∧ (setShelf l n x).skipSlot = l.skipSlot ∧ (setShelf l n x).sheet = l.sheet ∧
      (setShelf l n x).wet = l.wet ∧ (setShelf l n x).pin0 = l.pin0 ∧ (setShelf l n x).pin1 = l.pin1 ∧
      (setShelf l n x).impose = l.impose ∧ (setShelf l n x).watchAddr = l.watchAddr ∧
      (setShelf l n x).watchCtl = l.watchCtl ∧ (setShelf l n x).trapCause = l.trapCause ∧
      (setShelf l n x).trapPc = l.trapPc ∧ (setShelf l n x).trapNpc = l.trapNpc ∧
      (setShelf l n x).trapFva = l.trapFva ∧ (setShelf l n x).trapCtl = l.trapCtl ∧
      (setShelf l n x).trapVec = l.trapVec ∧ (setShelf l n x).emulVec = l.emulVec ∧
      (setShelf l n x).scratch = l.scratch ∧ (setShelf l n x).frame = l.frame ∧
      (setShelf l n x).handling = l.handling ∧ (setShelf l n x).slotCause = l.slotCause ∧
      (setShelf l n x).swPend = l.swPend ∧ (setShelf l n x).asyncPend = l.asyncPend ∧
      (setShelf l n x).olog = l.olog ∧ (setShelf l n x).tlog = l.tlog ∧ (setShelf l n x).bufs = l.bufs ∧
      (setShelf l n x).handles = l.handles ∧ (setShelf l n x).tiles = l.tiles ∧
      (setShelf l n x).tileHist = l.tileHist ∧ (setShelf l n x).pq = l.pq ∧ (setShelf l n x).tq = l.tq ∧
      (setShelf l n x).sewShape = l.sewShape ∧ (setShelf l n x).sewLast = l.sewLast ∧
      (setShelf l n x).sewFault = l.sewFault ∧ (setShelf l n x).sewCfg = l.sewCfg ∧ (setShelf l n x).sewq = l.sewq ∧
      (setShelf l n x).sigq = l.sigq ∧ (setShelf l n x).sigtq = l.sigtq ∧ (setShelf l n x).tokClocks = l.tokClocks ∧
      (setShelf l n x).task = l.task ∧ (setShelf l n x).selSeg = l.selSeg ∧ (setShelf l n x).curSeg = l.curSeg ∧
      (setShelf l n x).po = l.po ∧ (setShelf l n x).acqs = l.acqs ∧ (setShelf l n x).readSync = l.readSync ∧
      (setShelf l n x).acqFences = l.acqFences ∧ (setShelf l n x).relFences = l.relFences ∧
      (setShelf l n x).drains = l.drains ∧ (setShelf l n x).past = l.past ∧ (setShelf l n x).places = l.places := by
  repeat' constructor
@[simp] theorem setShelf_shelves (l : Leaf) (n : Nat) (x : Shelf) : (setShelf l n x).shelves = mapSet l.shelves n .reset x := rfl

@[simp] theorem writeV_keeps (l : Leaf) (n : Nat) (v : Vec) :
    (writeV l n v).run = l.run ∧ (writeV l n v).exited = l.exited ∧ (writeV l n v).level = l.level ∧
      (writeV l n v).pc = l.pc ∧ (writeV l n v).sregs = l.sregs ∧ (writeV l n v).mregs = l.mregs ∧
      (writeV l n v).feeds = l.feeds ∧ (writeV l n v).bonds = l.bonds ∧ (writeV l n v).toks = l.toks ∧
      (writeV l n v).latches = l.latches ∧ (writeV l n v).inflight = l.inflight ∧ (writeV l n v).seq = l.seq ∧
      (writeV l n v).fmt = l.fmt ∧ (writeV l n v).fmtPend = l.fmtPend ∧ (writeV l n v).fstat = l.fstat ∧
      (writeV l n v).freezeLimit = l.freezeLimit ∧ (writeV l n v).loopOuter = l.loopOuter ∧
      (writeV l n v).loopInner = l.loopInner ∧ (writeV l n v).xfer = l.xfer ∧ (writeV l n v).delay = l.delay ∧
      (writeV l n v).rteDue = l.rteDue ∧ (writeV l n v).blocked = l.blocked ∧ (writeV l n v).waited = l.waited ∧
      (writeV l n v).doubts = l.doubts ∧ (writeV l n v).held = l.held ∧ (writeV l n v).wait = l.wait ∧
      (writeV l n v).skipSlot = l.skipSlot ∧ (writeV l n v).sheet = l.sheet ∧ (writeV l n v).wet = l.wet ∧
      (writeV l n v).pin0 = l.pin0 ∧ (writeV l n v).pin1 = l.pin1 ∧ (writeV l n v).impose = l.impose ∧
      (writeV l n v).watchAddr = l.watchAddr ∧ (writeV l n v).watchCtl = l.watchCtl ∧
      (writeV l n v).trapCause = l.trapCause ∧ (writeV l n v).trapPc = l.trapPc ∧
      (writeV l n v).trapNpc = l.trapNpc ∧ (writeV l n v).trapFva = l.trapFva ∧ (writeV l n v).trapCtl = l.trapCtl ∧
      (writeV l n v).trapVec = l.trapVec ∧ (writeV l n v).emulVec = l.emulVec ∧ (writeV l n v).scratch = l.scratch ∧
      (writeV l n v).frame = l.frame ∧ (writeV l n v).handling = l.handling ∧
      (writeV l n v).slotCause = l.slotCause ∧ (writeV l n v).swPend = l.swPend ∧
      (writeV l n v).asyncPend = l.asyncPend ∧ (writeV l n v).olog = l.olog ∧ (writeV l n v).tlog = l.tlog ∧
      (writeV l n v).bufs = l.bufs ∧ (writeV l n v).handles = l.handles ∧ (writeV l n v).tiles = l.tiles ∧
      (writeV l n v).tileHist = l.tileHist ∧ (writeV l n v).pq = l.pq ∧ (writeV l n v).tq = l.tq ∧
      (writeV l n v).sewShape = l.sewShape ∧ (writeV l n v).sewLast = l.sewLast ∧
      (writeV l n v).sewFault = l.sewFault ∧ (writeV l n v).sewCfg = l.sewCfg ∧ (writeV l n v).sewq = l.sewq ∧
      (writeV l n v).shelves = l.shelves ∧ (writeV l n v).sigq = l.sigq ∧ (writeV l n v).sigtq = l.sigtq ∧
      (writeV l n v).tokClocks = l.tokClocks ∧ (writeV l n v).task = l.task ∧ (writeV l n v).selSeg = l.selSeg ∧
      (writeV l n v).curSeg = l.curSeg ∧ (writeV l n v).po = l.po ∧ (writeV l n v).acqs = l.acqs ∧
      (writeV l n v).readSync = l.readSync ∧ (writeV l n v).acqFences = l.acqFences ∧
      (writeV l n v).relFences = l.relFences ∧ (writeV l n v).drains = l.drains ∧ (writeV l n v).past = l.past ∧
      (writeV l n v).places = l.places := by
  repeat' constructor
@[simp] theorem writeV_vregs (l : Leaf) (n : Nat) (v : Vec) : (writeV l n v).vregs = mapSet l.vregs n 0 v := rfl

@[simp] theorem writeM_keeps (l : Leaf) (n : Nat) (v : Mask) :
    (writeM l n v).run = l.run ∧ (writeM l n v).exited = l.exited ∧ (writeM l n v).level = l.level ∧
      (writeM l n v).pc = l.pc ∧ (writeM l n v).sregs = l.sregs ∧ (writeM l n v).vregs = l.vregs ∧
      (writeM l n v).feeds = l.feeds ∧ (writeM l n v).bonds = l.bonds ∧ (writeM l n v).toks = l.toks ∧
      (writeM l n v).latches = l.latches ∧ (writeM l n v).inflight = l.inflight ∧ (writeM l n v).seq = l.seq ∧
      (writeM l n v).fmt = l.fmt ∧ (writeM l n v).fmtPend = l.fmtPend ∧ (writeM l n v).fstat = l.fstat ∧
      (writeM l n v).freezeLimit = l.freezeLimit ∧ (writeM l n v).loopOuter = l.loopOuter ∧
      (writeM l n v).loopInner = l.loopInner ∧ (writeM l n v).xfer = l.xfer ∧ (writeM l n v).delay = l.delay ∧
      (writeM l n v).rteDue = l.rteDue ∧ (writeM l n v).blocked = l.blocked ∧ (writeM l n v).waited = l.waited ∧
      (writeM l n v).doubts = l.doubts ∧ (writeM l n v).held = l.held ∧ (writeM l n v).wait = l.wait ∧
      (writeM l n v).skipSlot = l.skipSlot ∧ (writeM l n v).sheet = l.sheet ∧ (writeM l n v).wet = l.wet ∧
      (writeM l n v).pin0 = l.pin0 ∧ (writeM l n v).pin1 = l.pin1 ∧ (writeM l n v).impose = l.impose ∧
      (writeM l n v).watchAddr = l.watchAddr ∧ (writeM l n v).watchCtl = l.watchCtl ∧
      (writeM l n v).trapCause = l.trapCause ∧ (writeM l n v).trapPc = l.trapPc ∧
      (writeM l n v).trapNpc = l.trapNpc ∧ (writeM l n v).trapFva = l.trapFva ∧ (writeM l n v).trapCtl = l.trapCtl ∧
      (writeM l n v).trapVec = l.trapVec ∧ (writeM l n v).emulVec = l.emulVec ∧ (writeM l n v).scratch = l.scratch ∧
      (writeM l n v).frame = l.frame ∧ (writeM l n v).handling = l.handling ∧
      (writeM l n v).slotCause = l.slotCause ∧ (writeM l n v).swPend = l.swPend ∧
      (writeM l n v).asyncPend = l.asyncPend ∧ (writeM l n v).olog = l.olog ∧ (writeM l n v).tlog = l.tlog ∧
      (writeM l n v).bufs = l.bufs ∧ (writeM l n v).handles = l.handles ∧ (writeM l n v).tiles = l.tiles ∧
      (writeM l n v).tileHist = l.tileHist ∧ (writeM l n v).pq = l.pq ∧ (writeM l n v).tq = l.tq ∧
      (writeM l n v).sewShape = l.sewShape ∧ (writeM l n v).sewLast = l.sewLast ∧
      (writeM l n v).sewFault = l.sewFault ∧ (writeM l n v).sewCfg = l.sewCfg ∧ (writeM l n v).sewq = l.sewq ∧
      (writeM l n v).shelves = l.shelves ∧ (writeM l n v).sigq = l.sigq ∧ (writeM l n v).sigtq = l.sigtq ∧
      (writeM l n v).tokClocks = l.tokClocks ∧ (writeM l n v).task = l.task ∧ (writeM l n v).selSeg = l.selSeg ∧
      (writeM l n v).curSeg = l.curSeg ∧ (writeM l n v).po = l.po ∧ (writeM l n v).acqs = l.acqs ∧
      (writeM l n v).readSync = l.readSync ∧ (writeM l n v).acqFences = l.acqFences ∧
      (writeM l n v).relFences = l.relFences ∧ (writeM l n v).drains = l.drains ∧ (writeM l n v).past = l.past ∧
      (writeM l n v).places = l.places := by
  repeat' constructor
@[simp] theorem writeM_mregs (l : Leaf) (n : Nat) (v : Mask) : (writeM l n v).mregs = mapSet l.mregs n 0 v := rfl

/-- A write of a scalar register leaves every other field alone. -/
theorem writeS_eq (l : Leaf) (n : Nat) (v : Word) : ∃ m, writeS l n v = { l with sregs := m } := by
  unfold writeS
  split
  · exact ⟨l.sregs, rfl⟩
  · exact ⟨_, rfl⟩

end Sys2Proof.Machine
end

