-- ==== Sys2Proof/Laws/MemoryFrame.lean ====
section
/-! SUPPORT. Which shared operations leave memory alone, and that those which write it keep its canonical form: results and
traps, reads and writes, sheet space, translation. -/

namespace Sys2Proof.Machine

/-- A fold of steps that leave memory alone leaves it alone. -/
theorem foldl_mem {α : Type} (f : State → α → State) (l : List α) (h : ∀ s x, (f s x).mem = s.mem) (s : State) :
    (l.foldl f s).mem = s.mem := by
  induction l generalizing s with
  | nil => rfl
  | cons x r ih => rw [List.foldl_cons, ih, h]

/-- A fold of steps that keep the canonical form keeps it. -/
theorem foldl_wf {α : Type} (f : State → α → State) (l : List α)
    (h : ∀ s x, Memory.wf s.mem = true → Memory.wf (f s x).mem = true) (s : State) (hm : Memory.wf s.mem = true) :
    Memory.wf (l.foldl f s).mem = true := by
  induction l generalizing s with
  | nil => exact hm
  | cons x r ih => exact ih _ (h s x hm)

/-- The same for a fold that carries a state as the last part of its accumulator. -/
theorem foldl_snd_mem {α β : Type} (f : β × State → α → β × State) (l : List α)
    (h : ∀ a x, (f a x).2.mem = a.2.mem) (a : β × State) : (l.foldl f a).2.mem = a.2.mem := by
  induction l generalizing a with
  | nil => rfl
  | cons x r ih => rw [List.foldl_cons, ih, h]

theorem foldl_third_mem {α β γ : Type} (f : β × γ × State → α → β × γ × State) (l : List α)
    (h : ∀ a x, (f a x).2.2.mem = a.2.2.mem) (a : β × γ × State) : (l.foldl f a).2.2.mem = a.2.2.mem := by
  induction l generalizing a with
  | nil => rfl
  | cons x r ih => rw [List.foldl_cons, ih, h]

@[simp] theorem addResult_mem (s : State) (dist : Nat) (dest : Dest) (value : Vec) (mask : Vec) (latch : Option
      Nat) (rank : Nat) (flags : Flags) : (addResult s dist dest value mask latch rank flags).mem = s.mem := by
  unfold addResult
  simp

@[simp] theorem addScalar_mem (s : State) (dist : Nat) (sd : BitVec 6) (value : Word) (latch : Option Nat) (sl :
      Slot) : (addScalar s dist sd value latch sl).mem = s.mem := by
  unfold addScalar
  simp

@[simp] theorem setEnding_mem (s : State) (r : Nat) (e : Ending) : (setEnding s r e).mem = s.mem := by
  unfold setEnding
  simp

@[simp] theorem endRun_mem (s : State) (r : Nat) (e : Ending) : (endRun s r e).mem = s.mem := by
  unfold endRun
  dsimp only
  (repeat' split) <;> simp [*]

@[simp] theorem faultEnd_mem (s : State) (g : Nat) (cause : Word) (pc : Word) (fva : Word) : (faultEnd s g cause pc
      fva).mem = s.mem := by
  unfold faultEnd
  (repeat' split) <;> simp [*]

@[simp] theorem enterTrap_mem (s : State) (t : Trap) : (enterTrap s t).mem = s.mem := by
  unfold enterTrap
  dsimp only
  (repeat' split) <;> simp [*]

@[simp] theorem takeTrap_mem (s : State) (t : Trap) : (takeTrap s t).mem = s.mem := by
  unfold takeTrap
  dsimp only
  (repeat' split) <;> simp [*]

theorem takeDue_mem (s : State) (drain : Bool) : ∀ t, takeDue s drain = some t → t.mem = s.mem := by
  intro t ht
  unfold takeDue at ht
  split at ht <;> simp at ht
  subst ht; simp

@[simp] theorem raiseAsync_mem (s : State) (g : Nat) (atTrap : Bool) (t : Trap) : (raiseAsync s g atTrap t).mem =
      s.mem := by
  unfold raiseAsync
  dsimp only
  (repeat' split) <;> simp [*]

@[simp] theorem postToken_mem (s : State) (g : Nat) (k : Nat) (clk : Clock) : (postToken s g k clk).mem = s.mem := by
  unfold postToken
  dsimp only
  (repeat' split) <;> simp [*]

@[simp] theorem postOpt_mem (s : State) (g : Nat) (tok : Option Nat) (clk : Clock) : (postOpt s g tok clk).mem =
      s.mem := by
  unfold postOpt
  (repeat' split) <;> simp [*]

@[simp] theorem freezeOnce_mem (s : State) : (freezeOnce s).mem = s.mem := by
  unfold freezeOnce
  simp

@[simp] theorem passSelector_mem (s : State) (g : Nat) : (passSelector s g).mem = s.mem := by
  unfold passSelector
  simp

@[simp] theorem waitAtIssue_mem (s : State) : (waitAtIssue s).mem = s.mem := by
  unfold waitAtIssue
  (repeat' split) <;> simp [*]

@[simp] theorem notePriv_mem (s : State) (obs k : Nat) : (notePriv s obs k).mem = s.mem := rfl

@[simp] theorem mixBytes_mem (n : Nat) (a b : List Byte) (s : State) : (mixBytes n a b s).2.mem = s.mem := by
  induction n generalizing a b s with
  | zero => rfl
  | succ n ih =>
    unfold mixBytes
    split
    · rfl
    · simp [ih]

@[simp] theorem mixWhere_mem (sel : Nat → Bool) (off : Nat) (new old : List Byte) (s : State) :
    (mixWhere sel off new old s).2.mem = s.mem := by
  have h := mixBytes_mem (new.length / 2048 + 1) new old s
  unfold mixWhere
  split
  · split <;> rename_i heq <;> rw [heq] at h; exact h
  · rfl

@[simp] theorem mixFormers_mem (ws : Formers) (off : Nat) (b : List Byte) (s : State) : (mixFormers ws off b s).2.mem = s.mem := by
  unfold mixFormers
  exact foldl_snd_mem _ _ (by simp) _

@[simp] theorem sectorPrefix_mem (s : State) (r : Reader) (linear : Bool) (recs : List WriteRec) (k : Nat) :
    (sectorPrefix s r linear recs k).2.mem = s.mem := by
  unfold sectorPrefix
  dsimp only
  split <;> simp

@[simp] theorem readChunk_mem (s : State) (r : Reader) (linear : Bool) (recs lo hi : List WriteRec) (k n : Nat) :
    (readChunk s r linear recs lo hi k n).2.2.mem = s.mem := by
  unfold readChunk
  dsimp only
  (repeat' split) <;> simp [*]

@[simp] theorem overlayFree_mem (s : State) (k : Nat) (bytes : List Byte) : (overlayFree s k bytes).2.mem = s.mem := by
  unfold overlayFree
  dsimp only
  split <;> simp

@[simp] theorem readPiece_mem (s : State) (r : Reader) (linear : Bool) (k n : Nat) :
    (readPiece s r linear k n).2.2.mem = s.mem := by
  have h : (if r.priv then notePriv s r.obs k else s).mem = s.mem := by split <;> simp
  unfold readPiece
  dsimp only
  generalize (if r.priv then notePriv s r.obs k else s) = u at h ⊢
  split
  · simpa using h
  · split
    · simpa using h
    · simp only [overlayFree_mem]
      exact (foldl_third_mem _ _ (by simp) _).trans (by simpa using h)

@[simp] theorem readWrites_mem (s : State) (r : Reader) (pkg pa n : Nat) : (readWrites s r pkg pa n).2.2.mem = s.mem := by
  unfold readWrites
  exact foldl_third_mem _ _ (by simp) _

@[simp] theorem readPhys_mem (s : State) (r : Reader) (pkg pa n : Nat) : (readPhys s r pkg pa n).2.2.mem = s.mem := by
  unfold readPhys
  exact readWrites_mem s r pkg pa n

@[simp] theorem breakResv_mem (s : State) (k : Nat) (n : Nat) : (breakResv s k n).mem = s.mem := by
  unfold breakResv
  simp

@[simp] theorem mapLeaves_mem (s : State) (f : Leaf → Leaf) : (mapLeaves s f).mem = s.mem := rfl

@[simp] theorem noteRecords_mem (s : State) (old new : Shelf) : (noteRecords s old new).mem = s.mem := rfl

@[simp] theorem taintShelves_mem (s : State) (k : Nat) (b : List Byte) : (taintShelves s k b).mem = s.mem := by
  unfold taintShelves
  simp

@[simp] theorem settleFree_mem (s : State) (k : Nat) (b : List Byte) : (settleFree s k b).mem = s.mem := by
  unfold settleFree
  (repeat' split) <;> simp [*]

@[simp] theorem writePiece_wf (s : State) (w : Writer) (linear : Bool) (k : Nat) (b : List Byte)
    (hm : Memory.wf s.mem = true) : Memory.wf (writePiece s w linear k b).mem = true := by
  unfold writePiece
  refine memWrite_wf ?_ k b
  rw [settleFree_mem, breakResv_mem]
  split <;> simpa using hm

@[simp] theorem writeLines_wf (s : State) (w : Writer) (pkg : Nat) (ps : List (Nat × Nat)) (b : List Byte)
    (hm : Memory.wf s.mem = true) : Memory.wf (writeLines s w pkg ps b).mem = true := by
  induction ps generalizing s b with
  | nil => exact hm
  | cons p ps ih => exact ih _ _ (by simp [hm])

@[simp] theorem writePhys_wf (s : State) (w : Writer) (pkg : Nat) (pa : Nat) (b : List Byte) (hm : Memory.wf s.mem
      = true) : Memory.wf (writePhys s w pkg pa b).mem = true := by
  unfold writePhys
  (repeat' split) <;> simp [*]

@[simp] theorem agentNext_mem (s : State) (o : Nat) : (agentNext s o).2.mem = s.mem := by
  unfold agentNext
  simp

@[simp] theorem agentAcquire_mem (s : State) (o : Nat) (rels : List Release) : (agentAcquire s o rels).mem = s.mem
      := by
  unfold agentAcquire
  dsimp only
  (repeat' split) <;> simp [*]

@[simp] theorem agentRead_mem (s : State) (o : Nat) (pa : Nat) (n : Nat) (acq : Bool) : (agentRead s o pa n
      acq).2.mem = s.mem := by
  unfold agentRead
  dsimp only
  (repeat' split) <;> simp [*]

@[simp] theorem agentWrite_wf (s : State) (o : Nat) (pa : Nat) (b : List Byte) (rel : Option Nat) (hm : Memory.wf
      s.mem = true) : Memory.wf (agentWrite s o pa b rel).mem = true := by
  unfold agentWrite
  dsimp only
  (repeat' split) <;> simp [*]

@[simp] theorem addVec_mem (s : State) (lat : Nat) (nowb : Bool) (vd : BitVec 9) (value : Vec) (mask : Vec) (latch
      : Nat) (rank : Nat) (flags : Flags) : (addVec s lat nowb vd value mask latch rank flags).mem = s.mem := by
  unfold addVec
  simp

@[simp] theorem addMask_mem (s : State) (lat : Nat) (md : BitVec 3) (bits : List Bool) (rank : Nat) : (addMask s
      lat md bits rank).mem = s.mem := by
  unfold addMask
  simp

@[simp] theorem touchSheet_mem (s : State) (g : Nat) (keep : List Nat) (dirty : Bool) (i : Nat) : (touchSheet s g
      keep dirty i).mem = s.mem := by
  unfold touchSheet
  dsimp only
  simp

@[simp] theorem touchSheets_mem (s : State) (g : Nat) (is : List Nat) (dirty : Bool) :
    (touchSheets s g is dirty).mem = s.mem := by
  unfold touchSheets
  exact foldl_mem _ is (by simp) s

@[simp] theorem noteWild_mem (s : State) (rs : Ranges) : (noteWild s rs).mem = s.mem := by
  unfold noteWild
  (repeat' split) <;> simp [*]

@[simp] theorem mixedLeaf_mem (ws : Formers) (rs : Ranges) (l : Leaf) (s : State) : (mixedLeaf ws rs l s).2.mem = s.mem := by
  unfold mixedLeaf
  split
  · rfl
  · exact foldl_snd_mem _ _ (by simp) _

@[simp] theorem storeOne_mem (s : State) (b : Nat × List Byte) : (storeOne s b).mem = s.mem := by
  unfold storeOne
  simp

@[simp] theorem engineSheet_mem (s : State) (g obs off : Nat) (b : List Byte) :
    (engineSheet s g obs off b).mem = s.mem := by
  unfold engineSheet
  simp

@[simp] theorem storeSheet_mem (s : State) (rs : Ranges) (bs : List (Nat × List Byte)) : (storeSheet s rs bs).mem =
      s.mem := by
  unfold storeSheet
  exact (foldl_mem _ bs (by simp) _).trans (by simp)

@[simp] theorem loadResult_mem (s : State) (rs : Ranges) (land : BitVec 6) (d : Dest) (v : Vec) (mask : Vec) :
      (loadResult s rs land d v mask).mem = s.mem := by
  unfold loadResult
  simp

@[simp] theorem pldEffect_mem (f : PLd) (s : State) : (pldEffect f s).mem = s.mem := by
  unfold pldEffect
  dsimp only
  simp

@[simp] theorem pstEffect_mem (f : PSt) (s : State) : (pstEffect f s).mem = s.mem := by
  unfold pstEffect
  dsimp only
  simp

@[simp] theorem pldvEffect_mem (f : PLdv) (s : State) : (pldvEffect f s).mem = s.mem := by
  unfold pldvEffect
  dsimp only
  simp

@[simp] theorem pstvEffect_mem (f : PStv) (s : State) : (pstvEffect f s).mem = s.mem := by
  unfold pstvEffect
  dsimp only
  simp

@[simp] theorem pldvsEffect_mem (f : PLdvs) (s : State) : (pldvsEffect f s).mem = s.mem := by
  unfold pldvsEffect
  dsimp only
  simp

@[simp] theorem pgthEffect_mem (f : PGth) (s : State) : (pgthEffect f s).mem = s.mem := by
  unfold pgthEffect
  dsimp only
  simp

@[simp] theorem psctEffect_mem (f : PSct) (s : State) : (psctEffect f s).mem = s.mem := by
  unfold psctEffect
  dsimp only
  simp

@[simp] theorem readRecto_mem (h : BitVec 6) (s : State) : (readRecto h s).mem = s.mem := by
  unfold readRecto
  simp

@[simp] theorem pldhEffect_mem (f : PLdh) (s : State) : (pldhEffect f s).mem = s.mem := by
  unfold pldhEffect
  dsimp only
  simp

@[simp] theorem pldhvEffect_mem (f : PLdhv) (s : State) : (pldhvEffect f s).mem = s.mem := by
  unfold pldhvEffect
  dsimp only
  simp

@[simp] theorem readWord_mem (s : State) (r : Reader) (pa : Nat) : (readWord s r pa).2.mem = s.mem := by
  unfold readWord
  dsimp only
  simp

@[simp] theorem readGroup_mem (s : State) (r : Reader) (t base n : Nat) : (readGroup s r t base n).2.mem = s.mem := by
  induction n with
  | zero => rfl
  | succ n ih => simp [readGroup, ih]

@[simp] theorem runEntry_mem (s : State) (r : Reader) (t : Nat) (idx : Nat) (e : Word) : (runEntry s r t idx
      e).2.mem = s.mem := by
  unfold runEntry
  dsimp only
  (repeat' split) <;> simp [*]

theorem walkEntry_mem (r : Reader) (va : Nat) (k : Kind) (t : Nat) (s : State) (level : Nat)
    (down : Word → State → WalkResult × State) (h : ∀ e s, (down e s).2.mem = s.mem) :
    (walkFrom.walkEntry r va k t s level down).2.mem = s.mem := by
  unfold walkFrom.walkEntry
  dsimp only
  (repeat' split) <;> simp [h]

@[simp] theorem walkFrom_mem (s : State) (r : Reader) (va : Nat) (k : Kind) (t level : Nat) :
    (walkFrom s r va k t level).2.mem = s.mem := by
  induction level generalizing s t with
  | zero => exact walkEntry_mem r va k t s 0 _ (by simp)
  | succ n ih =>
    refine walkEntry_mem r va k t s (n + 1) _ fun e s' => ?_
    have hs := ih s' (ptePpn e * 4096)
    dsimp only
    split <;> rename_i heq <;> rw [heq] at hs <;> exact hs

@[simp] theorem cacheWalk_mem (s : State) (asid : BitVec 16) (va : Nat) (e : Word) (level : Nat) (ps : List (Nat ×
      Nat)) : (cacheWalk s asid va e level ps).mem = s.mem := by
  unfold cacheWalk
  simp

@[simp] theorem walked_mem (s : State) (asid : BitVec 16) (va : Nat) (w : Word × Nat × List (Nat × Nat)) :
    (walked s asid va w).2.mem = s.mem := by
  unfold walked
  split <;> simp

/-- What a walk and its caching leave of memory. -/
theorem freshWalk_mem (s : State) (r : Reader) (asid : BitVec 16) (root va : Nat) (k : Kind) :
    (match walkFrom s r va k root 5 with
      | (.ok w, s1) => walked s1 asid va w
      | (.error c, s1) => (.error c, s1)).2.mem = s.mem := by
  have h := walkFrom_mem s r va k root 5
  split <;> rename_i heq <;> rw [heq] at h
  · simpa using h
  · exact h

@[simp] theorem tlbHit_mem (s : State) (asid : BitVec 16) (va : Nat) : (tlbHit s asid va).2.mem = s.mem := by
  unfold tlbHit
  split <;> simp

@[simp] theorem translate_mem (s : State) (r0 : Reader) (asid : BitVec 16) (root : Nat) (useTlb : Bool) (va : Nat)
    (k : Kind) : (translate s r0 asid root useTlb va k).2.mem = s.mem := by
  have hf := fun s' => freshWalk_mem s' (walkReader s r0) asid root va k
  have ht := tlbHit_mem s asid va
  unfold translate
  dsimp only
  split
  · split
    · next s0 heq =>
      rw [heq] at ht
      split
      · exact ht
      · exact (hf s0).trans ht
    · next s0 heq =>
      rw [heq] at ht
      split
      · next p _ =>
        have h := walkFrom_mem s0 (walkReader s r0) va k p.table p.level
        split <;> rename_i heq2 <;> rw [heq2] at h
        · next w s1 =>
          have hw := walked_mem s1 asid va w
          split
          · next heq3 => rw [heq3] at hw; exact (hw.trans h).trans ht
          · exact ((hf _).trans h).trans ht
        · exact ((hf _).trans h).trans ht
      · exact (hf s0).trans ht
  · exact hf s

@[simp] theorem translateSure_mem (s : State) (r : Reader) (asid : BitVec 16) (root : Nat) (useTlb : Bool) (va : Nat)
    (k : Kind) (bad : Trans → Bool) : (translateSure s r asid root useTlb va k bad).2.mem = s.mem := by
  have h := translate_mem s r asid root useTlb va k
  unfold translateSure
  split
  · next heq =>
    rw [heq] at h
    split
    · simpa using h
    · exact h
  · exact h

@[simp] theorem translateAll_mem (s : State) (r : Reader) (asid : BitVec 16) (root : Nat) (useTlb : Bool) (k : Kind)
    (ps : List (Nat × Nat)) : (translateAll s r asid root useTlb k ps).2.mem = s.mem := by
  induction ps generalizing s with
  | nil => rfl
  | cons p ps ih =>
    have h1 := translate_mem s r asid root useTlb (p.1 % 2 ^ 64) k
    unfold translateAll
    split
    · next t s1 heq =>
      rw [heq] at h1
      have h2 := ih s1
      split <;> rename_i heq2 <;> rw [heq2] at h2 <;> exact h2.trans h1
    · next heq => rw [heq] at h1; exact h1

@[simp] theorem readVirt_mem (s : State) (r : Reader) (asid : BitVec 16) (root : Nat) (useTlb : Bool) (k : Kind)
    (va n : Nat) : (readVirt s r asid root useTlb k va n).2.mem = s.mem := by
  have h := translateAll_mem s r asid root useTlb k (pageSplit va n)
  unfold readVirt
  dsimp only
  split <;> rename_i heq <;> rw [heq] at h
  · exact h
  · exact (foldl_third_mem _ _ (by simp) _).trans h

@[simp] theorem writePages_wf (s : State) (w : Writer) (xs : List ((Nat × Nat) × Trans)) (b : List Byte)
    (hm : Memory.wf s.mem = true) : Memory.wf (writePages s w xs b).mem = true := by
  induction xs generalizing s b with
  | nil => exact hm
  | cons x xs ih => exact ih _ _ (by simp [hm])

@[simp] theorem writeVirt_wf (s : State) (r : Reader) (w : Writer) (asid : BitVec 16) (root : Nat) (useTlb : Bool)
      (va : Nat) (b : List Byte) (hm : Memory.wf s.mem = true) : Memory.wf (writeVirt s r w asid root useTlb va
      b).2.mem = true := by
  unfold writeVirt
  dsimp only
  (repeat' split) <;> grind [translateAll_mem, writePages_wf]

@[simp] theorem pendMsi_mem (s : State) (m : Msi) : (pendMsi s m).mem = s.mem := rfl

@[simp] theorem sendMsi_mem (s : State) (hart identity : Nat) (after : List (Nat × Nat)) :
    (sendMsi s hart identity after).mem = s.mem := by
  unfold sendMsi
  (repeat' split) <;> simp [*]

@[simp] theorem serviceFault_wf (s : State) (run : Run) (gleaf : Nat) (unit : Nat) (va : Nat) (c : Cause) (hm :
      Memory.wf s.mem = true) : ∀ t, serviceFault s run gleaf unit va c = some t → Memory.wf t.2.mem = true := by
  intro t ht
  unfold serviceFault at ht
  dsimp only at ht
  (repeat' split at ht) <;> grind [translate_mem, readPhys_mem, agentNext_mem, writePhys_wf, writeVirt_wf, fresh,
      sendMsi_mem]

end Sys2Proof.Machine
end

