-- ==== Sys2Proof/Laws/LeafFrame.lean ====
section
/-! SUPPORT. Which operations of a leaf and its engines leave memory alone, and that those which write it keep its canonical
form. -/

namespace Sys2Proof.Machine

@[simp] theorem scalarResult_mem (s : State) (lat : Nat) (latch : Nat) (sd : BitVec 6) (nowb : Bool) (v : Word) :
      (scalarResult s lat latch sd nowb v).mem = s.mem := by
  unfold scalarResult
  simp

@[simp] theorem aluRR_mem (s : State) (f : SRR) (op : Word → Word → Word) : (aluRR s f op).mem = s.mem := by
  unfold aluRR
  simp

@[simp] theorem aluRI_mem (s : State) (f : SRI) (op : Word → BitVec 32 → Word) : (aluRI s f op).mem = s.mem := by
  unfold aluRI
  simp

@[simp] theorem aluSh_mem (s : State) (f : SSh) (op : Word → Nat → Word) : (aluSh s f op).mem = s.mem := by
  unfold aluSh
  simp

@[simp] theorem aluR_mem (s : State) (f : SR) (op : Word → Word) : (aluR s f op).mem = s.mem := by
  unfold aluR
  simp

@[simp] theorem mulRR_mem (s : State) (f : SRR) (op : Word → Word → Word) : (mulRR s f op).mem = s.mem := by
  unfold mulRR
  simp

@[simp] theorem divRR_mem (s : State) (f : SRR) (op : Word → Word → Word) : (divRR s f op).mem = s.mem := by
  unfold divRR
  simp

@[simp] theorem intVecResult_mem (s : State) (u : VUnit) (lat : Nat) (nowb : Bool) (vd : BitVec 9) (e : Nat) (es :
      List Nat) (en : Mask) : (intVecResult s u lat nowb vd e es en).mem = s.mem := by
  unfold intVecResult
  simp

@[simp] theorem intBin_mem (s : State) (f : V2 ITy) (lat : Nat) (op : Nat → Bool → Int → Int → Int) : (intBin s f
      lat op).mem = s.mem := by
  unfold intBin
  dsimp only
  simp

@[simp] theorem rawUn_mem (s : State) (f : V1 STy) (lat : Nat) (w : Widen) (op : Nat → Nat → Nat) : (rawUn s f lat
      w op).mem = s.mem := by
  unfold rawUn
  dsimp only
  simp

@[simp] theorem vecLogic_mem (s : State) (f : V2 UTy) (op : Vec → Vec → Vec) : (vecLogic s f op).mem = s.mem := by
  unfold vecLogic
  dsimp only
  simp

@[simp] theorem vecShift_mem (s : State) (f : V2 STy) (w : Widen) (op : Nat → Nat → Nat → Nat) : (vecShift s f w
      op).mem = s.mem := by
  unfold vecShift
  dsimp only
  simp

@[simp] theorem cmpResult_mem (s : State) (u : VUnit) (lat : Nat) (md : BitVec 3) (any : Bool) (e : Nat) (ps : List
      Bool) (en : Mask) : (cmpResult s u lat md any e ps en).mem = s.mem := by
  unfold cmpResult
  simp

@[simp] theorem intCmp_mem (s : State) (f : VC ITy) (p : Int → Int → Bool) : (intCmp s f p).mem = s.mem := by
  unfold intCmp
  dsimp only
  simp

@[simp] theorem maskResult_mem (s : State) (u : VUnit) (md : BitVec 3) (m : Mask) : (maskResult s u md m).mem =
      s.mem := by
  unfold maskResult
  simp

@[simp] theorem floatResult_mem (s : State) (u : VUnit) (lat : Nat) (nowb : Bool) (vd : BitVec 9) (e : Nat) (rs :
      List (Nat × Flags)) (en : Mask) : (floatResult s u lat nowb vd e rs en).mem = s.mem := by
  unfold floatResult
  dsimp only
  simp

@[simp] theorem floatBin_mem (s : State) (f : V2 FTy) (lat : Nat) (op : FloatFmt →   FCtx → Num → Num → Nat ×
      Flags) : (floatBin s f lat op).mem = s.mem := by
  unfold floatBin
  dsimp only
  simp

@[simp] theorem floatUn_mem (s : State) (f : V1 FTy) (lat : Nat) (op : FloatFmt → FCtx → Num → Nat × Flags) :
      (floatUn s f lat op).mem = s.mem := by
  unfold floatUn
  dsimp only
  simp

@[simp] theorem floatCmp_mem (s : State) (f : VC FTy) (p : Int → Bool) : (floatCmp s f p).mem = s.mem := by
  unfold floatCmp
  dsimp only
  simp

@[simp] theorem enterLog_mem (s : State) (op : LogOp) (va : Word) (size : Nat) (data : Vec) (cmp : Word) :
      (enterLog s op va size data cmp).2.mem = s.mem := by
  unfold enterLog
  dsimp only
  simp

@[simp] theorem addPending_mem (s : State) (id : Nat) (land : BitVec 6) (d : Dest) (mask : Vec) : (addPending s id
      land d mask).mem = s.mem := by
  unfold addPending
  simp

@[simp] theorem gldEffect_mem (f : GLd) (s : State) : (gldEffect f s).mem = s.mem := by
  unfold gldEffect
  dsimp only
  simp

@[simp] theorem gldvEffect_mem (f : GLdv) (s : State) : (gldvEffect f s).mem = s.mem := by
  unfold gldvEffect
  dsimp only
  simp

@[simp] theorem gstEffect_mem (f : GSt) (s : State) : (gstEffect f s).mem = s.mem := by
  unfold gstEffect
  simp

@[simp] theorem gstvEffect_mem (f : GStv) (s : State) : (gstvEffect f s).mem = s.mem := by
  unfold gstvEffect
  simp

@[simp] theorem atomEffect_mem (op : Nat) (sd : BitVec 6) (base : ScalarSrc) (land : BitVec 6) (wide : Bool) (ext :
      Bool) (ar : Bool) (d : ScalarSrc) (c : ScalarSrc) (s : State) : (atomEffect op sd base land wide ext ar d c
      s).mem = s.mem := by
  unfold atomEffect
  dsimp only
  (repeat' split) <;> simp [*]

@[simp] theorem atomRun_mem (op : Nat) (f : GAtom) (x23 : State) : (atomRun op f x23).mem = x23.mem := by
  unfold atomRun
  simp

@[simp] theorem setStage_mem (s : State) (g : Nat) (id : Nat) (st : LogStage) : (setStage s g id st).mem = s.mem := by
  unfold setStage
  simp

@[simp] theorem settleAr_mem (s : State) (g : Nat) : (settleAr s g).mem = s.mem := rfl

@[simp] theorem leaveLog_mem (s : State) (g : Nat) (id : Nat) : (leaveLog s g id).mem = s.mem := by
  unfold leaveLog
  simp

@[simp] theorem translateKinds_mem (s : State) (r : Reader) (run : Run) (useTlb : Bool) (ps : List (Nat × Nat))
    (ks : List Kind) : (translateKinds s r run useTlb ps ks).2.mem = s.mem := by
  induction ks generalizing s with
  | nil => rfl
  | cons k ks ih =>
    have h1 := translateAll_mem s r run.asid run.root useTlb k ps
    cases ks with
    | nil => exact h1
    | cons k2 ks =>
      unfold translateKinds
      split
      · next heq => rw [heq] at h1; exact (ih _).trans h1
      · next heq => rw [heq] at h1; exact h1

@[simp] theorem detect_wf (s : State) (g : Nat) (run : Run) (e : LogEntry) (c : Cause) (fva : Nat)
    (hm : Memory.wf s.mem = true) : Memory.wf (detect s g run e c fva).mem = true := by
  unfold detect
  split
  · next heq => simpa using serviceFault_wf s run g 0 fva c hm _ heq
  · dsimp only
    split <;> simp [hm]

@[simp] theorem readPages_mem (s : State) (r : Reader) (xs : List ((Nat × Nat) × Trans)) :
    (readPages s r xs).2.2.mem = s.mem := by
  induction xs generalizing s with
  | nil => rfl
  | cons x xs ih => simp [readPages, ih]

@[simp] theorem mixPieces_mem (s : State) (race : WriteRec → Bool) (pkg : Nat) (ps : List (Nat × Nat)) (b : List Byte) :
    (mixPieces s race pkg ps b).2.mem = s.mem := by
  induction ps generalizing s b with
  | nil => rfl
  | cons p ps ih => simp [mixPieces, ih]

@[simp] theorem mixPages_mem (s : State) (race : WriteRec → Bool) (xs : List ((Nat × Nat) × Trans)) (b : List Byte) :
    (mixPages s race xs b).2.mem = s.mem := by
  induction xs generalizing s b with
  | nil => rfl
  | cons x xs ih => simp [mixPages, ih]

@[simp] theorem performLoad_mem (s : State) (g : Nat) (e : LogEntry) (vec : Bool) (ext : Bool) (ps : List ((Nat ×
      Nat) × Trans)) : (performLoad s g e vec ext ps).mem = s.mem := by
  unfold performLoad
  dsimp only
  simp

@[simp] theorem performStore_wf (s : State) (g : Nat) (e : LogEntry) (ts : List Trans) (ps : List ((Nat × Nat) ×
      Trans)) (hm : Memory.wf s.mem = true) : Memory.wf (performStore s g e ts ps).mem = true := by
  unfold performStore
  simp [hm]

@[simp] theorem performAtom_wf (s : State) (g : Nat) (e : LogEntry) (op : Nat) (ext : Bool) (rm : Nat) (ts : List
      Trans) (ps : List ((Nat × Nat) × Trans)) (hm : Memory.wf s.mem = true) : Memory.wf (performAtom s g e op ext
      rm ts ps).mem = true := by
  unfold performAtom
  dsimp only
  (repeat' split) <;> simp [*]

@[simp] theorem performAliasf_mem (s : State) (g : Nat) (e : LogEntry) (scope : Nat) (ps : List ((Nat × Nat) ×
      Trans)) : (performAliasf s g e scope ps).mem = s.mem := by
  unfold performAliasf
  simp

@[simp] theorem makeCut_mem (s : State) (c : Cut) : (makeCut s c).mem = s.mem := by
  unfold makeCut
  simp

@[simp] theorem sendAts_mem (s : State) (c : Cut) (id : Nat) : (sendAts s c id).mem = s.mem := by
  unfold sendAts
  simp

@[simp] theorem performTlbinv_mem (s : State) (g : Nat) (e : LogEntry) : (performTlbinv s g e).mem = s.mem := by
  unfold performTlbinv
  dsimp only
  (repeat' split) <;> simp [*]

@[simp] theorem treeError_mem (s : State) (run : Nat) (src : Nat) : (treeError s run src).mem = s.mem := by
  unfold treeError
  simp

@[simp] theorem sendUpward_mem (s : State) (c : Nat) (k : Nat) (x : Kettle) : (sendUpward s c k x).mem = s.mem := by
  unfold sendUpward
  dsimp only
  (repeat' split) <;> simp [*]

@[simp] theorem advanceKettle_mem (s : State) (c : Nat) (k : Nat) : (advanceKettle s c k).mem = s.mem := by
  unfold advanceKettle
  dsimp only
  (repeat' split) <;> simp [*]

@[simp] theorem flipKettle_mem (s : State) (c : Nat) (k : Nat) (rel : List Release) : (flipKettle s c k rel).mem =
      s.mem := by
  unfold flipKettle
  dsimp only
  (repeat' split) <;> simp [*]

@[simp] theorem karvEffect_mem (f : KKet) (s : State) : (karvEffect f s).mem = s.mem := by
  unfold karvEffect
  dsimp only
  simp

@[simp] theorem kwaitEffect_mem (f : KKet) (s : State) : (kwaitEffect f s).mem = s.mem := by
  unfold kwaitEffect
  dsimp only
  (repeat' split) <;> simp [*]

@[simp] theorem kpollEffect_mem (f : KPoll) (s : State) : (kpollEffect f s).mem = s.mem := by
  unfold kpollEffect
  simp

@[simp] theorem kinitEffect_mem (f : KInit) (s : State) : (kinitEffect f s).mem = s.mem := by
  unfold kinitEffect
  dsimp only
  simp

@[simp] theorem gjoinEffect_mem (f : KJoin) (s : State) : (gjoinEffect f s).mem = s.mem := by
  unfold gjoinEffect
  dsimp only
  simp

@[simp] theorem leaveGathering_mem (s : State) (g : Nat) (k : Nat) : (leaveGathering s g k).mem = s.mem := by
  unfold leaveGathering
  dsimp only
  (repeat' split) <;> simp [*]

@[simp] theorem gleaveEffect_mem (f : KLeave) (s : State) : (gleaveEffect f s).mem = s.mem := by
  unfold gleaveEffect
  simp

@[simp] theorem leaveAll_mem (s : State) (g : Nat) : (leaveAll s g).mem = s.mem := by
  unfold leaveAll
  refine foldl_mem _ _ (fun s k => ?_) s
  split <;> simp

@[simp] theorem branchIf_mem (s : State) (taken : Bool) (target : Word) : (branchIf s taken target).mem = s.mem := by
  unfold branchIf
  simp

@[simp] theorem branchCmp_mem (s : State) (f : KBcc) (p : Word → Word → Bool) : (branchCmp s f p).mem = s.mem := by
  unfold branchCmp
  simp

@[simp] theorem callTo_mem (s : State) (target : Word) : (callTo s target).mem = s.mem := by
  unfold callTo
  dsimp only
  simp

@[simp] theorem enqueue_mem (s : State) (form : PressForm) (n : Nat) (tok : Option Nat) (fa : Nat × Int) (fb : Nat
      × Int) : (enqueue s form n tok fa fb).mem = s.mem := by
  unfold enqueue
  dsimp only
  simp

@[simp] theorem mmaEffect_mem (f : MMma) (s : State) : (mmaEffect f s).mem = s.mem := by
  unfold mmaEffect
  dsimp only
  simp

@[simp] theorem mmazEffect_mem (f : MMmaz) (s : State) : (mmazEffect f s).mem = s.mem := by
  unfold mmazEffect
  dsimp only
  simp

@[simp] theorem acczEffect_mem (f : MAccz) (s : State) : (acczEffect f s).mem = s.mem := by
  unfold acczEffect
  simp

@[simp] theorem accwrEffect_mem (f : MAccwr) (s : State) : (accwrEffect f s).mem = s.mem := by
  unfold accwrEffect
  simp

@[simp] theorem epiEffect_mem (f : MEpi) (s : State) : (epiEffect f s).mem = s.mem := by
  unfold epiEffect
  simp

@[simp] theorem accrdTile_mem (s : State) (z : Nat) : (accrdTile s z).2.mem = s.mem := by
  unfold accrdTile
  dsimp only
  (repeat' split) <;> simp [*]

@[simp] theorem accrdEffect_mem (f : MAccrd) (s : State) : (accrdEffect f s).mem = s.mem := by
  unfold accrdEffect
  dsimp only
  simp

@[simp] theorem abandon_mem (s : State) (g q : Nat) (trapQ : Bool) : (abandon s g q trapQ).mem = s.mem := by
  unfold abandon
  exact (foldl_mem _ _ (by simp) _).trans (by simp)

@[simp] theorem qcfgEffect_mem (f : MQcfg) (s : State) : (qcfgEffect f s).mem = s.mem := by
  unfold qcfgEffect
  dsimp only
  simp

@[simp] theorem qputEffect_mem (f : MQv) (s : State) : (qputEffect f s).mem = s.mem := by
  unfold qputEffect
  dsimp only
  simp

@[simp] theorem qgetEffect_mem (f : MQv) (s : State) : (qgetEffect f s).mem = s.mem := by
  unfold qgetEffect
  dsimp only
  (repeat' split) <;> simp [*]

@[simp] theorem qstatEffect_mem (f : MQs) (s : State) : (qstatEffect f s).mem = s.mem := by
  unfold qstatEffect
  simp

@[simp] theorem feedsetEffect_mem (f : MFeed) (s : State) : (feedsetEffect f s).mem = s.mem := by
  unfold feedsetEffect
  dsimp only
  simp

@[simp] theorem waitkEffect_mem (f : KWaitk) (s : State) : (waitkEffect f s).mem = s.mem := by
  unfold waitkEffect
  dsimp only
  simp

@[simp] theorem tokrdEffect_mem (f : KTokrd) (s : State) : (tokrdEffect f s).mem = s.mem := by
  unfold tokrdEffect
  dsimp only
  simp

@[simp] theorem epiFails_wf (s : State) (g : Nat) (trapQ : Bool) (o : PressOp) (run : Run) (c : Cause) (va : Nat)
    (hm : Memory.wf s.mem = true) : Memory.wf (epiFails s g trapQ o run c va).mem = true := by
  unfold epiFails
  split
  · next heq => simpa using serviceFault_wf s run g 1 va c hm _ heq
  · simp [hm]

@[simp] theorem completePress_mem (s : State) (g : Nat) (o : PressOp) : (completePress s g o).mem = s.mem := by
  unfold completePress
  dsimp only
  (repeat' split) <;> simp [*]

@[simp] theorem retryEpi_mem (s : State) (g : Nat) (id : Nat) (retry : Bool) : (retryEpi s g id retry).mem = s.mem
      := by
  unfold retryEpi
  (repeat' split) <;> simp [*]

@[simp] theorem enterSew_mem (s : State) (form : SewForm) (tok : Option Nat) : (enterSew s form tok).mem = s.mem := by
  unfold enterSew
  dsimp only
  simp

@[simp] theorem issueSteps_mem (s : State) (sts : List SewStep) (tok : Option Nat) : (issueSteps s sts tok).mem =
      s.mem := by
  unfold issueSteps
  simp

@[simp] theorem sewEffect_mem (f : MSew) (s : State) : (sewEffect f s).mem = s.mem := by
  unfold sewEffect
  simp

@[simp] theorem readProgram_mem (f : MSew2) (s : State) : (readProgram f s).2.mem = s.mem := by
  unfold readProgram
  split <;> rfl

@[simp] theorem sewrunEffect_mem (f : MSew2) (s : State) : (sewrunEffect f s).mem = s.mem := by
  unfold sewrunEffect
  dsimp only
  simp

@[simp] theorem sewstEffect_mem (f : MSew2) (s : State) : (sewstEffect f s).mem = s.mem := by
  unfold sewstEffect
  simp

@[simp] theorem mixSheet_mem (s : State) (g : Nat) (ws : Formers) (a n : Nat) : (mixSheet s g ws a n).mem = s.mem := by
  unfold mixSheet
  split <;> simp

@[simp] theorem sewcfgEffect_mem (f : MSewcfg) (s : State) : (sewcfgEffect f s).mem = s.mem := by
  unfold sewcfgEffect
  dsimp only
  split
  · simp
  · simp

@[simp] theorem bondsetEffect_mem (f : MBond) (s : State) : (bondsetEffect f s).mem = s.mem := by
  unfold bondsetEffect
  simp

@[simp] theorem mixShared_mem (s : State) (g : Nat) (o : SewOp) (old : Leaf) : (mixShared s g o old).mem = s.mem :=
  foldl_mem _ _ (by simp) s

@[simp] theorem finishBoundary_mem (s : State) (g : Nat) (o : SewOp) (st : SewStep) : (finishBoundary s g o st).mem = s.mem := by
  unfold finishBoundary
  simp

@[simp] theorem sewGroup_mem (s : State) (g : Nat) (o : SewOp) (st : SewStep) : (sewGroup s g o st).mem = s.mem := by
  unfold sewGroup
  dsimp only
  (repeat' split) <;> simp [*]

@[simp] theorem spoilDest_mem (s : State) (g : Nat) (o : SewOp) : (spoilDest s g o).mem = s.mem := by
  unfold spoilDest
  (repeat' split) <;> simp [*]

@[simp] theorem sewReport_mem (s : State) (g : Nat) (o : SewOp) (c : Cause) (fva : Word) : (sewReport s g o c
      fva).mem = s.mem := by
  unfold sewReport
  dsimp only
  simp

@[simp] theorem sewFails_wf (s : State) (g : Nat) (o : SewOp) (run : Run) (c : Cause) (va : Nat)
    (hm : Memory.wf s.mem = true) : Memory.wf (sewFails s g o run c va).mem = true := by
  unfold sewFails
  split
  · next heq => simpa using serviceFault_wf s run g 2 va c hm _ heq
  · simp [hm]

@[simp] theorem leaveSew_mem (s : State) (g : Nat) (o : SewOp) : (leaveSew s g o).mem = s.mem := by
  unfold leaveSew
  simp

@[simp] theorem retrySew_mem (s : State) (g id : Nat) (retry : Bool) : (retrySew s g id retry).mem = s.mem := by
  unfold retrySew
  dsimp only
  split
  · split
    · rfl
    · split
      · simp
      · exact (foldl_mem _ _ (by simp) _).trans (by simp)
  · rfl

@[simp] theorem issueCopy_mem (s : State) (form : CopyForm) (region : Nat) (stamp : Word) (tok : Option Nat) (publ
      : Bool) (imp : Bool) (trapf : Bool) : (issueCopy s form region stamp tok publ imp trapf).mem = s.mem := by
  unfold issueCopy
  dsimp only
  simp

@[simp] theorem addFill_mem (h : BitVec 6) (s : State) : (addFill h s).mem = s.mem := by
  unfold addFill
  dsimp only
  simp

@[simp] theorem addDrain_mem (h : BitVec 6) (s : State) : (addDrain h s).mem = s.mem := by
  unfold addDrain
  dsimp only
  simp

@[simp] theorem copyEffect_mem (f : CCopy) (s : State) : (copyEffect f s).mem = s.mem := by
  unfold copyEffect
  dsimp only
  simp

@[simp] theorem copy2Effect_mem (f : CCopy) (s : State) : (copy2Effect f s).mem = s.mem := by
  unfold copy2Effect
  dsimp only
  simp

@[simp] theorem copyqEffect_mem (f : CCopyq) (s : State) : (copyqEffect f s).mem = s.mem := by
  unfold copyqEffect
  dsimp only
  simp

@[simp] theorem copyhEffect_mem (f : CCopyh) (s : State) : (copyhEffect f s).mem = s.mem := by
  unfold copyhEffect
  dsimp only
  simp

@[simp] theorem copyoutEffect_mem (f : CCopyh) (s : State) : (copyoutEffect f s).mem = s.mem := by
  unfold copyoutEffect
  dsimp only
  simp

@[simp] theorem pubEffect_mem (f : CH) (s : State) : (pubEffect f s).mem = s.mem := by
  unfold pubEffect
  simp

@[simp] theorem hrelEffect_mem (f : CH) (s : State) : (hrelEffect f s).mem = s.mem := by
  unfold hrelEffect
  simp

@[simp] theorem hstatEffect_mem (f : CHstat) (s : State) : (hstatEffect f s).mem = s.mem := by
  unfold hstatEffect
  dsimp only
  simp

@[simp] theorem hcfgEffect_mem (f : CHcfg) (s : State) : (hcfgEffect f s).mem = s.mem := by
  unfold hcfgEffect
  dsimp only
  simp

@[simp] theorem ccancelEffect_mem (f : CCancel) (s : State) : (ccancelEffect f s).mem = s.mem := by
  unfold ccancelEffect
  dsimp only
  simp

@[simp] theorem updCopy_mem (s : State) (q : Nat) (id : Nat) (f : Copy → Copy) : (updCopy s q id f).mem = s.mem := by
  unfold updCopy
  simp

@[simp] theorem dropCopy_mem (s : State) (q : Nat) (id : Nat) : (dropCopy s q id).mem = s.mem := by
  unfold dropCopy
  simp

@[simp] theorem freeBytes_mem (fuel n : Nat) (s : State) : (freeBytes fuel n s).2.mem = s.mem := by
  induction fuel generalizing n s with
  | zero => rfl
  | succ f ih =>
    unfold freeBytes
    split
    · rfl
    · simp [ih]

@[simp] theorem copyFails_wf (s : State) (q : Nat) (c : Copy) (run : Run) (cause : Cause) (va : Nat)
    (hm : Memory.wf s.mem = true) : Memory.wf (copyFails s q c run cause va).mem = true := by
  unfold copyFails
  dsimp only
  split
  · next heq => simpa using serviceFault_wf _ run c.leaf 4 va cause (by simp [hm]) _ heq
  · split <;> simp [hm]

@[simp] theorem sideTrans_mem (s : State) (r : Reader) (run : Run) (useTlb : Bool) (k : Kind) (a : Option Nat) :
    (sideTrans s r run useTlb k a).2.mem = s.mem := by
  unfold sideTrans
  split
  · rfl
  · next va =>
    have h := translateSure_mem s r run.asid run.root useTlb va k fun t => t.keyed
    split <;> rename_i heq <;> rw [heq] at h <;> exact h

@[simp] theorem cipher_mem (s : State) (enc : Bool) (k : BitVec 512 × Nat × Nat) (va : Nat) (rec_ : Option (Nat ×
      Nat × Nat × Nat × Nat)) (b : List Byte) : (cipher s enc k va rec_ b).2.mem = s.mem := by
  unfold cipher
  dsimp only
  (repeat' split) <;> simp [*]

@[simp] theorem markWritten_mem (s : State) (c : Copy) (upto : Nat) : (markWritten s c upto).mem = s.mem := by
  unfold markWritten
  dsimp only
  (repeat' split) <;> simp [*]

/-- The bytes that a part leaves go to memory or to sheet space: a canonical memory stays so. -/
@[simp] theorem landPart_wf (s : State) (c : Copy) (p : Part) (dst : List ((Nat × Nat) × Trans)) (b : List Byte)
    (hm : Memory.wf s.mem = true) : Memory.wf (landPart s c p dst b).mem = true := by
  unfold landPart
  split
  · exact writePages_wf _ _ _ _ (by simpa using hm)
  · simpa using hm

@[simp] theorem readSheetPart_mem (s : State) (c : Copy) (p : Part) : (readSheetPart s c p).2.mem = s.mem := by
  simp [readSheetPart]

@[simp] theorem scribble_wf (s : State) (c : Copy) (run : Run) (ps : List Part) (hm : Memory.wf s.mem = true) :
    Memory.wf (scribble s c run ps).mem = true := by
  induction ps generalizing s with
  | nil => exact hm
  | cons p ps ih =>
    have h1 := sideTrans_mem s (copyReader s c) run false .w p.dst
    unfold scribble
    split <;> rename_i heq <;> rw [heq] at h1 <;> dsimp only at h1
    · exact ih _ (by rw [h1]; exact hm)
    · dsimp only
      apply ih
      apply landPart_wf
      simp only [freeBytes_mem, h1, hm]

/-- What a part reads, and its ciphering on either side, write no memory. -/
@[simp] theorem movePart_wf (s : State) (c : Copy) (run : Run) (src dst : Option Trans) (p : Part)
    (hm : Memory.wf s.mem = true) : Memory.wf (movePart s c run src dst p).mem = true := by
  unfold movePart
  dsimp only
  apply landPart_wf
  (repeat' split) <;> simp [hm]

@[simp] theorem moveBlock_wf (s : State) (q : Nat) (c : Copy) (run : Run) (ps : List Part) (src dst : Option Trans)
    (guardOk : Bool) (hm : Memory.wf s.mem = true) : Memory.wf (moveBlock s q c run ps src dst guardOk).mem = true := by
  unfold moveBlock
  split
  · exact copyFails_wf _ _ _ _ _ _ hm
  · dsimp only
    split
    · exact copyFails_wf _ _ _ _ _ _ (scribble_wf _ _ _ _ hm)
    · rw [markWritten_mem, updCopy_mem]
      exact foldl_wf _ ps (fun s p h => movePart_wf s c run src dst p h) s hm

@[simp] theorem copyStep_wf (s : State) (q : Nat) (c : Copy) (run : Run) (w : BlockOpt) (hm : Memory.wf s.mem = true) :
    Memory.wf (copyStep s q c run w).mem = true := by
  unfold copyStep
  dsimp only
  have h1 := sideTrans_mem s (copyReader s c) run w.useTlb .r (c.part c.done).src
  split <;> rename_i heq <;> rw [heq] at h1 <;> dsimp only at h1
  · exact copyFails_wf _ _ _ _ _ _ (by rw [h1]; exact hm)
  · next src s1 =>
    have h2 := sideTrans_mem s1 (copyReader s1 c) run w.useTlb .w (c.part c.done).dst
    split <;> rename_i heq2 <;> rw [heq2] at h2 <;> dsimp only at h2 <;> rw [h1] at h2
    · exact copyFails_wf _ _ _ _ _ _ (by rw [h2]; exact hm)
    · exact moveBlock_wf _ _ _ _ _ _ _ _ (by rw [h2]; exact hm)

@[simp] theorem readRecord_wf (s : State) (q : Nat) (c : Copy) (run : Run) (useTlb : Bool) (hm : Memory.wf s.mem = true) :
    Memory.wf (readRecord s q c run useTlb).mem = true := by
  have h1 := readVirt_mem s (copyReader s c) run.asid run.root useTlb .r c.impose.toNat 64
  unfold readRecord
  split <;> rename_i heq <;> rw [heq] at h1 <;> dsimp only at h1
  · exact copyFails_wf _ _ _ _ _ _ (by rw [h1]; exact hm)
  · rw [updCopy_mem, h1]; exact hm

@[simp] theorem performCopy_mem (s : State) (q : Nat) (c : Copy) : (performCopy s q c).mem = s.mem := by
  unfold performCopy
  dsimp only
  (repeat' split) <;> simp [*]

@[simp] theorem enterSig_mem (s : State) (sh : Nat) (form : SigForm) (tok : Option Nat) : (enterSig s sh form
      tok).mem = s.mem := by
  unfold enterSig
  dsimp only
  simp

@[simp] theorem readDesc_mem (f : MShcfg) (s : State) : (readDesc f s).2.mem = s.mem := by
  unfold readDesc
  split <;> rfl

@[simp] theorem shcfgEffect_mem (f : MShcfg) (s : State) : (shcfgEffect f s).mem = s.mem := by
  unfold shcfgEffect
  simp

@[simp] theorem sinsEffect_mem (f : MSins) (s : State) : (sinsEffect f s).mem = s.mem := by
  unfold sinsEffect
  simp

@[simp] theorem sageEffect_mem (f : MSage) (s : State) : (sageEffect f s).mem = s.mem := by
  unfold sageEffect
  simp

@[simp] theorem sdelEffect_mem (f : MSdel) (s : State) : (sdelEffect f s).mem = s.mem := by
  unfold sdelEffect
  simp

@[simp] theorem sselEffect_mem (f : MSsel) (s : State) : (sselEffect f s).mem = s.mem := by
  unfold sselEffect
  simp

@[simp] theorem srdrEffect_mem (f : MSrdr) (s : State) : (srdrEffect f s).mem = s.mem := by
  unfold srdrEffect
  simp

@[simp] theorem mixRecord_mem (x : Shelf) (s : State) (r : Nat) : (mixRecord x s r).2.mem = s.mem := by
  simp [mixRecord]

@[simp] theorem foundShelf_mem (x : Shelf) (s : State) : (foundShelf x s).2.mem = s.mem := by
  unfold foundShelf
  split
  · rfl
  · exact foldl_snd_mem _ _ (by simp) _

@[simp] theorem shstatEffect_mem (f : MShstat) (s : State) : (shstatEffect f s).mem = s.mem := by
  unfold shstatEffect
  dsimp only
  (repeat' split) <;> simp [*]

@[simp] theorem spillFrames_mem (s : State) (r : Reader) (run : Run) (vs : List Nat) :
    (spillFrames s r run vs).2.mem = s.mem := by
  induction vs generalizing s with
  | nil => rfl
  | cons va vs ih =>
    have h1 := translate_mem s r run.asid run.root false va .r
    unfold spillFrames
    split
    · next heq => rw [heq] at h1; exact h1
    · next s1 heq =>
      rw [heq] at h1
      have h2 := translate_mem s1 r run.asid run.root false va .w
      split
      · next heq2 => rw [heq2] at h2; exact h2.trans h1
      · next s2 heq2 =>
        rw [heq2] at h2
        split
        · exact h2.trans h1
        · have h3 := ih s2
          split <;> rename_i heq3 <;> rw [heq3] at h3 <;> exact h3.trans (h2.trans h1)

@[simp] theorem completeSig_mem (s : State) (g : Nat) (o : SigOp) : (completeSig s g o).mem = s.mem := by
  unfold completeSig
  simp

@[simp] theorem sigFails_mem (s : State) (g : Nat) (trapQ : Bool) (o : SigOp) (detail : Nat) (fva : Word) :
      (sigFails s g trapQ o detail fva).mem = s.mem := by
  unfold sigFails
  dsimp only
  simp

@[simp] theorem runShcfg_mem (s : State) (g : Nat) (trapQ : Bool) (o : SigOp) (c : ShelfCfg) :
    (runShcfg s g trapQ o c).mem = s.mem := by
  unfold runShcfg
  split
  · simp
  · split
    · rfl
    · next run _ =>
      have h := spillFrames_mem s (engineReader s o.id g o.po 1) run (spillPages c)
      dsimp only
      split <;> rename_i heq <;> rw [heq] at h <;> dsimp only at h
      · simp [h]
      · split <;> simp [h]

@[simp] theorem runSsel_mem (s : State) (g : Nat) (o : SigOp) (c : ShelfCfg) (x : Shelf) (q : BitVec 256) (h : Nat)
      : (runSsel s g o c x q h).mem = s.mem := by
  unfold runSsel
  dsimp only
  (repeat' split) <;> simp [*]

@[simp] theorem runSrdr_mem (s : State) (g : Nat) (o : SigOp) (x : Shelf) (off : Nat) (t : BitVec 32) : (runSrdr s
      g o x off t).mem = s.mem := by
  unfold runSrdr
  dsimp only
  (repeat' split) <;> simp [*]

@[simp] theorem runSig_mem (s : State) (g : Nat) (trapQ : Bool) (o : SigOp) : (runSig s g trapQ o).mem = s.mem := by
  unfold runSig
  dsimp only
  (repeat' split) <;> simp [*]

@[simp] theorem abandonSig_mem (s : State) (g : Nat) (o : SigOp) : (abandonSig s g o).mem = s.mem := by
  unfold abandonSig
  dsimp only
  (repeat' split) <;> simp [*]

@[simp] theorem retrySig_mem (s : State) (g id detail : Nat) (retry : Bool) :
    (retrySig s g id detail retry).mem = s.mem := by
  unfold retrySig
  dsimp only
  split
  · split
    · rfl
    · split
      · simp
      · exact foldl_mem _ _ (by simp) _
  · rfl

@[simp] theorem pendSoftware_mem (c : Cause) (imm : BitVec 16) (s : State) : (pendSoftware c imm s).mem = s.mem := by
  unfold pendSoftware
  simp

@[simp] theorem rteEffect_mem (s : State) : (rteEffect s).mem = s.mem := by
  unfold rteEffect
  simp

@[simp] theorem applyRetry_mem (s : State) (g : Nat) : (applyRetry s g).mem = s.mem := by
  unfold applyRetry
  dsimp only
  (repeat' split) <;> simp [*]

@[simp] theorem rteReturn_mem (s : State) (g : Nat) : (rteReturn s g).mem = s.mem := by
  unfold rteReturn
  dsimp only
  simp

@[simp] theorem sysrdEffect_mem (f : KSys) (s : State) : (sysrdEffect f s).mem = s.mem := by
  unfold sysrdEffect
  simp

@[simp] theorem syswrEffect_mem (f : KSys) (s : State) : (syswrEffect f s).mem = s.mem := by
  unfold syswrEffect
  dsimp only
  simp

@[simp] theorem leaveStall_mem (s : State) (g : Nat) : (leaveStall s g).mem = s.mem := by
  unfold leaveStall
  simp

@[simp] theorem ribnEffect_mem (f : KRibn) (s : State) : (ribnEffect f s).mem = s.mem := by
  unfold ribnEffect
  dsimp only
  (repeat' split) <;> simp [*]

@[simp] theorem taskWrite_mem (s : State) (g : Nat) (run : Run) (j off : Nat) (b : List Byte) : (taskWrite s g run j off b).mem = s.mem := by
  unfold taskWrite
  simp

@[simp] theorem taskPayload_mem (s : State) (g : Nat) (run : Run) (j : Nat) : (taskPayload s g run j).2.mem = s.mem
      := by
  unfold taskPayload
  dsimp only
  have h := fun rd => readVirt_mem s rd run.asid run.root false .r (recordVa run j) 8
  split <;> rename_i heq <;> have h := congrArg (fun p => p.2.mem) heq <;> simpa using h.symm

@[simp] theorem setTask_mem (s : State) (g : Nat) (run : Run) (j st : Nat) : (setTask s g run j st).mem = s.mem := by
  unfold setTask
  simp

@[simp] theorem readTask_mem (s : State) (g : Nat) (run : Run) (j : Nat) : (readTask s g run j).mem = s.mem := by
  unfold readTask
  (repeat' split) <;> simp

@[simp] theorem completeTask_mem (s : State) (g : Nat) : (completeTask s g).mem = s.mem := by
  unfold completeTask
  dsimp only
  (repeat' split) <;> simp [*]

@[simp] theorem addTaskResult_mem (s : State) (g : Nat) (dist : Nat) (sd : Nat) (v : Word) : (addTaskResult s g
      dist sd v).mem = s.mem := by
  unfold addTaskResult
  simp

@[simp] theorem tgetTake_mem (s : State) (g dist sd sh : Nat) : (tgetTake s g dist sd sh).mem = s.mem := by
  unfold tgetTake
  dsimp only
  have h := fun run (l : Map TaskRel) => foldl_mem (fun x p => readTask x g run p.1) l (by simp) s
  (repeat' split) <;> simp [*]

@[simp] theorem tgetEffect_mem (f : KTask) (s : State) : (tgetEffect f s).mem = s.mem := by
  unfold tgetEffect
  dsimp only
  (repeat' split) <;> simp [*]

@[simp] theorem tspawnEffect_mem (f : KTask) (s : State) : (tspawnEffect f s).mem = s.mem := by
  unfold tspawnEffect
  dsimp only
  have h := fun l run => foldl_mem (fun x j => readTask x s.cur run j) l (by simp) s
  (repeat' split) <;> simp [*]

@[simp] theorem tawaitTake_mem (s : State) (g dist sd : Nat) (h : Word) (waited : Bool) : (tawaitTake s g dist sd h waited).mem = s.mem := by
  unfold tawaitTake
  dsimp only
  (repeat' split) <;> simp [*]

@[simp] theorem tawaitEffect_mem (f : KTask) (s : State) : (tawaitEffect f s).mem = s.mem := by
  unfold tawaitEffect
  dsimp only
  (repeat' split) <;> simp [*]

@[simp] theorem tcancelEffect_mem (f : KTask) (s : State) : (tcancelEffect f s).mem = s.mem := by
  unfold tcancelEffect
  dsimp only
  (repeat' split) <;> simp [*]

@[simp] theorem exitLeaf_mem (s : State) (g : Nat) : (exitLeaf s g).mem = s.mem := by
  unfold exitLeaf
  dsimp only
  (repeat' split) <;> simp [*]

@[simp] theorem exitEffect_mem (s : State) : (exitEffect s).mem = s.mem := by
  unfold exitEffect
  dsimp only
  (repeat' split) <;> simp [*]

@[simp] theorem yieldEffect_mem (f : KYield) (s : State) : (yieldEffect f s).mem = s.mem := by
  unfold yieldEffect
  dsimp only
  (repeat' split) <;> simp [*]

@[simp] theorem markLog_mem (s : State) (op : LogOp) : (markLog s op).mem = s.mem := by
  unfold markLog
  dsimp only
  simp

@[simp] theorem fenceEffect_mem (f : KFence) (s : State) : (fenceEffect f s).mem = s.mem := by
  unfold fenceEffect
  dsimp only
  (repeat' split) <;> simp [*]

@[simp] theorem drainEffect_mem (s : State) : (drainEffect s).mem = s.mem := by
  unfold drainEffect
  dsimp only
  simp

@[simp] theorem aliasfEffect_mem (f : KAliasf) (s : State) : (aliasfEffect f s).mem = s.mem := by
  unfold aliasfEffect
  simp

@[simp] theorem tlbinvEffect_mem (f : KTlbinv) (s : State) : (tlbinvEffect f s).mem = s.mem := by
  unfold tlbinvEffect
  simp

@[simp] theorem xResult_mem (s : State) (lat : Nat) (latch : Nat) (nowb : Bool) (vd : BitVec 9) (value : Vec) (mask
      : Vec) (flags : Flags) : (xResult s lat latch nowb vd value mask flags).mem = s.mem := by
  unfold xResult
  simp

@[simp] theorem xcvtEffect_mem (f : XCvt) (s : State) : (xcvtEffect f s).mem = s.mem := by
  unfold xcvtEffect
  dsimp only
  simp

@[simp] theorem xpackEffect_mem (f : XCvt) (s : State) : (xpackEffect f s).mem = s.mem := by
  unfold xpackEffect
  dsimp only
  simp

@[simp] theorem xunpkEffect_mem (f : XCvt) (s : State) : (xunpkEffect f s).mem = s.mem := by
  unfold xunpkEffect
  dsimp only
  simp

@[simp] theorem mixVecs_mem (v : Vec) (ws : List Vec) (s : State) : (mixVecs v ws s).2.mem = s.mem := by
  induction ws generalizing v s with
  | nil => rfl
  | cons w ws ih => simp [mixVecs, ih]

@[simp] theorem xexpEffect_mem (f : XExp) (s : State) : (xexpEffect f s).mem = s.mem := by
  unfold xexpEffect
  dsimp only
  (repeat' split) <;> simp [*]

@[simp] theorem xtrnEffect_mem (f : XTrn) (s : State) : (xtrnEffect f s).mem = s.mem := by
  unfold xtrnEffect
  dsimp only
  simp

@[simp] theorem selectLeaf_mem (s : State) (g : Nat) : (selectLeaf s g).mem = s.mem := by
  unfold selectLeaf
  dsimp only
  simp

@[simp] theorem countIssue_mem (s : State) : (countIssue s).mem = s.mem := by
  unfold countIssue
  simp

@[simp] theorem openReg_mem (s : State) (d : Doubt) : (openReg s d).mem = s.mem := by
  unfold openReg
  split
  · rfl
  · dsimp only
    split <;> simp

@[simp] theorem openLatch_mem (s : State) (p : Nat × LatchDoubt) : (openLatch s p).mem = s.mem := by
  unfold openLatch
  split
  · rfl
  · dsimp only
    split <;> simp

/-- Settling the open reads of a bundle changes no memory. -/
@[simp] theorem openReads_mem (s : State) : (openReads s).mem = s.mem := by
  have h1 : ∀ (l : List Doubt) (s : State), (l.foldl openReg s).mem = s.mem := fun l => by
    induction l with
    | nil => intro s; rfl
    | cons d r ih => intro s; rw [List.foldl_cons, ih, openReg_mem]
  have h2 : ∀ (l : Map LatchDoubt) (s : State), (l.foldl openLatch s).mem = s.mem := fun l => by
    induction l with
    | nil => intro s; rfl
    | cons d r ih => intro s; rw [List.foldl_cons, ih, openLatch_mem]
  rw [openReads, h2, h1]

/-- Without open reads a bundle reads its leaf as it stands. -/
theorem openReads_none (s : State) (h : s.leaf.doubts = .none) : openReads s = s := by
  rw [openReads, h]; rfl

@[simp] theorem finishBundle_mem (s : State) (g : Nat) (seg : Option Nat) (blocks cond : Bool) (o : Leaf) :
    (finishBundle s g seg blocks cond o).mem = s.mem := by
  unfold finishBundle
  dsimp only
  simp

@[simp] theorem wake_mem (s : State) (g : Nat) : (wake s g).mem = s.mem := by
  unfold wake
  simp

end Sys2Proof.Machine
end

