-- ==== Sys2Proof/Laws/NodeFrame.lean ====
section
/-! SUPPORT. Which operations of the spine, the invalidation queue and the node leave memory alone, and that those which write
it keep its canonical form. -/

namespace Sys2Proof.Machine

@[simp] theorem spineRead_mem (s : State) (pa : Nat) (n : Nat) : (spineRead s pa n).2.mem = s.mem := by
  unfold spineRead
  dsimp only
  simp

@[simp] theorem fwMsi_mem (s : State) : (fwMsi s).mem = s.mem := by
  unfold fwMsi
  simp

@[simp] theorem changedContext_mem (s : State) (pa : Nat) (c : Context) : (changedContext s pa c).2.mem = s.mem := by
  unfold changedContext
  dsimp only
  (repeat' split) <;> simp

@[simp] theorem journaled_mem (id : Nat) (s : State) : (journaled id s).mem = s.mem := rfl

@[simp] theorem readContext_mem (s : State) (pa : Nat) : (readContext s pa).2.mem = s.mem := by
  unfold readContext
  dsimp only
  (repeat' split) <;> simp [*]

@[simp] theorem descWord_mem (s : State) (q : Queue) (off : Nat) : (descWord s q off).2.mem = s.mem := by
  unfold descWord
  dsimp only
  (repeat' split) <;> simp [*]

@[simp] theorem writeDesc_wf (s : State) (q : Queue) (off : Nat) (v : BitVec 32) (hm : Memory.wf s.mem = true) :
      Memory.wf (writeDesc s q off v).mem = true := by
  unfold writeDesc
  (repeat' split) <;> simp [*]

@[simp] theorem readDescriptor_mem (s : State) (q : Queue) : (readDescriptor s q).2.mem = s.mem := by
  unfold readDescriptor
  dsimp only
  (repeat' split) <;> grind [spineRead_mem, readContext_mem]

@[simp] theorem disableQueue_mem (s : State) (n : Nat) : (disableQueue s n).mem = s.mem := by
  unfold disableQueue
  dsimp only
  simp

@[simp] theorem queueTail_mem (s : State) (q : Queue) : (queueTail s q).2.mem = s.mem := by
  unfold queueTail
  simp

@[simp] theorem commitQueue_wf (s : State) (q : Queue) (hm : Memory.wf s.mem = true) : Memory.wf (commitQueue s
      q).mem = true := by
  unfold commitQueue
  (repeat' split) <;> simp [*]

@[simp] theorem enabledQueue_mem (s : State) (q : Queue) (t : BitVec 32) : (enabledQueue s q t).2.mem = s.mem := by
  unfold enabledQueue
  dsimp only
  split <;> simp

@[simp] theorem enableQueue_mem (s : State) (n : Nat) : (enableQueue s n).mem = s.mem := by
  have h := readDescriptor_mem s (getQueue s n)
  unfold enableQueue
  split <;> rename_i heq <;> rw [heq] at h <;> simpa using h

@[simp] theorem stopQueue_wf (s : State) (n : Nat) (hm : Memory.wf s.mem = true) : Memory.wf (stopQueue s n).mem =
      true := by
  unfold stopQueue
  dsimp only
  (repeat' split) <;> simp [*]

@[simp] theorem spineVirt_mem (s : State) (asid : BitVec 16) (root : Nat) (va : Nat) (n : Nat) : (spineVirt s asid
      root va n).2.mem = s.mem := by
  unfold spineVirt
  dsimp only
  (repeat' split) <;> grind [readVirt_mem, agentAcquire_mem]

@[simp] theorem readImage_mem (s : State) (asid : BitVec 16) (root : Nat) (va : Nat) : (readImage s asid root
      va).2.mem = s.mem := by
  unfold readImage
  dsimp only
  (repeat' split) <;> grind [spineVirt_mem]

@[simp] theorem readDeps_mem (s : State) (r : Run) (as : List Word) : (readDeps s r as).2.mem = s.mem := by
  induction as generalizing s with
  | nil => rfl
  | cons a as ih =>
    have h1 := spineVirt_mem s r.asid r.root a.toNat 8
    unfold readDeps
    split
    · exact ih s
    · split
      · next heq => rw [heq] at h1; exact h1
      · next b s1 heq =>
        rw [heq] at h1
        have h2 := ih s1
        split <;> rename_i heq2 <;> rw [heq2] at h2 <;> exact h2.trans h1

@[simp] theorem readRibbons_mem (s : State) (r : Run) (k n : Nat) : (readRibbons s r k n).2.mem = s.mem := by
  induction n generalizing s k with
  | zero => rfl
  | succ n ih =>
    unfold readRibbons
    dsimp only
    split
    · rfl
    · have h1 := spineVirt_mem s r.asid r.root (r.pkt.ribbon.toNat + 8192 * k) 8
      split <;> rename_i heq <;> rw [heq] at h1 <;> dsimp only at h1
      · exact h1
      · next b s1 =>
        split
        · exact h1
        · have h2 := spineVirt_mem s1 r.asid r.root (r.pkt.ribbon.toNat + 8192 * k + 8) (8 * bytesNat b)
          split <;> rename_i heq2 <;> rw [heq2] at h2 <;> dsimp only at h2 <;> rw [h1] at h2
          · exact h2
          · next b2 s2 =>
            have h3 := ih s2 (k + 1)
            split <;> rename_i heq3 <;> rw [heq3] at h3 <;> exact h3.trans h2

@[simp] theorem readParts_mem (s : State) (r : Run) (ps : List (Nat × Nat)) : (readParts s r ps).2.mem = s.mem := by
  induction ps generalizing s with
  | nil => rfl
  | cons p ps ih =>
    obtain ⟨va, n⟩ := p
    have h1 : (if n = 0 then ((.ok [], s) : Except (Cause × Nat) (List Byte) × State)
        else spineVirt s r.asid r.root va n).2.mem = s.mem := by split <;> simp
    unfold readParts
    split <;> rename_i heq <;> rw [heq] at h1 <;> dsimp only at h1
    · exact h1
    · next b s1 =>
      have h2 := ih s1
      split <;> rename_i heq2 <;> rw [heq2] at h2 <;> exact h2.trans h1

@[simp] theorem loadRun_mem (s : State) (r : Run) : (loadRun s r).2.mem = s.mem := by
  unfold loadRun
  dsimp only
  (repeat' split) <;> grind [readImage_mem, readParts_mem, readRibbons_mem]

@[simp] theorem writeTaskStates_wf (s : State) (r : Run) (hm : Memory.wf s.mem = true) :
    Memory.wf (writeTaskStates s r).mem = true := by
  unfold writeTaskStates
  refine foldl_wf _ _ (fun s j h => ?_) s hm
  dsimp only
  exact writeVirt_wf _ _ _ _ _ _ _ _ (by simp [h])

@[simp] theorem openRun_mem (s : State) (r : Run) : (openRun s r).mem = s.mem := rfl

@[simp] theorem virtKeys_mem (s : State) (asid : BitVec 16) (root : Nat) (k : Kind) (va n : Nat) :
    (virtKeys s asid root k va n).2.mem = s.mem := by
  have h := translateAll_mem s (spineReader s) asid root false k (pageSplit va n)
  unfold virtKeys
  dsimp only
  split <;> rename_i heq <;> rw [heq] at h <;> exact h

@[simp] theorem rewritten_mem (s : State) (r : Run) : (rewritten s r).2.mem = s.mem := by
  unfold rewritten
  split <;> simp

@[simp] theorem openRetired_mem (s : State) (r : Run) : (openRetired s r).mem = s.mem := by
  unfold openRetired
  dsimp only
  split <;> simp

@[simp] theorem spoilLeaves_mem (s : State) (gs : List Nat) : (spoilLeaves s gs).mem = s.mem := foldl_mem _ _ (by simp) s

@[simp] theorem spoilRun_mem (s : State) (r : Run) (cs : List Nat) : (spoilRun s r cs).mem = s.mem := by
  unfold spoilRun
  split <;> simp

@[simp] theorem startRun_wf (s : State) (r : Run) (ld : Load) (cs : List Nat) (hm : Memory.wf s.mem = true) :
    Memory.wf (startRun s r ld cs).mem = true := by
  unfold startRun
  dsimp only
  simp only [updRun_keeps, spoilRun_mem]
  rw [foldl_mem _ _ (by simp), foldl_mem _ _ (by simp)]
  exact writeTaskStates_wf _ _ (by simp [hm])

@[simp] theorem retireWrite_wf (s : State) (r : Run) (clk : Clock) (va : Nat) (b : List Byte) (hm : Memory.wf s.mem
      = true) : Memory.wf (retireWrite s r clk va b).2.mem = true := by
  unfold retireWrite
  dsimp only
  (repeat' split) <;> grind [agentNext_mem, writeVirt_wf]

@[simp] theorem writeColophon_wf (s : State) (r : Run) (e : Ending) (clk : Clock) (hm : Memory.wf s.mem = true) :
      Memory.wf (writeColophon s r e clk).mem = true := by
  unfold writeColophon
  grind [retireWrite_wf, fwMsi_mem]

@[simp] theorem writeSignal_wf (s : State) (r : Run) (e : Ending) (clk : Clock) (hm : Memory.wf s.mem = true) :
      Memory.wf (writeSignal s r e clk).mem = true := by
  unfold writeSignal
  grind [retireWrite_wf, fwMsi_mem]

@[simp] theorem queueMsi_mem (s : State) (r : Run) (after : List (Nat × Nat)) : (queueMsi s r after).mem = s.mem := by
  unfold queueMsi
  dsimp only
  (repeat' split) <;> simp [*]

@[simp] theorem settleReset_wf (s : State) (n : Nat) (hm : Memory.wf s.mem = true) : Memory.wf (settleReset s
      n).mem = true := by
  unfold settleReset
  dsimp only
  (repeat' split) <;> simp [*]

@[simp] theorem settleKill_wf (s : State) (hm : Memory.wf s.mem = true) : Memory.wf (settleKill s).mem = true := by
  unfold settleKill
  dsimp only
  (repeat' split) <;> simp [*]

@[simp] theorem freeRun_mem (s : State) (r : Run) : (freeRun s r).mem = s.mem := by
  unfold freeRun
  simp

@[simp] theorem writeBack_mem (s : State) (r : Run) : (writeBack s r).mem = s.mem := rfl

@[simp] theorem advanceProgress_wf (s : State) (n : Nat) (hm : Memory.wf s.mem = true) : Memory.wf (advanceProgress
      s n).mem = true := by
  unfold advanceProgress
  dsimp only
  (repeat' split) <;> simp [*]

@[simp] theorem retireRun_wf (s : State) (r : Run) (e : Ending) (hm : Memory.wf s.mem = true) : Memory.wf
      (retireRun s r e).mem = true := by
  unfold retireRun
  dsimp only
  apply settleKill_wf
  apply settleReset_wf
  apply advanceProgress_wf
  rw [freeRun_mem, queueMsi_mem]
  exact writeSignal_wf _ _ _ _ (writeColophon_wf _ _ _ _ (by simpa using hm))

@[simp] theorem resetQueue_wf (s : State) (n status : Nat) (kill : Bool) (hm : Memory.wf s.mem = true) :
    Memory.wf (resetQueue s n status kill).mem = true := by
  unfold resetQueue
  dsimp only
  apply settleReset_wf
  rw [foldl_mem _ _ (by simp)]
  split <;> simp [hm]

@[simp] theorem openVirt_mem (s : State) (r : Run) (va : Nat) (n : Nat) : (openVirt s r va n).mem = s.mem := by
  unfold openVirt
  simp

@[simp] theorem writeSaveArea_wf (s : State) (r : Run) (rank c : Nat) (ls : List Leaf) (hm : Memory.wf s.mem = true) :
    Memory.wf (writeSaveArea s r rank c ls).mem = true := by
  unfold writeSaveArea
  dsimp only
  exact foldl_wf _ _ (fun s p h => writeVirt_wf _ _ _ _ _ _ _ _ (by simp [h])) _ (by simp [hm])

@[simp] theorem switchCluster_wf (s : State) (r : Run) (c : Nat) (hm : Memory.wf s.mem = true) :
    Memory.wf (switchCluster s r c).mem = true := by
  unfold switchCluster
  have h1 : ∀ (t : State) (n : Nat) (f : Run → Run), (updRun t n f).mem = t.mem := fun t n f => (updRun_keeps t n
      f).2.2.2.2.2.2.1
  have h2 : ∀ t : State, (fresh t).2.mem = t.mem := fun t => rfl
  dsimp only
  rw [h1, foldl_mem _ _ (fun s j => (setQuire_keeps _ _ _).2.2.2.2.2.1)]
  dsimp only
  rw [h2]
  exact writeSaveArea_wf _ _ _ _ _ hm

@[simp] theorem restoreCluster_mem (home : Nat) (m : List (Nat × Nat)) (base : Nat → Nat) (r : Run) (s : State) (x : Saved ×
      Nat) :
    (restoreCluster home m base r s x).mem = s.mem := by
  unfold restoreCluster
  dsimp only
  rw [foldl_mem _ _ (fun s y => by split <;> simp)]
  dsimp only
  rw [foldl_mem _ _ (fun s y => by split <;> simp), foldl_mem _ _ (by simp)]

@[simp] theorem restoreRun_mem (s : State) (r : Run) (cs : List Nat) : (restoreRun s r cs).mem = s.mem := by
  unfold restoreRun
  dsimp only
  simp only [updRun_keeps]
  rw [foldl_mem _ _ (by simp)]

@[simp] theorem acquireTails_mem (s : State) (i : BitVec 16) : (acquireTails s i).mem = s.mem := by
  unfold acquireTails
  dsimp only
  simp

@[simp] theorem takeCut_mem (s : State) (c : InvalCut) : (takeCut s c).mem = s.mem := by
  unfold takeCut
  dsimp only
  (repeat' split) <;> simp [*]

@[simp] theorem finishCut_wf (s : State) (c : InvalCut) (hm : Memory.wf s.mem = true) : Memory.wf (finishCut s
      c).mem = true := by
  unfold finishCut
  dsimp only
  (repeat' split) <;> simp [*]

@[simp] theorem resetPackage_wf (s : State) : Memory.wf (resetPackage s).mem = true := rfl

@[simp] theorem beginRecovery_mem (s : State) : (beginRecovery s).mem = s.mem := by
  unfold beginRecovery
  dsimp only
  simp

@[simp] theorem writePolicy_mem (s : State) (k : Nat) (v : Word) : (writePolicy s k v).mem = s.mem := by
  unfold writePolicy
  simp

@[simp] theorem answer_mem (s : State) (ok : Bool) (v : Nat) : (answer s ok v).mem = s.mem := by
  unfold answer
  simp

@[simp] theorem portContext_mem (s : State) (port : Nat) : (portContext s port).2.mem = s.mem := by
  unfold portContext
  (repeat' split) <;> simp [*]

@[simp] theorem dmaAccess_wf (s : State) (port : Nat) (c : Context) (acc : BusAccess) (hm : Memory.wf s.mem = true)
      : Memory.wf (dmaAccess s port c acc).mem = true := by
  unfold dmaAccess
  dsimp only
  (repeat' split) <;> grind [readVirt_mem, answer_mem, translateAll_mem, agentNext_mem, writePages_wf]

@[simp] theorem failLost_wf (lost : List Nat) (s : State) (g : Nat) (hm : Memory.wf s.mem = true) :
    Memory.wf (failLost lost s g).mem = true := by
  unfold failLost
  refine foldl_wf _ _ (fun s e h => ?_) s hm
  split <;> simp [h]

@[simp] theorem busAccess_wf (s : State) (pkg : Nat) (acc : BusAccess) (hm : Memory.wf s.mem = true) : Memory.wf
      (busAccess s pkg acc).mem = true := by
  unfold busAccess
  dsimp only
  (repeat' split) <;> simp [*]

@[simp] theorem answerEntry_mem (retry : Bool) (idx : Nat) (g : Nat) (s : State) (e : LogEntry) : (answerEntry
      retry idx g s e).mem = s.mem := by
  unfold answerEntry
  (repeat' split) <;> simp [*]

@[simp] theorem answerPress_mem (retry : Bool) (idx : Nat) (g : Nat) (s : State) (o : PressOp) : (answerPress retry
      idx g s o).mem = s.mem := by
  unfold answerPress
  dsimp only
  (repeat' split) <;> simp [*]

@[simp] theorem answerSew_mem (retry : Bool) (idx : Nat) (g : Nat) (s : State) (o : SewOp) : (answerSew retry idx g
      s o).mem = s.mem := by
  unfold answerSew
  (repeat' split) <;> simp [*]

@[simp] theorem answerWait_mem (retry : Bool) (idx : Nat) (g : Nat) (s : State) : (answerWait retry idx g s).mem =
      s.mem := by
  unfold answerWait
  (repeat' split) <;> simp [*]

@[simp] theorem answerLeaf_mem (retry : Bool) (idx : Nat) (s : State) (g : Nat) : (answerLeaf retry idx s g).mem =
      s.mem := by
  unfold answerLeaf
  dsimp only
  rw [answerWait_mem, foldl_mem _ _ (by simp), foldl_mem _ _ (by simp), foldl_mem _ _ (by simp)]

@[simp] theorem answerCopy_mem (retry : Bool) (idx : Nat) (q : Nat) (s : State) (c : Copy) : (answerCopy retry idx
      q s c).mem = s.mem := by
  unfold answerCopy
  dsimp only
  (repeat' split) <;> simp [*]

@[simp] theorem answerService_mem (retry : Bool) (idx : Nat) (s : State) : (answerService retry idx s).mem = s.mem
      := by
  unfold answerService
  dsimp only
  rw [foldl_mem _ _ (fun s p => foldl_mem _ _ (by simp) s), foldl_mem _ _ (by simp)]

@[simp] theorem recordWord_mem (s : State) (run : Run) (va : Nat) (n : Nat) : (recordWord s run va n).2.mem = s.mem
      := by
  unfold recordWord
  grind [spineVirt_mem]

@[simp] theorem updCore_mem (s : State) (hart : Nat) (f : CoreRegs → CoreRegs) : (updCore s hart f).mem = s.mem := rfl

@[simp] theorem coreFresh_mem (s : State) (hart va : Nat) (w : CoreWalk) (k : Kind) :
    (coreFresh s hart va w k).2.mem = s.mem := by
  unfold coreFresh
  dsimp only
  split <;> rename_i heq <;> have h := congrArg (fun p => p.2.mem) heq <;> simp only [walkFrom_mem] at h
  · exact h.symm
  · exact h.symm
  · split
    · exact h.symm
    · split <;> exact h.symm

@[simp] theorem coreTarget_mem (s : State) (hart n : Nat) (a : CoreAddr) (k : Kind) (amo : Bool) :
    (coreTarget s hart n a k amo).2.mem = s.mem := by
  unfold coreTarget
  split
  · rfl
  · dsimp only
    (repeat' split) <;> simp

@[simp] theorem coreRead_mem (s : State) (hart pa n : Nat) (latest aq : Bool) (after : List Nat) :
    (coreRead s hart pa n latest aq after).2.mem = s.mem := by
  unfold coreRead
  dsimp only
  rw [updCore_mem]
  split <;> simp

@[simp] theorem coreWrite_wf (s : State) (hart pa : Nat) (io : Bool) (b : List Byte) (rl chain : Bool) (mark : Option Nat)
    (hm : Memory.wf s.mem = true) : Memory.wf (coreWrite s hart pa io b rl chain mark).mem = true := by
  unfold coreWrite
  dsimp only
  rw [updCore_mem]
  exact writePhys_wf _ _ _ _ _ (by simpa using hm)

@[simp] theorem drainHeld_wf (hart : Nat) (sel : CoreStore × Nat → Bool) (s : State) (hm : Memory.wf s.mem = true) :
    Memory.wf (drainHeld hart sel s).mem = true :=
  foldl_wf _ _ (fun _ _ h => coreWrite_wf _ _ _ _ _ _ _ _ h) _ hm

@[simp] theorem drainOver_wf (hart pa n : Nat) (all : Bool) (s : State) (hm : Memory.wf s.mem = true) :
    Memory.wf (drainOver hart pa n all s).mem = true := drainHeld_wf _ _ _ hm

@[simp] theorem coreFence_wf (s : State) (hart : Nat) (pred succ : BitVec 4) (hm : Memory.wf s.mem = true) :
    Memory.wf (coreFence s hart pred succ).mem = true := by
  unfold coreFence
  dsimp only
  rw [updCore_mem]
  (repeat' split) <;> simp [hm]

@[simp] theorem coreInterrupt_mem (s : State) (hart identity : Nat) : (coreInterrupt s hart identity).mem = s.mem := rfl

@[simp] theorem coreFails_mem (s : State) (k : Kind) (f : CoreFault) : ∀ t, coreFails s k f = .next t → t.mem =
      s.mem := by
  intro t ht
  unfold coreFails at ht
  grind []

theorem fwControl_mem (v : Word) (s : State) : ∀ t, fwControl v s = .next t → t.mem = s.mem := by
  intro t ht
  have h1 : ∀ s t, execFwTrial v s = .next t → t.mem = s.mem := by
    intro s t h
    unfold execFwTrial at h
    dsimp only at h
    split at h <;> simp only [Host.Outcome.next.injEq] at h <;> subst h <;> rfl
  have h2 : ∀ s t, execFwCommit v s = .next t → t.mem = s.mem := by
    intro s t h
    unfold execFwCommit at h
    dsimp only at h
    split at h <;> simp only [Host.Outcome.next.injEq] at h <;> subst h <;> simp
  unfold fwControl at ht
  split at ht
  · next s1 heq => exact (h2 _ _ ht).trans (h1 _ _ heq)
  · exact h1 _ _ ht

/-- What both branches of a choice leave. -/
theorem ite_next {c : Prop} [Decidable c] {a b : Out} {P : State → Prop} (ha : ∀ t, a = .next t → P t)
    (hb : ∀ t, b = .next t → P t) : ∀ t, (if c then a else b) = .next t → P t := by
  split
  · exact ha
  · exact hb

theorem next_mem (s u : State) (h : u.mem = s.mem) : ∀ t, (Host.Outcome.next u : Out) = .next t → t.mem = s.mem := by
  intro t ht
  simp only [Host.Outcome.next.injEq] at ht
  rw [← ht, h]

theorem nodeWrite_mem (off : Nat) (v : Word) (s : State) : ∀ t, nodeWrite off v s = .next t → t.mem = s.mem := by
  unfold nodeWrite execFeaturesGo
  dsimp only
  repeat' first
    | exact next_mem _ _ rfl
    | exact fun t ht => (fwControl_mem _ _ t ht).trans rfl
    | refine ite_next ?_ ?_

theorem i3cWrite_mem (off : Nat) (v : Word) (s : State) : ∀ t, i3cWrite off v s = .next t → t.mem = s.mem := by
  intro t ht
  unfold i3cWrite at ht
  repeat' split at ht
  all_goals first
    | exact fwControl_mem _ _ t ht
    | exact nodeWrite_mem _ _ _ t ht
    | (simp only [Host.Outcome.next.injEq] at ht; subst ht; rfl)

/-- What a register write may do to memory: the queue registers write descriptors and completion words. -/
theorem execLaunchQueueConfigWrite_wf (n : Nat) (v : Word) (s : State) (hm : Memory.wf s.mem = true) :
    ∀ t, execLaunchQueueConfigWrite n v s = .next t → Memory.wf t.mem = true := by
  intro t ht
  unfold execLaunchQueueConfigWrite at ht
  dsimp only at ht
  split at ht <;> simp only [Host.Outcome.next.injEq] at ht <;> subst ht
  · exact hm
  · (repeat' split) <;> simp [hm]

theorem execLaunchTailWrite_wf (n hart : Nat) (v : Word) (s : State) (hm : Memory.wf s.mem = true) :
    ∀ t, execLaunchTailWrite n hart v s = .next t → Memory.wf t.mem = true := by
  intro t ht
  unfold execLaunchTailWrite at ht
  dsimp only at ht
  split at ht <;> simp only [Host.Outcome.next.injEq] at ht <;> subst ht
  · exact hm
  · split <;> simp [hm]

theorem execQueueReset_wf (n : Nat) (s : State) (hm : Memory.wf s.mem = true) :
    ∀ t, execQueueReset n s = .next t → Memory.wf t.mem = true := by
  intro t ht
  unfold execQueueReset at ht
  dsimp only at ht
  split at ht <;> simp only [Host.Outcome.next.injEq] at ht <;> subst ht <;> simp [hm]

theorem execKillGo_wf (v : Word) (s : State) (hm : Memory.wf s.mem = true) :
    ∀ t, execKillGo v s = .next t → Memory.wf t.mem = true := by
  intro t ht
  unfold execKillGo at ht
  dsimp only at ht
  split at ht <;> simp only [Host.Outcome.next.injEq] at ht <;> subst ht
  · exact hm
  · apply settleKill_wf
    rw [foldl_mem _ _ (by simp)]
    refine foldl_wf _ _ (fun s n h => ?_) _ hm
    split <;> simp [h]

theorem regWrite_wf (hart : Nat) (r : Reg) (v : Word) (s : State) (hm : Memory.wf s.mem = true) :
    ∀ t, regWrite hart r v s = .next t → Memory.wf t.mem = true := by
  intro t ht
  unfold regWrite execInvalQueueConfigWrite execInvalTailWrite execKeyEntryWrite at ht
  dsimp only at ht
  repeat' split at ht
  all_goals first
    | (rw [nodeWrite_mem _ _ _ t ht]; exact hm)
    | exact execLaunchQueueConfigWrite_wf _ _ _ hm t ht
    | exact execLaunchTailWrite_wf _ _ _ _ hm t ht
    | exact execKillGo_wf _ _ hm t ht
    | exact execQueueReset_wf _ _ (by first | exact hm | (split <;> simp [hm]) | simp [hm]) t ht
    | (simp only [Host.Outcome.next.injEq] at ht; subst ht; first | exact hm | (split <;> simp [hm, writePolicy]) |
      simp [hm])

theorem execRegisterWrite_wf (a : RegAgent) (pa n : Nat) (v : Word) (s : State) (hm : Memory.wf s.mem = true) :
    ∀ t, execRegisterWrite a pa n v s = .next t → Memory.wf t.mem = true := by
  intro t ht
  unfold execRegisterWrite at ht
  split at ht
  · simp only [Host.Outcome.next.injEq] at ht; subst ht; exact hm
  · split at ht
    · exact regWrite_wf _ _ _ _ hm t ht
    · split at ht
      · rw [i3cWrite_mem _ _ _ t ht]; exact hm
      · simp only [Host.Outcome.next.injEq] at ht; subst ht; exact hm

/-- Behind the root complex a core's access ends in a refusal; elsewhere it is what it is. -/
theorem coreGuard_next (pa : Nat) (f : Unit → Out) (t : State) (h : coreGuard pa f = .next t) : f () = .next t := by
  unfold coreGuard at h
  split at h
  · cases h
  · exact h

theorem coreFails_next (s t : State) (k : Kind) (f : CoreFault) (h : coreFails s k f = .next t) : t.mem = s.mem := by
  simp only [coreFails, Host.Outcome.next.injEq] at h
  subst h; rfl

@[simp] theorem coreStore_wf (s : State) (hart pa : Nat) (io : Bool) (b : List Byte) (held : Bool) (after : List Nat)
    (hm : Memory.wf s.mem = true) : ∀ t, coreStore s hart pa io b held after = .next t → Memory.wf t.mem = true := by
  intro t ht
  have h := coreGuard_next _ _ _ ht
  split at h
  · rw [coreFails_next _ _ _ _ h]; exact hm
  · exact execRegisterWrite_wf _ _ _ _ _ (by simpa using hm) t h
  · dsimp only at h
    split at h <;> simp only [Host.Outcome.next.injEq] at h <;> subst h <;> simp [hm]

@[simp] theorem coreAmo_wf (s : State) (hart : Nat) (op : AmoOp) (pa n : Nat) (io : Bool) (d : Word) (aq rl : Bool)
    (hm : Memory.wf s.mem = true) : ∀ t, coreAmo s hart op pa n io d aq rl = .next t → Memory.wf t.mem = true := by
  intro t ht
  have h := coreGuard_next _ _ _ ht
  split at h
  · simp only [Host.Outcome.next.injEq] at h; subst h; simp [hm]
  · rw [coreFails_next _ _ _ _ h]; exact hm

@[simp] theorem reserve_mem (hart pa n : Nat) (s : State) : (reserve hart pa n s).mem = s.mem := rfl

@[simp] theorem coreSc_wf (s : State) (hart pa n : Nat) (io : Bool) (d : Word) (rl : Bool)
    (hm : Memory.wf s.mem = true) : ∀ t, coreSc s hart pa n io d rl = .next t → Memory.wf t.mem = true := by
  intro t ht
  have h := coreGuard_next _ _ _ ht
  split at h
  · dsimp only at h
    (repeat' split at h) <;> simp only [Host.Outcome.next.injEq] at h <;> subst h <;> simp [hm]
  · rw [coreFails_next _ _ _ _ h]; exact hm

@[simp] theorem flushBlock_mem (pa : Nat) (s : State) : (flushBlock pa s).mem = s.mem := rfl

@[simp] theorem invalBlock_mem (hart pa : Nat) (s : State) : (invalBlock hart pa s).mem = s.mem := by
  unfold invalBlock
  dsimp only
  (repeat' split) <;> rfl

theorem coreBlock_wf (s : State) (pa : Nat) (f : State → State) (hf : Memory.wf (f s).mem = true)
    (hm : Memory.wf s.mem = true) : ∀ t, coreBlock s pa f = .next t → Memory.wf t.mem = true := by
  intro t ht
  unfold coreBlock at ht
  split at ht
  · rw [coreFails_next _ _ _ _ ht]; exact hm
  · simp only [Host.Outcome.next.injEq] at ht; subst ht; exact hm
  · simp only [Host.Outcome.next.injEq] at ht; subst ht; simpa using hf

theorem coreLoad_mem (s : State) (hart pa n : Nat) (k : Kind) (latest aq : Bool) (deps : List Nat)
    (after : State → State) (ha : ∀ s, (after s).mem = s.mem) : ∀ t, coreLoad s hart pa n k latest aq deps after = .next t → t.mem = s.mem := by
  intro t ht
  have h := coreGuard_next _ _ _ ht
  split at h
  · exact coreFails_next _ _ _ _ h
  · split at h
    · exact coreFails_next _ _ _ _ h
    · simp only [Host.Outcome.next.injEq] at h; subst h; rfl
  · simp only [Host.Outcome.next.injEq] at h; subst h; simp [ha]

@[simp] theorem corePerform_wf (s : State) (hart : Nat) (acc : CoreAccess) (pa : Nat) (io : Bool)
    (hm : Memory.wf s.mem = true) : ∀ t, corePerform s hart acc pa io = .next t → Memory.wf t.mem = true := by
  intro t ht
  unfold corePerform at ht
  split at ht
  · rw [coreLoad_mem _ _ _ _ _ _ _ _ _ (by simp) t ht]; exact hm
  · rw [coreLoad_mem _ _ _ _ _ _ _ _ _ (by simp) t ht]; exact hm
  · exact coreStore_wf _ _ _ _ _ _ _ hm t ht
  · split at ht
    · rw [coreFails_next _ _ _ _ ht]; exact hm
    · exact coreAmo_wf _ _ _ _ _ _ _ _ _ hm t ht
  · split at ht
    · rw [coreFails_next _ _ _ _ ht]; exact hm
    · split at ht
      · rw [coreLoad_mem _ _ _ _ _ _ _ _ _ (by intro s; split <;> simp) t ht]; exact hm
      · rw [coreFails_next _ _ _ _ (coreGuard_next _ _ _ ht)]; exact hm
  · split at ht
    · rw [coreFails_next _ _ _ _ ht]; exact hm
    · exact coreSc_wf _ _ _ _ _ _ _ hm t ht
  · exact coreBlock_wf _ _ _ (by simp [hm]) hm t ht
  · exact coreBlock_wf _ _ _ (by simp [hm]) hm t ht
  all_goals
    simp only [Host.Outcome.next.injEq] at ht; subst ht; simp [hm]

@[simp] theorem placeBundle_mem (s : State) (b : Bundle) : (placeBundle s b).mem = s.mem := by
  unfold placeBundle
  dsimp only
  simp

@[simp] theorem State.withFetchWord_mem (s : State) (nbits : Nat) (w : Nat) : (State.withFetchWord s nbits w).mem =
      s.mem := by
  unfold State.withFetchWord
  simp

end Sys2Proof.Machine
end

