-- ==== Sys2Proof/Laws/Results.lean ====
section
/-! SUPPORT. Results as the statements name them: delivering one is its entry into the pipelines, and nothing else. -/

namespace Sys2Proof.Machine

theorem onesBelow_bit (n i : Nat) : (onesBelow n).getLsbD i = (decide (i < 16384) && decide (i < n)) := by
  rw [onesBelow, BitVec.getLsbD_ofNat, Nat.testBit_two_pow_sub_one]

theorem width_mask (v : Word) : v.setWidth 16384 &&& onesBelow 64 = v.setWidth 16384 := by
  apply BitVec.eq_of_getLsbD_eq
  intro i hi
  rw [BitVec.getLsbD_and, onesBelow_bit, BitVec.getLsbD_setWidth]
  by_cases h : i < 64
  · simp [h, hi]
  · simp [BitVec.getLsbD_of_ge v i (by omega)]

theorem addResult_enters (s : State) (dist : Nat) (dest : Dest) (value mask : Vec) (latch : Option Nat) (rank : Nat)
    (flags : Flags) :
    addResult s dist dest value mask latch rank flags = resultEnters s dist dest (value &&& mask) mask latch rank flags := rfl

theorem scalarResult_enters (s : State) (lat latch : Nat) (sd : BitVec 6) (nowb : Bool) (v : Word) :
    scalarResult s lat latch sd nowb v = scalarEnters s lat latch sd nowb v := by
  unfold scalarResult scalarEnters
  rw [addResult_enters, width_mask]
  rfl

theorem addScalar_enters (s : State) (dist : Nat) (sd : BitVec 6) (v : Word) (sl : Slot) :
    addScalar s dist sd v none sl = registerEnters s dist sd v (slotRank sl) := by
  unfold addScalar registerEnters
  rw [addResult_enters, width_mask]

end Sys2Proof.Machine
end

