-- ==== Sys2Proof/Laws/Operations.lean ====
section
/-! SUPPORT. Running an operation: everything `runOp`, `runFrozen`, `runBlocking` and `runPlain` can do, and what they do where
the checks of decode and issue pass. -/

namespace Sys2Proof.Machine

theorem ownCause_illegal (i : Instr) (c : Option Trap) (s : State) (h : i.ctxIllegal (decodeCtx s) = true) :
    ownCause i c s = some (slotTrap .illegalOp (instrSlot i)) := by
  simp [ownCause, h]

theorem ownCause_legal (i : Instr) (c : Option Trap) (s : State) (h : i.ctxIllegal (decodeCtx s) = false) :
    ownCause i c s = c := by
  simp [ownCause, h]

/-- An operation has its effect, takes the trap of its checks, or waits at issue with nothing done. -/
theorem runOp_cases (i : Instr) (cause : State → Option Trap) (waits : State → Bool) (eff : State → State) (s : State) :
    (runOp i cause waits eff s = .next (eff s)
      ∧ (s.phase = .effect ∨ (ownCause i (cause s) s = none ∧ waits s = false)))
    ∨ (∃ t, s.phase = .alone ∧ ownCause i (cause s) s = some t ∧ runOp i cause waits eff s = .next (takeTrap s t))
    ∨ (s.phase = .alone ∧ ownCause i (cause s) s = none ∧ waits s = true ∧ runOp i cause waits eff s = .next (waitAtIssue s)) := by
  unfold runOp
  cases hp : s.phase <;> cases hc : ownCause i (cause s) s <;> cases hw : waits s <;> simp_all

theorem runOp_effect (i : Instr) (cause : State → Option Trap) (waits : State → Bool) (eff : State → State) (s : State)
    (h : s.phase = .effect) : runOp i cause waits eff s = .next (eff s) := by
  simp [runOp, h]

theorem runOp_passes (i : Instr) (cause : State → Option Trap) (waits : State → Bool) (eff : State → State) (s : State)
    (hd : i.ctxIllegal (decodeCtx s) = false) (hc : cause s = none) (hw : waits s = false) :
    runOp i cause waits eff s = .next (eff s) := by
  unfold runOp
  cases hp : s.phase <;> simp [ownCause_legal _ _ _ hd, hc, hw]

theorem runOp_traps (i : Instr) (cause : State → Option Trap) (waits : State → Bool) (eff : State → State) (s : State)
    (t : Trap) (hp : s.phase = .alone) (hd : i.ctxIllegal (decodeCtx s) = false) (hc : cause s = some t) :
    runOp i cause waits eff s = .next (takeTrap s t) := by
  simp [runOp, hp, ownCause_legal _ _ _ hd, hc]

theorem runOp_waits (i : Instr) (cause : State → Option Trap) (waits : State → Bool) (eff : State → State) (s : State)
    (hp : s.phase = .alone) (hd : i.ctxIllegal (decodeCtx s) = false) (hc : cause s = none) (hw : waits s = true) :
    runOp i cause waits eff s = .next (waitAtIssue s) := by
  simp [runOp, hp, ownCause_legal _ _ _ hd, hc, hw]

theorem runPlain_legal (i : Instr) (eff : State → State) (s : State) (h : Legal i s) : runPlain i eff s = .next (eff s) := by
  rcases h with h | h
  · exact runOp_effect _ _ _ _ _ h
  · exact runOp_passes _ _ _ _ _ h rfl rfl

/-- An operation that enters a log or a queue has its effect, takes the trap of its checks, or freezes the quire for a cycle. -/
theorem runFrozen_cases (i : Instr) (cause : State → Option Trap) (full : State → Bool) (eff : State → State) (s : State) :
    (runFrozen i cause full eff s = .next (eff s)
      ∧ (s.phase = .effect ∨ (ownCause i (cause s) s = none ∧ full s = false)))
    ∨ (∃ t, s.phase = .alone ∧ ownCause i (cause s) s = some t ∧ runFrozen i cause full eff s = .next (takeTrap s t))
    ∨ (s.phase = .alone ∧ ownCause i (cause s) s = none ∧ full s = true ∧ runFrozen i cause full eff s = .next (freezeOnce s)) := by
  unfold runFrozen
  cases hp : s.phase <;> cases hc : ownCause i (cause s) s <;> cases hw : full s <;> simp_all

theorem runFrozen_effect (i : Instr) (cause : State → Option Trap) (full : State → Bool) (eff : State → State) (s : State)
    (h : s.phase = .effect) : runFrozen i cause full eff s = .next (eff s) := by
  simp [runFrozen, h]

theorem runFrozen_passes (i : Instr) (cause : State → Option Trap) (full : State → Bool) (eff : State → State) (s : State)
    (hd : i.ctxIllegal (decodeCtx s) = false) (hc : cause s = none) (hw : full s = false) :
    runFrozen i cause full eff s = .next (eff s) := by
  unfold runFrozen
  cases hp : s.phase <;> simp [ownCause_legal _ _ _ hd, hc, hw]

theorem runFrozen_traps (i : Instr) (cause : State → Option Trap) (full : State → Bool) (eff : State → State) (s : State)
    (t : Trap) (hp : s.phase = .alone) (hd : i.ctxIllegal (decodeCtx s) = false) (hc : cause s = some t) :
    runFrozen i cause full eff s = .next (takeTrap s t) := by
  simp [runFrozen, hp, ownCause_legal _ _ _ hd, hc]

theorem runFrozen_full (i : Instr) (cause : State → Option Trap) (full : State → Bool) (eff : State → State) (s : State)
    (hp : s.phase = .alone) (hd : i.ctxIllegal (decodeCtx s) = false) (hc : cause s = none) (hw : full s = true) :
    runFrozen i cause full eff s = .next (freezeOnce s) := by
  simp [runFrozen, hp, ownCause_legal _ _ _ hd, hc, hw]

/-- An always-blocking operation within a bundle whose checks have passed has its effect alone. -/
theorem runBlocking_effect (i : Instr) (cause : State → Option Trap) (waits : State → Bool) (eff : State → State) (s : State)
    (h : s.phase = .effect) : runBlocking i cause waits eff s = .next (eff s) := by
  simp [runBlocking, h]

/-- An always-blocking operation on its own freezes until the leaf's results have arrived; then they land, and it takes its
trap, waits at issue, or has its effect and leaves its own results for the boundary (R48). -/
theorem runBlocking_alone (i : Instr) (cause : State → Option Trap) (waits : State → Bool) (eff : State → State) (s : State)
    (h : s.phase = .alone) :
    let s0 := s.upd landAll
    (allArrived s.leaf = false ∧ runBlocking i cause waits eff s = .next (freezeOnce s))
    ∨ (∃ t, allArrived s.leaf = true ∧ ownCause i (cause s0) s0 = some t
        ∧ runBlocking i cause waits eff s = .next (takeTrap s0 t))
    ∨ (allArrived s.leaf = true ∧ ownCause i (cause s0) s0 = none ∧ waits s0 = true
        ∧ runBlocking i cause waits eff s = .next (waitAtIssue s0))
    ∨ (allArrived s.leaf = true ∧ ownCause i (cause s0) s0 = none ∧ waits s0 = false
        ∧ runBlocking i cause waits eff s = .next ((eff s0).upd fun l => { l with blocked := true })) := by
  intro s0
  unfold runBlocking
  cases ha : allArrived s.leaf <;> cases hc : ownCause i (cause s0) s0 <;> cases hw : waits s0 <;>
    simp [h, ha, hc, hw, s0] at * <;> simp_all

end Sys2Proof.Machine
end

