-- ==== Sys2Proof/Tests/Slice0.lean ====
section
/-! SUPPORT. Tests: ill-formed operands that are refused, words of the spec's worked examples, single steps with results from
the spec's tables or worked by hand, and for every statement with hypotheses states and operands that meet them. -/

namespace Sys2Proof.Tests

set_option Elab.async false

open Sys2Proof.Machine

/-! ### Ill-formed operands are refused (R34, R36, R41, R56, R106, R113, R121, R150, R153, R158, R166, R171, R202, R217,
R230, R243, R262, R281, R341, R380) -/

theorem wf_nowb_needs_no_destination : Instr.wf (.add ⟨3, true, .reg 1, .reg 2⟩) = false := by decide
theorem wf_scalar_latch : Instr.wf (.add ⟨0, false, .latch 2, .reg 2⟩) = false := by decide
theorem wf_vector_latch : Instr.wf (.vmov ⟨.a, .u, 1, false, ⟨.latch 0, 0⟩, 0⟩) = false := by decide
theorem wf_extract_needs_a_length : Instr.wf (.extr ⟨1, false, .reg 1, false, 0, 0⟩) = false := by decide
theorem wf_extract_within_64 : Instr.wf (.extr ⟨1, false, .reg 1, false, 33, 32⟩) = false := by decide
theorem wf_insert_within_64 : Instr.wf (.insr ⟨1, false, .reg 1, .reg 2, 64, 1⟩) = false := by decide
theorem wf_loop_body_not_empty : Instr.wf (.loop ⟨1, 0⟩) = false := by decide
theorem wf_loop_body_bound : Instr.wf (.loopi ⟨1, 4096⟩) = false := by decide
theorem wf_setfmt_register_form : Instr.wf (.setfmt ⟨true, 1, 1⟩) = false := by decide
theorem wf_waitk_immediate_form : Instr.wf (.waitk ⟨1, false, 1, 0⟩) = false := by decide
theorem wf_sysrd_number : Instr.wf (.sysrd ⟨1, 0x00D⟩) = false := by decide
theorem wf_syswr_read_only : Instr.wf (.syswr ⟨1, 0x007⟩) = false := by decide
theorem wf_kpoll_mode : Instr.wf (.kpoll ⟨1, 1, 3⟩) = false := by decide
theorem wf_fence_scope : Instr.wf (.fence ⟨6, 1⟩) = false := by decide
theorem wf_fence_kind : Instr.wf (.fence ⟨5, 0⟩) = false := by decide
theorem wf_aliasf_scope : Instr.wf (.aliasf ⟨1, 2, 6⟩) = false := by decide
theorem wf_yield_segment : Instr.wf (.yield ⟨false, 1⟩) = false := by decide
theorem wf_any_needs_short_elements : Instr.wf (.vcmpeq ⟨.a, .i32, true, 1, ⟨.reg 1, 0⟩, ⟨.reg 2, 0⟩, 0⟩) = false := by decide
theorem wf_float_any_needs_short_elements :
    Instr.wf (.vfcmple ⟨.a, .f, true, 1, ⟨.reg 1, 0⟩, ⟨.reg 2, 0⟩, 0⟩) = false := by decide
theorem wf_vins_index : Instr.wf (.vins ⟨.a, .i32, 1, false, 1, 512⟩) = false := by decide
theorem wf_vext_index : Instr.wf (.vext ⟨.n16, 1, ⟨.reg 1, 0⟩, 1024⟩) = false := by decide
theorem wf_vshl_count : Instr.wf (.vshl ⟨.a, .i32, 1, false, ⟨.reg 1, 0⟩, ⟨.reg 2, 0⟩, 512, 0⟩) = false := by decide
theorem wf_vrot_count : Instr.wf (.vrot ⟨.a, .i16, 1, false, ⟨.reg 1, 0⟩, 1024, 0⟩) = false := by decide
theorem wf_pld_landing : Instr.wf (.pld ⟨1, .reg 1, 4, 2, false, 0⟩) = false := by decide
theorem wf_pld_extends_less_than_8 : Instr.wf (.pld ⟨1, .reg 1, 5, 3, true, 0⟩) = false := by decide
theorem wf_pldvs_landing : Instr.wf (.pldvs ⟨1, .reg 1, 8, 2, 1, 0⟩) = false := by decide
theorem wf_pldvs_size : Instr.wf (.pldvs ⟨1, .reg 1, 9, 3, 1, 0⟩) = false := by decide
theorem wf_pgth_landing : Instr.wf (.pgth ⟨1, .reg 1, 8, 1, 0, 0⟩) = false := by decide
theorem wf_pldh_landing : Instr.wf (.pldh ⟨1, 1, .reg 1, 4, 2, false, 0⟩) = false := by decide
theorem wf_gld_landing : Instr.wf (.gld ⟨1, .reg 1, 11, 2, false, false, 0⟩) = false := by decide
theorem wf_gpf_target : Instr.wf (.gpf ⟨.reg 1, 3, false, 0⟩) = false := by decide
theorem wf_atomic_without_result : Instr.wf (.aadd ⟨1, .reg 1, 0, false, false, false, .reg 2⟩) = false := by decide
theorem wf_atomic_landing : Instr.wf (.aswp ⟨1, .reg 1, 11, false, false, false, .reg 2⟩) = false := by decide
theorem wf_atomic_extends_a_result : Instr.wf (.ainc ⟨0, .reg 1, 0, false, true, false, .reg 2⟩) = false := by decide
theorem wf_afadd_is_4_bytes : Instr.wf (.afadd ⟨1, .reg 1, 12, true, false, false, .reg 2⟩) = false := by decide
theorem wf_token_needs_tk : Instr.wf (.accz ⟨1, 1, false⟩) = false := by decide
theorem wf_mma_of_one_buffer : Instr.wf (.mma ⟨1, 0, .buf 2, .buf 2, 0, 0, false, false⟩) = false := by decide
theorem wf_accrd_conversion : Instr.wf (.accrd ⟨1, 1, false, 3⟩) = false := by decide
theorem wf_accrd_half : Instr.wf (.accrd ⟨1, 1, true, 1⟩) = false := by decide
theorem wf_bondset_immediate_form : Instr.wf (.bondset ⟨1, false, 1, 0⟩) = false := by decide
theorem wf_xcvt_part : Instr.wf (.xcvt ⟨1, false, 1, 3, 0, 4⟩) = false := by decide
theorem wf_xcvt_block_code : Instr.wf (.xcvt ⟨1, false, 1, 5, 0, 0⟩) = false := by decide
theorem wf_xpack_part : Instr.wf (.xpack ⟨1, false, 1, 0, 5, 2⟩) = false := by decide
theorem wf_xunpk_part : Instr.wf (.xunpk ⟨1, false, 1, 6, 1, 2⟩) = false := by decide
theorem wf_xexp_format : Instr.wf (.xexp ⟨1, false, 1, 1, 1, 3, 0⟩) = false := by decide
theorem wf_xexp_part : Instr.wf (.xexp ⟨1, false, 1, 1, 1, 1, 4⟩) = false := by decide
theorem wf_xtrn_element : Instr.wf (.xtrn ⟨1, false, 1, 3, 0⟩) = false := by decide
theorem wf_xtrn_rows : Instr.wf (.xtrn ⟨1, false, 1, 0, 10⟩) = false := by decide

/-! ### Words of the spec's worked examples, and words written out from its encodings -/

/-- *Worked example: encoding one bundle* (chapter 2). -/
theorem decode_addi : decodeSlot .s 0x030C_0800_0000_0010 = .ok (.addi ⟨3, false, .reg 2, 16⟩) := rfl
theorem decode_vfadd : decodeSlot .va 0x5401_4001_C006_0000 = .ok (.vfadd ⟨.a, .f, 5, false, ⟨.reg 3, 0⟩, ⟨.latch 3, 0⟩, 0⟩) := rfl
/-- Chapter 3's example, line 6. -/
theorem decode_vadd_nowb :
    decodeSlot .vb 0x0400_2003_8010_0000 = .ok (.vadd ⟨.b, .i32, 0, true, ⟨.reg 7, 0⟩, ⟨.reg 8, 0⟩, 0⟩) := rfl
theorem decode_vradd : decodeSlot .vb 0xB405_0004_0000_0000 = .ok (.vradd ⟨.f, 20, false, ⟨.reg 8, 0⟩, 0⟩) := rfl
theorem decode_vsign : decodeSlot .va 0xD802_C005_0000_0000 = .ok (.vsign ⟨.a, .i32, 11, false, ⟨.reg 10, 0⟩, 0⟩) := rfl
theorem decode_setfmt : decodeSlot .k 0x0F00_0012_0863 = .ok (.setfmt ⟨false, 0, 0x120863⟩) := rfl
theorem decode_loopi : decodeSlot .k 0x0E00_4000_0004 = .ok (.loopi ⟨4, 4⟩) := rfl
theorem decode_beq : decodeSlot .k 0x0504_3000_0004 = .ok (.beq ⟨1, 3, 4⟩) := rfl
theorem decode_waitk : decodeSlot .k 0x1030_0000_0001 = .ok (.waitk ⟨3, false, 0, 1⟩) := rfl
theorem decode_karv : decodeSlot .k 0x1710_0034_0000 = .ok (.karv ⟨4, 3, true⟩) := rfl
/-- Chapter 19's slot values. -/
theorem decode_karv_70 : decodeSlot .k 0x17CC_0464_0000 = .ok (.karv ⟨51, 70, true⟩) := rfl
theorem decode_gjoin : decodeSlot .k 0x1B14_0030_0000 = .ok (.gjoin ⟨5, 3⟩) := rfl
theorem decode_aliasf : decodeSlot .k 0x1F10_5800_0000 = .ok (.aliasf ⟨4, 5, 4⟩) := rfl
theorem decode_tlbinv : decodeSlot .k 0x2010_5000_0000 = .ok (.tlbinv ⟨4, 5⟩) := rfl
theorem decode_sysrd : decodeSlot .k 0x1214_0000_0010 = .ok (.sysrd ⟨5, 0x010⟩) := rfl
theorem decode_syswr : decodeSlot .k 0x131C_0000_0014 = .ok (.syswr ⟨7, 0x014⟩) := rfl
theorem decode_rte : decodeSlot .k 0x1500_0000_0000 = .ok .rte := rfl
theorem decode_ribn : decodeSlot .k 0x211C_0000_0000 = .ok (.ribn ⟨7, false⟩) := rfl
theorem decode_tget : decodeSlot .k 0x2214_6000_0000 = .ok (.tget ⟨5, 6⟩) := rfl
theorem decode_tspawn : decodeSlot .k 0x2328_5000_0000 = .ok (.tspawn ⟨10, 5⟩) := rfl
theorem decode_tawait : decodeSlot .k 0x2430_A000_0000 = .ok (.tawait ⟨12, 10⟩) := rfl
theorem decode_tcancel : decodeSlot .k 0x2534_A000_0000 = .ok (.tcancel ⟨13, 10⟩) := rfl
theorem decode_exit : decodeSlot .k 0x2600_0000_0000 = .ok .exit_ := rfl
theorem decode_yield_seg : decodeSlot .k 0x2780_0000_0002 = .ok (.yield ⟨true, 2⟩) := rfl
/-- *Worked example* of XCVT E5M2 to E4M3 (chapter 7). -/
theorem decode_xcvt : decodeSlot .x 0x0408_0110_6000 = .ok (.xcvt ⟨4, false, 2, 4, 3, 0⟩) := rfl
/-- "XEXP.BF16 v40, v30, h5, s9" (chapter 7). -/
theorem decode_xexp : decodeSlot .x 0x1050_0F0A_4C00 = .ok (.xexp ⟨40, false, 30, 5, 9, 2, 0⟩) := rfl
theorem decode_gld : decodeSlot .g 0x0207_1064_0002 = .ok (.gld ⟨7, .reg 8, 12, 2, false, false, 2⟩) := rfl
theorem decode_pgth : decodeSlot .p 0x0C28_064C_14A0_0100 = .ok (.pgth ⟨40, .reg 3, 9, 41, 2, 0x100⟩) := rfl
theorem decode_copy : decodeSlot .c 0x0540_1558_80C3 = .ok (.copy ⟨3, 20, 0, 21, 22, 2, true, true, false, false⟩) := rfl
theorem decode_copyq : decodeSlot .c 0x0E9A_C094_0000 = .ok (.copyq ⟨0, 41, 43, 0, 37, 0, false, false⟩) := rfl
theorem decode_mma_z : decodeSlot .m 0x0260_1101_0400 = .ok (.mma ⟨3, 0, .buf 0, .feed 1, 1, 0, false, true⟩) := rfl
theorem decode_mma_token : decodeSlot .m 0x0242_0001_1C00 = .ok (.mma ⟨2, 0, .feed 0, .buf 0, 1, 1, true, true⟩) := rfl
theorem decode_mmaz : decodeSlot .m 0x0480_4100_2800 = .ok (.mmaz ⟨4, 2, .buf 1, 0, 2, true, false⟩) := rfl
theorem decode_epi : decodeSlot .m 0x0C65_1600_3800 = .ok (.epi ⟨3, 10, 11, false, 3, true⟩) := rfl
theorem decode_feedset : decodeSlot .m 0x1623_0E00_0000 = .ok (.feedset ⟨1, 6, 7⟩) := rfl
theorem decode_sins : decodeSlot .m 0x2400_B640_0000 = .ok (.sins ⟨0, 11, 25, 0, false⟩) := rfl
theorem decode_ssel : decodeSlot .m 0x2A40_C140_4800 = .ok (.ssel ⟨2, 12, 5, 4, true⟩) := rfl
theorem decode_sdel : decodeSlot .m 0x2800_07C0_0000 = .ok (.sdel ⟨0, 31, 0, false⟩) := rfl
theorem decode_sewrun : decodeSlot .m 0x1E30_E000_5800 = .ok (.sewrun ⟨6, 7, 5, true⟩) := rfl
theorem decode_bondset : decodeSlot .m 0x1A40_0000_0010 = .ok (.bondset ⟨2, false, 0, 16⟩) := rfl

/-- R25 and R28: op code 0x2B, a reserved bit, and VRADD in VA are illegal operations. -/
theorem decode_no_such_op : decodeSlot .s 0x2B00_0000_0000_0000 = .error .illegalOp := rfl
theorem decode_reserved_bit : decodeSlot .s 0x030C_0801_0000_0010 = .error .illegalOp := rfl
theorem decode_reduction_in_va : decodeSlot .va 0xB405_0004_0000_0000 = .error .illegalOp := rfl
/-- R59, R150: an emulated format code and a reserved one in an XCVT. -/
theorem decode_emulated_format : decodeSlot .x 0x0408_0128_6000 = .error .formatEmul := rfl
theorem decode_reserved_format : decodeSlot .x 0x0408_0130_6000 = .error .illegalFmt := rfl
/-- A bundle of zeros has FORM 0 (R27). -/
theorem decode_bad_header : headerOk 0 = false := by decide +kernel
theorem bad_header_refused (b : Bundle) (h : headerOk b = false) : decodeBundle b = .error (.illegalBundle, none) := by
  simp [decodeBundle, h]

/-- The bytes of chapter 2's worked example, header first. -/
def exampleBundle : Bundle := 0x54014001C0060000030C0800000000108000

def opsOf (b : Bundle) : List Instr := match decodeBundle b with
  | .ok is => is.filter fun i => !i.isNop
  | .error _ => []

theorem decode_example_bundle : opsOf exampleBundle
    = [.addi ⟨3, false, .reg 2, 16⟩, .vfadd ⟨.a, .f, 5, false, ⟨.reg 3, 0⟩, ⟨.latch 3, 0⟩, 0⟩] := by decide +kernel

/-! ### Single steps -/

/-- A leaf with scalar registers. -/
def regs (l : List (Nat × Word)) : Leaf := { Leaf.reset with sregs := l }

/-- Leaf 0 alone in a package, acting within a bundle whose checks have passed. -/
def acting (l : Leaf) : State := { State.reset with leaves := [(0, l)], phase := .effect }

/-- The same leaf with an operation that makes its own checks. -/
def alone (l : Leaf) : State := { State.reset with leaves := [(0, l)], node := { Node.reset with accept := 0x3FF } }

def next (o : Out) : Option State := match o with
  | .next t => some t
  | _ => none

/-- What the last result in flight holds. -/
def lastWord (o : Out) : Option Word := (next o).bind fun t => t.leaf.inflight.getLast?.map fun r => r.value.setWidth 64
def lastFlags (o : Out) : Option Flags := (next o).bind fun t => t.leaf.inflight.getLast?.map fun r => r.flags

def s12 (a b : Word) : State := acting (regs [(1, a), (2, b)])
def rr : SRR := ⟨3, false, .reg 1, .reg 2⟩

/-- R50, and the expansion example of chapter 7: after an XEXP that did not wait, a read of v40 is open until its latency is
reached; after an always-blocking bundle no read is. -/
def expanding : Leaf := { Leaf.reset with inflight := [⟨2, .v 40, 7, 0xFF, none, 0, 2, 0, none⟩] }
def openRegs (l : Leaf) : List (Dest × Nat × Nat) := l.doubts.regs.map fun d => (d.dest, d.dist, d.alt.toNat)
theorem test_conditional_bundle_opens_reads : openRegs (passDoubts false true Leaf.reset expanding) = [(.v 40, 2, 7)]
    ∧ openRegs (passDoubts false false expanding (passDoubts false true Leaf.reset expanding)) = [(.v 40, 1, 7)] := by
  decide +kernel
theorem test_blocking_bundle_opens_none : (passDoubts true true Leaf.reset expanding).doubts = .none := by decide +kernel

/-- The table of R105. -/
theorem test_div_truncates : lastWord (exec (.div rr) (s12 (-7) 2)) = some (-3) := by decide +kernel
theorem test_rem_has_dividend_sign : lastWord (exec (.rem rr) (s12 (-7) 2)) = some (-1) := by decide +kernel
theorem test_div_by_zero : lastWord (exec (.div rr) (s12 7 0)) = some (-1) := by decide +kernel
theorem test_rem_by_zero : lastWord (exec (.rem rr) (s12 7 0)) = some 7 := by decide +kernel
theorem test_div_overflow : lastWord (exec (.div rr) (s12 0x8000000000000000 (-1))) = some 0x8000000000000000 := by
  decide +kernel
theorem test_rem_overflow : lastWord (exec (.rem rr) (s12 0x8000000000000000 (-1))) = some 0 := by decide +kernel
theorem test_divn : lastWord (exec (.divn rr) (s12 0xFFFFFFFFFFFFFFFF 2)) = some 0x7FFFFFFFFFFFFFFF := by decide +kernel
theorem test_remn : lastWord (exec (.remn rr) (s12 0xFFFFFFFFFFFFFFFF 2)) = some 1 := by decide +kernel

/-- Worked by hand from R104 and R106. -/
theorem test_add_wraps : lastWord (exec (.add rr) (s12 0xFFFFFFFFFFFFFFFF 2)) = some 1 := by decide +kernel
theorem test_sub_order : lastWord (exec (.sub rr) (s12 2 3)) = some (-1) := by decide +kernel
theorem test_mulh_signed : lastWord (exec (.mulh rr) (s12 (-1) 1)) = some (-1) := by decide +kernel
theorem test_mulhn_unsigned : lastWord (exec (.mulhn rr) (s12 (-1) 2)) = some 1 := by decide +kernel
theorem test_andn : lastWord (exec (.andn rr) (s12 0xF 0x5)) = some 0xA := by decide +kernel
theorem test_sra_of_65 : lastWord (exec (.sra rr) (s12 0x8000000000000000 65)) = some 0xC000000000000000 := by decide +kernel
theorem test_rotr : lastWord (exec (.rotr rr) (s12 1 1)) = some 0x8000000000000000 := by decide +kernel
theorem test_slt_signed : lastWord (exec (.slt rr) (s12 (-1) 0)) = some 1 := by decide +kernel
theorem test_sltn_unsigned : lastWord (exec (.sltn rr) (s12 (-1) 0)) = some 0 := by decide +kernel
theorem test_clz_of_zero : lastWord (exec (.clz ⟨3, false, .reg 1⟩) (s12 0 0)) = some 64 := by decide +kernel
theorem test_bswap : lastWord (exec (.bswap ⟨3, false, .reg 1⟩) (s12 0x0102030405060708 0)) = some 0x0807060504030201 := by
  decide +kernel
theorem test_extr_sx : lastWord (exec (.extr ⟨3, false, .reg 1, true, 4, 4⟩) (s12 0x80 0)) = some (-8) := by decide +kernel
theorem test_insr : lastWord (exec (.insr ⟨3, false, .reg 1, .reg 2, 4, 4⟩) (s12 0xAB 0xFFF)) = some 0xFBF := by decide +kernel
theorem test_lih : lastWord (exec (.lih ⟨3, false, .reg 1, 0x12345678⟩) (s12 0xFFFFFFFF9ABCDEF0 0)) = some 0x123456789ABCDEF0 := by
  decide +kernel
theorem test_addr : lastWord (exec (.addr ⟨3, false, .reg 1, .reg 2, 0xFFFFFF, 3⟩) (s12 100 2)) = some 115 := by decide +kernel

/-- R39 and R40: a register's read at landing, and s0. -/
def landed (d : Nat) : Leaf := landDue { Leaf.reset with inflight := [⟨0, .s d, 7, onesBelow 64, some 0, 0, 8, 0, none⟩] }
theorem test_landing_s3 : Machine.readS (landed 3) 3 = 7 := by decide +kernel
theorem test_s0_reads_zero : Machine.readS (landed 0) 0 = 0 := by decide +kernel

/-- R53: a branch taken at index 40 with offset 4 leaves the delay bundle first. -/
theorem test_branch_taken : (next (exec (.beq ⟨1, 2, 4⟩) (acting { regs [(1, 5), (2, 5)] with pc := 40 }))).map
    (fun t => t.leaf.xfer) = some (.taken 44) := by decide +kernel
theorem test_branch_not_taken : (next (exec (.blt ⟨1, 2, 4⟩) (acting { regs [(1, 5), (2, 5)] with pc := 40 }))).map
    (fun t => t.leaf.xfer) = some .notTaken := by decide +kernel
theorem test_call_links_behind_its_delay_bundle :
    lastWord (exec (.call ⟨0xFFFFFFC⟩) (acting { regs [] with pc := 40 })) = some 42 := by decide +kernel

/-- The rows of R91: source format, target format, rounding mode, SAT, FTZ, value, result, flags. -/
def conversions : List (Nat × Nat × Nat × Bool × Bool × Nat × Nat × Nat) :=
  [(0, 1, 0, false, false, 0x7F800000, 0x7C00, 0), (0, 1, 0, false, false, 0x477FF000, 0x7C00, 5),
   (0, 1, 0, true, false, 0x477FF000, 0x7BFF, 5), (0, 1, 0, false, false, 0x33800000, 0x0001, 0),
   (0, 1, 0, false, true, 0x33800000, 0x0000, 3), (0, 1, 0, false, false, 0x322BCC77, 0x0000, 3),
   (0, 2, 0, false, false, 0x7F800001, 0x7FC0, 0), (0, 2, 0, false, false, 0x3F808000, 0x3F80, 1),
   (4, 3, 0, false, false, 0x7C, 0x7F, 4), (4, 3, 0, true, false, 0x7C, 0x7E, 4), (4, 3, 0, false, false, 0xFC, 0xFF, 4),
   (4, 3, 0, true, false, 0xFC, 0xFE, 4), (4, 3, 0, false, false, 0x60, 0x7F, 5), (4, 3, 0, true, false, 0x60, 0x7E, 5),
   (4, 3, 1, false, false, 0x60, 0x7E, 5), (4, 3, 0, false, false, 0x01, 0x00, 3), (3, 4, 0, false, false, 0xFF, 0x7E, 0),
   (3, 4, 0, false, false, 0x01, 0x18, 0), (3, 1, 0, false, false, 0x01, 0x1800, 0)]
def conversions2 : List (Nat × Nat × Nat × Bool × Bool × Nat × Nat × Nat) :=
  [(0, 7, 0, false, false, 0x40200000, 0x02, 1), (0, 7, 3, false, false, 0x40200000, 0x03, 1),
   (0, 7, 0, true, false, 0x43960000, 0x7F, 16), (0, 7, 0, false, false, 0xFF800000, 0x80, 16),
   (0, 7, 0, false, false, 0x7FC00000, 0x00, 16), (0, 8, 0, false, false, 0xBF800000, 0x00, 16),
   (0, 8, 0, false, false, 0xBECCCCCD, 0x00, 1), (0, 7, 0, false, false, 0x42FF3333, 0x7F, 16),
   (0, 7, 0, false, false, 0xC3006666, 0x80, 1), (7, 3, 0, false, false, 0x80, 0xF0, 0),
   (8, 3, 0, false, false, 0xFF, 0x78, 1), (9, 7, 0, false, false, 0x8, 0xF8, 0), (8, 7, 0, false, false, 0xC8, 0xC8, 4),
   (8, 7, 0, true, false, 0xC8, 0x7F, 4)]
def converts (r : Nat × Nat × Nat × Bool × Bool × Nat × Nat × Nat) : Bool :=
  let (a, b, rm, sat, ftz, x, y, fl) := r
  decide (convertCode a b ⟨rm, sat, ftz, 0⟩ x = (y, BitVec.ofNat 5 fl))
theorem test_conversions : conversions.all converts = true := by decide +kernel
theorem test_integer_conversions : conversions2.all converts = true := by decide +kernel

/-- *Worked example: an infinity narrowed to E4M3* (chapter 7): byte 0 of the result, and OVERFLOW alone. -/
theorem test_xcvt : lastWord (exec (.xcvt ⟨4, false, 2, 4, 3, 0⟩) (acting { regs [] with vregs := [(2, 0x7C)] })) = some 0x7F := by
  decide +kernel

/-- *Worked example: the fixed reduction order* (chapter 6), first row: lanes 0, 128 and 256. -/
def reduction (a b : Nat) : Vec := BitVec.ofNat 16384 (0x3F800000 + 0x33800000 * 2 ^ (32 * a) + 0x33800000 * 2 ^ (32 * b))
def vradd : VRed := ⟨.f, 20, false, ⟨.reg 8, 0⟩, 0⟩
theorem test_vradd_ties : lastWord (exec (.vradd vradd) (acting { regs [] with vregs := [(8, reduction 256 128)] }))
    = some 0x3F800000 := by decide +kernel
theorem test_vradd_exact : lastWord (exec (.vradd vradd) (acting { regs [] with vregs := [(8, reduction 128 384)] }))
    = some 0x3F800001 := by decide +kernel
theorem test_first_maximum : maxIncluded [(0, decodeFloat fp32 0x3F800000), (5, decodeFloat fp32 0x40000000),
    (7, decodeFloat fp32 0x40000000)] = some (5, decodeFloat fp32 0x40000000) := by decide +kernel

/-- R128, by hand: elements that wrap, clamp and carry no further. -/
def vv (i : V2 ITy → Instr) (ty : ITy) (a b : Vec) : Option Word :=
  lastWord (exec (i ⟨.a, ty, 3, false, ⟨.reg 1, 0⟩, ⟨.reg 2, 0⟩, 0⟩) (acting { regs [] with vregs := [(1, a), (2, b)] }))
theorem test_vadd_i8_wraps : vv .vadd .i8 0x00FF 0x0101 = some 0x0100 := by decide +kernel
theorem test_vadds_n16_clamps : vv .vadds .n16 0xFFFF0001 0x00020002 = some 0xFFFF0003 := by decide +kernel
theorem test_vmulh_i16 : vv .vmulh .i16 0xFFFF 0x0001 = some 0xFFFF := by decide +kernel
theorem test_vmax_i32 : vv .vmax .i32 0xFFFFFFFF 0x1 = some 0x1 := by decide +kernel

/-- *Worked example: one trap* (chapter 15): TRAP_CAUSE, TRAP_PC and TRAP_NPC, and ENTRY 200. -/
def lateFault : Trap := { cause := .pageFaultW, slot := 5, obj := 4, late := true }
def trapped : Leaf := (takeTrap (acting { regs [] with run := some 1, trapVec := 0x10C8, pc := 43 }) lateFault).leaf
theorem test_trap_cause : trapped.trapCause = 0x2040A009 := by decide +kernel
theorem test_trap_indices : (trapped.trapPc, trapped.trapNpc, trapped.pc, trapped.trapCtl) = (43, 44, 200, 0) := by decide +kernel
theorem test_trap_level : trapped.level = .trap := by decide +kernel

/-- *Worked example: a two-cluster gathering* (chapter 11): steps 2 to 5. -/
def gathering (st : KState) (member arrived : BitVec 32) (g : Nat) : State :=
  { State.reset with
      cur := g, phase := .effect, leaves := [(g, { Leaf.reset with run := some 1 })],
      kfiles := [(5, [(3, { Kettle.reset 3 with state := st, member := member, next := member, arrived := arrived,
                                                 extent := 3, parent := 0x80040003 })])] }
theorem test_karv_counts : (next (exec (.karv ⟨4, 3, true⟩) (gathering .open_ 0x204 0 162))).map
    (fun t => (getKettle t 5 3).arrived) = some 0x4 := by decide +kernel
theorem test_gleave_completes : (next (exec (.gleave ⟨3⟩) (gathering .open_ 0x204 4 169))).map
    (fun t => ((getKettle t 5 3).member, (getKettle t 5 3).state)) = some (0x4, .closed) := by decide +kernel
theorem test_gjoin_waits : lastWord (exec (.gjoin ⟨5, 3⟩) (gathering .closed 0x4 4 169)) = some 1 := by decide +kernel

/-- *Worked example: a three-fold cord and a refused step* (chapter 13): the shape a SEWRUN leaves. -/
def le (n : Nat) (x : Nat) (a : Nat) : Memory := (List.range n).foldl (fun m i => memSet m (a + i) (BitVec.ofNat 8 (x / 256 ^ i))) []
def cord : Memory :=
  le 16 0x001003030000000070000000 0x20000 ++ le 16 0x002103030000000070001000 0x20010 ++ le 16 0x003203030000000070002000 0x20020
def sewing (b2 : BitVec 12) : Leaf :=
  { regs [(6, 0x20000), (7, 3)] with
      sewCfg := ⟨0x10000, 0x14000, 0x4000⟩, sewShape := 0x0008000100400010, sheet := cord,
      bonds := [(0, 1), (1, 4), (2, b2), (3, 1)], run := some 1, fmt := 0x863 }
theorem test_sewrun_shape : (next (exec (.sewrun ⟨6, 7, 5, true⟩) (acting (sewing 4)))).map (fun t => t.leaf.sewShape)
    = some 0x0008004000010011 := by decide +kernel
theorem test_sewrun_overflow : (next (exec (.sewrun ⟨6, 7, 5, true⟩)
    (alone { sewing 16 with trapVec := 0x1000 }))).map (fun t => (t.leaf.sewFault, t.leaf.trapCause.setWidth 8))
    = some (0x0000010400008000, 0x11#8) := by decide +kernel

/-- *Worked example: a select with a row in transit* (chapter 14): the list of the SSEL. -/
def shelfRows : List Row := [(0, 0), (1, 0), (2, 0xFF), (3, 0xFFF), (4, 0xFF), (6, 0xFFFF), (7, 0xF), (8, 1), (9, 3)].map
  fun (t, g) => ⟨BitVec.ofNat 32 t, BitVec.ofNat 256 g, 14, .array t⟩
def shelf2 : Shelf := { Shelf.reset with newest := some 9, rows := shelfRows }
def shelfCfg2 : ShelfCfg := ⟨0xFFFF, 0x60000000, 64, 16, 8, 3, 2, 2⟩
theorem test_select : selectTags shelfCfg2 shelf2 0xFFFF = [0, 1, 3, 4, 6, 8, 9] := by decide +kernel

/-- R163, R167, by hand: a word stored and loaded back from sheet space, little-endian, the half above it untouched. -/
def stored : Option State := next (exec (.pst ⟨1, .reg 2, 2, 4⟩) (acting (regs [(1, 0x8899AABB), (2, 0x100)])))
theorem test_pst_little_endian : stored.map (fun t => (List.range 6).map fun i => sheetByte t.leaf (0x103 + i))
    = some [0, 0xBB, 0xAA, 0x99, 0x88, 0] := by decide +kernel
theorem test_pld_extends : (stored.bind fun t => lastWord (exec (.pld ⟨3, .reg 2, 5, 1, true, 6⟩) t))
    = some 0xFFFFFFFFFFFF8899 := by decide +kernel

/-! ### Witnesses: states and operands that meet the hypotheses of the statements, at the boundaries of their clauses -/

/-- Within a bundle whose checks have passed every operation may run: the hypotheses `Legal` and `Issues`. -/
theorem acting_legal (i : Instr) (l : Leaf) : Legal i (acting l) := .inl rfl
theorem acting_issues (i : Instr) (l : Leaf) : Issues i (acting l) := .inl rfl

/-- On its own an operation may run where its checks pass: an aligned load of sheet space, a branch. -/
theorem alone_legal : Legal (.br ⟨4⟩) (alone .reset) := .inr (by decide)
theorem alone_issues : Issues (.pld ⟨3, .reg 2, 5, 2, false, 4⟩) (alone .reset) := .inr (by decide +kernel)

def pkt : Packet :=
  { prio := 0, depfail := false, service := false, barrier := false, clusters := 1, leafMask := 15, spawn := 2, image := 0,
    args := 0, data := 0, sheet := 0, sheetLen := 0, trapv := 0, emulv := 0, colophon := 0, signal := 0, deps := [],
    runId := 7, save := 0, ribbon := 0, tasks := 0x1000, taskCount := 1 }

/-- A run whose one cluster is cluster 0. -/
def run1 : Run :=
  { id := 1, queue := 0, index := 0, hart := 0, ctx := 0, asid := 5, root := 0x10000, fring := 0, fringRecords := 0,
    fringTail := 0, pkt := pkt, segs := [], stage := .placed, places := [some 0], saved := [], placedAt := 0, startDtc := 0,
    taskQ := [[], []], taskState := [], taskRels := [], ending := none, preempt := [], clock := [], wild := false, slot := 0, slotAt := 0, abroad := [] }

/-- Leaf 0 of run 1, acting. -/
def inRun (l : Leaf) (r : Run := run1) : State := { acting { l with run := some 1 } with runs := [r] }

theorem witness_ScalarDivision_zero : readSrc (s12 7 0).leaf rr.sb = 0 := by decide +kernel
theorem witness_ScalarDivision_overflow : (readSrc (s12 0x8000000000000000 (-1)).leaf rr.sa).toInt = -2 ^ 63
    ∧ (readSrc (s12 0x8000000000000000 (-1)).leaf rr.sb).toInt = -1 := by decide +kernel
theorem witness_ScalarDivision_plain : readSrc (s12 0x8000000000000000 1).leaf rr.sb ≠ 0
    ∧ ¬((readSrc (s12 0x8000000000000000 1).leaf rr.sa).toInt = -2 ^ 63 ∧ (readSrc (s12 0x8000000000000000 1).leaf rr.sb).toInt = -1) := by
  decide +kernel
theorem witness_ScalarBitFields :
    let x : SExtr := ⟨3, false, .reg 1, true, 64, 0⟩
    let y : SInsr := ⟨3, false, .reg 1, .reg 2, 1, 63⟩
    1 ≤ x.len.toNat ∧ x.pos.toNat + x.len.toNat ≤ 64 ∧ 1 ≤ y.len.toNat ∧ y.pos.toNat + y.len.toNat ≤ 64 := by decide

/-- Two results of one bundle and an older one, due for s3. -/
def landing (dest : Dest) : Leaf :=
  { Leaf.reset with
      inflight := [⟨0, dest, 1, onesBelow 64, none, 4, 8, 0, none⟩, ⟨0, dest, 2, onesBelow 64, none, 5, 8, 0, none⟩,
                   ⟨0, dest, 3, onesBelow 64, none, 5, 0, 0, none⟩, ⟨2, dest, 4, onesBelow 64, none, 6, 8, 0, none⟩] }
def due (l : Leaf) (d : Dest) : List Result := l.inflight.filter fun r => r.dist == 0 && r.dest == d
theorem witness_LandingWritesScalarRegister : due (landing (.s 3)) (.s 4) = []
    ∧ ∃ r ∈ due (landing (.s 3)) (.s (3 : BitVec 6).toNat),
        (∀ o ∈ due (landing (.s 3)) (.s (3 : BitVec 6).toNat), o = r ∨ o.seq < r.seq ∨ (o.seq = r.seq ∧ r.rank < o.rank))
        ∧ (3 : BitVec 6) ≠ 0 := by decide +kernel
theorem witness_LandingWritesVectorRegister : due (landing (.s 3)) (.v 511) = []
    ∧ due { landing (.s 3) with inflight := [⟨0, .v 511, 7, onesBelow 32, none, 4, 0, 0, none⟩] } (.v (511 : BitVec 9).toNat)
      = [⟨0, .v 511, 7, onesBelow 32, none, 4, 0, 0, none⟩] := by decide +kernel
theorem witness_ResultWaitsForItsPosition :
    (⟨2, .s 3, 4, onesBelow 64, none, 6, 8, 0, none⟩ : Result) ∈ (landing (.s 3)).inflight ∧ 2 ≤ 2 := by decide +kernel

theorem witness_ControlTransfers : atActiveEnd (acting (regs [(1, 5), (2, 5)])).leaf = false := by decide +kernel
theorem witness_DelayBundleThenTarget :
    Leaf.reset.delay = .none ∧ atActiveEnd .reset = false ∧ Leaf.reset.xfer = .none := by decide
def atTrap (l : Leaf) : Leaf := { l with level := .trap, frame := some (captureFrame l) }
theorem witness_TransferAtLoopEndTraps :
    let s := alone { Leaf.reset with pc := 44, loopOuter := loopWord 2 41 44 true }
    let x := alone (atTrap s.leaf)
    (Instr.br ⟨4⟩).isTransfer = true ∧ s.phase = .alone ∧ (Instr.br ⟨4⟩).ctxIllegal (decodeCtx s) = false ∧ atActiveEnd s.leaf = true
    ∧ Instr.rte.isTransfer = true ∧ x.leaf.level = .trap ∧ Instr.rte.ctxIllegal (decodeCtx x) = false ∧ atActiveEnd x.leaf = true := by
  decide +kernel
theorem witness_LoopsOpenLevels :
    let s := acting (regs [(1, 0xFFFFFFFF00000000), (2, 0x100000001)])
    1 ≤ 4095 ∧ s.leaf.pc.toNat + 4095 ≤ 4095 ∧ loopCause 4095 s = none
    ∧ (Machine.readS s.leaf 1).toNat % 2 ^ 32 = 0 ∧ (Machine.readS s.leaf 2).toNat % 2 ^ 32 ≠ 0 := by decide +kernel
theorem witness_LoopBodyIssuesCountTimes :
    let l := { Leaf.reset with pc := 4094, loopOuter := loopWord 0xFFFFFFFF 4094 4095 true }
    1 ≤ 2 ∧ 1 ≤ 0xFFFFFFFF ∧ 4093 + 2 ≤ 4095 ∧ 0xFFFFFFFF < 2 ^ 32 ∧ 2 * 0xFFFFFFFF ≤ 0xFFFFFFFF * 2
    ∧ l.pc = BitVec.ofNat 64 (4093 + 1) ∧ l.xfer = .none ∧ l.delay = .none ∧ l.loopInner.getLsbD 31 = false
    ∧ levelOf l.loopOuter = (0xFFFFFFFF, 4093 + 1, 4093 + 2, true) := by decide +kernel

/-- WAITK of exactly as many tokens as there are, of one more, and TOKRD. -/
theorem witness_TokenInstructions :
    let s := acting { Leaf.reset with toks := [(3, 5)] }
    s.phase = .effect ∧ (5 : BitVec 16).toNat ≤ (readTok s.leaf 3).toNat ∧ (readTok s.leaf 3).toNat < (6 : BitVec 16).toNat := by
  decide +kernel

theorem witness_SystemRegisterReads :
    sysReadable 0x00F = true ∧ sysReadable 0x010 = true ∧ sysReadable 0x01B = true
    ∧ (0x00F : BitVec 12).toNat < 16 ∧ 16 ≤ (0x010 : BitVec 12).toNat ∧ (alone .reset).phase = .alone
    ∧ (Instr.sysrd ⟨1, 0x010⟩).ctxIllegal (decodeCtx (alone .reset)) = false ∧ (alone .reset).leaf.level = .ordinary
    ∧ (acting (atTrap .reset)).leaf.level = .trap := by decide +kernel
theorem witness_SystemRegisterWrites :
    ([0x000, 0x001, 0x002, 0x003, 0x004, 0x005, 0x006, 0x008, 0x009, 0x00B, 0x00C, 0x010, 0x011, 0x012, 0x013, 0x014, 0x018,
      0x01B] : List (BitVec 12)).all sysWritable = true
    ∧ (acting (atTrap .reset)).phase = .effect ∧ (acting (atTrap .reset)).leaf.level = .trap
    ∧ (acting (atTrap .reset)).leaf.frame ≠ none ∧ (acting .reset).leaf.level = .ordinary
    ∧ (alone .reset).phase = .alone ∧ (Instr.syswr ⟨1, 0x009⟩).ctxIllegal (decodeCtx (alone .reset)) = false
    ∧ (alone .reset).leaf.level = .ordinary ∧ (0x009 : BitVec 12).toNat = 0x009 := by decide +kernel
theorem witness_SoftwareTrapsPend :
    let t : Trap := { cause := .software, fva := 9 }
    let l := { Leaf.reset with swPend := some t }
    l.level = .ordinary ∧ lateStore l.olog = none ∧ lateLoad l.inflight false l.olog = none ∧ l.swPend = some t := by decide
theorem witness_RteNeedsTrapLevel :
    (acting (atTrap .reset)).leaf.level = .trap ∧ atActiveEnd (acting (atTrap .reset)).leaf = false
    ∧ Instr.rte.ctxIllegal (decodeCtx (alone .reset)) = false ∧ (alone .reset).leaf.level = .ordinary := by decide +kernel

/-- A trap vector, the emulation vector for FORMAT_EMUL, and neither. -/
def vectored : Leaf := { Leaf.reset with trapVec := 0x10C8, emulVec := 0x1FFF }
def aTrap : Trap := { cause := .align, fva := 4 }
theorem witness_TrapEntrySavesAndVectors :
    (acting vectored).leaf.level = .ordinary ∧ aTrap.fvaOpen = false ∧ aTrap.cause ≠ .boundaryOverflow
    ∧ (if aTrap.cause = .formatEmul ∧ (acting vectored).leaf.emulVec.getLsbD 12 = true
        then (acting vectored).leaf.emulVec else (acting vectored).leaf.trapVec).getLsbD 12 = true
    ∧ (if Cause.formatEmul = .formatEmul ∧ (acting vectored).leaf.emulVec.getLsbD 12 = true
        then (acting vectored).leaf.emulVec else (acting vectored).leaf.trapVec).getLsbD 12 = true := by decide +kernel
theorem witness_TrapWithoutVectorEndsRun :
    let s := inRun .reset
    s.leaf.level = .ordinary ∧ aTrap.fvaOpen = false ∧ aTrap.cause ≠ .boundaryOverflow
    ∧ (aTrap.cause = .formatEmul → s.leaf.emulVec.getLsbD 12 = false) ∧ s.leaf.trapVec.getLsbD 12 = false
    ∧ s.leaf.run = some 1 ∧ findRun s 1 = some run1 ∧ run1.ending = none := by decide +kernel
theorem witness_TrapAtTrapLevelIsDouble :
    let s := inRun (atTrap .reset)
    s.leaf.level = .trap ∧ s.leaf.run = some 1 ∧ findRun s 1 = some run1 ∧ run1.ending = none := by decide +kernel
theorem witness_TrapThenReturnRestoresLeaf :
    let s := acting { vectored with pc := 43, inflight := (landing (.s 3)).inflight, delay := .taken 90 }
    s.leaf.level = .ordinary ∧ aTrap.fvaOpen = false ∧ aTrap.async = false ∧ aTrap.cause ≠ .boundaryOverflow
    ∧ aTrap.cause ≠ .formatEmul ∧ s.leaf.trapVec.getLsbD 12 = true ∧ s.leaf.delay ≠ .skip 90 ∧ s.leaf.delay ≠ .rte
    ∧ s.leaf.xfer = .none ∧ s.leaf.rteDue = false ∧ s.leaf.wait = .none ∧ s.leaf.skipSlot = 0 ∧ s.leaf.slotCause = false ∧ s.leaf.handling = none
    ∧ s.leaf.olog = [] ∧ s.leaf.frame = none := by decide +kernel

/-- Kettle 64, OPEN without parent, and an IDLE one; gathering 0. -/
def kettles (ph : Phase) : State :=
  { acting { regs [(1, 0x02000001), (2, 0)] with run := some 1 } with
      phase := ph, node := (alone .reset).node, kfiles := [(0, [(0, { Kettle.reset 0 with phase := 1, member := 3, next := 3, arrived := 1 }),
                                   (64, { Kettle.reset 64 with state := .open_, count := 1 })])] }
theorem witness_KettleArrival : (kettles .effect).phase = .effect
    ∧ (getKettle (kettles .effect) (clusterOf 0) 64).state = .open_ ∧ (getKettle (kettles .effect) (clusterOf 0) 64).hasParent = false
    ∧ (getKettle (kettles .effect) (clusterOf 0) 63).state = .open_ ∧ (getKettle (kettles .effect) (clusterOf 0) 63).hasParent = false := by
  decide +kernel
theorem witness_KettleArrivalTraps : (kettles .alone).phase = .alone
    ∧ (Instr.karv ⟨1, 65, false⟩).ctxIllegal (decodeCtx (kettles .alone)) = false
    ∧ (getKettle (kettles .alone) (clusterOf 0) 65).state ≠ .open_
    ∧ (getKettle (kettles .alone) (clusterOf 0) 0).arrived.getLsbD 0 = true
    ∧ (getKettle (kettles .alone) (clusterOf 0) 63).member.getLsbD 0 = false := by decide +kernel
/-- Phase 1 is past phase 0 and not past itself; half the phase numbers away it is not past either. -/
theorem witness_KettleWait :
    let x := getKettle (kettles .effect) (clusterOf 0) 0
    (1 ≤ (x.phase - 0).toNat ∧ (x.phase - 0).toNat < 2 ^ 31) ∧ ¬(1 ≤ (x.phase - 1).toNat ∧ (x.phase - 1).toNat < 2 ^ 31)
    ∧ ¬(1 ≤ (x.phase - 0x80000001).toNat ∧ (x.phase - 0x80000001).toNat < 2 ^ 31) := by decide +kernel
theorem witness_KettlePoll : (getKettle (kettles .effect) 0 64).carr.length ≤ (getKettle (kettles .effect) 0 64).child.toNat
    ∧ Issues (.kpoll ⟨3, 64, 0⟩) (kettles .effect) := ⟨by decide +kernel, .inl rfl⟩
/-- On its own: a count of 1, and one of 0 for a kettle from 64 on. -/
theorem witness_KettleInit :
    let s := kettles .alone
    Issues (.kinit ⟨1, 2, 64⟩) s ∧ (Machine.readS s.leaf 1).extractLsb' 0 14 ≠ 0#14 ∧ (Machine.readS s.leaf 2).extractLsb' 0 14 = 0#14
    ∧ 64 ≤ (64 : BitVec 8).toNat := ⟨.inr (by decide +kernel), by decide +kernel, by decide +kernel, by decide⟩
/-- An IDLE kettle, one with an arrival, a scope code, a count and links that KINIT refuses, at their bounds. -/
theorem witness_KettleTraps :
    let s := kettles .alone
    s.phase = .alone ∧ s.cur < 768 ∧ allArrived s.leaf = true
    ∧ (Instr.kwait ⟨1, 65, false⟩).ctxIllegal (decodeCtx (s.upd landAll)) = false ∧ (getKettle s (clusterOf s.cur) 65).state = .idle
    ∧ (Instr.kinit ⟨1, 2, 0⟩).ctxIllegal (decodeCtx s) = false ∧ (getKettle s (clusterOf s.cur) 0).arrived ≠ 0
    ∧ ((0x01000000 : Word).extractLsb' 24 3).toNat < 2 ∧ 5 < ((0x06000000 : Word).extractLsb' 24 3).toNat
    ∧ (0x02000001 : Word).extractLsb' 0 14 ≠ 0#14 ∧ 23 < ((0x80180000 : Word).extractLsb' 16 5).toNat
    ∧ ((0x80010000 : Word).extractLsb' 16 5).toNat ≠ clusterOf s.cur ∧ ((0x800C0000 : Word).extractLsb' 16 5).toNat / 12 ≠ clusterOf s.cur / 12
    ∧ s.node.domain.toNat ≤ ((0x81000000 : Word).extractLsb' 24 7).toNat ∧ ((0x81000000 : Word).extractLsb' 24 7).toNat ≠ s.node.package.toNat := by
  decide +kernel
theorem witness_GatheringMembership_traps :
    (kettles .alone).phase = .alone ∧ (Instr.gjoin ⟨3, 0⟩).ctxIllegal (decodeCtx (kettles .alone)) = false
    ∧ (getKettle (kettles .alone) (clusterOf 0) 0).next.getLsbD (0 % 32) = true
    ∧ (Instr.gleave ⟨63⟩).ctxIllegal (decodeCtx (kettles .alone)) = false
    ∧ (getKettle (kettles .alone) (clusterOf 0) 63).next.getLsbD (0 % 32) = false := by decide +kernel
/-- The leaf has arrived in gathering 0 and not in gathering 63. -/
theorem witness_GatheringMembership :
    (getKettle (kettles .effect) 0 63).state = .open_ ∧ (getKettle (kettles .effect) 0 63).arrived.getLsbD 0 = false
    ∧ (getKettle (kettles .effect) 0 0).arrived.getLsbD 0 = true ∧ (getKettle (kettles .effect) 0 63).hasParent = false := by
  decide +kernel

/-- A log entry of eight bytes. -/
def entry (id va : Nat) (op : LogOp) (stage : LogStage := .walk) : LogEntry :=
  ⟨id, 0, id, op, BitVec.ofNat 64 va, 8, 0, 0, stage, false⟩
theorem witness_FencesMarkProgramOrder :
    logOf { Leaf.reset with olog := [entry 1 64 (.store false false)] } ≠ [] ∧ (0 : BitVec 3) = 0 ∧ (2 : BitVec 2) = 2 := by decide
theorem witness_AliasAndTlbFences_enter :
    let s := alone (regs [(2, 4096)])
    Issues (.aliasf ⟨2, 0, 4⟩) s ∧ Issues (.tlbinv ⟨2, 2⟩) s := ⟨.inr (by decide +kernel), .inr (by decide +kernel)⟩
theorem witness_AliasAndTlbFences :
    let s := alone (regs [(1, 32), (2, 4096), (3, 96)])
    s.phase = .alone ∧ (Instr.aliasf ⟨1, 2, 4⟩).ctxIllegal (decodeCtx s) = false ∧ (Machine.readS s.leaf 1).toNat % 64 ≠ 0
    ∧ (Machine.readS s.leaf 3).toNat % 2 ^ 32 % 64 ≠ 0 ∧ (Instr.tlbinv ⟨1, 2⟩).ctxIllegal (decodeCtx s) = false
    ∧ (Machine.readS s.leaf 1).toNat % 4096 ≠ 0 := by decide +kernel
theorem witness_OlderEntriesHoldBack :
    let e := entry 9 0x100 (.store false true)
    let o := entry 1 0xF9 (.load false false false)
    e.op.isAccess = true ∧ o.op.isAccess = true ∧ o.overlaps e = true ∧ (entry 1 0 (.load false false true)).op.acquires = true
    ∧ e.op.releases = true ∧ o.maybeLocal 0 = true ∧ o.maybeRemote 0 = true ∧ o.op.isLoad = true ∧ e.op.isStore = true
    ∧ e.remote 0 = false ∧ (entry 2 0 (.aliasf 4)).op.isAliasf = true ∧ heldBy 0 [] o e = true
    ∧ (∀ b ∈ [entry 0 64 .drain].reverse ++ o :: [], b.id ≠ e.id) := by decide +kernel

/-- The ribbon has a word left, or none. -/
def ribbon (n : Nat) : State := { acting .reset with quires := [(0, { Quire.reset with ribbon := [7], cursor := n })] }
/-- What `witness_TrapThenReturnRestoresLeaf` starts from, in the open reads too. -/
theorem test_return_gives_the_leaf_back :
    let l := { vectored with pc := 43, inflight := (landing (.s 3)).inflight, doubts := ⟨[⟨.s 5, 1, 2, 9, none, []⟩], []⟩ }
    let u := rteReturn (takeTrap (acting l) aTrap) 0
    u.leaf.doubts = l.doubts ∧ u.leaf.inflight = l.inflight ∧ (takeTrap (acting l) aTrap).leaf.doubts = .none := by decide +kernel

theorem witness_RibbonWords :
    (getQuire (ribbon 1) (quireOf 0)).ribbon.length ≤ (getQuire (ribbon 1) (quireOf 0)).cursor
    ∧ (getQuire (ribbon 0) (quireOf 0)).ribbon[(getQuire (ribbon 0) (quireOf 0)).cursor]? = some 7 := by decide +kernel
/-- Records of the task table in each state; handle 9 names none. -/
def tasked : Run := { run1 with taskState := [(0, 1), (1, 1), (2, 2), (3, 3), (4, 4), (5, 5)], taskQ := [[⟨0, none⟩], []] }
/-- The task of record 0 is queued, by a release that has not come. -/
def held0 : Run := { run1 with taskState := [(0, 1)], taskQ := [[⟨0, some ⟨1, 5, false⟩⟩], []] }
def unreleased : State :=
  { inRun .reset held0 with leaves := (inRun .reset held0).leaves ++ [(1, { Leaf.reset with olog := [entry 4 0 .task] })] }
theorem witness_TaskSpawnAndCancel :
    let s := inRun .reset tasked
    let full := { tasked with taskState := (List.range 32).map fun j => (j, 1) }
    s.cur < 768 ∧ leafRun s 0 = some tasked ∧ Issues (.tspawn ⟨1, 2⟩) s ∧ Issues (.tcancel ⟨1, 2⟩) s
    ∧ freeTask (inRun .reset full) full 0 = none ∧ freeTask (inRun .reset run1) run1 0 = some 1
    ∧ handleRec tasked 0 = none ∧ handleRec tasked 1 = some 0 ∧ taskState tasked 0 = 1 ∧ queuedSeen s tasked 0 0 = true
    ∧ handleRec tasked 3 = some 2 ∧ taskState tasked 2 ≠ 1 ∧ handleRec held0 1 = some 0
    ∧ queuedSeen unreleased held0 0 0 = false :=
  ⟨by decide, by decide +kernel, .inl rfl, .inl rfl, by decide +kernel⟩
theorem witness_TaskGet :
    let s := inRun .reset tasked
    let r := { run1 with taskState := [(0, 2)] }
    s.phase = .effect ∧ s.cur < 768 ∧ leafRun s 0 = some tasked ∧ s.leaf.task = 0
    ∧ (inRun { Leaf.reset with task := 3 } tasked).leaf.task ≠ 0 ∧ halfQueue tasked (halfOf 0) = ⟨0, none⟩ :: []
    ∧ relDone s tasked none = true ∧ noTasksSeen (inRun .reset run1) run1 0 = true
    ∧ halfQueue r (halfOf 0) = [] ∧ noTasksSeen (inRun .reset r) r 0 = false
    ∧ halfQueue held0 (halfOf 0) = ⟨0, some ⟨1, 5, false⟩⟩ :: [] ∧ relDone unreleased held0 (some ⟨1, 5, false⟩) = false := by
  decide +kernel
theorem witness_TaskAwait :
    let s := inRun .reset tasked
    s.phase = .effect ∧ leafRun s 0 = some tasked ∧ handleRec tasked 0 = none
    ∧ handleRec tasked 4 = some 3 ∧ taskState tasked 3 = 3 ∧ relDone s tasked (mapFind tasked.taskRels 3) = true
    ∧ handleRec tasked 5 = some 4 ∧ taskState tasked 4 = 4 ∧ handleRec tasked 6 = some 5 ∧ taskState tasked 5 = 5
    ∧ handleRec tasked 3 = some 2 ∧ taskState tasked 2 = 2 ∧ tawaitReady s 0 1 false = false ∧ tawaitReady s 0 4 false = true
    ∧ relDone unreleased held0 (some ⟨1, 5, false⟩) = false := by decide +kernel
theorem witness_ExitStopsLeaf :
    Issues .exit_ (inRun (atTrap .reset)) ∧ (inRun (atTrap .reset)).leaf.level = .trap ∧ (inRun .reset).leaf.level = .ordinary
    ∧ (inRun (atTrap .reset)).leaf.run = some 1 ∧ findRun (inRun (atTrap .reset)) 1 = some run1 ∧ run1.ending = none :=
  ⟨.inl rfl, by decide +kernel, by decide +kernel, by decide +kernel, by decide +kernel, rfl⟩
theorem witness_ExitCompletesTask :
    let s := inRun { Leaf.reset with task := 3 } tasked
    Issues .exit_ s ∧ s.leaf.level = .ordinary ∧ leafRun s 0 = some tasked ∧ s.leaf.task ≠ 0 :=
  ⟨.inl rfl, by decide +kernel⟩
theorem witness_YieldAndNop : (acting .reset).phase = .effect := rfl

theorem witness_ViewsOfALane : 511 < 512 ∧ (4 ≤ (7 : BitVec 4).toNat ∧ (7 : BitVec 4).toNat < 8) ∧ 8 ≤ (15 : BitVec 4).toNat := by
  decide
theorem witness_VectorMovesAndPermutes :
    (Instr.vins ⟨.a, .i8, 1, false, 1, 2047⟩).wf = true ∧ (Instr.vext ⟨.n32, 1, ⟨.reg 1, 0⟩, 511⟩).wf = true
    ∧ (Instr.vshl ⟨.a, .i16, 1, false, ⟨.reg 1, 0⟩, ⟨.reg 2, 0⟩, 1023, 0⟩).wf = true
    ∧ (Instr.vrot ⟨.b, .i32, 1, false, ⟨.reg 1, 0⟩, 0, 7⟩).wf = true := by decide

theorem witness_RoundingKeepsRepresentableValues :
    (0x0001 : Nat) < 2 ^ fp16.width ∧ (decodeFloat fp16 0x0001).isNan = false
    ∧ (0x80000000 : Nat) < 2 ^ fp32.width ∧ (decodeFloat fp32 0x80000000).isNan = false
    ∧ (0xFF80 : Nat) < 2 ^ bf16.width ∧ (decodeFloat bf16 0xFF80).isNan = false
    ∧ (0x7C : Nat) < 2 ^ e5m2.width ∧ (decodeFloat e5m2 0x7C).isNan = false := by decide +kernel

/-- The reciprocal of 3 has the significand 5461 of 2^14 / 3, its root 2^25 / 3 the significand 4730 (R134). -/
theorem witness_VectorFloatArithmetic : ftyFmt .f = fp32 ∧ (3 : Nat) ≠ 0
    ∧ 2 ^ 12 ≤ 5461 ∧ 5461 ≤ 2 ^ 13 ∧ 2 * 5461 * 3 ≤ 2 ^ 15 + 3 ∧ 2 ^ 15 ≤ 2 * 5461 * 3 + 3
    ∧ 2 ^ 12 ≤ 4730 ∧ 4730 ≤ 2 ^ 13 ∧ (2 * 4730 - 1) ^ 2 * 3 ≤ 2 ^ 28 ∧ 2 ^ 28 ≤ (2 * 4730 + 1) ^ 2 * 3
    ∧ ftyFmt .h = fp16 ∧ 2 ^ 62 ≤ 2 ^ 66 / 3 ∧ 2 ^ 66 / 3 * 3 ≤ 2 ^ 66 ∧ 2 ^ 66 < (2 ^ 66 / 3 + 1) * 3
    ∧ (0 : Int) ≤ 0 ∧ 3 = 3 * 2 ^ (0 : Int).toNat ∧ (-400 : Int) ≤ -2 ∧ (-2 : Int) < 0 ∧ 12 = 3 * 2 ^ (-(-2 : Int)).toNat := by decide +kernel
theorem witness_VectorReductions : (∃ j, 32 * j < 16384 ∧ laneOn (acting .reset) 0 (32 * j / 32) = true)
    ∧ laneOn (acting .reset) 1 511 = false := ⟨⟨511, by decide, by decide +kernel⟩, by decide +kernel⟩

/-- At and past the end of sheet space, off the alignment, and below offset 0, for each form. -/
theorem witness_SheetAccessTraps :
    let s := alone { regs [(1, 0x3FFFFC), (2, 0x400000), (3, 2), (4, -16)] with vregs := [(1, 0x100000)], mregs := [(1, 1)] }
    let l := s.leaf
    s.phase = .alone
    ∧ ([.pld ⟨4, .reg 1, 5, 3, false, 0⟩, .pst ⟨4, .reg 1, 3, 0⟩, .pldv ⟨4, .reg 1, 5, 0⟩, .pstv ⟨4, .reg 1, 1, 0⟩,
         .pldvs ⟨1, .reg 3, 9, 2, 4, 0⟩, .pgth ⟨1, .reg 3, 9, 1, 1, 0⟩, .psct ⟨1, .reg 3, 1, 1, 0⟩] : List Instr).all
        (fun i => !i.ctxIllegal (decodeCtx s)) = true
    ∧ 0x400000 < (readSrc l (.reg 1)).toNat + 2 ^ 3 ∧ ¬0x400000 < (readSrc l (.reg 1)).toNat + 2 ^ 2
    ∧ (readSrc l (.reg 3)).toNat % 2 ^ 2 ≠ 0 ∧ laneOn s 1 0 = true ∧ 0x400000 < (readSrc l (.reg 2)).toNat + 4 * 0 + 4
    ∧ ((readSrc l (.reg 3)).toNat : Int) + 1 * (Machine.readS l 4).toInt < 0
    ∧ ((readSrc l (.reg 3)).toNat : Int) + 4 * elem 32 (Machine.readV l 1) 0 > 0x400000 - 4
    ∧ ((readSrc l (.reg 3)).toNat : Int) % 4 ≠ 0 := by decide +kernel
theorem witness_SheetLoads :
    let s := alone { regs [(1, 0x3FF800), (2, 4)] with mregs := [(1, 3)] }
    let f : PLdvs := ⟨1, .reg 1, 9, 2, 2, 0⟩
    Issues (.pldv ⟨1, .reg 1, 9, 0⟩) s ∧ Issues (.pldvs f) s ∧ Issues (.pgth ⟨1, .reg 1, 9, 0, 1, 0⟩) s ∧ f.size ≠ 3
    ∧ ∀ j : Nat, j < 2048 / 2 ^ f.size.toNat →
        0 ≤ (((BitVec.ofInt 64 ((readSrc s.leaf f.base).toInt + f.off.toInt)).toNat : Int) + j * (Machine.readS s.leaf f.str).toInt) :=
  ⟨.inr (by decide +kernel), .inr (by decide +kernel), .inr (by decide +kernel), by decide, by
    intro j _
    have h : (Machine.readS (alone { regs [(1, 0x3FF800), (2, 4)] with mregs := [(1, 3)] }).leaf 2).toInt = 4 := by decide +kernel
    show (0 : Int) ≤ _ + (j : Int) * (Machine.readS (alone { regs [(1, 0x3FF800), (2, 4)] with mregs := [(1, 3)] }).leaf 2).toInt
    rw [h]; omega⟩
/-- Two enabled lanes of a scatter that name different words, and lanes of a store. -/
theorem witness_SheetStores :
    let s := acting { regs [] with vregs := [(1, 0x0000000400000000)], mregs := [(1, 3)] }
    Issues (.psct ⟨2, .reg 0, 1, 1, 0⟩) s ∧ laneOn s 1 0 = true ∧ laneOn s 1 1 = true ∧ laneOn s 1 511 = false
    ∧ elem 32 (Machine.readV s.leaf 1) 0 ≠ elem 32 (Machine.readV s.leaf 1) 1 :=
  ⟨.inl rfl, by decide +kernel, by decide +kernel, by decide +kernel, by decide +kernel⟩
/-- A handle that is FULL, one in ERROR, a FREE one, and offsets at and past the end. -/
def handled : Leaf :=
  { regs [(1, 60), (2, 0x1000), (3, 0x40001)] with
      handles := [(1, { Handle.reset with cfg := true, recto := 0x1000, verso := 0x2000, len := 64 }),
                  (2, { Handle.reset with cfg := true, len := 64, ecause := 0x18, detail := 8, fva := 9 })], run := some 1 }
theorem witness_RectoLoads :
    let s := alone handled
    let f : PLdh := ⟨4, 1, .reg 1, 5, 2, true, 0⟩
    Issues (.pldh f) s ∧ Issues (.pldhV ⟨4, 1, .reg 0, 5, 0⟩) (acting handled)
    ∧ (Instr.pldh f).ctxIllegal (decodeCtx s) = false ∧ (getHandle s.leaf 0).cfg = false ∧ (getHandle s.leaf 2).ecause ≠ 0
    ∧ (getHandle s.leaf 1).len < (readSrc s.leaf (.reg 1) + (1 : BitVec 23).setWidth 64).toNat + 2 ^ 2
    ∧ (Instr.pldhV ⟨4, 1, .reg 0, 5, 0⟩).ctxIllegal (decodeCtx s) = false ∧ (getHandle s.leaf 1).len < 0 + 2048 :=
  ⟨.inr (by decide +kernel), .inl rfl, by decide +kernel⟩

/-- Loads, stores and atomics at aligned addresses on their own; addresses one off; a full log. -/
def full : List LogEntry := (List.range 32).map fun k => entry k (64 * k) (.store false false)
theorem witness_GlobalLoadsAndStores :
    Issues (.gld ⟨3, .reg 2, 12, 3, false, true, 0x1FFF⟩) (alone handled)
    ∧ Issues (.gst ⟨3, .reg 2, 0, true, 0x2000⟩) (alone handled)
    ∧ Issues (.gldv ⟨3, .reg 2, 12, 1⟩) (alone handled) ∧ Issues (.gstv ⟨3, .reg 2, 1⟩) (alone handled) :=
  ⟨.inr (by decide +kernel), .inr (by decide +kernel), .inr (by decide +kernel), .inr (by decide +kernel)⟩
theorem witness_AtomicsEnterLog :
    Issues (.acas ⟨3, .reg 2, 12, true, false, true, .reg 1, .reg 0⟩) (alone handled)
    ∧ Issues (.aadd ⟨0, .reg 2, 0, false, false, false, .reg 1⟩) (alone handled) :=
  ⟨.inr (by decide +kernel), .inr (by decide +kernel)⟩
theorem witness_AtomicResults : 0xFFFFFFFF < 2 ^ (8 * 4) ∧ 0xFFFFFFFFFFFFFFFF < 2 ^ (8 * 8) := by decide
/-- R88, R244: 1 + 2^-24 is inexact in FP32, and infinity less infinity is invalid. -/
theorem test_afadd_flags : (atomValue 1 4 false 0 0x3F800000 0x33800000 0).2 = fInexact
    ∧ (atomValue 1 4 false 0 0x7F800000 0xFF800000 0).2 = fInvalid := by decide +kernel
theorem witness_GlobalAccessesTrapOrFreeze :
    let s := alone { handled with olog := full }
    let v := { handled with olog := (List.range 8).map fun k => entry k (64 * k) (.store true false) }
    s.phase = .alone
    ∧ ([.gld ⟨3, .reg 3, 12, 1, false, false, 0⟩, .gst ⟨3, .reg 3, 1, false, 0⟩, .gldv ⟨3, .reg 3, 12, 0⟩, .gstv ⟨3, .reg 3, 0⟩,
         .aadd ⟨3, .reg 1, 12, true, false, false, .reg 1⟩] : List Instr).all (fun i => !i.ctxIllegal (decodeCtx s)) = true
    ∧ (readSrc s.leaf (.reg 3)).toNat % 2 ^ 1 ≠ 0 ∧ (readSrc s.leaf (.reg 3)).toNat % 64 ≠ 0
    ∧ (readSrc s.leaf (.reg 1)).toNat % 8 ≠ 0 ∧ (readSrc s.leaf (.reg 2)).toNat % 64 = 0 ∧ s.leaf.level = .ordinary
    ∧ 32 ≤ ((logOf s.leaf).filter fun e => !e.op.noEntry).length
    ∧ 8 ≤ ((v.olog ++ v.tlog).filter fun e => e.op.isVecStore).length := by decide +kernel

theorem witness_ConvertAndTranspose :
    (Instr.xcvt ⟨1, false, 2, 0, 9, 7⟩).wf = true ∧ (Instr.xcvt ⟨1, false, 2, 9, 0, 7⟩).wf = true
    ∧ (Instr.xtrn ⟨1, false, 2, 2, 11⟩).wf = true ∧ (Instr.xtrn ⟨1, false, 2, 0, 0⟩).wf = true := by decide
theorem witness_PackAndUnpack : (Instr.xpack ⟨1, false, 2, 0, 6, 3⟩).wf = true ∧ (Instr.xunpk ⟨1, false, 2, 5, 0, 1⟩).wf = true := by
  decide
/-- A table of the generation wanted, and tables that are too short, absent or in ERROR. -/
theorem witness_ExpandFromTables :
    let s := alone handled
    let f : XExp := ⟨40, false, 30, 1, 0, 0, 0⟩
    (Instr.xexp f).wf = true ∧ Issues (.xexp f) (acting handled) ∧ (getHandle s.leaf 1).gen = (Machine.readS s.leaf 0).setWidth 32
    ∧ (getHandle s.leaf 1).taint = [] ∧ s.phase = .alone ∧ (Instr.xexp f).ctxIllegal (decodeCtx s) = false
    ∧ (((getHandle s.leaf 1).gen - 0).toNat < 2 ^ 31 ∧ (getHandle s.leaf 1).len < ((0 * 512 + 512 - 1) / 128 + 1) * 32)
    ∧ (getHandle s.leaf 0).cfg = false ∧ (getHandle s.leaf 2).ecause ≠ 0 :=
  ⟨by decide, .inl rfl, by decide +kernel⟩

/-- A press buffer of four 2,048-byte entries with one Filled entry, and formats that MMA takes and refuses. -/
def pressing (fmt : BitVec 32) : Leaf :=
  { regs [(1, 8)] with
      fmt := fmt, run := some 1,
      bufs := [(0, { Buf.reset with base := 0x20000, e := 2048, cap := 4, ents := [(0, .filled)] }),
               (1, { Buf.reset with base := 0x30000, e := 64, cap := 4095, leafMode := true })] }
theorem witness_PressOperationsEnqueue :
    Issues (.mma ⟨3, 0, .buf 0, .feed 1, 3, 0, false, true⟩) (alone (pressing 0x821))
    ∧ Issues (.mmaz ⟨4, 2, .buf 0, 0, 2, true, false⟩) (alone (pressing 0x821))
    ∧ Issues (.accz ⟨13, 0, false⟩) (alone (pressing 0x821)) ∧ Issues (.accwr ⟨13, 1, true, 0, false⟩) (alone (pressing 0x821))
    ∧ Issues (.epi ⟨3, 0, 0, false, 3, true⟩) (alone (pressing 0x821)) :=
  ⟨.inr (by decide +kernel), .inr (by decide +kernel), .inr (by decide +kernel), .inr (by decide +kernel), .inr (by decide +kernel)⟩
theorem witness_PressChecks :
    let s := alone (pressing 0x821)
    let code := fun (v : BitVec 32) => (v.extractLsb' 0 5).toNat
    s.phase = .alone ∧ (Instr.mma ⟨3, 0, .buf 0, .feed 1, 4, 0, false, true⟩).ctxIllegal (decodeCtx s) = false
    ∧ (code 0xA = 10 ∨ code 0xA = 11) ∧ pairOk 1 0 = false ∧ pairOk 1 1 = true ∧ (getBuf s.leaf 0).cap < 4 + 1
    ∧ (getBuf s.leaf 1).leafMode = true ∧ (getBuf s.leaf 2).cap = 0
    ∧ (Instr.epi ⟨3, 1, 0, false, 3, true⟩).ctxIllegal (decodeCtx s) = false ∧ (Machine.readS s.leaf 1).toNat % 16 ≠ 0 := by
  decide +kernel
theorem witness_TileReads : Issues (.accrd ⟨13, 1, true, 0⟩) (alone (pressing 0)) ∧ tileBusy (alone (pressing 0)).leaf 13 = false
    ∧ (2 : BitVec 2) ≠ 3 := ⟨.inr (by decide +kernel), by decide +kernel, by decide⟩
theorem witness_BufferInstructions :
    let s := acting (pressing 0)
    (getBuf s.leaf 0).fill < (getBuf s.leaf 0).cap ∧ (getBuf s.leaf 0).drain < (getBuf s.leaf 0).cap
    ∧ (getBuf s.leaf 0).ent (getBuf s.leaf 0).drain = .filled ∧ (getBuf s.leaf 0).taint = []
    ∧ (getBuf s.leaf 0).lapped = [] := by decide +kernel
/-- A ring of four entries: one Void, one Written behind it, one Reserved, and one for QPUT; and one that QGET passes over. -/
def ring (e : Ent) (fill : Nat) : Buf := ⟨0, 64, 4, true, false, fill, 1, [(1, .void), (2, e)], [], [], []⟩
theorem witness_BufferInstructions_ring :
    let b := ring .written 3
    let r := ring .reserved 3
    let g := ring .filled 3
    b.faulted = false ∧ b.drain < b.cap ∧ (b.fill + b.cap - b.drain) % b.cap = 2 ∧ b.ent 1 = .void ∧ b.ent 2 = .written ∧ r.ent 2 = .reserved
    ∧ g.taint = [] ∧ g.lapped = [] ∧ 1 < g.cap ∧ g.ent ((g.drain + 0) % g.cap) = .void ∧ g.ent ((g.drain + 1) % g.cap) = .filled := by decide +kernel
theorem witness_BufferStatusAndFeeds : (getBuf (pressing 0) 1).cap < 4096
    ∧ (getBuf (pressing 0) 1).ents.length ≤ (getBuf (pressing 0) 1).cap ∧ (getBuf (pressing 0) 1).drain < 4096 := by decide +kernel

/-- The sewing unit as in chapter 13's example; its step 0 passes, and steps whose bond, M, P or size is wrong fail. -/
theorem witness_SewingOperationsEnqueue :
    let l := sewing 4
    Issues (.sew ⟨0, 0, 1, 3, 3, false, 0, false⟩) (alone l)
    ∧ stepFails (shapeOf l.sewShape) ⟨0, 4, 4, 1, 4, false⟩ l.sewCfg.cap = none
    ∧ Issues (.sewrun ⟨6, 7, 5, true⟩) (alone l) ∧ (Machine.readS l 6).toNat + 16 * ((Machine.readS l 7).toNat % 2 ^ 32) ≤ 0x400000 ∧ (alone l).prog = none
    ∧ Issues (.sewst ⟨0, 0, 0, false⟩) (alone l) :=
  ⟨.inr (by decide +kernel), by decide +kernel, .inr (by decide +kernel), by decide +kernel, rfl, .inr (by decide +kernel)⟩
theorem witness_SewingPreCheckTraps :
    let s := alone { sewing 4095 with sewShape := 0x0008200000400010 }
    let x := shapeOf s.leaf.sewShape
    s.phase = .alone ∧ (Instr.sew ⟨0, 0, 1, 3, 3, false, 0, false⟩).ctxIllegal (decodeCtx s) = false
    ∧ sewPairCause s.leaf.fmt = none ∧ s.leaf.sewCfg.cap ≠ 0 ∧ (Machine.readS s.leaf 0).toNat % 64 = 0
    ∧ (readBond s.leaf 1).toNat ≠ x.d ∧ (readBond s.leaf 0).toNat = x.d ∧ x.u % 3 ≠ 0 ∧ x.u % 4 = 0 ∧ 32768 < x.p * 5
    ∧ x.p * 4 ≤ 32768 ∧ s.leaf.sewCfg.cap < 4 * x.nb * (x.p * 4) * (x.u / 4) * (readBond s.leaf 2).toNat := by decide +kernel
theorem witness_SewingConfiguration :
    let l := { sewing 4 with sregs := [(1, 0x4000), (2, 0x10000), (3, 0x14000), (4, 0x0008000100400010), (5, 4095)] }
    Issues (.sewcfg ⟨2, 3, 0, 4⟩) (acting l) ∧ (Machine.readS l 0).toNat % 2 ^ 32 = 0
    ∧ Issues (.sewcfg ⟨2, 3, 1, 4⟩) (alone l) ∧ (Machine.readS l 1).toNat % 2 ^ 32 ≠ 0 ∧ l.sewq = []
    ∧ 1 ≤ (Machine.readS l 5).toNat % 65536 ∧ (Machine.readS l 5).toNat % 65536 ≤ 4095 :=
  ⟨.inl rfl, by decide +kernel, .inr (by decide +kernel), by decide +kernel, rfl, by decide +kernel, by decide +kernel⟩

/-- A leaf with shelf 2 configured. -/
def shelved : Leaf := { handled with shelves := [(2, { shelf2 with cfg := some shelfCfg2 })], mregs := [] }
theorem witness_SignatureOperationsEnqueue :
    Issues (.sins ⟨2, 11, 1, 0, false⟩) (alone shelved) ∧ Issues (.sage ⟨2, 0, false⟩) (alone shelved)
    ∧ Issues (.sdel ⟨2, 1, 0, false⟩) (alone shelved) ∧ Issues (.ssel ⟨2, 12, 1, 4, true⟩) (alone shelved)
    ∧ Issues (.srdr ⟨2, 2, 1, 0, false⟩) (alone shelved) ∧ Issues (.shcfg ⟨2, 2, 0, false⟩) (acting shelved)
    ∧ (acting shelved).prog = none ∧ Settled (acting shelved) [((Machine.readS shelved 2).toNat, 64)] :=
  ⟨.inr (by decide +kernel), .inr (by decide +kernel), .inr (by decide +kernel), .inr (by decide +kernel),
   .inr (by decide +kernel), .inl rfl, rfl, by unfold Settled; decide +kernel⟩
theorem witness_ShelfStatus :
    let x := getShelf shelved 2
    x.taint = [] ∧ (x.rows.filter Row.inSpill).length < 2 ^ 25 ∧ (x.rows.filter Row.inArray).length < 2 ^ 14
    ∧ (x.rows.filter Row.inTransit).length < 32 ∧ x.newest = some 9 ∧ (getShelf shelved 0).newest = none := by decide +kernel
theorem witness_SelectionListsTags :
    (shelf2.rows.map fun r => r.tag).Nodup
    ∧ (∃ r ∈ shelf2.rows, eligible shelfCfg2 shelf2.newest r = false) ∧ shelf2.newest.isSome = true
    ∧ ∃ a ∈ shelf2.rows, ∃ b ∈ shelf2.rows, eligible shelfCfg2 shelf2.newest a = true ∧ eligible shelfCfg2 shelf2.newest b = true
        ∧ b.tag.toNat ∈ selectTags shelfCfg2 shelf2 0xFFFF ∧ ¬a.tag.toNat ∈ selectTags shelfCfg2 shelf2 0xFFFF
        ∧ score shelfCfg2 0xFFFF a = score shelfCfg2 0xFFFF b := by decide +kernel

/-- Copies that pass the checks of issue, and each check failing where the ones before it pass. -/
def copying : Leaf :=
  { handled with sregs := [(1, 64), (2, 1), (3, 128), (4, 0x100000001), (5, 65)], bufs := (pressing 0).bufs }
theorem witness_CopiesEnterTheBuffer :
    Issues (.copy ⟨1, 0, 0, 1, 0, 2, true, true, true, false⟩) (alone copying)
    ∧ Issues (.copyout ⟨1, 1, 0, 1, 0, 0, false, false, true⟩) (alone copying)
    ∧ Issues (.copyh ⟨1, 1, 3, 1, 0, 0, false, false, false⟩) (alone copying)
    ∧ Issues (.copy2 ⟨1, 0, 0, 1, 0, 2, true, true, true, false⟩) (acting copying)
    ∧ Issues (.copyq ⟨0, 1, 2, 0, 0, 0, false, false⟩) (alone { copying with bufs := [(0, { (getBuf copying 0) with ents := [] })] })
    ∧ (getBuf copying 0).cap ≠ 0 ∧ 4 ≤ (getBuf copying 0).cap ∧ (getBuf copying 0).fill < (getBuf copying 0).cap :=
  ⟨.inr (by decide +kernel), .inr (by decide +kernel), .inr (by decide +kernel), .inl rfl, .inr (by decide +kernel),
   by decide +kernel, by decide +kernel, by decide +kernel⟩
/-- A copy of leaf 0. -/
def aCopy (id : Nat) (released : Bool) : Copy :=
  { id := id, leaf := 0, form := .copy 1 0x8000 0 64, region := 0x2000, stamp := 5, tok := some 2, publ := true, imp := false,
    trapf := true, impose := 0, po := 1, atTrap := false, released := released, started := false, record := none, done := 0,
    fault := none, service := none, order := 0, mates := [], wild := [] }
theorem witness_CopyChecks :
    let s := alone copying
    let h := getHandle s.leaf 1
    let r := fun k => (Machine.readS s.leaf k).toNat
    let odd := fun (x : Word) => decide (x.toNat % 64 ≠ 0)
    s.phase = .alone ∧ (Instr.copy ⟨1, 0, 0, 1, 0, 2, true, true, true, false⟩).ctxIllegal (decodeCtx s) = false
    ∧ (Instr.copy2 ⟨1, 0, 0, 1, 0, 2, true, true, true, false⟩).ctxIllegal (decodeCtx s) = false
    ∧ (Instr.copyq ⟨0, 1, 2, 0, 0, 0, false, false⟩).ctxIllegal (decodeCtx s) = false
    ∧ (Instr.copyh ⟨1, 1, 3, 1, 0, 0, false, false, false⟩).ctxIllegal (decodeCtx s) = false
    ∧ (Instr.copyout ⟨1, 1, 3, 1, 0, 0, false, false, false⟩).ctxIllegal (decodeCtx s) = false
    ∧ (getHandle s.leaf 0).cfg = false ∧ (getHandle s.leaf 2).ecause ≠ 0 ∧ h.len < r 0 + r 3 ∧ ¬(h.len < r 0 + r 1)
    ∧ h.cfg = true ∧ h.ecause = 0 ∧ [Machine.readS s.leaf 1, Machine.readS s.leaf 2].find? odd = some (Machine.readS s.leaf 2)
    ∧ odd (Machine.readS s.leaf 1) = false ∧ odd 65 = true
    ∧ s.dtc.toNat + 2 ^ 32 < (Machine.readS s.leaf 4).toNat ∧ copiesFull s = false
    ∧ copiesFull { s with quires := [(0, { Quire.reset with copies := List.replicate 32 (aCopy 3 false) })] } = true
    ∧ (getBuf s.leaf 2).cap = 0 ∧ (getBuf s.leaf 0).cap ≠ 0 ∧ (getBuf s.leaf 0).cap < r 3 ∧ r 2 ≤ (getBuf s.leaf 0).cap
    ∧ (getBuf s.leaf 0).ent (((getBuf s.leaf 0).fill + 0) % (getBuf s.leaf 0).cap) ≠ .free := by
  decide +kernel
theorem witness_HandleInstructions :
    (acting handled).phase = .effect ∧ (getHandle (acting handled).leaf 1).ecause = 0
    ∧ Issues (.hrel ⟨1⟩) (alone handled) ∧ Issues (.hcfg ⟨5, 2, 0, 0⟩) (acting handled)
    ∧ Issues (.hstat ⟨3, 2, true⟩) (alone handled)
    ∧ (getHandle handled 2).ecause < 256 ∧ (getHandle handled 2).detail < 32 ∧ (getHandle handled 2).drain < 128
    ∧ (getHandle handled 2).fill < 128 :=
  ⟨rfl, by decide +kernel, .inr (by decide +kernel), .inl rfl, .inr (by decide +kernel), by decide +kernel⟩

/-- Two copies of leaf 0, one released. -/
def withCopies (l : Leaf) : State :=
  { inRun l with quires := [(0, { Quire.reset with copies := [aCopy 3 false, aCopy 4 true] })] }
theorem witness_CancelledCopies :
    Issues (.ccancel ⟨.all⟩) (withCopies handled) ∧ ((getQuire (withCopies handled) (quireOf 0)).copies.map fun c => c.id).Nodup
    ∧ (getHandle (withCopies handled).leaf 1).deferred = false := ⟨.inl rfl, by decide +kernel, by decide +kernel⟩

/-- A reading that succeeds has a value, and one that fails an error. -/
def succeeds {α β : Type} : Except β α × State → Bool
  | (.ok _, _) => true
  | (.error _, _) => false
theorem value_of_succeeds {α β : Type} (r : Except β α × State) (h : succeeds r = true) : ∃ x u, r = (.ok x, u) := by
  obtain ⟨e | x, u⟩ := r
  · cases h
  · exact ⟨x, u, rfl⟩
theorem error_of_fails {α β : Type} (r : Except β α × State) (h : succeeds r = false) : ∃ e u, r = (.error e, u) := by
  obtain ⟨e | x, u⟩ := r
  · exact ⟨e, u, rfl⟩
  · cases h

def gives {α β : Type} (r : Except β α × State) (p : α → Bool) : Bool := match r with
  | (.ok x, _) => p x
  | (.error _, _) => false

def bytesAt (l : List (Nat × Nat × Nat)) : Memory :=
  l.foldl (fun m x => (List.range x.2.1).foldl (fun m i => memSet m (memKey 0 (canonAddr (x.1 + i))) (BitVec.ofNat 8 (x.2.2 / 256 ^ i))) m) []

/-- Tables from 0x10000 on whose last entry, that of page 0, is `e`; frame 0x20000 holds data. -/
def mappedTo (e : Nat) : Memory :=
  bytesAt [(0x10000, 8, 0x110001), (0x11000, 8, 0x120001), (0x12000, 8, 0x130001), (0x13000, 8, 0x140001),
           (0x14000, 8, 0x150001), (0x15000, 8, e), (0x20000, 8, 0x8877665544332211)]
/-- Page 0 in frame 0x20000, with every permission; page 5 is not mapped. -/
def mapped : Memory := mappedTo 0x20006F
def inMapped (l : Leaf) (r : Run := run1) : State := { inRun l r with mem := mapped }

def withBundle (l : Leaf) (i : Instr) : State :=
  { inRun l with quires := [(0, { Quire.reset with imem := [(l.pc.toNat, (encode i).getD 0)] })], node := (alone .reset).node }

/-- Tokens and phases that have come, that have just not come, and one half the phase numbers away. -/
theorem witness_ParkedLeavesResume_tokens_phases :
    let s := fun w => inRun { Leaf.reset with wait := w, toks := [(3, 5)] }
    (∀ w, issuing (getLeaf (s w) 0) = true ∧ stopping (s w) 0 = false) ∧ 5 ≤ (readTok (getLeaf (s (.tokens 3 5)) 0) 3).toNat
    ∧ (readTok (getLeaf (s (.tokens 3 6)) 0) 3).toNat < 6
    ∧ (let d := fun p => ((getKettle (kettles .alone) (clusterOf 0) 0).phase - p).toNat
       (1 ≤ d 0 ∧ d 0 < 2 ^ 31) ∧ d 1 = 0 ∧ 2 ^ 31 ≤ d 0x80000001) :=
  ⟨fun _ => ⟨rfl, rfl⟩, by decide +kernel, by decide +kernel, by decide +kernel⟩
/-- An HREL of a handle with an outstanding fill waits at issue; with none it goes on. A landing awaits its data, or not. -/
theorem witness_ParkedLeavesResume_issue_freeze :
    let busy := { handled with handles := [(1, { Handle.reset with cfg := true, fill := 1 })], wait := .atIssue }
    let late := fun w => withBundle { handled with wait := .late false, inflight := [⟨0, .s 1, 0, 0, none, 0, 4, 0, w⟩] } (.hrel ⟨1⟩)
    issueClear (withBundle { handled with wait := .atIssue } (.hrel ⟨1⟩)) 0 = true ∧ issueClear (withBundle busy (.hrel ⟨1⟩)) 0 = false
    ∧ freezeClear (late none) 0 = true ∧ freezeClear (late (some 9)) 0 = false := by decide +kernel

/-- A freeze of LIMIT cycles, of one less, a stall of a whole cluster, and 65,536 bundles. -/
def frozen (limit : Word) (n k : Nat) : State :=
  { inRun { Leaf.reset with freezeLimit := limit } with
      leaves := [(0, { Leaf.reset with run := some 1, freezeLimit := limit }), (1, { Leaf.reset with run := some 1 })],
      quires := [(0, { Quire.reset with freeze := n, selCount := k })] }
theorem witness_FreezesStallsAndSelector :
    (getLeaf (frozen 1 64 0) 0).freezeLimit.toNat % 65536 ≠ 0 ∧ (getLeaf (frozen 1 64 0) 0).level = .ordinary
    ∧ leafReady (frozen 1 64 0) 0 = true ∧ max 64 1 ≤ (getQuire (frozen 1 64 0) 0).freeze
    ∧ (getQuire (frozen 1 63 0) 0).freeze < max 64 1
    ∧ (∃ j, j < 8 ∧ ((getQuire (frozen 1 64 0) (8 * 0 + j)).gsync ≠ .stalled ∨ gsyncIssues (frozen 1 64 0) (8 * 0 + j) = false))
    ∧ (getQuire (frozen 1 0 65536) 0).sel < 4 ∧ 65536 ≤ (getQuire (frozen 1 0 65536) 0).selCount
    ∧ (getQuire (frozen 1 0 65536) 0).last = (getQuire (frozen 1 0 65536) 0).sel
    ∧ (getLeaf (frozen 1 0 65536) 0).level = .ordinary ∧ (getQuire (frozen 1 0 65536) 0).freeze = 0
    ∧ (getQuire (frozen 1 0 65536) 0).gsync = .idle ∧ leafReady (frozen 1 0 65536) (4 * 0 + 1) = true
    ∧ (getQuire (frozen 1 0 65535) 0).selCount < 65536 ∧ (getQuire (frozen 1 64 0) 0).freeze ≠ 0 := by decide +kernel
/-- All eight quires of cluster 0 stalled at a bundle of one BR with its GSYNC bit. -/
def stalled : State :=
  { inRun .reset with
      leaves := (List.range 8).map fun j => (4 * j, { Leaf.reset with run := some 1 })
      quires := (List.range 8).map fun j =>
        (j, { Quire.reset with gsync := .stalled, imem := [(0, (encode (.br ⟨4⟩)).getD 0 ||| 0x1000)] })
      node := (alone .reset).node, phase := .alone }
theorem witness_GsyncLine : ∀ j, j < 8 → (getQuire stalled (8 * 0 + j)).gsync = .stalled ∧ gsyncIssues stalled (8 * 0 + j) = true := by
  decide +kernel

theorem witness_AsynchronousCausesAreTaken :
    let t : Trap := { cause := .copyFault, async := true, op := 4 }
    let l := { vectored with run := some 1, asyncPend := [t] }
    l.run ≠ none ∧ l.exited = false ∧ l.level = .ordinary ∧ l.rteDue = false ∧ l.wait = .none ∧ l.blocked = false
    ∧ lateStore l.olog = none ∧ (∀ d, lateLoad l.inflight d l.olog = none) ∧ l.swPend = none ∧ l.asyncPend = t :: []
    ∧ t.fvaOpen = false ∧ t.cause ≠ .formatEmul ∧ t.cause ≠ .boundaryOverflow ∧ l.trapVec.getLsbD 12 = true
    ∧ Leaf.reset.run = none ∧ vectored.asyncPend = [] := by decide

/-- A load of sheet 1 waits for it; sheet 2 is not needed. -/
theorem witness_SheetsBecomeResident :
    let s := withBundle { handled with sregs := [(1, 0x8000)] } (.pld ⟨4, .reg 1, 5, 2, false, 0⟩)
    let here := resident (getQuire s (quireOf 0)) 0
    here 1 = false ∧ (bundleNeeds s 0).find? (fun k => !here k) = some 1
    ∧ ¬(here 2 = false ∧ ((bundleNeeds s 0).find? (fun k => !here k) = some 2 ∨ (engineNeeds (getLeaf s 0)).contains 2 = true)) := by
  decide +kernel

/-- A segment of one bundle at virtual address 0, and one at an address nothing maps. -/
def overlay (va : Word) : Run := { run1 with segs := [⟨10, 1, va⟩] }
theorem witness_SegmentsLoad :
    let s := fun va => inMapped { Leaf.reset with wait := .segment 0 } (overlay va)
    (getLeaf (s 0) 0).wait = .segment 0 ∧ leafRun (s 0) 0 = some (overlay 0) ∧ (overlay 0).segs[0]? = some ⟨10, 1, 0⟩
    ∧ stopping (s 0) 0 = false ∧ segmentHeld (s 0) 0 (overlay 0).segs 0 = false
    ∧ (getQuire (s 0) (quireOf 0)).segs.contains 0 = false
    ∧ succeeds (readVirt (s 0) (spineReader (s 0)) 5 0x10000 false .x 0 (64 * 1)) = true
    ∧ succeeds (readVirt (s 0x5000) (spineReader (s 0x5000)) 5 0x10000 false .x 0x5000 (64 * 1)) = false
    ∧ (overlay 0).pkt.service = false := by decide +kernel

theorem witness_WalkReachesTheFrame :
    let s := inMapped .reset
    let T := fun k => 0x15000 - 0x1000 * k
    let e : Nat → Word := fun k => if k = 0 then 0x20006F else BitVec.ofNat 64 (((0x16 - k) <<< 16) + 1)
    let w := e 0
    0 < 2 ^ 64 ∧ s.hist = [] ∧ s.freeMem = [] ∧ (spineReader s).core = none
    ∧ (∀ k, k ≤ 5 → T k < 0x00C0_0000_0000 ∧ T k % 4096 = 0
        ∧ memRead s.mem (memKey s.node.package.toNat (canonAddr (T k + 8 * (0 / 2 ^ (12 + 9 * k) % 512)))) 8 = natBytes (e k).toNat 8)
    ∧ (∀ k, k < 5 → (e (k + 1)).getLsbD 0 = true ∧ (e (k + 1)).extractLsb' 1 3 = 0 ∧ (e (k + 1)).extractLsb' 5 9 = 0
        ∧ (e (k + 1)).extractLsb' 52 8 = 0 ∧ T k = ((e (k + 1)).extractLsb' 16 36).toNat * 4096)
    ∧ w.getLsbD 0 = true ∧ w.getLsbD 1 = true ∧ w.getLsbD 5 = true ∧ w.extractLsb' 7 2 = 0 ∧ w.extractLsb' 10 2 = 0
    ∧ w.getLsbD 59 = false ∧ (w.extractLsb' 16 36).toNat * 4096 < 0x00C0_0000_0000 ∧ (0 : Word).getLsbD 0 = false := by
  decide +kernel

/-- A load at address 0 in the log, before its walk; watched in the second state; at an address nothing maps in the third. -/
def logged (e : LogEntry) (ctl : Word := 0) : State := inMapped { Leaf.reset with olog := [e], watchAddr := 0, watchCtl := ctl }
theorem witness_WalksSettleLogEntries :
    let e := entry 1 0 (.load false false false)
    let x := entry 1 0x5000 (.load false false false)
    findEntry (getLeaf (logged e) 0) 1 = some (false, [e], e) ∧ leafRun (logged e) 0 = some run1 ∧ e.stage = .walk
    ∧ e.op.isMark = false ∧ e.op ≠ .tlbinv ∧ e.op ≠ .task ∧ behindTlbinv [e] e = false ∧ (getLeaf (logged e) 0).exited = false
    ∧ run1.pkt.service = false ∧ ((getLeaf (logged e) 0).olog ++ (getLeaf (logged e) 0).tlog).all (fun y => !y.stage.waitsFor 1) = true
    ∧ succeeds (translateKinds (logged e) (entryReader (getLeaf (logged e) 0) 0 e) run1 false (pageSplit 0 8) (entryKinds e.op)) = true
    ∧ watched (getLeaf (logged e) 0) e = false ∧ watched (getLeaf (logged e 3) 0) e = true
    ∧ succeeds (translateKinds (logged x) (entryReader (getLeaf (logged x) 0) 0 x) run1 false (pageSplit 0x5000 8) (entryKinds x.op))
        = false := by decide +kernel

/-- A store to a KEYED page, which is refused after its translation, through the cache or afresh; one that may go on; and a
load that waits for the bytes of an older access. -/
theorem witness_WalksSettleLogEntries_refusals :
    let e := entry 1 0 (.store false false)
    let ps := pageSplit 0 8
    let tr := fun (s : State) b => translateKinds s (entryReader (getLeaf s 0) 0 e) run1 b ps (entryKinds e.op)
    let s := { logged e with mem := mappedTo 0x20206F }
    gives (tr s false) (fun ts => (writeRefused e.op (ps.zip ts)).isSome) = true
    ∧ gives (tr s true) (fun ts => (writeRefused e.op (ps.zip ts)).isSome) = true
    ∧ gives (tr (logged e) false) (fun ts => (writeRefused e.op (ps.zip ts)).isNone) = true
    ∧ waitsForBytes [entry 0 4 (.store false false), entry 1 0 (.load false false false)] (entry 1 0 (.load false false false)) = true
    ∧ waitsForBytes [e] e = false := by decide +kernel

def toFrame : Trans := ⟨0x20000, 0, false, false, 0, false, 0, 4096, false⟩
theorem witness_AccessesPerform :
    let e := fun op => entry 1 0 op (.ready [toFrame])
    let s := fun op => logged (e op)
    (∀ op ∈ [LogOp.load false true true, .store false true, .atom 8 true false true 0],
        findEntry (getLeaf (s op) 0) 1 = some (false, [e op], e op) ∧ entryHeld (s op).node.package.toNat [e op] (e op) = false
        ∧ aliasHeld (s op) 0 [e op] (e op) = false ∧ ∀ w ∈ (s op).hist, unobserved (getLeaf (s op) 0) 0 0 w = false)
    ∧ (e .drain).size = 8 ∧ (e .drain).va.toNat % 8 = 0 ∧ toFrame.pa % 8 = 0 ∧ (logged (e .drain)).hist = []
    ∧ (logged (e .drain)).freeMem = [] := by decide +kernel

/-- 128 bytes that cross from one page to the next, which lies in another frame. -/
theorem witness_VectorAccessesPerform :
    let ts := [{ toFrame with pa := 0x20FC0 }, { toFrame with pa := 0x50000 }]
    let e := fun op => { entry 1 4032 op (.ready ts) with size := 128 }
    let cells := ((pageSplit 4032 128).zip ts).flatMap fun x =>
      (List.range x.1.2).map fun i => memKey x.2.pkg (canonAddr (x.2.pa + i))
    (∀ op ∈ [LogOp.load true false false, .store true false],
        let s := logged (e op)
        findEntry (getLeaf s 0) 1 = some (false, [e op], e op) ∧ entryHeld s.node.package.toNat [e op] (e op) = false
        ∧ aliasHeld s 0 [e op] (e op) = false ∧ s.hist = [] ∧ s.freeMem = [])
    ∧ cells.length = 128 ∧ cells.Nodup := by decide +kernel

/-- A TLBINV of page 0 waits for the access of entry 7, which was translated before, and for nothing else. -/
theorem witness_ArrivalsAndCuts :
    let e := fun us => { entry 1 0 .tlbinv (.cutting us) with size := 1 }
    let w := { entry 1 0 .tlbinv with size := 1 }
    let s := fun us => inMapped { Leaf.reset with olog := [e us], tlog := [entry 7 8 (.load false false false) (.ready [toFrame])] }
    let l := { Leaf.reset with inflight := [⟨3, .s 1, 0, 0, none, 0, 4, 0, some 9⟩] }
    awaits l 9 = true ∧ findEntry l 9 = none ∧ awaits l 8 = false
    ∧ findEntry (getLeaf (logged w) 0) 1 = some (false, [w], w) ∧ leafRun (logged w) 0 = some run1
    ∧ entryHeld (logged w).node.package.toNat [w] w = false ∧ w.stage = .walk ∧ w.id = 1
    ∧ findEntry (getLeaf (s [7]) 0) 1 = some (false, [e [7]], e [7]) ∧ cutBusy (s [7]) (tlbinvCut (e [7]) run1.asid) 1 [7] = true
    ∧ cutBusy (logged (e [])) (tlbinvCut (e []) run1.asid) 1 [] = false := by decide +kernel
theorem witness_HbmWindows : (0x00BF_FFFF_FFFF : Nat) < 0x00C0_0000_0000 ∧ region (bankLinear 0x00BF_FFFF_FFFF) = .hbm true := by
  decide +kernel

/-- A copy into handle 1 from virtual address 0, or from one that nothing maps, one tick before its stamp or at it. -/
def copyState (c : Copy) (dtc : Word) : State :=
  { inMapped handled with quires := [(0, { Quire.reset with copies := [c] })], dtc := dtc }
theorem witness_CopiesMoveBlocks :
    let c := fun src => { aCopy 4 true with form := .copy 1 src 0 64 }
    let s := fun src => copyState (c src) 5
    findCopy (copyState (aCopy 3 false) 5) 0 3 = some (aCopy 3 false) ∧ (aCopy 3 false).stamp.toNat ≤ (5 : Word).toNat
    ∧ (4 : Word).toNat < (aCopy 3 false).stamp.toNat
    ∧ findCopy (s 0) 0 4 = some (c 0) ∧ leafRun (s 0) 0 = some run1 ∧ copyMoves (s 0) 0 (c 0) = true ∧ runOver run1 = false
    ∧ (c 0).imp = false ∧ (⟨false, true⟩ : BlockOpt).guardOk = true
    ∧ (∀ x ∈ (getLeaf (s 0) 0).wet, (c 0).races x.obs = false) ∧ (c 0).wild = [] ∧ (s 0).hist = [] ∧ (s 0).freeMem = []
    ∧ succeeds (translateSure (s 0) (copyReader (s 0) (c 0)) 5 0x10000 false 0 .r fun x => x.keyed) = true
    ∧ copyMoves (s 0x5000) 0 (c 0x5000) = true
    ∧ succeeds (translateSure (s 0x5000) (copyReader (s 0x5000) (c 0x5000)) 5 0x10000 false 0x5000 .r fun x => x.keyed) = false
    ∧ run1.pkt.service = false := by decide +kernel
/-- A copy that has moved its 64 bytes, one that has not, one that ended with a fault; the last of two fills and of one. -/
theorem witness_CopiesPerform :
    let c := { aCopy 4 true with started := true, done := 64 }
    let f := { aCopy 4 true with started := true, fault := some (.pageFaultR, 0x40) }
    findCopy (copyState c 5) 0 4 = some c ∧ c.form.handle = some 1 ∧ copyDone (copyState { c with done := 63 } 5) 0 { c with done := 63 } = false
    ∧ copyDone (copyState c 5) 0 c = true ∧ copyDone (copyState f 5) 0 f = true ∧ c.atTrap = false
    ∧ (getLeaf (copyState c 5) 0).exited = false ∧ (readTok (getLeaf (copyState c 5) 0) 2).toNat < 0xFFFF
    ∧ (getHandle (getLeaf (copyState c 5) 0) 1).ecause = 0 ∧ (getHandle (getLeaf (copyState c 5) 0) 2).ecause ≠ 0 := by decide +kernel

def mmaOp (id : Nat) (st : PressStage) (pass : Nat) : PressOp :=
  { id := id, form := .mma 3 0 (.feed 0) (.feed 1) true, n := 2, fmt := 7 + 7 * 32, tok := some 2, feedA := (0x1000, 2048),
    feedB := (0x3000, 2048), stage := st, pass := pass, claimA := [], claimB := [], slot := 0, seg := 0, po := 1, taint := [] }
def epiOp (st : PressStage) : PressOp := { mmaOp 5 st 0 with form := .epi 3 true 0 64, fmt := 7 * 1024 }
def pressState (ops : List PressOp) (e : Nat := 0x20006F) : State :=
  { inMapped { Leaf.reset with pq := ops, trapVec := 0x1000 } with
      mem := mappedTo e,
      quires := [(0, { Quire.reset with staging := [(0, ⟨0, 5, List.replicate 1024 7⟩)] })] }
theorem witness_PressOperationsRun :
    let q := mmaOp 4 .queued 0
    let f := mmaOp 4 .fired 1
    let d := mmaOp 4 .fired 2
    let two := pressState [mmaOp 3 .queued 0, q]
    findPress (getLeaf (pressState [q]) 0) 4 = some (false, q) ∧ q.stage = .queued
    ∧ ((earlierOps (queueOf (getLeaf two 0) false) 4).any fun e => e.stage == .queued) = true
    ∧ ((earlierOps (queueOf (getLeaf (pressState [q]) 0) false) 4).any fun e => e.stage == .queued) = false
    ∧ stopping (pressState [q]) 0 = false ∧ stopping { pressState [q] with runs := [{ run1 with preempt := [0] }] } 0 = true ∧ fmtA q.fmt = 7 ∧ q.pass = 0 ∧ q.form = .mma 3 0 (.feed 0) (.feed 1) true
    ∧ f.writes = some 3 ∧ f.stage = .fired ∧ f.pass < f.n ∧ tileOrder [f] f = true ∧ f.formers (getLeaf (pressState [f]) 0) = []
    ∧ (∀ e ∈ (getLeaf (pressState [f]) 0).pq ++ (getLeaf (pressState [f]) 0).tq, e.id ≠ 4 → e.stage = .fired → e.pass = 0 → e.initial = none)
    ∧ completesLater (getLeaf (pressState [d]) 0) d = false ∧ completesLater (getLeaf (pressState [mmaOp 3 .fired 1, d]) 0) d = true
    ∧ fmtA f.fmt = 7 ∧ fmtB f.fmt = 7 ∧ f.fmt.getLsbD 17 = false ∧ d.finished = true ∧ f.finished = false
    ∧ (readTok (getLeaf (pressState [d]) 0) 2).toNat < 0xFFFF := by decide +kernel
/-- The last segment of an EPI, to a page that it may write and to a KEYED one. -/
theorem witness_EpiloguesStageAndStore :
    let o := { epiOp .storing with seg := 31 }
    let tr := fun e => translateSure (pressState [o] e) (engineReader (pressState [o] e) 5 0 1 1) 5 0x10000 false (31 * 64) .w storeBars
    findPress (getLeaf (pressState [epiOp .fired]) 0) 5 = some (false, epiOp .fired) ∧ tileOrder [epiOp .fired] (epiOp .fired) = true
    ∧ fmtOut (epiOp .fired).fmt = 7 ∧ leafRun (pressState [o]) 0 = some run1
    ∧ olderAccess (getLeaf (pressState [o]) 0) false 1 = false
    ∧ (tr 0x20006F).2.hist = [] ∧ (epiSegments o)[31]? = some (31 * 64, 31 * 32, 32)
    ∧ (mapFind (getQuire (pressState [o]) (quireOf 0)).staging 0).map (fun st => st.bytes.length) = some 1024
    ∧ 31 * 32 + 32 ≤ 1024 ∧ 32 ≤ 4096 ∧ run1.pkt.service = false ∧ (getLeaf (pressState [o]) 0).exited = false
    ∧ gives (tr 0x20006F) (fun x => x.cache != 3 && !x.keyed && decide (x.pa % 4096 + 32 ≤ 4096)) = true
    ∧ gives (tr 0x20206F) (fun x => x.keyed && x.cache != 3) = true := by decide +kernel

/-- A step of bond 1, M 2, N 1 and next bond 2 over a 1 × 1 × 2 × 1 boundary. -/
def sewOp : SewOp :=
  { id := 6, form := .steps [⟨0, 2, 1, 1, 2, false⟩], fmt := 7 + 7 * 32 + 7 * 1024, tok := some 2, r0 := 0x1000, r1 := 0x2000, cap := 4096,
    shape := 0x0001000100020011, step := 0, col := 0, fold := some [1, 2], seg := 0, held := false, service := none, po := 1,
    taint := [], lap := [] }
def storeOp : SewOp := { sewOp with form := .store 0 64, fold := none }
def sewState (o : SewOp) (e : Nat := 0x20006F) : State := { inMapped { Leaf.reset with sewq := [o] } with mem := mappedTo e }
theorem witness_SewingStepContracts :
    let X := shapeOf sewOp.shape
    let st : SewStep := ⟨0, 2, 1, 1, 2, false⟩
    (getLeaf (sewState sewOp) 0).sewq = sewOp :: [] ∧ sewOp.held = false ∧ sewOp.service = none ∧ sewOp.current = some st
    ∧ st.back = false ∧ stopping (sewState sewOp) 0 = false ∧ sewOp.taint = [] ∧ sewOp.lap = [] ∧ fmtA sewOp.fmt = 7 ∧ fmtB sewOp.fmt = 7 ∧ sewOp.fmt.getLsbD 17 = false
    ∧ sewOp.fold = some [1, 2] ∧ [1, 2].length = st.dc * st.m ∧ 0 < [1, 2].length ∧ st.dc = X.d ∧ 0 < st.m ∧ 0 < st.dn
    ∧ X.u % st.m = 0 ∧ sewOp.col < st.n * st.dn ∧ X.bad = false ∧ sewOp.col + 1 < st.n * st.dn ∧ 1 + 1 = st.n * st.dn := by
  decide +kernel
theorem witness_FoldsAndBoundariesMove :
    let st : SewStep := ⟨0, 2, 1, 1, 2, false⟩
    let o := { sewOp with fold := none }
    let s := sewState o 0x2000000000C2F
    let d := { sewOp with step := 1 }
    leafRun s 0 = some run1 ∧ o.current = some st ∧ readColumns o st < groupSize st ∧ sewReadsNow (getLeaf s 0) o = true
    ∧ s.hist = [] ∧ s.freeMem = []
    ∧ gives (translateAll s (engineReader s 6 0 1 1) 5 0x10000 false .r (pageSplit 0 (columnBytes o.fmt st)))
        (fun ts => ts.all fun x => x.cache == 3) = true
    ∧ (sewSegments storeOp)[0]? = some (0, 0, 0, 2) ∧ olderAccess (getLeaf (sewState storeOp) 0) false 1 = false
    ∧ stopping (sewState storeOp) 0 = false
    ∧ gives (translateSure (sewState storeOp) (engineReader (sewState storeOp) 6 0 1 1) 5 0x10000 false 0 .w storeBars)
        (fun x => x.cache != 3 && !x.keyed && decide (x.pa % 4096 + 2 ≤ 4096)) = true
    ∧ (translateSure (sewState storeOp) (engineReader (sewState storeOp) 6 0 1 1) 5 0x10000 false 0 .w storeBars).2.hist = []
    ∧ 0 + 2 ≤ (sewRow (getLeaf (sewState storeOp) 0) storeOp 0).1.length
    ∧ d.made = true ∧ o.made = false ∧ (readTok (getLeaf (sewState d) 0) 2).toNat < 0xFFFF := by decide +kernel

def sigOp (f : SigForm) : SigOp := { id := 8, sh := 2, form := f, tok := some 2, held := false, po := 1, taint := [] }
def sigState (f : SigForm) (rows : List Row := shelfRows) : State :=
  inRun { handled with sigq := [sigOp f], shelves := [(2, { shelf2 with cfg := some shelfCfg2, rows := rows })] }
theorem witness_SignatureOperationsTakeEffect :
    let x := fun (s : State) => getShelf (getLeaf s 0) 2
    let old := fun (s : State) (t : BitVec 32) => (x s).rows.any fun r => r.tag == t
    let s := sigState (.sins 0 9)
    let moving := sigState .sage [⟨2, 0, 15, .transit 0xFFFFFF⟩]
    sigHead (getLeaf s 0) false = some (sigOp (.sins 0 9)) ∧ stopping s 0 = false ∧ (sigOp .sage).held = false ∧ (x s).cfg = some shelfCfg2
    ∧ (x s).broken = false ∧ (x s).taint = [] ∧ (sigOp .sage).taint = [] ∧ (readTok (getLeaf s 0) 2).toNat < 0xFFFF
    ∧ old s 9 = true ∧ old s 10 = false ∧ freeArrayRow shelfCfg2 (x s) = some 16
    ∧ (getHandle (getLeaf s 0) 1).ecause = 0 ∧ (getHandle (getLeaf s 0) 1).drain = 0
    ∧ (0x2FFFFFF : Nat) = 0 % 4 * 2 ^ 28 + 2 * 2 ^ 24 + 0x2FFFFFF % 2 ^ 24
    ∧ ((x moving).rows.any fun r => r.loc == .transit (0x2FFFFFF % 2 ^ 24)) = true := by decide +kernel

/-- A full array whose coldest eligible row is tag 1, with a record free and with none. -/
def fullRows : List Row := (List.range 8).map fun i => ⟨BitVec.ofNat 32 (i + 1), 0, if i = 0 then 3 else 9, .array (16 + i)⟩
def tight (n : Nat) : ShelfCfg := { shelfCfg2 with s := 0, w := 0, spillRows := n }
theorem witness_SignatureOperationsTakeEffect_spill :
    let x : Shelf := { shelf2 with rows := fullRows }
    let v : Row := ⟨1, 0, 3, .array 16⟩
    freeArrayRow (tight 64) x = none ∧ (x.rows.map fun r => r.tag).Nodup ∧ (x.rows.any fun r => r.tag == 10) = false
    ∧ v ∈ x.rows ∧ v.inArray = true ∧ eligible (tight 64) (some 10) v = true
    ∧ (∀ r ∈ ⟨10, 0, 15, .array 0⟩ :: x.rows, v.heat < r.heat ∨ v.heat = r.heat ∧ v.tag.toNat ≤ r.tag.toNat)
    ∧ freeRecord (tight 64) x = some 0 ∧ freeRecord (tight 0) x = none ∧ inTransit (sigState .sage fullRows) 0 < 16
    ∧ 16 ≤ inTransit (sigState .sage ((List.range 16).map fun i => ⟨BitVec.ofNat 32 i, 0, 3, .transit i⟩)) 0
    ∧ (getLeaf (sigState .sage) 0).exited = false := by decide +kernel
theorem witness_ShelvesAreConfigured :
    let s := fun (d : ShelfCfg) => sigState (.shcfg d)
    let frames := fun (d : ShelfCfg) => spillFrames (s d) (engineReader (s d) 8 0 1 1) run1 (spillPages d)
    sigHead (getLeaf (s shelfCfg2) 0) false = some (sigOp (.shcfg shelfCfg2)) ∧ stopping (s shelfCfg2) 0 = false
    ∧ tlbinvBefore (getLeaf (s shelfCfg2) 0) false 1 = false ∧ leafRun (s shelfCfg2) 0 = some run1
    ∧ gives (frames (tight 0)) (fun ts => ts.isEmpty && (strayPage [] ts).isNone) = true ∧ (tight 0).rowCount ≠ 0
    ∧ (match frames shelfCfg2 with | (.error _, _) => true | _ => false) = true ∧ strayPage [0, 4096] [toFrame, { toFrame with pa := 0x20100 }] = some 4096
    ∧ (readTok (getLeaf (s shelfCfg2) 0) 2).toNat < 0xFFFF := by decide +kernel

/-- Kettle 0 of cluster 0 with a child: OPEN and waiting for it, with every child counted, closed with a release to be
acknowledged and with none; a kettle that a flip is on its way to. -/
def tree (k : Kettle) (fl : List Flip := []) : State :=
  { inRun .reset with kfiles := [(0, [(0, k)])], arrivals := [⟨9, 1, kettleNo 0 1 0, kettleNo 0 0 0, []⟩], flips := fl }
def parentOf (st : KState) (carr : List Nat) (acks : List (Nat × Nat × Bool)) : Kettle :=
  { Kettle.reset 0 with state := st, child := 1, carr := carr, acks := acks, member := 1, next := 3 }
theorem witness_KettleTreesAdvance :
    let d := kettleNo 0 1 0
    0 < 24 ∧ 255 < 256
    ∧ (((parentOf .closed [d] [(0, 1, false)]).acks.find? fun a =>
          a.1 == 0 && ackDue (getLeaf (tree (parentOf .closed [d] [(0, 1, false)])) 0) a) = some (0, 1, false))
    ∧ (parentOf .closed [d] []).hasParent = false
    ∧ ((tree (parentOf .open_ [] [])).arrivals.find? fun a => a.id == 9) = some ⟨9, 1, d, kettleNo 0 0 0, []⟩
    ∧ kettlePkg (kettleNo 0 0 0) = 0 ∧ kettleCluster (kettleNo 0 0 0) = 0 ∧ kettleIndex (kettleNo 0 0 0) = 0
    ∧ findRun (tree (parentOf .open_ [] [])) 1 = some run1 ∧ run1.places.contains (some 0) = true
    ∧ (parentOf .open_ [] []).carr.length < (parentOf .open_ [] []).child.toNat
    ∧ (parentOf .open_ [d] []).carr.length = (parentOf .open_ [d] []).child.toNat ∧ run1.ending = none
    ∧ flipFor (tree (parentOf .closed [d] [])) 0 0 = none ∧ (∀ e ∈ (parentOf .closed [d] []).carr, kettlePkg e = 0)
    ∧ flipFor (tree { parentOf .closed [] [] with parent := 0x80040003, sent := true } [⟨1, kettleNo 0 0 0, kettleNo 0 4 3, []⟩]) 0 0
        = some ⟨1, kettleNo 0 0 0, kettleNo 0 4 3, []⟩ := by decide +kernel

/-- A kettle and a gathering with this parent that one act of leaf 0 completes. -/
def parented (p : BitVec 32) : State :=
  { kettles .effect with
      runs := [run1]
      kfiles := [(0, [(5, { Kettle.reset 5 with state := .open_, member := 3, next := 3, arrived := 2, parent := p }),
                      (64, { Kettle.reset 64 with state := .open_, count := 1, parent := p })])] }
theorem witness_KettleArrival_parent :
    let s := parented 0x80000041
    let w := parented 0x80010041
    let x := getKettle s 0 64
    ParentReached s 0 run1 x ∧ ¬ParentReached w 0 run1 (getKettle w 0 64) ∧ runOfCluster s 0 = some run1 ∧ x.state = .open_
    ∧ x.carr.length = x.child.toNat ∧ x.arr + 1 = x.count ∧ x.hasParent = true ∧ x.acks = [] ∧ x.sent = false
    ∧ findRun w run1.id = some run1 ∧ run1.ending = none := by
  simp only [ParentReached]; decide +kernel
theorem witness_GatheringMembership_parent :
    let s := parented 0x80000041
    let w := parented 0x80010041
    let x := getKettle s 0 5
    ParentReached s 0 run1 x ∧ ¬ParentReached w 0 run1 (getKettle w 0 5) ∧ runOfCluster w 0 = some run1
    ∧ x.state = .open_ ∧ x.arrived.getLsbD 0 = false ∧ x.carr.length = x.child.toNat ∧ x.arrived = (x.member &&& ~~~(1 : BitVec 32))
    ∧ x.arrived ≠ 0 ∧ x.hasParent = true ∧ x.acks = [] ∧ x.sent = false := by
  simp only [ParentReached]; decide +kernel

/-- A flip on its way to package 1, which is there or is not. -/
def awayFlip : Flip := ⟨1, kettleNo 1 0 0, kettleNo 0 0 0, []⟩
theorem witness_KettleTreesAdvance_away :
    let s := tree (parentOf .open_ [] []) [awayFlip]
    let n := { s with node := { s.node with domain := 2, fabric := true, accept := 0x3FF } }
    flipFor s 0 0 = none ∧ flipAway s 0 0 = some awayFlip ∧ remoteReachable s (kettlePkg awayFlip.dst) = false
    ∧ flipFor n 0 0 = none ∧ flipAway n 0 0 = some awayFlip ∧ remoteReachable n (kettlePkg awayFlip.dst) = true
    ∧ findRun s 1 = some run1 ∧ run1.ending = none ∧ (parentOf .open_ [] []).acks = []
    ∧ flipFor (tree (parentOf .open_ [] [])) 0 0 = none ∧ flipAway (tree (parentOf .open_ [] [])) 0 0 = none := by decide +kernel

/-- A run of priority 1 waits for a cluster while one of priority 0 holds all of the first half. -/
def waiting : Run := { run1 with id := 2, stage := .ready, places := [], pkt := { pkt with prio := 1 } }
def holding : Run := { run1 with places := (List.range 12).map some }
def scheduling (rs : List Run) : State :=
  { State.reset with runs := rs, node := { (alone .reset).node with spine := true, done := true, half := 1 } }
theorem witness_ClustersAreSaved :
    let s := scheduling [holding, waiting]
    let r := { run1 with preempt := [0] }
    spineRuns s = true ∧ served s = some (waiting, false) ∧ victim s waiting.pkt.prio = some holding
    ∧ holding.held.contains 0 = true ∧ holding.preempt = []
    ∧ (freeClusters s).length + stoppingCount s waiting.pkt.prio < waiting.needs.getD 0
    ∧ findRun (scheduling [r]) 1 = some r ∧ r.preempt.contains 0 = true ∧ clusterStill (scheduling [r]) r 0 = true
    ∧ run1.preempt.contains 0 = false
    ∧ (match exec (.preemptRequest 1 0) s with | .next t => decide (t ≠ s) | _ => false) = true := by decide +kernel
def putAway : Run :=
  { run1 with places := [none], saved := [⟨0, 0, List.replicate 8 .reset,
      List.replicate 32 { Leaf.reset with run := some 1, wait := .preempted }, [], [], [], 0⟩] }
theorem witness_ClustersAreSaved_due (j : Nat) : takeDueAt (scheduling [holding, waiting]) (32 * 0 + j) = scheduling [holding, waiting] := rfl
theorem witness_ClustersAreSaved_stays : spineRuns { scheduling [run1] with node := Node.reset } = false
    ∧ findRun (scheduling [run1]) 1 = some run1 ∧ run1.preempt.contains 0 = false
    ∧ (getLeaf (inRun .reset) (32 * 0 + 0)).run = some 1 := by decide +kernel
theorem witness_SavedClustersAreRestored :
    let s := scheduling [putAway]
    spineRuns s = true ∧ served s = some (putAway, true) ∧ putAway.id = 1 ∧ putAway.stage = .placed
    ∧ restorable s putAway [11] = true ∧ (∀ sv ∈ putAway.saved, sv.leaves.length = 32 ∧ areaWritten s putAway sv = false)
    ∧ slotWritten s putAway = false ∧ findRun s 1 = some putAway := by
  decide +kernel

/-- A context block at 0x30000, a descriptor at 0x31000 whose ring and packets stand at virtual address 0, a run image at
0x400, and words that a run may depend on at 0x800 and 0x808. -/
def spineMem (ver : Nat := 1) : Memory :=
  bytesAt [(0x10000, 8, 0x110001), (0x11000, 8, 0x120001), (0x12000, 8, 0x130001), (0x13000, 8, 0x140001),
           (0x14000, 8, 0x150001), (0x15000, 8, 0x20006F), (0x20000, 1, ver), (0x20003, 2, 0x0F01), (0x20008, 8, 0x400),
           (0x20400, 2, 1), (0x20440, 2, 0x8000), (0x20800, 8, 0x8000000000000001), (0x30000, 2, 5), (0x30008, 8, 0x10000),
           (0x31008, 1, 4), (0x31010, 4, 1), (0x31018, 8, 0x30000)]
def upNode : Node :=
  { Node.reset with hbm := 0xFFF, half := 3, spine := true, launch := true, invalq := true, keytab := true, app := true,
                    accept := 0x3FF, domain := 2 }
def queue0 (st : QState) (en : Bool := true) : Queue :=
  { Queue.reset with desc := 0x31000, en := en, state := st, log2n := 4, ctx := 0x30000 }
def spineState (st : QState) (rs : List Run := []) (en : Bool := true) (ver : Nat := 1) : State :=
  { State.reset with mem := spineMem ver, node := { upNode with done := true }, queues := [(0, queue0 st en)], runs := rs }

theorem witness_QueueRegistersAct :
    let s := spineState .idle
    s.node.launch = true ∧ 255 < 256 ∧ (getQueue s 0).en = true ∧ (getQueue (spineState .disabled [] false) 0).en = false
    ∧ (0x31001 : Word).getLsbD 0 = true ∧ (0x31000 : Word).getLsbD 0 = false ∧ (getQueue s 0).state ≠ .resetting
    ∧ isHbm (getQueue s 0).desc.toNat = true ∧ (getQueue s 0).desc.toNat % 64 = 0
    ∧ isHbm ((0x2000_0000_0001 : Word) &&& 0x0000FFFFFFFFFFC0#64).toNat = false
    ∧ (getQueue (spineState .resetting) 0).state = .resetting := by decide +kernel
theorem witness_ResetAndKillEndRuns :
    let s := { spineState .resident [run1, { run1 with id := 2, queue := 3 }] with kill := ⟨5, 0x32000, none⟩ }
    let z := { State.reset with kill := ⟨5, 0x32000, none⟩ }
    s.node.launch = true ∧ (s.runs.map fun r => r.id).Nodup ∧ (getQueue s 0).state ≠ .resetting ∧ (getQueue s 0).state ≠ .disabled
    ∧ (∃ r ∈ s.runs, r.queue = 0) ∧ (getQueue s 7).state = .disabled ∧ s.kill.active = none ∧ (1 : Word).getLsbD 0 = true
    ∧ (∃ r ∈ s.runs, r.asid = s.kill.asid ∧ r.ending = none) ∧ (∃ r ∈ s.runs, r.queue ≠ 0)
    ∧ z.runs = [] ∧ z.queues = [] ∧ isHbm z.kill.cpa.toNat = true ∧ z.kill.cpa.toNat % 8 = 0 := by decide +kernel
theorem witness_QueuesSwitchAndParse :
    let s := spineState .switchedOut
    let b := { s with mem := mapped }
    let r := spineState .resident
    let m := spineState .resident [] true 2
    let q := queue0 .resident
    spineRuns s = true ∧ (getQueue s 0).state = .switchedOut ∧ nextEligible s = some 0 ∧ residentCount s < 32
    ∧ (readDescriptor s (queue0 .switchedOut)).1.isSome = true ∧ (readDescriptor b (queue0 .switchedOut)).1 = none
    ∧ (queueTail { r with mem := mapped } q).1 = q.head ∧ (queueTail r q).1 ≠ q.head ∧ (q.head - q.progress).toNat < 2 ^ q.log2n
    ∧ ((queueTail r q).1 - q.progress).toNat ≤ 2 ^ q.log2n
    ∧ ((readContext (acquirePacketTails (queueTail r q).2 0) q.ctx).1.map fun c => (c.asid, c.root)) = some (5, 0x10000)
    ∧ gives (spineVirt (readContext (acquirePacketTails (queueTail r q).2 0) q.ctx).2 5 0x10000 (0 + 128 * 0) 128) (fun b => !packetBad b) = true
    ∧ gives (spineVirt (readContext (acquirePacketTails (queueTail m q).2 0) q.ctx).2 5 0x10000 (0 + 128 * 0) 128) packetBad = true
    ∧ writtenSince (readContext (acquirePacketTails (queueTail r q).2 0) q.ctx).2 5 0x10000 .r (slotSince r q) q.slotVa 128 = false
    ∧ (getQueue (spineState .idle) 0).state = .idle := by decide +kernel
/-- Runs that wait for words, and one that is to be placed. -/
def parsedRun : Run :=
  { run1 with stage := .parsed, places := [], pkt := { pkt with depfail := true, deps := [0x800], image := 0x400 } }
def freeRun : Run := { parsedRun with pkt := { parsedRun.pkt with deps := [0] } }
def readyRun : Run := { freeRun with stage := .ready, ctx := 0x30000, pkt := { freeRun.pkt with tasks := 0, taskCount := 0 } }
/-- The package once the spine has read the context block. -/
def contextRead : State := { spineState .idle [readyRun] with agentPo := [(850, 1)] }
theorem witness_RunsStart :
    let p := parsedRun
    let w := { p with pkt := { p.pkt with deps := [0x808] } }
    let n := freeRun
    let s := spineState .idle [readyRun]
    spineRuns s = true ∧ findRun (spineState .idle [n]) 1 = some n ∧ n.pkt.deps = [0] ∧ n.pkt.barrier = false
    ∧ gives (readDeps (spineState .idle [p]) p p.pkt.deps)
        (fun ws => ws.all (fun w => decide (2 ^ 63 ≤ w) && decide (w < 2 ^ 64)) && ws.any fun w => w % 65536 != 0) = true
    ∧ p.pkt.depfail = true ∧ p.ending = none
    ∧ gives (readDeps (spineState .idle [w]) w w.pkt.deps) (fun ws => ws.any fun w => decide (w < 2 ^ 63)) = true
    ∧ served s = some (readyRun, true) ∧ readyRun.stage = .ready ∧ readyRun.wild = false
    ∧ readContext s readyRun.ctx = (some ⟨5, 0x10000, 0, 0, 0⟩, contextRead)
    ∧ slotWritten contextRead readyRun = false ∧ readyRun.pkt.clusters ≤ (freeClusters s).length := by decide +kernel
theorem witness_RunsStart_loads :
    let r1 := { readyRun with asid := 5, root := 0x10000, fring := 0, fringRecords := 0, fringTail := 0 }
    succeeds (loadRun (updRun (journaled 1 contextRead) 1 fun _ => r1) r1) = true := by decide +kernel
theorem witness_RunsRetire :
    let s := spineState .idle [run1]
    let e : Ending := ⟨5, 0xFFFF, 0, 0, 0, none⟩
    let k := { run1 with ending := some e, stage := .ended }
    let busy := { s with leaves := [(0, { Leaf.reset with run := some 1 })] }
    s.node.spine = true ∧ findRun s 1 = some run1 ∧ retireEnding s run1 = some ⟨0, 0xFFFF, 0, 0, 0, none⟩ ∧ runQuiet s run1 = true
    ∧ run1.stage = .placed ∧ run1.ending = none ∧ runQuiet busy run1 = false ∧ runQuiet (spineState .idle [k]) k = true
    ∧ k.ending = some e ∧ e.status < 65536 ∧ e.gleaf < 65536 := by decide +kernel

/-- An invalidation queue with a descriptor for 16 pages of ASID 5 at 0x33000, and cached translations. -/
def inval (head tail : BitVec 16) (cuts : List InvalCut) : State :=
  { spineState .idle with
      mem := bytesAt [(0x33000, 8, 0), (0x33008, 4, 16), (0x3300C, 2, 5), (0x3300E, 1, 5), (0x3300F, 1, 3), (0x33010, 8, 0x34000)],
      tlb := [⟨5, false, 0, 4096, 0x20006F⟩, ⟨6, false, 0, 4096, 0x20006F⟩, ⟨5, true, 0x20000, 4096, 0⟩],
      inval := ⟨0x33000, 4, tail, head, false, false, cuts, []⟩ }
def cut1 (bad : Bool) : InvalCut := ⟨4, 0, 16, some 5, false, true, 3, 0x34000, 1, bad, [7]⟩
theorem witness_InvalidationQueueCuts :
    let s := inval 0xFFFF 0 []
    let v := s.inval
    let b := memRead s.mem (memKey 0 (canonAddr (v.addr + 32 * 15))) 32
    let c := inval 0 1 []
    let d := memRead c.mem (memKey 0 (canonAddr c.inval.addr)) 32
    let busy := { inval 0 1 [cut1 false] with leaves := [(0, { Leaf.reset with olog := [entry 7 0 (.load false false false) (.ready [toFrame])] })] }
    v.head ≠ v.tail ∧ s.node.invalq = true ∧ v.log2n ≠ 0
    ∧ ((v.tail - v.head).toNat ≤ ((15 : BitVec 16) - v.head).toNat ∧ ((15 : BitVec 16) - v.head).toNat ≤ 2 ^ v.log2n)
    ∧ ¬((v.tail - v.head).toNat ≤ ((16 : BitVec 16) - v.head).toNat ∧ ((16 : BitVec 16) - v.head).toNat ≤ 2 ^ v.log2n)
    ∧ b.length = 32 ∧ c.inval.head + BitVec.ofNat 16 c.inval.cuts.length ≠ c.inval.tail ∧ c.hist = [] ∧ c.freeMem = []
    ∧ c.inval.addr % 4096 = 0 ∧ fieldOf d 0 8 % 4096 = 0 ∧ fieldOf d 16 8 % 8 = 0 ∧ isHbm (fieldOf d 16 8) = true
    ∧ fieldOf d 15 1 ≤ 23 ∧ fieldOf d 14 1 < 8
    ∧ (inval 0 1 [cut1 false]).inval.head + BitVec.ofNat 16 1 = (inval 0 1 [cut1 false]).inval.tail
    ∧ (cut1 false).cpa % 8 = 0 ∧ isHbm (cut1 false).cpa = true ∧ (cut1 true).bad = true
    ∧ cutBusy (inval 0 1 [cut1 false]) (cut1 false).cut 4 [7] = false ∧ cutBusy busy (cut1 false).cut 4 [7] = true
    ∧ ringInWindow 0x33000 12 = true ∧ 4 ≤ 12 ∧ c.inval.cuts = [] := by decide +kernel
def portState (root en : BitVec 4) : State :=
  { spineState .idle with node := { upNode with root := root, ctxEn := en, ctx := [(3, 0x30000)] } }
theorem witness_RootPortsTranslate :
    let s := portState 8 8
    let pc := portContext s 3
    ¬(3 < 4 ∧ (portState 0 8).node.root.getLsbD 3 = true) ∧ (3 < 4 ∧ s.node.root.getLsbD 3 = true)
    ∧ (portState 8 0).node.ctxEn.getLsbD 3 = false ∧ (pc.1.map fun c => (c.asid, c.root)) = some (5, 0x10000)
    ∧ gives (translate pc.2 (agentReader pc.2 (portObs 3) 1) 5 0x10000 false 0xFF8 .w) (fun x => decide (x.pa % 4096 = 0xFF8)) = true
    ∧ succeeds (readVirt pc.2 (agentReader pc.2 (portObs 3) 1) 5 0x10000 false .r 0xFF8 8) = true
    ∧ 8 ≤ 4096 - (0xFF8 : Nat) % 4096 ∧ 23 < 24 ∧ 2047 ≠ 0
    ∧ gives (translateAll pc.2 (agentReader pc.2 (portObs 3) 1) 5 0x10000 false .w (pageSplit 0xFF8 8))
        (fun ts => decide (ts.length = 1) && ts.all fun x => decide (x.pa % 4096 = 0xFF8) && x.cache != 3) = true := by decide +kernel

theorem witness_ResetBootAndFeatures :
    let s := State.reset
    let u := { State.reset with node := { upNode with spine := false } }
    1 ≤ 12 ∧ 12 ≤ 12 ∧ s.node.hbm ≠ 0xFFF ∧ u.node.hbm = 0xFFF ∧ u.node.half = 3 ∧ u.fw.recovering = false ∧ u.fw.stopped = false
    ∧ s.node.half ≠ 3 ∧ upNode.spine = true ∧ upNode.launch = true ∧ upNode.invalq = true ∧ upNode.keytab = true
    ∧ (1 : Word).getLsbD 0 = true ∧ s.node.done = false ∧ (2 : Word).getLsbD 0 = false ∧ (spineState .idle).node.done = true := by
  decide +kernel

def firmware (f : Firmware) : State := { spineState .idle [run1] with fw := f }
theorem witness_FirmwareTrials :
    let r := Firmware.reset
    let trial := { r with trialActive := true, watchdogLeft := 1 }
    let expired := { trial with watchdogLeft := 0 }
    (2 : Word).getLsbD 1 = true ∧ r.trialActive = false ∧ r.recovering = false ∧ r.verifying = false
    ∧ (firmware r).node.spine = true ∧ (1 : Word).getLsbD 1 = false ∧ { r with verifying := true }.verifying = true
    ∧ (4 : Word).getLsbD 2 = true ∧ trial.trialActive = true ∧ trial.reverting = false ∧ trial.watchdogLeft ≠ 0
    ∧ expired.trialActive = true ∧ expired.reverting = false ∧ expired.watchdogLeft = 0 ∧ expired.stopped = false
    ∧ { r with recovering := true }.recovering = true ∧ ((firmware r).runs.map fun x => x.id).Nodup
    ∧ recordOpen { firmware r with journal := [1] } run1 = true ∧ run1.ending = none
    ∧ recordOpen (firmware r) parsedRun = false := by decide +kernel
theorem witness_NodeEventsAct :
    let s := { State.reset with node := { upNode with domain := 1, fabric := false } }
    s.wsNext = none ∧ 0 < (0x07A11 : BitVec 20).toNat ∧ (0x07A11 : BitVec 20).toNat < s.wsPeriod.toNat
    ∧ s.wsPeriod.toNat ≤ (0x07A12 : BitVec 20).toNat ∧ (3200 : BitVec 16).toNat ≤ min 3200 (max 1200 s.node.limit.toNat)
    ∧ (105 : BitVec 16).toNat ≤ 105 ∧ 3 < 4 ∧ s.node.app = true ∧ s.node.fabric = false ∧ s.node.done = false
    ∧ s.node.package.toNat < 128 ∧ 128 ≤ 128 ∧ { upNode with fabric := true }.fabric = true ∧ s.leaves = [] ∧ s.arrivals = [] ∧ s.flips = []
    ∧ State.reset.node.root.getLsbD 3 = false
    ∧ s.node.keytab = true ∧ 4095 < 4096 ∧ 7 < 8 ∧ State.reset.node.keytab = false ∧ (4 ≠ 8 ∨ 0x40 % 8 ≠ 0)
    ∧ (spineState .idle).node.done = true ∧ s.i3cAddr = none := by decide +kernel
theorem witness_OutsideAgentsAccessMemory :
    let s := { spineState .idle with resv := [(23, (memKey 0 (canonAddr 0x20440), 8))], node := { upNode with fabric := true } }
    s.hist = [] ∧ s.freeMem = [] ∧ (getCore s 23).pending = [] ∧ s.privLines = [] ∧ (∀ r ∈ s.runs, r.stage ≠ .placed) ∧ 0x20440 % 8 = 0 ∧ [(1 : Byte), 2, 3, 4, 5, 6, 7, 8].length = 8
    ∧ State.reset.node.app = false ∧ s.node.app = true ∧ 23 < 24 ∧ 24 ≤ 24 ∧ region 0x00C0_0000_0000 = .none ∧ isPcie 0x00C0_0000_0000 = false
    ∧ (0xF000000000000000 : Word).extractLsb' 60 4 = 15 ∧ (0x8000000000000000 : Word).extractLsb' 60 4 ≠ 15
    ∧ 0x3000_1000_0000 ≤ 0x3000_1FFF_FFFF ∧ 0x3000_1FFF_FFFF < 0x3000_2000_0000 ∧ hbmReady s 0x20440 = true
    ∧ mapFind s.resv 23 = some (memKey 0 (canonAddr 0x20440), 8) ∧ mapFind s.resv 22 ≠ some (memKey 0 (canonAddr 0x20440), 8)
    ∧ s.node.fabric = true ∧ 1 ≠ s.node.package.toNat ∧ remoteReachable s 1 = true ∧ State.reset.node.fabric = false := by
  decide +kernel
/-- A response of 1, 2 and 0 at offset 24 of record 0, whose ring is at virtual address 0. -/
def responding (w : Nat) : State :=
  { spineState .idle [run1] with
      mem := bytesAt [(0x10000, 8, 0x110001), (0x11000, 8, 0x120001), (0x12000, 8, 0x130001), (0x13000, 8, 0x140001),
                      (0x14000, 8, 0x150001), (0x15000, 8, 0x20006F), (0x20018, 4, w)],
      services := [⟨0, 1, 0, true, []⟩],
      leaves := [(0, { Leaf.reset with run := some 1, olog := [entry 1 0x5000 (.load false false false) (.service 0 .pageFaultR 0x5000)] })] }
theorem witness_FaultServiceResponds :
    let e := entry 1 0x5000 (.load false false false) (.service 0 .pageFaultR 0x5000)
    (∀ w, w < 3 → (recordWord (responding w) run1 (0 + 24) 4).1 = w)
    ∧ (responding 1).node.spine = true ∧ ((responding 1).services.find? fun v => v.idx == 0) = some ⟨0, 1, 0, true, []⟩
    ∧ findRun (responding 1) 1 = some run1 ∧ findEntry (getLeaf (responding 1) 0) 1 = some (false, [e], e)
    ∧ (((getLeaf (responding 1) 0).olog ++ (getLeaf (responding 1) 0).tlog).map fun x => x.id).Nodup := by decide +kernel
/-- The access is one of a cluster that is put away. -/
theorem witness_FaultServiceResponds_saved :
    let x := { Leaf.reset with olog := [entry 1 0x5000 (.load false false false) (.service 0 .pageFaultR 0x5000)] }
    serviceSaved { run1 with saved := [⟨0, 0, [], [x], [], [], [], 0⟩] } 0 = true ∧ serviceSaved run1 0 = false := by decide +kernel
theorem witness_FaultServiceResponds_leaves (d : Nat) :
    (getLeaf (responding 2) d).exited = false ∧ (getLeaf (responding 2) d).tq = [] := by
  by_cases h : d = 0
  · subst h; decide +kernel
  · have : ∀ x : Leaf, mapFind [((0 : Nat), x)] d = none := by intro x; simp [mapFind]; omega
    simp [responding, spineState, getLeaf, mapGet, this, Leaf.reset]
/-- R22: a core's load outside the map has its access fault, and the machine goes on. -/
theorem test_core_access_outside_map : (next (exec (.applicationCoreAccess 23 (.load (.phys 0x00C0_0000_0000 false) 8 [])) (spineState .idle))).map
    (fun t => (t.reply.ok, t.reply.value)) = some (false, 5) := by decide +kernel

/-- Two words that the encoder writes, one in each of the widest and the narrowest slot. -/
theorem witness_DecodeInvertsEncode :
    (Instr.addi ⟨3, false, .reg 2, 16⟩).wf = true ∧ encodeSlot (.addi ⟨3, false, .reg 2, 16⟩) = some (.s, 0x030C080000000010)
    ∧ (encode (.br ⟨4⟩)).isSome = true ∧ (Instr.br ⟨4⟩).wf = true := by decide +kernel

/-- A bundle of one BR at a leaf that nothing holds, and one of a blocking operation. -/
def issuingState (i : Instr) : State :=
  { withBundle { Leaf.reset with trapVec := 0x1000 } i with phase := .alone, agenda := [.issue 0] }
def oneBundle (i : Instr) : Bool :=
  let s := issuingState i
  let s0 := selectLeaf { s with agenda := [] } 0
  let sd := s0.upd fun l => landFmt (landDue l)
  decide (aheadOf { s with agenda := [] } 0 = false ∧ chooseLeaf { s with agenda := [] } 0 = some 0 ∧ dueHere s0.leaf (drainAhead s0) = none ∧ s0.leaf.rteDue = false
    ∧ s0.leaf.blocked = false ∧ s0.leaf.wait = .none ∧ stopping s0 0 = false ∧ dueArrived s0.leaf = true
    ∧ s0.leaf.pc.toNat ≤ 4095 ∧ headerSeg (fetchBundle s0) = false ∧ headerGsync (fetchBundle s0) = false
    ∧ fmtBad sd.leaf.fmt = false ∧ (∀ sl ∈ Slot.all, slotCode sl ≠ s0.leaf.skipSlot) ∧ allArrived s0.leaf = true
    ∧ s0.leaf.doubts = .none)
  && (match decodeBundle (fetchBundle s0) with
      | .ok is =>
        let s2 := openReads (if is.any Instr.alwaysBlocks then s0.upd fun l => landFmt (drained l) else sd)
        decide (is.filter (fun j => !j.isNop) = [i]) && !copyBlocked is s2 && !bundleFull is s2
          && (firstIssueCause is s2).isNone
          && is.all fun j => !j.ctxIllegal (decodeCtx sd) && !issueWaits j s2 && (issueTouches j s2).isEmpty
      | .error _ => false)
theorem witness_TargetOutsideTraps :
    let s := withBundle { Leaf.reset with pc := 4096 } (.nop .k)
    let s0 := selectLeaf s 0
    aheadOf s 0 = false ∧ chooseLeaf s 0 = some 0 ∧ dueHere s0.leaf (drainAhead s0) = none ∧ s0.leaf.rteDue = false
    ∧ s0.leaf.blocked = false ∧ s0.leaf.wait = .none ∧ stopping s0 0 = false ∧ dueArrived s0.leaf = true
    ∧ 4095 < s0.leaf.pc.toNat := by decide +kernel
theorem witness_StepIssuesTheBundle : (issuingState (.br ⟨4⟩)).agenda = [.issue 0] ∧ (acting .reset).agenda = []
    ∧ oneBundle (.br ⟨4⟩) = true ∧ oneBundle (.yield ⟨false, 0⟩) = true := by decide +kernel
theorem witness_StepsKeepMemoryCanonical : Memory.wf (inMapped .reset).mem = true
    ∧ (next (step { inMapped .reset with agenda := [.event .dtcTick] })).map (fun t => t.dtc) = some 1 := by decide +kernel

end Sys2Proof.Tests
end

/-! PROOF. The arithmetic of the S slot (R103 to R105, R107): what each shape of instruction enters into the pipelines, its
64-bit values as numbers reduced modulo 2^64, and the quotients and remainders with their corners. -/

namespace Sys2Proof.Machine

/-! ### What an S-slot instruction enters -/

/-- An S-slot instruction whose word is `w` completes with the entry of `v`, where the two are the same word; the shapes
`aluRR`, `aluRI`, `mulRR` and `divRR` are this result at their own latency and latch. -/
theorem next_scalarResult {s : State} {lat latch : Nat} {sd : BitVec 6} {nowb : Bool} {w v : Word} (h : w = v) :
    (.next (scalarResult s lat latch sd nowb w) : Out) = .next (scalarEnters s lat latch sd nowb v) := by
  rw [scalarResult_enters, h]

/-! ### Sums and products as numbers -/

theorem sub_eq_ofInt (a b : Word) : a - b = BitVec.ofInt 64 (a.toInt - b.toInt) :=
  BitVec.eq_of_toInt_eq (by rw [BitVec.toInt_sub, BitVec.toInt_ofInt])

theorem mul_eq_ofInt (a b : Word) : a * b = BitVec.ofInt 64 (a.toInt * b.toInt) := by
  rw [BitVec.ofInt_mul, BitVec.ofInt_toInt, BitVec.ofInt_toInt]

/-- Sign extension of an operand of any width is the operand's signed value modulo 2^64. -/
theorem add_signExtend_eq_ofInt {w : Nat} (a : Word) (i : BitVec w) :
    a + i.signExtend 64 = BitVec.ofInt 64 (a.toInt + i.toInt) := by
  rw [BitVec.ofInt_add, BitVec.ofInt_toInt, BitVec.signExtend]

/-- R104: LIH's word, i ‖ a[31:0]. -/
theorem append_low_eq_ofNat (i : BitVec 32) (a : Word) :
    i ++ a.extractLsb' 0 32 = BitVec.ofNat 64 (i.toNat * 2 ^ 32 + a.toNat % 2 ^ 32) := by
  have hi : i.toNat < 2 ^ 32 := i.isLt
  have hlow : (a.extractLsb' 0 32).toNat = a.toNat % 2 ^ 32 := by simp
  apply BitVec.eq_of_toNat_eq
  rw [BitVec.toNat_append, ← Nat.shiftLeft_add_eq_or_of_lt (BitVec.isLt _), hlow, Nat.shiftLeft_eq, BitVec.toNat_ofNat]
  omega

theorem shiftLeft_eq_ofInt (b : Word) (n : Nat) : b <<< n = BitVec.ofInt 64 (b.toInt * 2 ^ n) := by
  have hpow : BitVec.ofInt 64 (2 ^ n) = BitVec.twoPow 64 n := by
    rw [← BitVec.toNat_inj, BitVec.toNat_twoPow, ← BitVec.toNat_ofNat, ← BitVec.ofInt_natCast]
    push_cast
    rfl
  rw [BitVec.ofInt_mul, BitVec.ofInt_toInt, hpow, BitVec.shiftLeft_eq_mul_twoPow]

/-- R107. -/
theorem scaledAddress_eq_ofInt (a b : Word) (sh : Nat) (disp : BitVec 24) :
    scaledAddress a b sh disp = BitVec.ofInt 64 (a.toInt + b.toInt * 2 ^ sh + disp.toInt) := by
  rw [scaledAddress, shiftLeft_eq_ofInt, BitVec.signExtend, BitVec.ofInt_add, BitVec.ofInt_add, BitVec.ofInt_toInt]

/-! ### Division: the corners (R105) -/

theorem eq_minimum_iff (a : Word) : a = 0x8000000000000000 ↔ a.toInt = -2 ^ 63 :=
  BitVec.toInt_inj.symm

theorem eq_allOnes_iff (b : Word) : b = BitVec.allOnes 64 ↔ b.toInt = -1 :=
  BitVec.toInt_inj.symm

theorem div_by_zero (a : Word) :
    divSigned a 0 = BitVec.allOnes 64 ∧ divUnsigned a 0 = BitVec.allOnes 64 ∧ remSigned a 0 = a ∧ remUnsigned a 0 = a :=
  ⟨rfl, rfl, rfl, rfl⟩

section Overflow
variable {a b : Word} (ha : a.toInt = -2 ^ 63) (hb : b.toInt = -1)
include ha hb

theorem divSigned_overflow : divSigned a b = a := by
  simp [divSigned, (eq_minimum_iff a).2 ha, (eq_allOnes_iff b).2 hb]

theorem remSigned_overflow : remSigned a b = 0 := by
  simp [remSigned, (eq_minimum_iff a).2 ha, (eq_allOnes_iff b).2 hb]

end Overflow

/-! ### Division: away from the corners -/

section Signed
variable {a b : Word} (hb : b ≠ 0) (hc : ¬(a.toInt = -2 ^ 63 ∧ b.toInt = -1))
include hb hc

theorem divSigned_eq_sdiv : divSigned a b = a.sdiv b := by
  rw [← eq_minimum_iff, ← eq_allOnes_iff] at hc
  apply BitVec.eq_of_toInt_eq
  simp only [divSigned, hb, hc, if_false, Bool.and_eq_true, decide_eq_true_eq, BitVec.toInt_ofInt, BitVec.toInt_sdiv]

theorem remSigned_eq_srem : remSigned a b = a.srem b := by
  rw [← eq_minimum_iff, ← eq_allOnes_iff] at hc
  simp only [remSigned, hb, hc, if_false, Bool.and_eq_true, decide_eq_true_eq, ← BitVec.toInt_srem, BitVec.ofInt_toInt]

/-- The one quotient that 64 bits do not hold is the corner's. -/
theorem toInt_divSigned : (divSigned a b).toInt = a.toInt.tdiv b.toInt := by
  rw [divSigned_eq_sdiv hb hc]
  rw [← eq_minimum_iff, ← eq_allOnes_iff, Decidable.not_and_iff_not_or_not] at hc
  exact BitVec.toInt_sdiv_of_ne_or_ne a b hc

theorem toInt_remSigned : (remSigned a b).toInt = a.toInt.tmod b.toInt := by
  rw [remSigned_eq_srem hb hc, BitVec.toInt_srem]

theorem divSigned_mul_add_remSigned :
    a.toInt = (divSigned a b).toInt * b.toInt + (remSigned a b).toInt := by
  rw [toInt_divSigned hb hc, toInt_remSigned hb hc, Int.tdiv_mul_add_tmod]

theorem natAbs_remSigned_lt : (remSigned a b).toInt.natAbs < b.toInt.natAbs := by
  have hpos : 0 < b.toInt.natAbs := Int.natAbs_pos.2 fun h => hb (BitVec.toInt_inj.1 h)
  rw [toInt_remSigned hb hc, Int.natAbs_tmod]
  exact Nat.mod_lt _ hpos

/-- R105: a nonzero remainder has the dividend's sign. -/
theorem remSigned_sign : remSigned a b = 0 ∨ (remSigned a b).toInt.sign = a.toInt.sign := by
  by_cases hd : b.toInt ∣ a.toInt
  · left
    apply BitVec.eq_of_toInt_eq
    rw [toInt_remSigned hb hc, Int.tmod_eq_zero_of_dvd hd]
    rfl
  · right
    rw [toInt_remSigned hb hc, Int.sign_tmod, if_neg hd]

end Signed

section Unsigned
variable {a b : Word} (hb : b ≠ 0)
include hb

theorem divUnsigned_eq_udiv : divUnsigned a b = a / b := by
  rw [divUnsigned, if_neg hb, BitVec.udiv_def]

theorem remUnsigned_eq_umod : remUnsigned a b = a % b := by
  rw [remUnsigned, if_neg hb, BitVec.umod_def]

theorem divUnsigned_mul_add_remUnsigned :
    a.toNat = (divUnsigned a b).toNat * b.toNat + (remUnsigned a b).toNat := by
  rw [divUnsigned_eq_udiv hb, remUnsigned_eq_umod hb, BitVec.toNat_udiv, BitVec.toNat_umod, Nat.div_add_mod']

theorem toNat_remUnsigned_lt : (remUnsigned a b).toNat < b.toNat := by
  have hpos : 0 < b.toNat := Nat.pos_of_ne_zero fun h => hb (BitVec.toNat_inj.1 h)
  rw [remUnsigned_eq_umod hb, BitVec.toNat_umod]
  exact Nat.mod_lt _ hpos

end Unsigned

/-! ### The obligation -/

/-- Settles O1: each result is the model's word, which the lemmas above read as the spec's number; the quotients and
remainders are the model's own, with R105's corners and, away from them, the laws of truncated division. -/
theorem scalarSumsProductsQuotients : Obligations.ScalarSumsProductsQuotients := by
  unfold Obligations.ScalarSumsProductsQuotients
  refine ⟨fun s f g j x => ⟨?add, ?sub, ?addi, ?mul, ?mulh, ?mulhn, ?li, ?lih, ?addr⟩, fun s f => ?division⟩
  case add => exact next_scalarResult (BitVec.add_def _ _)
  case sub => exact next_scalarResult (sub_eq_ofInt _ _)
  case addi => exact next_scalarResult (add_signExtend_eq_ofInt _ _)
  case mul => exact next_scalarResult (mul_eq_ofInt _ _)
  case mulh => exact next_scalarResult rfl
  case mulhn => exact next_scalarResult rfl
  case li => exact next_scalarResult rfl
  case lih => exact next_scalarResult (append_low_eq_ofNat _ _)
  case addr => exact next_scalarResult (scaledAddress_eq_ofInt _ _ _ _)
  case division =>
    intro a b
    refine ⟨divSigned a b, remSigned a b, divUnsigned a b, remUnsigned a b,
      next_scalarResult rfl, next_scalarResult rfl, next_scalarResult rfl, next_scalarResult rfl,
      ?byZero, ?overflow, ?signed, ?unsigned⟩
    case byZero => exact fun hb => hb ▸ div_by_zero a
    case overflow => exact fun ha hb => ⟨divSigned_overflow ha hb, remSigned_overflow ha hb⟩
    case signed =>
      exact fun hb hc => ⟨divSigned_mul_add_remSigned hb hc, natAbs_remSigned_lt hb hc, remSigned_sign hb hc⟩
    case unsigned => exact fun hb => ⟨divUnsigned_mul_add_remUnsigned hb, toNat_remUnsigned_lt hb⟩

end Sys2Proof.Machine

/-! PROOF. The instructions of VA and VB on integers, bits, masks and places (R120, R124, R129, R130, R133, R136 to R145): the
elements of a register and their bits, the enabled lanes, what each shape of instruction delivers, and the statements. -/

namespace Sys2Proof.Machine

/-! ### Elements of a register (R120) -/

theorem elem_lt (e : Nat) (v : Vec) (j : Nat) : elem e v j < 2 ^ e := Nat.mod_lt _ (Nat.two_pow_pos e)

@[simp] theorem elem_mod (e : Nat) (v : Vec) (j : Nat) : elem e v j % 2 ^ e = elem e v j := Nat.mod_mod _ _

@[simp] theorem testBit_elem (e : Nat) (v : Vec) (j i : Nat) :
    (elem e v j).testBit i = (decide (i < e) && v.getLsbD (e * j + i)) := by
  rw [elem, Nat.testBit_mod_two_pow, Nat.testBit_div_two_pow, Nat.add_comm i, BitVec.testBit_toNat]

theorem ite_lt {p : Prop} [Decidable p] {a b n : Nat} (ha : a < n) (hb : b < n) : (if p then a else b) < n := by
  split
  · exact ha
  · exact hb

/-- An element is the number that has its bits. -/
theorem elem_eq_of_bits {e x : Nat} {v : Vec} {j : Nat} (hx : x < 2 ^ e)
    (h : ∀ i, i < e → v.getLsbD (e * j + i) = x.testBit i) : elem e v j = x := by
  apply Nat.eq_of_testBit_eq
  intro i
  rw [testBit_elem]
  by_cases hi : i < e
  · simp [hi, h i hi]
  · simp [hi, Nat.testBit_lt_two_pow (Nat.lt_of_lt_of_le hx (Nat.pow_le_pow_right Nat.two_pos (Nat.le_of_not_lt hi)))]

section Position
variable {e j : Nat}

theorem position_lt {n : Nat} (he : e ∣ n) (hj : e * j < n) {i : Nat} (hi : i < e) : e * j + i < n := by
  obtain ⟨c, rfl⟩ := he
  have hjc : j + 1 ≤ c := Nat.lt_of_mul_lt_mul_left hj
  calc e * j + i < e * (j + 1) := by rw [Nat.mul_succ]; omega
    _ ≤ e * c := Nat.mul_le_mul_left e hjc

theorem mul_lt_iff_lt_div {n : Nat} (hn : 0 < n) (he : e ∣ n) : e * j < n ↔ j < n / e := by
  have hpos : 0 < e := Nat.pos_of_dvd_of_pos he hn
  obtain ⟨c, rfl⟩ := he
  rw [Nat.mul_div_cancel_left c hpos, Nat.mul_lt_mul_left hpos]

/-- The bits of an element lie in one lane. -/
theorem position_lane (he : e ∣ 32) {i : Nat} (hi : i < e) : (e * j + i) / 32 = e * j / 32 := by
  obtain ⟨c, hc⟩ := he
  have hpos : 0 < e := Nat.zero_lt_of_lt hi
  rw [hc, ← Nat.div_div_eq_div_mul, ← Nat.div_div_eq_div_mul, Nat.mul_add_div hpos, Nat.div_eq_of_lt hi,
    Nat.mul_div_cancel_left j hpos, Nat.add_zero]

theorem elem_lane (he : e ∣ 32) : e * j / 32 = j / (32 / e) := by
  have hpos : 0 < e := Nat.pos_of_dvd_of_pos he (by decide)
  obtain ⟨c, hc⟩ := he
  rw [hc, Nat.mul_div_mul_left j c hpos, Nat.mul_div_cancel_left c hpos]

theorem elem_count (he : e ∣ 32) : 16384 / e = 512 * (32 / e) := Nat.mul_div_assoc 512 he

theorem dvd_register (he : e ∣ 32) : e ∣ 16384 := Nat.dvd_trans he ⟨512, rfl⟩

end Position

/-! ### Every element type's width divides a lane's -/

theorem styWidth_dvd (t : STy) : t.width ∣ 32 := by cases t <;> decide

theorem ityWidth_dvd (t : ITy) : t.width ∣ 32 := by cases t <;> decide

theorem ftyWidth_dvd (t : FTy) : t.width ∣ 32 := by cases t <;> decide

/-! ### Lists of elements -/

theorem splitNat_eq_map (w n x : Nat) :
    splitNat w n x = (List.range n).map fun j => x / 2 ^ (w * j) % 2 ^ w := by
  induction n generalizing x with
  | zero => rfl
  | succ n ih =>
    have hstep (j : Nat) : x / 2 ^ w / 2 ^ (w * j) = x / 2 ^ (w * (j + 1)) := by
      rw [Nat.div_div_eq_div_mul, ← Nat.pow_add, Nat.mul_succ, Nat.add_comm w]
    simp [splitNat, ih, hstep, List.range_succ_eq_map]

theorem readElems_eq_map (l : Leaf) (v : VecSrc) (e : Nat) (w : Widen) :
    readElems l v e w = (List.range (16384 / e)).map (elem e (readVec l v e w)) :=
  splitNat_eq_map _ _ _

theorem zipWith_map_range {α β γ : Type} (f : α → β → γ) (g : Nat → α) (h : Nat → β) (n : Nat) :
    ((List.range n).map g).zipWith f ((List.range n).map h) = (List.range n).map fun j => f (g j) (h j) := by
  rw [List.zipWith_map, List.zipWith_self]

theorem testBit_packNat {w i : Nat} (hi : i < w) (l : List Nat) (j : Nat) :
    (packNat w l).testBit (w * j + i) = (l.getD j 0).testBit i := by
  induction l generalizing j with
  | nil => simp [packNat]
  | cons x r ih =>
    rw [packNat, Nat.add_comm, Nat.testBit_two_pow_mul_add _ (Nat.mod_lt _ (Nat.two_pow_pos w))]
    cases j with
    | zero => simp [hi, Nat.testBit_mod_two_pow]
    | succ j =>
      have hpos : w * (j + 1) + i = w * j + i + w := by rw [Nat.mul_succ]; omega
      rw [hpos, if_neg (by omega), Nat.add_sub_cancel, ih, List.getD_cons_succ]

theorem getLsbD_ofElements {w i j : Nat} (hi : i < w) (h : w * j + i < 16384) (l : List Nat) :
    (ofElements w l).getLsbD (w * j + i) = (l.getD j 0).testBit i := by
  rw [ofElements, BitVec.getLsbD_ofNat, testBit_packNat hi, decide_eq_true h, Bool.true_and]

theorem getD_map_range {α : Type} (g : Nat → α) (d : α) (n j : Nat) :
    ((List.range n).map g).getD j d = if j < n then g j else d := by
  by_cases h : j < n <;> simp [List.getD, h]

theorem elem_ofElements_map {e j : Nat} (he : e ∣ 16384) (hj : e * j < 16384) (g : Nat → Nat) :
    elem e (ofElements e ((List.range (16384 / e)).map g)) j = g j % 2 ^ e := by
  apply elem_eq_of_bits (Nat.mod_lt _ (Nat.two_pow_pos e))
  intro i hi
  rw [getLsbD_ofElements hi (position_lt he hj hi), getD_map_range, if_pos ((mul_lt_iff_lt_div (by decide) he).1 hj),
    Nat.testBit_mod_two_pow, decide_eq_true hi, Bool.true_and]

/-! ### Enabled lanes (R124) -/

theorem getLsbD_enabledLanes (s : State) (m : BitVec 3) {k : Nat} (hk : k < 512) :
    (enabledLanes s.leaf m).getLsbD k = laneOn s m k := by
  unfold enabledLanes maskOf laneOn
  by_cases h : m = 0
  · rw [if_pos h, BitVec.getLsbD_allOnes, decide_eq_true hk, decide_eq_true h, Bool.true_or]
  · rw [if_neg h, decide_eq_false h, Bool.false_or]

theorem getLsbD_laneMask (m : Mask) {k : Nat} (hk : k < 16384) : (laneMask m).getLsbD k = m.getLsbD (k / 32) := by
  have hlane : k / 32 < 512 := by omega
  unfold laneMask
  split
  next hall => rw [hall, BitVec.getLsbD_allOnes, BitVec.getLsbD_allOnes, decide_eq_true hk, decide_eq_true hlane]
  next =>
    have hbit : k % 32 < 32 := Nat.mod_lt _ (by decide)
    have hones : (0xFFFFFFFF : Nat) = 2 ^ 32 - 1 := rfl
    rw [← Nat.div_add_mod k 32, getLsbD_ofElements hbit (by omega), maskBits, List.map_map, getD_map_range, if_pos hlane,
      Nat.mul_add_div (by decide), Nat.div_eq_of_lt hbit, Nat.add_zero]
    cases hm : m.getLsbD (k / 32)
    · simp [hm]
    · simp only [Function.comp, hm, if_true, hones, Nat.testBit_two_pow_sub_one, hbit, decide_true]

theorem getLsbD_laneMask_enabled (s : State) (m : BitVec 3) {k : Nat} (hk : k < 16384) :
    (laneMask (enabledLanes s.leaf m)).getLsbD k = laneOn s m (k / 32) := by
  rw [getLsbD_laneMask _ hk, getLsbD_enabledLanes s m (by omega)]

theorem elem_and_laneMask (s : State) (m : BitVec 3) {e j : Nat} (he : e ∣ 32) (hj : e * j < 16384) (v : Vec) :
    elem e (v &&& laneMask (enabledLanes s.leaf m)) j = if laneOn s m (e * j / 32) then elem e v j else 0 := by
  apply elem_eq_of_bits (ite_lt (elem_lt e v j) (Nat.two_pow_pos e))
  intro i hi
  rw [BitVec.getLsbD_and, getLsbD_laneMask_enabled s m (position_lt (dvd_register he) hj hi), position_lane he hi]
  cases laneOn s m (e * j / 32) <;> simp [hi]

/-! ### Vector results (R124) -/

section Results
variable {i : Instr} {s : State} {dist latch : Nat} {u : VUnit} {nowb : Bool} {vd : BitVec 9} {m : BitVec 3} {e : Nat}
  {el : Nat → Nat} {fl : Flags}

/-- A vector register delivered to the enabled lanes. -/
theorem vecGives_of_addVec {v : Vec} (he : e ∣ 32)
    (hexec : exec i s
      = .next (addVec s dist nowb vd v (laneMask (enabledLanes s.leaf m)) latch (vecRank u) fl))
    (hv : ∀ j, e * j < 16384 → elem e v j = el j % 2 ^ e) : VecGives i s dist latch u nowb vd m e el fl := by
  refine ⟨v &&& laneMask (enabledLanes s.leaf m), laneMask (enabledLanes s.leaf m), hexec, ?_, ?_⟩
  · exact fun k hk => getLsbD_laneMask_enabled s m hk
  · intro j hj
    rw [elem_and_laneMask s m he hj, hv j hj]

/-- The same, where `el` gives elements of the register themselves. -/
theorem vecGives_of_elem {v : Vec} (he : e ∣ 32)
    (hexec : exec i s
      = .next (addVec s dist nowb vd v (laneMask (enabledLanes s.leaf m)) latch (vecRank u) fl))
    (hv : ∀ j, e * j < 16384 → elem e v j = el j) : VecGives i s dist latch u nowb vd m e el fl :=
  vecGives_of_addVec he hexec fun j hj => by rw [← hv j hj, elem_mod]

/-- A list of elements delivered to the enabled lanes: `g` may differ from `el` above the element's width. -/
theorem vecGives_of_intVecResult {g : Nat → Nat} (he : e ∣ 32)
    (hexec : exec i s
      = .next (intVecResult s u dist nowb vd e ((List.range (16384 / e)).map g) (enabledLanes s.leaf m)))
    (hg : ∀ j, e * j < 16384 → g j % 2 ^ e = el j % 2 ^ e) : VecGives i s dist (intLatch u) u nowb vd m e el 0 :=
  vecGives_of_addVec he hexec fun j hj => (elem_ofElements_map (dvd_register he) hj g).trans (hg j hj)

end Results

/-! ### Logic, bit by bit (R129) -/

theorem elem_and (e : Nat) (v w : Vec) (j : Nat) : elem e (v &&& w) j = elem e v j &&& elem e w j := by
  simp only [elem, BitVec.toNat_and, Nat.and_div_two_pow, Nat.and_mod_two_pow]

theorem elem_or (e : Nat) (v w : Vec) (j : Nat) : elem e (v ||| w) j = elem e v j ||| elem e w j := by
  simp only [elem, BitVec.toNat_or, Nat.or_div_two_pow, Nat.or_mod_two_pow]

theorem elem_xor (e : Nat) (v w : Vec) (j : Nat) : elem e (v ^^^ w) j = elem e v j ^^^ elem e w j := by
  simp only [elem, BitVec.toNat_xor, Nat.xor_div_two_pow, Nat.xor_mod_two_pow]

theorem elem_not {e j : Nat} (he : e ∣ 16384) (hj : e * j < 16384) (v : Vec) :
    elem e (~~~v) j = 2 ^ e - 1 - elem e v j := by
  rw [Nat.sub_sub, Nat.add_comm 1]
  apply elem_eq_of_bits (Nat.sub_lt (Nat.two_pow_pos e) (Nat.succ_pos _))
  intro i hi
  simp [Nat.testBit_two_pow_sub_succ (elem_lt e v j), hi, position_lt he hj hi]

/-- Whole-register logic delivers the elements of the register it makes. -/
theorem vecGives_vecLogic {i : Instr} {s : State} {f : V2 UTy} {op : Vec → Vec → Vec} {el : Nat → Nat}
    (hexec : exec i s = .next (vecLogic s f op))
    (hel : ∀ k, 32 * k < 16384 → elem 32 (op (readVec s.leaf f.a 32 .zero) (readVec s.leaf f.b 32 .zero)) k = el k) :
    VecGives i s 2 (intLatch f.u) f.u f.nowb f.vd f.mask 32 el 0 :=
  vecGives_of_elem (Nat.dvd_refl 32) hexec hel

/-! ### Shifts and counts (R129, R143, R145) -/

/-- A shift's element depends on the two elements at its place alone, the second reduced modulo the width. -/
theorem vecGives_vecShift {i : Instr} {s : State} {f : V2 STy} {w : Widen} {op : Nat → Nat → Nat → Nat} {el : Nat → Nat}
    (hexec : exec i s = .next (vecShift s f w op))
    (hel : ∀ j, op f.ty.width (elem f.ty.width (readVec s.leaf f.a f.ty.width w) j)
        (elem f.ty.width (readVec s.leaf f.b f.ty.width .zero) j % f.ty.width) % 2 ^ f.ty.width = el j % 2 ^ f.ty.width) :
    VecGives i s 2 (intLatch f.u) f.u f.nowb f.vd f.mask f.ty.width el 0 :=
  vecGives_of_intVecResult (styWidth_dvd f.ty)
    (hexec.trans (by simp only [vecShift, readElems_eq_map, zipWith_map_range])) fun j _ => hel j

theorem natCast_two_pow (n : Nat) : ((2 ^ n : Nat) : Int) = 2 ^ n := Int.natCast_pow 2 n

/-- A count of set bits is the number of places whose bit is set. -/
theorem popcountNat_eq_length_filter (n x : Nat) :
    popcountNat n x = ((List.range n).filter fun i => x.testBit i).length := by
  induction n generalizing x with
  | zero => rfl
  | succ n ih =>
    have hbit : x % 2 = if x.testBit 0 then 1 else 0 := by
      rw [Nat.testBit_zero]
      rcases Nat.mod_two_eq_zero_or_one x with h | h <;> simp [h]
    have hrest : ((List.range n).map Nat.succ).filter (fun i => x.testBit i)
        = ((List.range n).filter fun i => (x / 2).testBit i).map Nat.succ := by
      rw [List.filter_map]
      congr 2
      funext i
      exact Nat.testBit_succ x i
    rw [popcountNat, ih, hbit, List.range_succ_eq_map, List.filter_cons, hrest]
    cases x.testBit 0 <;> simp [Nat.add_comm]

/-! ### Operations on masks (R142, R143) -/

theorem maskGives_maskResult {i : Instr} {s : State} {u : VUnit} {md : BitVec 3} {m : Mask} {bit : Nat → Bool}
    (hexec : exec i s = .next (maskResult s u md m)) (hbit : ∀ k, k < 512 → m.getLsbD k = bit k) :
    MaskGives i s 1 u md bit := by
  refine ⟨m.setWidth 16384 &&& onesBelow 512, hexec, fun k hk => ?_⟩
  have hreg : k < 16384 := by omega
  rw [BitVec.getLsbD_and, onesBelow_bit, BitVec.getLsbD_setWidth, hbit k hk]
  simp [hk, hreg]

/-- R143: the number of the lowest set bit, or 512. -/
theorem firstSet_spec (m : Mask) :
    firstSet m ≤ 512 ∧ (∀ k, k < firstSet m → m.getLsbD k = false) ∧ (firstSet m < 512 → m.getLsbD (firstSet m) = true) := by
  unfold firstSet
  cases h : (List.range 512).find? fun i => m.getLsbD i with
  | none =>
    rw [List.find?_range_eq_none] at h
    exact ⟨Nat.le_refl 512, fun k hk => by simpa using h k hk, fun hlt => absurd hlt (Nat.lt_irrefl 512)⟩
  | some n =>
    obtain ⟨hset, hn, hbefore⟩ := List.find?_range_eq_some.1 h
    exact ⟨Nat.le_of_lt (List.mem_range.1 hn), fun k hk => by simpa using hbefore k hk, fun _ => hset⟩

/-! ### The obligation on logic, shifts and masks -/

/-- Settles O20: each result is the model's list of elements or mask, whose elements and bits the lemmas above give. -/
theorem vectorLogicShiftsMasks : Obligations.VectorLogicShiftsMasks := by
  unfold Obligations.VectorLogicShiftsMasks
  refine ⟨fun s f g h => ⟨?and, ?or, ?xor, ?andn, ?sll, ?srl, ?sra, ?popc⟩,
    fun s f g h => ⟨?mand, ?mor, ?mxor, ?mnot, ?mpopc, ?mfirst⟩⟩
  case and => exact vecGives_vecLogic rfl fun k _ => elem_and 32 _ _ k
  case or => exact vecGives_vecLogic rfl fun k _ => elem_or 32 _ _ k
  case xor => exact vecGives_vecLogic rfl fun k _ => elem_xor 32 _ _ k
  case andn =>
    exact vecGives_vecLogic rfl fun k hk => by rw [elem_and, elem_not (by decide) hk]
  case sll => exact vecGives_vecShift rfl fun j => Nat.mod_mod _ _
  case srl => exact vecGives_vecShift rfl fun j => rfl
  case sra => exact vecGives_vecShift rfl fun j => by simp only [narrow, natCast_two_pow]
  case popc =>
    refine vecGives_of_intVecResult (styWidth_dvd h.ty)
      (congrArg Host.Outcome.next (by simp only [rawUn, readElems_eq_map, List.map_map]; rfl)) fun j _ => ?_
    rw [← popcountNat_eq_length_filter]
    rfl
  case mand => exact maskGives_maskResult rfl fun k _ => BitVec.getLsbD_and
  case mor => exact maskGives_maskResult rfl fun k _ => BitVec.getLsbD_or
  case mxor => exact maskGives_maskResult rfl fun k _ => BitVec.getLsbD_xor
  case mnot => exact maskGives_maskResult rfl fun k hk => by simp [hk]
  case mpopc =>
    refine congrArg Host.Outcome.next ?_
    rw [addScalar_enters, popcountNat_eq_length_filter]
    rfl
  case mfirst =>
    exact ⟨_, congrArg Host.Outcome.next (addScalar_enters _ _ _ _ _), firstSet_spec _⟩

/-! ### Compares (R130, R133) -/

/-- The bits of a lane's elements, joined lane by lane from lane `k` on. -/
theorem laneBits_map_range' (any : Bool) (e : Nat) (p : Nat → Bool) (n k : Nat) :
    laneBits any (32 / e) n ((List.range' (k * (32 / e)) (n * (32 / e))).map p)
      = (List.range' k n).map (laneJoin any e p) := by
  induction n generalizing k with
  | zero => rfl
  | succ n ih =>
    have hsplit : List.range' (k * (32 / e)) ((n + 1) * (32 / e))
        = List.range' (k * (32 / e)) (32 / e) ++ List.range' ((k + 1) * (32 / e)) (n * (32 / e)) := by
      rw [Nat.succ_mul, Nat.succ_mul, Nat.add_comm (n * _), List.range'_append_1]
    have hlane : (List.range' (k * (32 / e)) (32 / e)).map p
        = (List.range (32 / e)).map fun i => p (k * (32 / e) + i) := by
      rw [List.range'_eq_map_range, List.map_map]
      rfl
    rw [laneBits, hsplit, List.map_append, List.take_left' (by simp), List.drop_left' (by simp), ih, hlane,
      List.range'_succ, List.map_cons, laneJoin]

theorem laneBits_map_range {e : Nat} (he : e ∣ 32) (any : Bool) (p : Nat → Bool) :
    laneBits any (32 / e) 512 ((List.range (16384 / e)).map p) = (List.range 512).map (laneJoin any e p) := by
  have h := laneBits_map_range' any e p 512 0
  rwa [Nat.zero_mul, ← elem_count he, ← List.range_eq_range', ← List.range_eq_range'] at h

/-- A list of predicates packed one bit each. -/
theorem getLsbD_packBools {k : Nat} (hk : k < 16384) (l : List Bool) :
    (ofElements 1 (l.map Bool.toNat)).getLsbD k = l.getD k false := by
  have h := getLsbD_ofElements (w := 1) (i := 0) (j := k) Nat.one_pos (by omega) (l.map Bool.toNat)
  rw [Nat.one_mul, Nat.add_zero] at h
  have hget : (l.map Bool.toNat).getD k 0 = (l.getD k false).toNat := by
    rw [List.getD_eq_getElem?_getD, List.getD_eq_getElem?_getD, List.getElem?_map]
    cases l[k]? <;> rfl
  rw [h, hget]
  cases l.getD k false <;> rfl

/-- A compare's mask, with its predicates in the order of the elements. -/
theorem maskGives_cmpResult {i : Instr} {s : State} {u : VUnit} {dist : Nat} {md m : BitVec 3} {any : Bool} {e : Nat}
    {p : Nat → Bool} (he : e ∣ 32)
    (hexec : exec i s
      = .next (cmpResult s u dist md any e ((List.range (16384 / e)).map p) (enabledLanes s.leaf m))) :
    MaskGives i s dist u md (fun k => laneOn s m k && laneJoin any e p k) := by
  refine ⟨_, hexec.trans (congrArg Host.Outcome.next (addResult_enters ..)), fun k hk => ?_⟩
  have hreg : k < 16384 := by omega
  rw [laneBits_map_range he, maskBits, zipWith_map_range, BitVec.getLsbD_and, onesBelow_bit, decide_eq_true hreg,
    decide_eq_true hk, Bool.and_self, Bool.and_true, ← ofElements, getLsbD_packBools hreg, getD_map_range, if_pos hk,
    getLsbD_enabledLanes s m hk, Bool.and_comm]

theorem maskGives_intCmp {i : Instr} {s : State} {f : VC ITy} {p : Int → Int → Bool}
    (hexec : exec i s = .next (intCmp s f p)) :
    let rd := fun (v : VecSrc) j =>
      readElem (isSigned f.ty) f.ty.width (elem f.ty.width (readVec s.leaf v f.ty.width (itemWiden f.ty)) j)
    MaskGives i s 2 f.u f.md (fun k => laneOn s f.mask k
      && laneJoin f.any f.ty.width (fun j => p (rd f.a j) (rd f.b j)) k) :=
  maskGives_cmpResult (ityWidth_dvd f.ty)
    (hexec.trans (by simp only [intCmp, readElems_eq_map, List.map_map, zipWith_map_range, Function.comp]))

/-- R133: an element's predicate is false where an operand is NaN. -/
theorem maskGives_floatCmp {i : Instr} {s : State} {f : VC FTy} {p : Int → Bool}
    (hexec : exec i s = .next (floatCmp s f p)) :
    let nums := fun (v : VecSrc) (j : Nat) =>
      readFloat (ftyFmt f.ty) (leafCtx s.leaf) (elem f.ty.width (readVec s.leaf v f.ty.width .float) j)
    MaskGives i s 4 f.u f.md (fun k => laneOn s f.mask k
      && laneJoin f.any f.ty.width
          (fun j => !(nums f.a j).isNan && !(nums f.b j).isNan && p (cmpNum (nums f.a j) (nums f.b j))) k) :=
  maskGives_cmpResult (ftyWidth_dvd f.ty)
    (hexec.trans (by
      simp only [floatCmp, readNums, readElems_eq_map, List.map_map, zipWith_map_range, Function.comp]))

/-! ### The obligation on compares -/

/-- Settles O21: the model's list of predicates is one predicate for each element, which the lanes join. -/
theorem vectorComparisons : Obligations.VectorComparisons := by
  unfold Obligations.VectorComparisons
  refine ⟨fun s f g => ⟨?eq, ?lt, ?le⟩, fun s f => ⟨?feq, ?flt, ?fle⟩⟩
  case eq =>
    exact maskGives_cmpResult (styWidth_dvd f.ty)
      (congrArg Host.Outcome.next (by simp only [readElems_eq_map, zipWith_map_range]; rfl))
  case lt => exact maskGives_intCmp (i := .vcmplt g) rfl
  case le => exact maskGives_intCmp (i := .vcmple g) rfl
  case feq => exact maskGives_floatCmp (i := .vfcmpeq f) rfl
  case flt => exact maskGives_floatCmp (i := .vfcmplt f) rfl
  case fle => exact maskGives_floatCmp (i := .vfcmple f) rfl

/-! ### Extraction and insertion (R137, R138) -/

theorem readElems_getD {e j : Nat} (he : e ∣ 32) (hj : e * j < 16384) (l : Leaf) (v : VecSrc) (w : Widen) :
    (readElems l v e w).getD j 0 = elem e (readVec l v e w) j := by
  rw [readElems_eq_map, getD_map_range, if_pos ((mul_lt_iff_lt_div (by decide) (dvd_register he)).1 hj)]

section Insertion
variable {e idx : Nat} (he : e ∣ 32)
include he

/-- R137: the bits that VINS writes are those of element `idx`. -/
theorem getLsbD_elemMask {k : Nat} (hk : k < 16384) :
    (BitVec.ofNat 16384 ((2 ^ e - 1) * 2 ^ (idx * e))).getLsbD k = decide (k / e = idx) := by
  have hpos : 0 < e := Nat.pos_of_dvd_of_pos he (by decide)
  have hiff : k / e = idx ↔ idx * e ≤ k ∧ k - idx * e < e := by
    rw [Nat.div_eq_iff hpos]
    omega
  rw [BitVec.getLsbD_ofNat, decide_eq_true hk, Bool.true_and, Nat.testBit_mul_two_pow, Nat.testBit_two_pow_sub_one,
    decide_eq_decide.2 hiff, Bool.decide_and]

theorem elem_insert {x j : Nat} (hx : x < 2 ^ e) (hj : e * j < 16384) :
    elem e (BitVec.ofNat 16384 (x * 2 ^ (idx * e)) &&& BitVec.ofNat 16384 ((2 ^ e - 1) * 2 ^ (idx * e))) j
      = if j = idx then x else 0 := by
  apply elem_eq_of_bits (ite_lt hx (Nat.two_pow_pos e))
  intro i hi
  have hpos : 0 < e := Nat.zero_lt_of_lt hi
  have hk : e * j + i < 16384 := position_lt (dvd_register he) hj hi
  have hdiv : (e * j + i) / e = j := by rw [Nat.mul_add_div hpos, Nat.div_eq_of_lt hi, Nat.add_zero]
  rw [BitVec.getLsbD_and, getLsbD_elemMask he hk, hdiv, BitVec.getLsbD_ofNat, decide_eq_true hk, Bool.true_and,
    Nat.testBit_mul_two_pow]
  by_cases hjx : j = idx
  · simp [hjx, Nat.mul_comm idx e]
  · simp [hjx]

end Insertion

/-! ### Selection (R139) -/

theorem elem_and_not_laneMask (s : State) (m : BitVec 3) {e j : Nat} (he : e ∣ 32) (hj : e * j < 16384) (v : Vec) :
    elem e (v &&& ~~~laneMask (enabledLanes s.leaf m)) j = if laneOn s m (e * j / 32) then 0 else elem e v j := by
  apply elem_eq_of_bits (ite_lt (Nat.two_pow_pos e) (elem_lt e v j))
  intro i hi
  have hk : e * j + i < 16384 := position_lt (dvd_register he) hj hi
  rw [BitVec.getLsbD_and, BitVec.getLsbD_not, getLsbD_laneMask_enabled s m hk, position_lane he hi]
  cases laneOn s m (e * j / 32) <;> simp [hi, hk]

theorem elem_select (s : State) (m : BitVec 3) {k : Nat} (hk : k < 512) (a b : Vec) :
    elem 32 ((a &&& laneMask (enabledLanes s.leaf m)) ||| (b &&& ~~~laneMask (enabledLanes s.leaf m))) k
      = if laneOn s m k then elem 32 a k else elem 32 b k := by
  have hpos : 32 * k < 16384 := by omega
  have hlane : 32 * k / 32 = k := Nat.mul_div_cancel_left k (by decide)
  rw [elem_or, elem_and_laneMask s m (Nat.dvd_refl 32) hpos, elem_and_not_laneMask s m (Nat.dvd_refl 32) hpos, hlane]
  cases laneOn s m k <;> simp

/-! ### Permutes (R140) -/

/-- R140: elements move up by `n`, and the top elements of `b` enter below. -/
theorem elem_shiftIn {e n j : Nat} (he : e ∣ 32) (hj : e * j < 16384) (a b : Vec) :
    elem e (shiftIn e n a b) j = if j < n then elem e b (16384 / e - n + j) else elem e a (j - n) := by
  obtain ⟨c, hc⟩ := dvd_register he
  have hpos : 0 < e := Nat.pos_of_dvd_of_pos he (by decide)
  have hcount : 16384 / e = c := by rw [hc, Nat.mul_div_cancel_left c hpos]
  apply elem_eq_of_bits (ite_lt (elem_lt ..) (elem_lt ..))
  intro i hi
  have hk : e * j + i < 16384 := position_lt (dvd_register he) hj hi
  rw [shiftIn, BitVec.getLsbD_or, BitVec.getLsbD_shiftLeft, decide_eq_true hk, Bool.true_and]
  by_cases hjn : j < n
  · have hbelow : e * j + i < e * n := position_lt (Nat.dvd_mul_right e n) (Nat.mul_lt_mul_of_pos_left hjn hpos) hi
    have hsrc : 16384 - e * n + (e * j + i) = e * (16384 / e - n + j) + i := by
      rw [hcount, Nat.mul_add, Nat.mul_sub, ← hc, Nat.add_assoc]
    rw [if_neg (Nat.ne_zero_of_lt hjn), if_pos hjn, BitVec.getLsbD_ushiftRight, hsrc]
    simp [hbelow, hi]
  · have habove : e * n ≤ e * j := Nat.mul_le_mul_left e (Nat.le_of_not_lt hjn)
    have hsrc : e * j + i - e * n = e * (j - n) + i := by rw [Nat.mul_sub]; omega
    have hnone : (if n = 0 then (0 : Vec) else b >>> (16384 - e * n)).getLsbD (e * j + i) = false := by
      split
      · exact BitVec.getLsbD_zero
      · rw [BitVec.getLsbD_ushiftRight]
        exact BitVec.getLsbD_of_ge _ _ (by omega)
    rw [hnone, hsrc, if_neg hjn]
    simp [hi, Nat.not_lt.2 (Nat.le_trans habove (Nat.le_add_right _ i))]

/-- R140: a rotation is a shift whose entering elements are its own. -/
theorem elem_shiftIn_self {e n j : Nat} (he : e ∣ 32) (hn : n * e < 16384) (hj : e * j < 16384) (a : Vec) :
    elem e (shiftIn e n a a) j = elem e a ((j + (16384 / e - n)) % (16384 / e)) := by
  have hcount {i : Nat} : e * i < 16384 ↔ i < 16384 / e := mul_lt_iff_lt_div (by decide) (dvd_register he)
  have hnc : n < 16384 / e := hcount.1 (by rwa [Nat.mul_comm])
  have hjc : j < 16384 / e := hcount.1 hj
  rw [elem_shiftIn he hj]
  split
  next hjn => rw [Nat.mod_eq_of_lt (by omega), Nat.add_comm j]
  next hjn =>
    have hwrap : j + (16384 / e - n) = j - n + 16384 / e := by omega
    rw [hwrap, Nat.add_mod_right, Nat.mod_eq_of_lt (by omega)]

theorem mapIdx_map_range {α β : Type} (f : Nat → α → β) (g : Nat → α) (n : Nat) :
    ((List.range n).map g).mapIdx f = (List.range n).map fun j => f j (g j) := by
  apply List.ext_getElem <;> simp

/-! ### Signs (R144) -/

/-- Each of `n` values repeated `p` times: the value at place `j` is number `j / p`. -/
theorem flatMap_replicate_range {α : Type} {p : Nat} (hp : 0 < p) (f : Nat → α) (n : Nat) :
    ((List.range n).flatMap fun k => List.replicate p (f k)) = (List.range (n * p)).map fun j => f (j / p) := by
  induction n with
  | zero => simp
  | succ n ih =>
    have hlast : (List.range p).map (fun i => f ((n * p + i) / p)) = List.replicate p (f n) := by
      rw [List.map_congr_left (g := fun _ => f n), List.map_const', List.length_range]
      intro i hi
      rw [Nat.mul_comm n, Nat.mul_add_div hp, Nat.div_eq_of_lt (List.mem_range.1 hi), Nat.add_zero]
    rw [List.range_succ, List.flatMap_append, ih, Nat.succ_mul, List.range_add, List.map_append, List.map_map,
      List.flatMap_singleton, ← hlast]
    rfl

theorem elemEnabled_eq_map (m : Mask) {e : Nat} (he : e ∣ 32) :
    elemEnabled m e = (List.range (16384 / e)).map fun j => m.getLsbD (e * j / 32) := by
  have hpos : 0 < 32 / e := Nat.div_pos (Nat.le_of_dvd (by decide) he) (Nat.pos_of_dvd_of_pos he (by decide))
  simp only [elemEnabled, maskBits, List.flatMap_map, flatMap_replicate_range hpos, elem_count he, elem_lane he]

/-- The top bit of an element is its sign. -/
theorem testBit_sign {e x : Nat} (he : 0 < e) (hx : x < 2 ^ e) :
    (x / 2 ^ (e - 1)).testBit 0 = decide (2 ^ (e - 1) ≤ x) := by
  have htop : 2 ^ e = 2 * 2 ^ (e - 1) := by rw [Nat.mul_comm, Nat.two_pow_pred_mul_two he]
  have hlt : x / 2 ^ (e - 1) < 2 := Nat.div_lt_of_lt_mul (by omega)
  have hone : x / 2 ^ (e - 1) % 2 = 1 ↔ 2 ^ (e - 1) ≤ x := by
    rw [Nat.mod_eq_of_lt hlt, ← Nat.one_le_div_iff (Nat.two_pow_pos _)]
    omega
  rw [Nat.testBit_zero, decide_eq_decide.2 hone]

/-- R144: bit `j` of the packed string is the sign of element `j`, 0 where its lane is disabled, and 0 above the string. -/
theorem getLsbD_signs (s : State) (m : BitVec 3) {e j : Nat} (he : e ∣ 32) (hj : j < 16384) (v : Vec) :
    (ofElements 1 ((((List.range (16384 / e)).map (elem e v)).map fun x => x / 2 ^ (e - 1)).zipWith
        (fun b en => if en then b else 0) (elemEnabled (enabledLanes s.leaf m) e))).getLsbD j
      = (decide (e * j < 16384) && laneOn s m (e * j / 32) && decide (2 ^ (e - 1) ≤ elem e v j)) := by
  have hbit := getLsbD_ofElements (w := 1) (i := 0) (j := j) Nat.one_pos (by omega)
  simp only [Nat.one_mul, Nat.add_zero] at hbit
  rw [hbit, elemEnabled_eq_map _ he, List.map_map, zipWith_map_range, getD_map_range]
  by_cases h : e * j < 16384
  · rw [if_pos ((mul_lt_iff_lt_div (by decide) (dvd_register he)).1 h), getLsbD_enabledLanes s m (by omega),
      decide_eq_true h, Bool.true_and]
    cases laneOn s m (e * j / 32)
    · simp
    · exact testBit_sign (Nat.pos_of_dvd_of_pos he (by decide)) (elem_lt e v j)
  · rw [if_neg (mt (mul_lt_iff_lt_div (by decide) (dvd_register he)).2 h), decide_eq_false h]
    simp

/-! ### The obligation on moves and permutes -/

/-- Settles O22: each result is a register or a list of elements of the model, read element by element. -/
theorem vectorMovesAndPermutes : Obligations.VectorMovesAndPermutes := by
  unfold Obligations.VectorMovesAndPermutes
  intro s m d i x c p h r g _ hext _ hrot l
  have hidx : x.idx.toNat * x.ty.width < 16384 := of_decide_eq_true (Bool.and_eq_true_iff.1 hext).2
  have hr : r.n.toNat * r.ty.width < 16384 := of_decide_eq_true (Bool.and_eq_true_iff.1 hrot).2
  refine ⟨?vmov, ?vdup, ?vins, ?vext, ?vsel, ?vperm, ?vshl, ?vrot, ?vsign⟩
  case vmov => exact vecGives_of_elem (Nat.dvd_refl 32) rfl fun j _ => rfl
  case vdup =>
    refine vecGives_of_intVecResult (g := fun _ => (readS l d.sa).toNat) (styWidth_dvd d.ty) ?_ fun j _ => rfl
    rw [List.map_const', List.length_range]
    rfl
  case vins =>
    exact ⟨_, _, rfl, fun k hk => getLsbD_elemMask (styWidth_dvd i.ty) hk,
      fun j hj => elem_insert (styWidth_dvd i.ty) (Nat.mod_lt _ (Nat.two_pow_pos _)) hj⟩
  case vext =>
    rw [← readElems_getD (ityWidth_dvd x.ty) (by rwa [Nat.mul_comm])]
    exact congrArg Host.Outcome.next (addScalar_enters ..)
  case vsel =>
    refine ⟨_, rfl, fun k hk => ?_⟩
    rw [BitVec.and_allOnes]
    exact elem_select s c.mask hk _ _
  case vperm =>
    exact vecGives_of_intVecResult (styWidth_dvd p.ty)
      (congrArg Host.Outcome.next (by simp only [readElems_eq_map, mapIdx_map_range]; rfl)) fun j _ => rfl
  case vshl =>
    exact vecGives_of_elem (styWidth_dvd h.ty) rfl fun j hj => elem_shiftIn (styWidth_dvd h.ty) hj _ _
  case vrot =>
    exact vecGives_of_elem (styWidth_dvd r.ty) rfl fun j hj => elem_shiftIn_self (styWidth_dvd r.ty) hr hj _
  case vsign =>
    refine ⟨_, rfl, fun j hj => ?_⟩
    rw [BitVec.and_allOnes, readElems_eq_map]
    exact getLsbD_signs s g.mask (styWidth_dvd g.ty) hj _

end Sys2Proof.Machine

/-! PROOF. KWAIT, KPOLL and KINIT (R229, R233 to R235, R240): reading a kettle after a write, when a phase is past, the fields
of KPOLL's first word, the parent link as its register word gives it, and KINIT's conditions. -/

namespace Sys2Proof.Machine

/-! ### Reading a kettle after a write -/

@[simp] theorem getKettle_setKettle_same (s : State) (c k : Nat) (x : Kettle) : getKettle (setKettle s c k x) c k = x := by
  simp [getKettle]

theorem kettlesKept_setKettle (s : State) (c k : Nat) (x : Kettle) : KettlesKept s (setKettle s c k x) c k := by
  intro d j hne
  by_cases hd : d = c
  · subst hd
    have hj : j ≠ k := fun h => hne (congrArg _ h)
    simp [getKettle, mapGet_mapPut_ne _ _ _ hj]
  · simp [getKettle, mapGet_mapPut_ne _ _ _ hd]

/-! ### KWAIT (R229, R233) -/

theorem phasePast_iff (phase p : BitVec 32) :
    phasePast phase p = true ↔ 1 ≤ (phase - p).toNat ∧ (phase - p).toNat < 2 ^ 31 := by
  rw [phasePast, Bool.and_eq_true, decide_eq_true_iff, decide_eq_true_iff]

/-- An acquire changes the leaf's place in program order and what it has acquired, and nothing else of the leaf. -/
theorem acquire_frame (l : Leaf) (c : Clock) : ∃ po acqs, acquire l c = { l with po := po, acqs := acqs } := by
  unfold acquire
  split
  · exact ⟨l.po, l.acqs, rfl⟩
  · exact ⟨_, _, rfl⟩

/-- Two updates that agree on the acting leaf give one state. -/
theorem upd_congr {s : State} {f h : Leaf → Leaf} (heq : f s.leaf = h s.leaf) : s.upd f = s.upd h :=
  congrArg (setLeaf s s.cur) heq

section Wait

variable {s : State} {f : KKet}

theorem kwaitEffect_past (h : phasePast (leafKettle s f.ket).phase ((readS s.leaf f.sa).setWidth 32) = true)
    (hplain : f.sync = false) : kwaitEffect f s = s := by
  simp [kwaitEffect, h, hplain]

theorem kwaitEffect_past_acquires (h : phasePast (leafKettle s f.ket).phase ((readS s.leaf f.sa).setWidth 32) = true)
    (hacq : f.sync = true) : ∃ po acqs, kwaitEffect f s = s.upd fun l => { l with po := po, acqs := acqs } := by
  obtain ⟨po, acqs, hl⟩ := acquire_frame s.leaf
    (acquired s.cur (mapGet (leafKettle s f.ket).flips ((readS s.leaf f.sa).setWidth 32 : BitVec 32).toNat []))
  refine ⟨po, acqs, ?_⟩
  simp only [kwaitEffect, h, hacq, if_true]
  exact upd_congr hl

theorem kwaitEffect_parks (h : phasePast (leafKettle s f.ket).phase ((readS s.leaf f.sa).setWidth 32) = false) :
    kwaitEffect f s = s.upd fun l => { l with wait := .phase f.ket.toNat ((readS s.leaf f.sa).setWidth 32) f.sync } := by
  simp [kwaitEffect, h]

end Wait

/-- KWAIT on an IDLE kettle (R233, R240); it lands the leaf's results first, which leaves the kettles alone. -/
theorem execKwait_idle {s : State} {f : KKet} (hphase : s.phase = .alone) (harr : allArrived s.leaf = true)
    (hd : (Instr.kwait f).ctxIllegal (decodeCtx (s.upd landAll)) = false)
    (hidle : (getKettle s (clusterOf s.cur) f.ket.toNat).state = .idle) :
    execKwait f s = .next (takeTrap (s.upd landAll) (slotTrap .kettle .k)) := by
  have hcause : kwaitCause f (s.upd landAll) = some (slotTrap .kettle .k) := if_pos (beq_iff_eq.2 hidle)
  simp [execKwait, runBlocking, hphase, harr, ownCause_legal _ _ _ hd, hcause]

/-! ### KPOLL (R234) -/

theorem popBits_eq_popcountNat (n v : Nat) : kpollWord.popBits n v = popcountNat n v := by
  induction n generalizing v with
  | zero => rfl
  | succ n ih => rw [kpollWord.popBits, popcountNat, ih]

/-- The leaves that have arrived at a gathering, counted (R234). -/
theorem popBits_arrived (a : BitVec 32) :
    kpollWord.popBits 32 a.toNat = ((List.range 32).filter fun i => a.getLsbD i).length := by
  rw [popBits_eq_popcountNat, popcountNat_eq_length_filter]
  simp only [BitVec.testBit_toNat]

/-- What KPOLL reports as arrivals, ARR or the count of ARRIVED (R234). -/
def pollCount (k : Nat) (x : Kettle) : Nat :=
  if k < 64 then ((List.range 32).filter fun i => x.arrived.getLsbD i).length else x.arr.toNat

theorem pollCount_lt (k : Nat) (x : Kettle) : pollCount k x < 2 ^ 14 := by
  unfold pollCount
  split
  · have hle := List.length_filter_le (fun i => x.arrived.getLsbD i) (List.range 32)
    rw [List.length_range] at hle
    omega
  · exact x.arr.isLt

theorem kstateCode_lt (t : KState) : kstateCode t < 4 := by cases t <;> decide

/-- Numbers packed side by side, as the first word of R234 holds them, are read back from their places. -/
theorem packed_fields {n phase state extent parent child carr arr : Nat} (hphase : phase < 2 ^ 32) (hstate : state < 4)
    (hextent : extent < 8) (hparent : parent < 2) (hchild : child < 64) (hcarr : carr < 64) (harr : arr < 2 ^ 14)
    (hn : n = phase * 2 ^ 32 + state * 2 ^ 30 + extent * 2 ^ 27 + parent * 2 ^ 26 + child * 2 ^ 20 + carr * 2 ^ 14 + arr) :
    n < 2 ^ 64 ∧ n / 2 ^ 32 % 2 ^ 32 = phase ∧ n / 2 ^ 30 % 2 ^ 2 = state ∧ n / 2 ^ 27 % 2 ^ 3 = extent
      ∧ n / 2 ^ 26 % 2 = parent ∧ n / 2 ^ 20 % 2 ^ 6 = child ∧ n / 2 ^ 14 % 2 ^ 6 = carr ∧ n / 2 ^ 0 % 2 ^ 14 = arr := by
  refine ⟨?_, ?_, ?_, ?_, ?_, ?_, ?_, ?_⟩ <;> omega

theorem toNat_extractLsb'_ofNat {n : Nat} (hn : n < 2 ^ 64) (start len : Nat) :
    ((BitVec.ofNat 64 n).extractLsb' start len).toNat = n / 2 ^ start % 2 ^ len := by
  rw [BitVec.extractLsb'_toNat, BitVec.toNat_ofNat, Nat.mod_eq_of_lt hn, Nat.shiftRight_eq_div_pow]

/-- The first word of KPOLL, field by field (R234). -/
theorem kpollWord_status_fields (k : Nat) (x : Kettle) (hcarr : x.carr.length < 64) :
    let w := kpollWord k 0 x
    w.extractLsb' 32 32 = x.phase ∧ w.extractLsb' 30 2 = BitVec.ofNat 2 (kstateCode x.state)
      ∧ w.extractLsb' 27 3 = x.extent ∧ w.getLsbD 26 = x.hasParent ∧ w.extractLsb' 20 6 = x.child
      ∧ (w.extractLsb' 14 6).toNat = x.carr.length ∧ (w.extractLsb' 0 14).toNat = pollCount k x := by
  obtain ⟨hlt, hphase, hstate, hextent, hparent, hchild, hcount, harr⟩ :=
    packed_fields x.phase.isLt (kstateCode_lt x.state) x.extent.isLt (Bool.toNat_lt x.hasParent) x.child.isLt hcarr
      (pollCount_lt k x) rfl
  have hword : kpollWord k 0 x = BitVec.ofNat 64 (x.phase.toNat * 2 ^ 32 + kstateCode x.state * 2 ^ 30 + x.extent.toNat * 2 ^ 27
      + x.hasParent.toNat * 2 ^ 26 + x.child.toNat * 2 ^ 20 + x.carr.length * 2 ^ 14 + pollCount k x) := by
    rw [kpollWord, if_pos rfl, popBits_arrived]
    cases x.hasParent <;> rfl
  have hfield := toNat_extractLsb'_ofNat hlt
  intro w
  rw [show w = _ from hword]
  refine ⟨?phase, ?state, ?extent, ?parent, ?child, (hfield 14 6).trans hcount, (hfield 0 14).trans harr⟩
  case phase => exact BitVec.eq_of_toNat_eq ((hfield 32 32).trans hphase)
  case state =>
    refine BitVec.eq_of_toNat_eq ((hfield 30 2).trans ?_)
    rw [hstate, BitVec.toNat_ofNat, Nat.mod_eq_of_lt (kstateCode_lt x.state)]
  case extent => exact BitVec.eq_of_toNat_eq ((hfield 27 3).trans hextent)
  case parent =>
    rw [← BitVec.testBit_toNat, BitVec.toNat_ofNat, Nat.mod_eq_of_lt hlt, Nat.testBit_eq_decide_div_mod_eq, hparent]
    cases x.hasParent <;> rfl
  case child => exact BitVec.eq_of_toNat_eq ((hfield 20 6).trans hchild)

theorem kpollWord_members (k : Nat) (x : Kettle) :
    kpollWord k 1 x = if k < 64 then x.member ++ x.arrived else x.count.setWidth 64 := rfl

theorem kpollWord_link (k : Nat) (x : Kettle) : kpollWord k 2 x = x.parent ++ (if k < 64 then x.next else 0) := rfl

/-! ### The parent link (R235) -/

/-- A field of the parent link that R235 names whole reads as in the register. -/
theorem extractLsb'_parentWord (w : Word) {start len : Nat} (hle : start + len ≤ 32)
    (hmask : (0xFF1F00FF#32).extractLsb' start len = BitVec.allOnes len) :
    (parentWord w).extractLsb' start len = w.extractLsb' start len := by
  rw [parentWord, BitVec.extractLsb'_and, hmask, BitVec.and_allOnes, BitVec.extractLsb'_setWidth_of_le hle]

theorem parentWord_valid (w : Word) : (parentWord w).getLsbD 31 = w.getLsbD 31 := by
  rw [parentWord, BitVec.getLsbD_and, BitVec.getLsbD_setWidth]
  simp

theorem parentNo_parentWord (w : Word) :
    parentNo (parentWord w)
      = kettleNo (w.extractLsb' 24 7).toNat (w.extractLsb' 16 5).toNat (w.extractLsb' 0 8).toNat := by
  rw [parentNo, extractLsb'_parentWord w (by decide) (by decide), extractLsb'_parentWord w (by decide) (by decide),
    extractLsb'_parentWord w (by decide) (by decide)]

section Number

variable {p c k : Nat} (hc : c < 256) (hk : k < 256)
include hc hk

theorem kettlePkg_kettleNo : kettlePkg (kettleNo p c k) = p := by
  unfold kettlePkg kettleNo
  omega

theorem kettleCluster_kettleNo : kettleCluster (kettleNo p c k) = c := by
  unfold kettleCluster kettleNo
  omega

end Number

/-- The parent named by a register word lies outside the reach of a scope code that R235 allows. -/
theorem outsideExtent_parentWord (home domain c : Nat) (ext : BitVec 3) (w : Word) (hext : 2 ≤ ext.toNat) :
    let pkg := (w.extractLsb' 24 7).toNat
    let pc := (w.extractLsb' 16 5).toNat
    (ext.toNat < 5 ∧ pkg ≠ home) ∨ (ext.toNat = 2 ∧ pc ≠ c) ∨ (ext.toNat = 3 ∧ pc / 12 ≠ c / 12)
        ∨ (ext.toNat = 5 ∧ pkg ≠ home ∧ domain ≤ pkg) →
      outsideExtent home domain c ext (parentWord w) = true := by
  intro pkg pc h
  have hpc : pc < 256 := Nat.lt_trans (w.extractLsb' 16 5).isLt (by decide)
  have hk : (w.extractLsb' 0 8).toNat < 256 := (w.extractLsb' 0 8).isLt
  have hnum : parentNo (parentWord w) = kettleNo pkg pc (w.extractLsb' 0 8).toNat := parentNo_parentWord w
  simp only [outsideExtent, hnum, kettlePkg_kettleNo hpc hk, kettleCluster_kettleNo hpc hk]
  obtain ⟨hlt, hp⟩ | ⟨he, hc⟩ | ⟨he, hh⟩ | ⟨he, hp, hd⟩ := h
  · obtain he | he | he : ext.toNat = 2 ∨ ext.toNat = 3 ∨ ext.toNat = 4 := by omega
    all_goals simp [he, hp]
  · simp [he, hc]
  · simp [he, hh]
  · simp [he, hp, hd]

/-- A register word whose link R235 refuses: its parent is no cluster of the device, the kettle itself, or out of reach. -/
theorem parentWord_refused (home domain c k : Nat) (ext : BitVec 3) (link : Word) (hext : 2 ≤ ext.toNat) :
    let pkg := (link.extractLsb' 24 7).toNat
    let pc := (link.extractLsb' 16 5).toNat
    link.getLsbD 31 = true ∧ (23 < pc ∨ (pkg = home ∧ pc = c ∧ (link.extractLsb' 0 8).toNat = k)
        ∨ (ext.toNat < 5 ∧ pkg ≠ home) ∨ (ext.toNat = 2 ∧ pc ≠ c) ∨ (ext.toNat = 3 ∧ pc / 12 ≠ c / 12)
        ∨ (ext.toNat = 5 ∧ pkg ≠ home ∧ domain ≤ pkg)) →
      let p := parentWord link
      p.getLsbD 31 = true ∧ (23 < kettleCluster (parentNo p) ∨ parentNo p = kettleNo home c k
        ∨ outsideExtent home domain c ext p = true) := by
  intro pkg pc h p
  obtain ⟨hvalid, hfar | ⟨hpkg, hpc, hket⟩ | hout⟩ := h
  all_goals refine ⟨(parentWord_valid link).trans hvalid, ?_⟩
  · left
    rwa [parentNo_parentWord, kettleCluster_kettleNo (Nat.lt_trans (link.extractLsb' 16 5).isLt (by decide))
      (link.extractLsb' 0 8).isLt]
  · right; left
    rw [parentNo_parentWord, ← hpkg, ← hpc, ← hket]
  · right; right
    exact outsideExtent_parentWord home domain c ext link hext hout

/-! ### KINIT (R235) -/

/-- KINIT's conditions on what the kettle holds, on the first register word, and on the link (R235). -/
theorem kinitCause_of_condition {s : State} {f : KInit}
    (h : let x := leafKettle s f.ket
      let cfg := readS s.leaf f.sa
      let ext : BitVec 3 := cfg.extractLsb' 24 3
      let p := parentWord (readS s.leaf f.sb)
      let home := s.node.package.toNat
      (x.state = .closed ∨ x.arr ≠ 0 ∨ x.arrived ≠ 0 ∨ x.carr ≠ [])
        ∨ (ext.toNat < 2 ∨ 5 < ext.toNat ∨ (f.ket.toNat < 64 ∧ cfg.extractLsb' 0 14 ≠ 0#14))
        ∨ (p.getLsbD 31 = true ∧ (23 < kettleCluster (parentNo p)
            ∨ parentNo p = kettleNo home (clusterOf s.cur) f.ket.toNat
            ∨ outsideExtent home s.node.domain.toNat (clusterOf s.cur) ext p = true))) :
    kinitCause f s = some (slotTrap .kettle .k) := by
  refine if_pos ?_
  simp only [Bool.or_eq_true, Bool.and_eq_true, Bool.not_eq_true', Bool.and_eq_false_iff, decide_eq_true_eq,
    decide_eq_false_iff_not, beq_iff_eq, bne_iff_ne, List.isEmpty_eq_false_iff, Nat.not_le, or_assoc] at h ⊢
  exact h

/-- A KINIT that issues has its effect: the cause that `Issues` excludes is KINIT's own. -/
theorem execKinit_issues {s : State} {f : KInit} (h : Issues (.kinit f) s) : execKinit f s = .next (kinitEffect f s) := by
  obtain h | ⟨hd, hc, -, -⟩ := h
  · exact runOp_effect _ _ _ _ _ h
  · exact runOp_passes _ _ _ _ _ hd hc rfl

/-- A count of 0 takes a kettle from 64 on back to IDLE (R235). -/
theorem kinitEffect_idles {s : State} {f : KInit} (hk : 64 ≤ f.ket.toNat)
    (hcount : (readS s.leaf f.sa).extractLsb' 0 14 = 0#14) :
    kinitEffect f s = setKettle s (clusterOf s.cur) f.ket.toNat
      { leafKettle s f.ket with state := .idle, count := 0, child := 0, parent := 0, extent := 2 } := by
  simp [kinitEffect, hk, hcount]

/-- Every other KINIT takes the fields of its two words and opens the kettle (R235). -/
theorem kinitEffect_opens {s : State} {f : KInit}
    (h : f.ket.toNat < 64 ∨ (readS s.leaf f.sa).extractLsb' 0 14 ≠ 0#14) :
    kinitEffect f s = setKettle s (clusterOf s.cur) f.ket.toNat
      { leafKettle s f.ket with
        count := (readS s.leaf f.sa).extractLsb' 0 14, child := (readS s.leaf f.sa).extractLsb' 16 6,
        extent := (readS s.leaf f.sa).extractLsb' 24 3, parent := parentWord (readS s.leaf f.sb), state := .open_ } := by
  refine congrArg (setKettle s (clusterOf s.cur) f.ket.toNat) (if_neg ?_)
  rw [Bool.and_eq_true, decide_eq_true_iff, beq_iff_eq]
  exact fun ⟨hk, hcount⟩ => h.elim (Nat.not_lt.2 hk) (fun hne => hne hcount)

/-- KINIT changes no kettle but the one it names, no leaf and no memory. -/
theorem kinitEffect_frame (s : State) (f : KInit) :
    KettlesKept s (kinitEffect f s) (clusterOf s.cur) f.ket.toNat ∧ (kinitEffect f s).leaves = s.leaves
      ∧ (kinitEffect f s).mem = s.mem :=
  ⟨kettlesKept_setKettle _ _ _ _, rfl, rfl⟩

/-! ### The obligation -/

/-- Settles O13: each instruction's effect is the update the statement names, KPOLL's first word by its fields, and each
condition of R235 is one of the checks of KINIT. -/
theorem kettleWaitPollInit : Obligations.KettleWaitPollInit := by
  unfold Obligations.KettleWaitPollInit
  refine ⟨fun s f hphase => ?wait, fun s f hissues => ?poll, fun s f hissues => ?init, fun s w f hphase _ => ?traps⟩
  case wait =>
    intro x p past
    have hexec : exec (.kwait f) s = .next (kwaitEffect f s) := runBlocking_effect _ _ _ _ _ hphase
    have hpast : phasePast x.phase p = true ↔ past := phasePast_iff _ _
    rw [hexec]
    refine ⟨fun h hplain => ?_, fun h hacq => ?_, fun h => ?_⟩
    · rw [kwaitEffect_past (hpast.2 h) hplain]
    · obtain ⟨po, acqs, heff⟩ := kwaitEffect_past_acquires (hpast.2 h) hacq
      exact ⟨po, acqs, congrArg _ heff⟩
    · exact congrArg _ (kwaitEffect_parks (Bool.eq_false_iff.2 (mt hpast.1 h)))
  case poll =>
    intro k x hcarr
    have hlegal : Legal (.kpoll f) s := hissues.imp_right And.left
    refine ⟨kpollWord k f.mode.toNat x, ?_, fun h0 => ?_, fun h1 => ?_, fun h2 => ?_⟩
    · exact (runPlain_legal _ _ _ hlegal).trans (congrArg _ (addScalar_enters _ _ _ _ _))
    · obtain ⟨hphase, hstate, hextent, hparent, hchild, hcount, harr⟩ :=
        kpollWord_status_fields k x (Nat.lt_of_le_of_lt hcarr x.child.isLt)
      rw [h0]
      refine ⟨hphase, hstate.trans ?_, hextent, hparent, hchild, hcount, harr⟩
      cases x.state <;> rfl
    · rw [h1]
      exact kpollWord_members k x
    · rw [h2]
      exact kpollWord_link k x
  case init =>
    intro c k x cfg y
    obtain ⟨hothers, hleaves, hmem⟩ := kinitEffect_frame s f
    refine ⟨kinitEffect f s, execKinit_issues hissues, hothers, hleaves, hmem, fun h => ?_, fun hk hcount => ?_⟩
    · rw [kinitEffect_opens h, getKettle_setKettle_same]
      rfl
    · rw [kinitEffect_idles hk hcount, getKettle_setKettle_same]
      rfl
  case traps =>
    refine ⟨fun harr hd hidle => execKwait_idle hphase harr hd hidle, fun hd => ?_⟩
    intro x cfg ext link home pkg pc h
    refine runOp_traps _ _ _ _ _ _ hphase hd (kinitCause_of_condition ?_)
    by_cases hext : ext < 2
    · exact .inr (.inl (.inl hext))
    · have hlink := parentWord_refused home s.node.domain.toNat (clusterOf s.cur) f.ket.toNat (cfg.extractLsb' 24 3) link
        (Nat.not_lt.1 hext)
      refine Or.imp_right (Or.imp_right hlink) ?_
      simp only [or_assoc]
      exact h

end Sys2Proof.Machine
